-- ==== Sys2Proof/Word.lean ====
section
/-! DEFINITION. Word types of the BSAT bus transaction controller (spec/00_scope.md R7, R10–R12). -/

namespace Sys2Proof

/-- One byte of a frame (R11). -/
abbrev Byte := BitVec 8

/-- The value of one SPort or BusCtrl register (R7). -/
abbrev Word16 := BitVec 16

/-- The value of one port (R7, R45). -/
abbrev Word32 := BitVec 32

/-- The 3-bit id of a slave (R7). -/
abbrev SlaveId := BitVec 3

/-- A frame: a byte sequence, byte 0 first on the wire (R11). -/
abbrev Frame := List Byte

end Sys2Proof
end

