-- ==== Sys2Proof/Config.lean ====
section
/-! DEFINITION. The parameters the source leaves open (spec/00_scope.md R8), the constraints on them, the
reference configuration (R9), and the free value that stands for an answer of the Transport (R20). -/

namespace Sys2Proof

/-- The four address spaces (20_memory.md R42). -/
inductive Channel where
  | port0
  | port1
  | sport
  | busCtrl
deriving DecidableEq, Repr

/-- The three flash ranges (R7, 10_state.md R30). -/
inductive FlashRange where
  | standard
  | auxiliary
  | manufacturingData
deriving DecidableEq, Repr

/-- `PRESENCE(st)` of R8, a function from 16 to 8 bits, held as plain data: the low byte of the status word
(the reference), or any function at all as its table of 65536 values. -/
inductive PresenceMap where
  | lowByte
  | table (bytes : List Byte)
deriving DecidableEq, Repr

/-- The parameters of R8 that each flash range has its own copy of. -/
structure RangeParams where
  /-- `A_FLASH_CTRL(r)` -/
  ctrl : Byte
  /-- `A_FLASH_STATUS(r)` -/
  status : Byte
  /-- `A_DOWNLOAD(r)` -/
  download : Byte
  /-- `V_UNLOCK_ERASE(r)[0..6]` -/
  unlockErase : Vector Word16 7
deriving DecidableEq, Repr

/-- The configuration record `Cfg` of R8, one field per parameter of its table. -/
structure Cfg where
  /-- `N` -/
  frameLen : Nat
  /-- `CH_CODE(Port0)` -/
  codePort0 : BitVec 2
  /-- `CH_CODE(Port1)` -/
  codePort1 : BitVec 2
  /-- `CH_CODE(SPort)` -/
  codeSPort : BitVec 2
  /-- `CH_CODE(BusCtrl)` -/
  codeBusCtrl : BitVec 2
  /-- `PAD` -/
  pad : Byte
  /-- `ST_IDX` -/
  stIdx : Nat
  /-- `VALID_MASK` -/
  validMask : Byte
  /-- `HI_IDX` -/
  hiIdx : Nat
  /-- `LO_IDX` -/
  loIdx : Nat
  /-- `READ_BUDGET` -/
  readBudget : Nat
  /-- `BC_SLAVE` -/
  bcSlave : SlaveId
  /-- `PORT_ADDR(0)` -/
  portAddr0 : Byte
  /-- `PORT_ADDR(1)` -/
  portAddr1 : Byte
  /-- `LAG` -/
  lag : Nat
  /-- `PTX_IDX` -/
  ptxIdx : Nat
  /-- `PRX_IDX` -/
  prxIdx : Nat
  /-- `ERR_HI_IDX` -/
  errHiIdx : Nat
  /-- `ERR_LO_IDX` -/
  errLoIdx : Nat
  /-- `A_SCAN_CTRL` -/
  aScanCtrl : Byte
  /-- `A_SCAN_STATUS` -/
  aScanStatus : Byte
  /-- `A_FIFO_STATUS` -/
  aFifoStatus : Byte
  /-- `V_DISABLE_CLEAR` -/
  vDisableClear : Word16
  /-- `V_MAXDELAY_START` -/
  vMaxDelayStart : Word16
  /-- `SCAN_DONE_MASK` -/
  scanDoneMask : Word16
  /-- `PRESENCE` -/
  presence : PresenceMap
  /-- `SCAN_BUDGET` -/
  scanBudget : Nat
  /-- `A_ENABLE_STATUS` -/
  aEnableStatus : Byte
  /-- `V_ENABLE_SEQ[0..3]` -/
  vEnableSeq : Vector Word16 4
  /-- `A_BOARD_TYPE` -/
  aBoardType : Byte
  /-- `A_BOARD_NUMBER` -/
  aBoardNumber : Byte
  /-- `A_FEATURE_ID` -/
  aFeatureId : Byte
  /-- `A_BUGFIX_ID` -/
  aBugfixId : Byte
  /-- `A_PORT_COUNT` -/
  aPortCount : Byte
  /-- the parameters of range Standard -/
  standard : RangeParams
  /-- the parameters of range Auxiliary -/
  auxiliary : RangeParams
  /-- the parameters of range ManufacturingData -/
  manufacturing : RangeParams
  /-- `V_ERASE_REQ` -/
  vEraseReq : Word16
  /-- `V_DOWNLOAD_END` -/
  vDownloadEnd : Word16
  /-- `V_REBOOT_REQ` -/
  vRebootReq : Word16
  /-- `ERASE_DONE_MASK` -/
  eraseDoneMask : Word16
  /-- `DOWNLOAD_DONE_MASK` -/
  downloadDoneMask : Word16
  /-- `V_UNLOCK_REBOOT[0..6]` -/
  vUnlockReboot : Vector Word16 7
  /-- `ERASE_BUDGET` -/
  eraseBudget : Nat
  /-- `FINALIZE_BUDGET` -/
  finalizeBudget : Nat
  /-- `FLOW_CONTROL` -/
  flowControl : Bool
  /-- `FIFO_HALF_FULL_MASK` -/
  fifoHalfFullMask : Word16
  /-- `FIFO_BUDGET` -/
  fifoBudget : Nat
  /-- `BURST_WORDS` -/
  burstWords : Nat
  /-- `IMAGE_PAD` -/
  imagePad : Byte
  /-- `MFD_NUMERIC` -/
  mfdNumeric : List Nat
  /-- `MFD_REBOOT` -/
  mfdReboot : Bool
  /-- `A_MFD_READ` -/
  aMfdRead : Byte
  /-- `MFD_MAX_WORDS` -/
  mfdMaxWords : Nat
deriving DecidableEq, Repr

/-- A presence table has a value for each of the 65536 status words. -/
def PresenceMap.sized : PresenceMap → Bool
  | .lowByte => true
  | .table bytes => bytes.length == 65536

/-- The bytes with exactly one bit set (the constraint on `VALID_MASK`). -/
def oneHotBytes : List Byte := [0x01, 0x02, 0x04, 0x08, 0x10, 0x20, 0x40, 0x80]

/-- The constraints of R8 on the layout of frames (N, CH_CODE, the byte indices, LAG, the valid mask). -/
abbrev Cfg.LayoutOk (c : Cfg) : Prop :=
  8 ≤ c.frameLen ∧
  [c.codePort0, c.codePort1, c.codeSPort, c.codeBusCtrl].Nodup ∧
  c.stIdx < c.frameLen ∧ c.validMask ∈ oneHotBytes ∧
  c.hiIdx < c.frameLen ∧ c.loIdx < c.frameLen ∧ c.hiIdx ≠ c.loIdx ∧
  (c.lag = 1 ∨ c.lag = 2) ∧
  2 ≤ c.ptxIdx ∧ c.ptxIdx + 4 ≤ c.frameLen ∧ c.prxIdx + 4 ≤ c.frameLen ∧
  c.errHiIdx < c.frameLen ∧ c.errLoIdx < c.frameLen ∧ c.errHiIdx ≠ c.errLoIdx

/-- The constraints of R8 on budgets, masks, addresses and sequences. -/
abbrev Cfg.ValuesOk (c : Cfg) : Prop :=
  1 ≤ c.readBudget ∧ c.scanDoneMask ≠ 0 ∧ c.presence.sized = true ∧ 1 ≤ c.scanBudget ∧
  c.aBoardType.toNat ≤ 248 ∧ c.aBoardNumber.toNat ≤ 248 ∧
  c.eraseDoneMask ≠ 0 ∧ c.downloadDoneMask ≠ 0 ∧
  c.vUnlockReboot ≠ c.standard.unlockErase ∧ c.vUnlockReboot ≠ c.auxiliary.unlockErase ∧
  c.vUnlockReboot ≠ c.manufacturing.unlockErase ∧
  1 ≤ c.eraseBudget ∧ 1 ≤ c.finalizeBudget ∧ c.fifoHalfFullMask ≠ 0 ∧ 1 ≤ c.fifoBudget ∧
  1 ≤ c.burstWords ∧ (∀ i ∈ c.mfdNumeric, i < 14) ∧
  1 ≤ c.mfdMaxWords ∧ c.aMfdRead.toNat + c.mfdMaxWords ≤ 256

/-- The constraint column of R8's table, whole. -/
abbrev Cfg.Admissible (c : Cfg) : Prop := c.LayoutOk ∧ c.ValuesOk

/-- A configuration with the proof that it meets the constraints of R8: "a claim proved of the hardware must
hold for every `Cfg` meeting the constraints" (R9) is then a claim for every value of this type. -/
structure Params where
  cfg : Cfg
  admissible : cfg.Admissible
deriving DecidableEq, Repr

/-- The reference configuration (R9): the spec's own choice, not the hardware's. -/
def Cfg.reference : Cfg where
  frameLen := 8
  codePort0 := 0
  codePort1 := 1
  codeSPort := 2
  codeBusCtrl := 3
  pad := 0x00
  stIdx := 0
  validMask := 0x01
  hiIdx := 2
  loIdx := 3
  readBudget := 256
  bcSlave := 0
  portAddr0 := 0x00
  portAddr1 := 0x00
  lag := 1
  ptxIdx := 2
  prxIdx := 2
  errHiIdx := 6
  errLoIdx := 7
  aScanCtrl := 0x00
  aScanStatus := 0x01
  aFifoStatus := 0x02
  vDisableClear := 0x0002
  vMaxDelayStart := 0xFF01
  scanDoneMask := 0x8000
  presence := .lowByte
  scanBudget := 100
  aEnableStatus := 0x10
  vEnableSeq := #v[0x0000, 0x0001, 0x0003, 0x0007]
  aBoardType := 0x20
  aBoardNumber := 0x28
  aFeatureId := 0x30
  aBugfixId := 0x31
  aPortCount := 0x32
  standard := ⟨0x40, 0x41, 0x42, #v[0xA500, 0xA501, 0xA502, 0xA503, 0xA504, 0xA505, 0xA506]⟩
  auxiliary := ⟨0x40, 0x41, 0x42, #v[0xA510, 0xA511, 0xA512, 0xA513, 0xA514, 0xA515, 0xA516]⟩
  manufacturing := ⟨0x50, 0x51, 0x52, #v[0xA520, 0xA521, 0xA522, 0xA523, 0xA524, 0xA525, 0xA526]⟩
  vEraseReq := 0x0001
  vDownloadEnd := 0x0002
  vRebootReq := 0x0004
  eraseDoneMask := 0x0001
  downloadDoneMask := 0x0002
  vUnlockReboot := #v[0x5A00, 0x5A01, 0x5A02, 0x5A03, 0x5A04, 0x5A05, 0x5A06]
  eraseBudget := 500
  finalizeBudget := 500
  flowControl := true
  fifoHalfFullMask := 0x0001
  fifoBudget := 1000
  burstWords := 1000
  imagePad := 0x00
  mfdNumeric := [1, 2]
  mfdReboot := true
  aMfdRead := 0x53
  mfdMaxWords := 128

/-- The reference configuration is admissible. -/
theorem Cfg.reference_admissible : Cfg.reference.Admissible := by decide

/-- The reference configuration with its proof. -/
def Params.reference : Params := ⟨Cfg.reference, Cfg.reference_admissible⟩

/-- One answer of the Transport (20_memory.md R57): a response frame, or a failure. Whether a frame whose
exchange failed took effect at the target is not in the spec, so a failure says which (DESIGN CHOICE, log 3). -/
inductive Answer where
  | ok (rx : Frame)
  | fail (landed : Bool)
deriving DecidableEq, Repr, Inhabited

/-- FREE VALUE (DESIGN CHOICE, log 2): the answer to the n-th frame exchange, once the answers a state lists are
used up. "Every Transport answer (any N bytes, or failure) is a draw" (R20): it has no body, so nothing can be
proved of it. -/
opaque Config.transportAnswer : Nat → Answer

end Sys2Proof
end

