-- ==== Sys2Proof/Syntax.lean ====
section
/-! DEFINITION. The instructions: the eight frame kinds (spec/30_encoding.md R81) and the twenty host operations
(R84), one constructor per row of spec/opcode_table.json; and the form in which each is written. -/

namespace Sys2Proof

/-- The four bytes of a port value, most significant first (20_memory.md R49, 42_bulk_port.md R122). -/
structure PortBytes where
  b0 : Byte
  b1 : Byte
  b2 : Byte
  b3 : Byte
deriving DecidableEq, Repr

/-- An MFD record: its fields in order, each a byte string (45_mfd.md R147). -/
abbrev Record := List (List Byte)

/-- The instruction set. Frame kinds carry the fields of the notation of R87 (`p` power bit, `s` slave, `a`
address, `d` data, `v` port value); host operations carry the arguments of R84. -/
inductive Instr where
  -- frame kinds (R81)
  | port0Rd (p : Bool) (s : SlaveId)
  | port1Rd (p : Bool) (s : SlaveId)
  | sportRd (p : Bool) (s : SlaveId) (a : Byte) (d : Word16)
  | busctrlRd (p : Bool) (s : SlaveId) (a : Byte) (d : Word16)
  | port0Wr (p : Bool) (s : SlaveId) (v : Word32)
  | port1Wr (p : Bool) (s : SlaveId) (v : Word32)
  | sportWr (p : Bool) (s : SlaveId) (a : Byte) (d : Word16)
  | busctrlWr (p : Bool) (s : SlaveId) (a : Byte) (d : Word16)
  -- host operations (R84)
  | setPower (b : Bool)
  | encode (power : Bool) (slave : Nat) (writeFlag : Bool) (channel : Nat) (addr : Nat) (data : Word16)
  | decode (raw : List Byte)
  | writeRegister (slave : Nat) (channel : Nat) (addr : Nat) (value : Word16)
  | readRegister (slave : Nat) (channel : Nat) (addr : Nat)
  | getSlaveInfo (slave : Nat)
  | exchange (slave : Nat) (port0 : Option PortBytes) (port1 : Option PortBytes)
  | scan (budget : Nat)
  | enable (slave : Nat)
  | erase (slave : Nat) (range : FlashRange)
  | program (image : List Byte)
  | finalize
  | reboot
  | abortFlash
  | flash (slave : Nat) (range : FlashRange) (image : List Byte)
  | encodeMFD (record : Record)
  | decodeMFD (bytes : List Byte)
  | writeManufacturingData (slave : Nat) (record : Record)
  | readManufacturingData (slave : Nat)
  | reset
deriving DecidableEq, Repr

/-- The names of the twenty host operations (R84), as `Return` events and the sequencer position name them. -/
inductive OpName where
  | setPower | encode | decode | writeRegister | readRegister | getSlaveInfo | exchange | scan | enable
  | erase | program | finalize | reboot | abortFlash | flash | encodeMFD | decodeMFD
  | writeManufacturingData | readManufacturingData | reset
deriving DecidableEq, Repr

/-- The name in a host call: a canonical name of R84, a source name of R88, or a name outside both. -/
inductive CallName where
  | op (name : OpName)
  | write
  | read
  | exchangePorts
  | enableSlave
  | other (name : String)
deriving DecidableEq, Repr

/-- One argument of a host call, by the types of R84. -/
inductive Arg where
  | bool (b : Bool)
  | nat (n : Nat)
  | word (w : Word16)
  | bytes (bs : List Byte)
  | port (p : Option PortBytes)
  | ports (p0 p1 : Option PortBytes)
  | range (r : FlashRange)
  | record (r : Record)
deriving DecidableEq, Repr

/-- A call of the host, `name(arg, …)` (R84, R87): the only thing a host can issue (40_frame_codec.md R97). -/
structure HostCall where
  name : CallName
  args : List Arg
deriving DecidableEq, Repr

/-- How an instruction is written (R6): a frame kind as a command frame on the Transport, a host operation as a call. -/
inductive Form where
  | frame (bytes : Frame)
  | call (call : HostCall)
deriving DecidableEq, Repr

end Sys2Proof
end

