-- ==== Sys2Proof/WellFormed.lean ====
section
/-! DEFINITION. Well-formed instructions: the fields whose values the spec fixes and the types do not. -/

namespace Sys2Proof

/-- A frame instruction is well-formed when it is one the controller may build: every register read frame has
data 0x0000 (30_encoding.md R82). Every other field is held to its width by its type, and the arguments of host
operations are naturals whose range checks are part of the operation (30_encoding.md R83), so nothing else is
ill-formed (log 21). -/
def Instr.wellFormed : Instr → Bool
  | .sportRd _ _ _ d => d == 0
  | .busctrlRd _ _ _ d => d == 0
  | .port0Rd _ _ => true
  | .port1Rd _ _ => true
  | .port0Wr _ _ _ => true
  | .port1Wr _ _ _ => true
  | .sportWr _ _ _ _ => true
  | .busctrlWr _ _ _ _ => true
  | .setPower _ => true
  | .encode _ _ _ _ _ _ => true
  | .decode _ => true
  | .writeRegister _ _ _ _ => true
  | .readRegister _ _ _ => true
  | .getSlaveInfo _ => true
  | .exchange _ _ _ => true
  | .scan _ => true
  | .enable _ => true
  | .erase _ _ => true
  | .program _ => true
  | .finalize => true
  | .reboot => true
  | .abortFlash => true
  | .flash _ _ _ => true
  | .encodeMFD _ => true
  | .decodeMFD _ => true
  | .writeManufacturingData _ _ => true
  | .readManufacturingData _ => true
  | .reset => true

/-- The check as a proposition. -/
abbrev Instr.WellFormed (i : Instr) : Prop := i.wellFormed = true

end Sys2Proof
end

