-- ==== Sys2Proof/Decode.lean ====
section
/-! DEFINITION. The byte helpers (spec/00_scope.md R12), the control byte and the two frame layouts
(30_encoding.md R75–R77), the frame classification (R81, R89), the decoder of frames and of host calls, and after
it the encoder. -/

namespace Sys2Proof

/-! ## Byte helpers (R12) -/

/-- `hi(v) = v[15:8]`. -/
def hi (v : Word16) : Byte := v.extractLsb' 8 8

/-- `lo(v) = v[7:0]`. -/
def lo (v : Word16) : Byte := v.extractLsb' 0 8

/-- `word(h, l) = h*256 + l`, high byte first (20_memory.md R48). -/
def word (h l : Byte) : Word16 := h ++ l

/-- `be32(v)`: most significant byte first (20_memory.md R49). -/
def be32 (v : Word32) : PortBytes :=
  ⟨v.extractLsb' 24 8, v.extractLsb' 16 8, v.extractLsb' 8 8, v.extractLsb' 0 8⟩

/-- `unbe32([b0,b1,b2,b3])`. -/
def unbe32 (b : PortBytes) : Word32 := b.b0 ++ b.b1 ++ b.b2 ++ b.b3

/-! ## Channels and ports -/

/-- `CH_CODE(ch)` (R8). -/
def Cfg.chCode (c : Cfg) : Channel → BitVec 2
  | .port0 => c.codePort0
  | .port1 => c.codePort1
  | .sport => c.codeSPort
  | .busCtrl => c.codeBusCtrl

/-- `CH_CODE⁻¹`: total, because `CH_CODE` is a bijection onto the four 2-bit values (R81). -/
def Cfg.channelOfCode (c : Cfg) (code : BitVec 2) : Channel :=
  if code = c.codePort0 then .port0
  else if code = c.codePort1 then .port1
  else if code = c.codeSPort then .sport
  else .busCtrl

/-- The channel a channel index names, in the listing order `[Port0, Port1, SPort, BusCtrl]`
(40_frame_codec.md R90); an index above 3 names none. -/
def channelOfIndex : Nat → Option Channel
  | 0 => some .port0
  | 1 => some .port1
  | 2 => some .sport
  | 3 => some .busCtrl
  | _ => none

/-- The two ports of a slave (42_bulk_port.md R113). -/
inductive Port where
  | zero
  | one
deriving DecidableEq, Repr

/-- The channel of a port. -/
def Port.channel : Port → Channel
  | .zero => .port0
  | .one => .port1

/-- `PORT_ADDR(p)` (R8). -/
def Cfg.portAddr (c : Cfg) : Port → Byte
  | .zero => c.portAddr0
  | .one => c.portAddr1

/-! ## The control byte (R75) -/

/-- `power<<7 | slave<<4 | writeFlag<<3 | channel`, the pattern `PSSSW0CC`: bit 2 is always 0 (R85). -/
def controlByte (c : Cfg) (power : Bool) (slave : SlaveId) (w : Bool) (ch : Channel) : Byte :=
  BitVec.ofBool power ++ slave ++ BitVec.ofBool w ++ 0#1 ++ c.chCode ch

/-- Bit 7 of a control byte. -/
def ctrlPower (ctrl : Byte) : Bool := ctrl.getLsbD 7

/-- Bits 6:4 of a control byte. -/
def ctrlSlave (ctrl : Byte) : SlaveId := ctrl.extractLsb' 4 3

/-- Bit 3 of a control byte. -/
def ctrlWrite (ctrl : Byte) : Bool := ctrl.getLsbD 3

/-- The channel bits 1:0 of a control byte select. -/
def ctrlChannel (c : Cfg) (ctrl : Byte) : Channel := c.channelOfCode (ctrl.extractLsb' 0 2)

/-! ## The source's codec: the 4-byte command frame (40_frame_codec.md R91, R92) -/

/-- The fields of a command frame. -/
structure FrameFields where
  power : Bool
  slave : SlaveId
  writeFlag : Bool
  channel : Channel
  addr : Byte
  data : Word16
deriving DecidableEq, Repr

/-- The four bytes of a command frame (R76). -/
def commandBytes (c : Cfg) (f : FrameFields) : List Byte :=
  [controlByte c f.power f.slave f.writeFlag f.channel, f.addr, hi f.data, lo f.data]

/-- `decode(raw)` of R92: the fields of the first four bytes, or the length of a sequence that is too short.
Bit 2 of byte 0 and the bytes from the fifth on are not read. -/
def decodeCommand (c : Cfg) : List Byte → Except Nat FrameFields
  | ctrl :: addr :: h :: l :: _ =>
    .ok { power := ctrlPower ctrl, slave := ctrlSlave ctrl, writeFlag := ctrlWrite ctrl,
          channel := ctrlChannel c ctrl, addr := addr, data := word h l }
  | raw => .error raw.length

/-! ## The N-byte frames of the Transport (30_encoding.md R76–R78) -/

/-- The register layout (R76, 40_frame_codec.md R93): the command frame, then `PAD` up to N bytes. -/
def registerFrame (c : Cfg) (f : FrameFields) : Frame :=
  commandBytes c f ++ List.replicate (c.frameLen - 4) c.pad

/-- Four port bytes put into a frame from byte k on. -/
def putPortBytes (f : Frame) (k : Nat) (b : PortBytes) : Frame :=
  (((f.set k b.b0).set (k + 1) b.b1).set (k + 2) b.b2).set (k + 3) b.b3

/-- Four port bytes read from a frame from byte k on; a byte the list does not have reads as `dflt`. -/
def portBytesAt (dflt : Byte) (f : Frame) (k : Nat) : PortBytes :=
  ⟨f.getD k dflt, f.getD (k + 1) dflt, f.getD (k + 2) dflt, f.getD (k + 3) dflt⟩

/-- The port layout (R77, 40_frame_codec.md R94, R95): control byte, `PORT_ADDR(p)`, the value from `PTX_IDX` on
for a write and four zero bytes for a read, `PAD` elsewhere. -/
def portLayoutFrame (c : Cfg) (power : Bool) (slave : SlaveId) (p : Port) (v : Option Word32) : Frame :=
  putPortBytes
    (((List.replicate c.frameLen c.pad).set 0 (controlByte c power slave v.isSome p.channel)).set 1 (c.portAddr p))
    c.ptxIdx (be32 (v.getD 0))

/-! ## Frame kinds (R81, R89) -/

/-- The eight frame kinds of R81. -/
inductive FrameKind where
  | port0Rd | port1Rd | sportRd | busctrlRd | port0Wr | port1Wr | sportWr | busctrlWr
deriving DecidableEq, Repr

/-- The row of R81 for a write bit and a channel. -/
def frameKindOf : Bool → Channel → FrameKind
  | false, .port0 => .port0Rd
  | false, .port1 => .port1Rd
  | false, .sport => .sportRd
  | false, .busCtrl => .busctrlRd
  | true, .port0 => .port0Wr
  | true, .port1 => .port1Wr
  | true, .sport => .sportWr
  | true, .busCtrl => .busctrlWr

/-- `kind(f)`, from the control byte alone: P, SSS and bit 2 are ignored (R81, R89). -/
def frameKind (c : Cfg) (ctrl : Byte) : FrameKind := frameKindOf (ctrlWrite ctrl) (ctrlChannel c ctrl)

/-- Why a form has no meaning. -/
inductive DecodeError where
  /-- a command frame of fewer than 4 bytes (R89) -/
  | shortFrame (len : Nat)
  /-- a host call outside the operation set (R84) -/
  | unknownOperation (name : String)
  /-- an operation of R84 with arguments of another form (60_exceptions.md R182b) -/
  | argumentForm (name : CallName)
deriving DecidableEq, Repr

/-- A command frame read as an instruction: the kind of its control byte (R89) with the fields of that kind's
layout (R86). A byte the sequence does not have reads as `PAD`; bytes beyond N are not read (log 11). -/
def decodeFrame (c : Cfg) (raw : Frame) : Except DecodeError Instr :=
  match decodeCommand c raw with
  | .error len => .error (.shortFrame len)
  | .ok f =>
    .ok (match frameKindOf f.writeFlag f.channel with
      | .port0Rd => .port0Rd f.power f.slave
      | .port1Rd => .port1Rd f.power f.slave
      | .sportRd => .sportRd f.power f.slave f.addr f.data
      | .busctrlRd => .busctrlRd f.power f.slave f.addr f.data
      | .port0Wr => .port0Wr f.power f.slave (unbe32 (portBytesAt c.pad raw c.ptxIdx))
      | .port1Wr => .port1Wr f.power f.slave (unbe32 (portBytesAt c.pad raw c.ptxIdx))
      | .sportWr => .sportWr f.power f.slave f.addr f.data
      | .busctrlWr => .busctrlWr f.power f.slave f.addr f.data)

/-! ## Host calls (R84, R88) -/

/-- `SPort` as a channel index (40_frame_codec.md R90, R93). -/
def sportIndex : Nat := 2

/-- `BusCtrl` as a channel index. -/
def busCtrlIndex : Nat := 3

/-- A host call read as an instruction: the operations of R84 with their argument forms, and the other names of
R88 with their expansions; any other name or argument form is refused. -/
def decodeCall (c : Cfg) : CallName → List Arg → Except DecodeError Instr
  | .op .setPower, [.bool b] => .ok (.setPower b)
  | .op .encode, [.bool p, .nat s, .bool w, .nat ch, .nat a, .word d] => .ok (.encode p s w ch a d)
  | .op .decode, [.bytes raw] => .ok (.decode raw)
  | .op .writeRegister, [.nat s, .nat ch, .nat a, .word v] => .ok (.writeRegister s ch a v)
  | .op .readRegister, [.nat s, .nat ch, .nat a] => .ok (.readRegister s ch a)
  | .op .getSlaveInfo, [.nat s] => .ok (.getSlaveInfo s)
  | .op .exchange, [.nat s, .port p0, .port p1] => .ok (.exchange s p0 p1)
  | .op .scan, [.nat budget] => .ok (.scan budget)
  | .op .scan, [] => .ok (.scan c.scanBudget)
  | .op .enable, [.nat s] => .ok (.enable s)
  | .op .erase, [.nat s, .range r] => .ok (.erase s r)
  | .op .program, [.bytes image] => .ok (.program image)
  | .op .finalize, [] => .ok .finalize
  | .op .reboot, [] => .ok .reboot
  | .op .abortFlash, [] => .ok .abortFlash
  | .op .flash, [.nat s, .range r, .bytes image] => .ok (.flash s r image)
  | .op .encodeMFD, [.record r] => .ok (.encodeMFD r)
  | .op .decodeMFD, [.bytes bs] => .ok (.decodeMFD bs)
  | .op .writeManufacturingData, [.nat s, .record r] => .ok (.writeManufacturingData s r)
  | .op .readManufacturingData, [.nat s] => .ok (.readManufacturingData s)
  | .op .reset, [] => .ok .reset
  | .write, [.nat s, .nat a, .word v] => .ok (.writeRegister s sportIndex a v)
  | .read, [.nat s, .nat a] => .ok (.readRegister s sportIndex a)
  | .exchangePorts, [.nat s, .ports p0 p1] => .ok (.exchange s p0 p1)
  | .enableSlave, [.nat s] => .ok (.enable s)
  | .other name, _ => .error (.unknownOperation name)
  | name, _ => .error (.argumentForm name)

/-- The decoder: which instruction a form is, or by name why it has no meaning. -/
def decode (c : Cfg) : Form → Except DecodeError Instr
  | .frame raw => decodeFrame c raw
  | .call h => decodeCall c h.name h.args

/-! ## The encoder -/

/-- The form an instruction is written in: the N-byte frame of a frame kind (R76, R77, R81), the call of a
host operation (R84). -/
def encode (c : Cfg) : Instr → Form
  | .port0Rd p s => .frame (portLayoutFrame c p s .zero none)
  | .port1Rd p s => .frame (portLayoutFrame c p s .one none)
  | .sportRd p s a d => .frame (registerFrame c ⟨p, s, false, .sport, a, d⟩)
  | .busctrlRd p s a d => .frame (registerFrame c ⟨p, s, false, .busCtrl, a, d⟩)
  | .port0Wr p s v => .frame (portLayoutFrame c p s .zero (some v))
  | .port1Wr p s v => .frame (portLayoutFrame c p s .one (some v))
  | .sportWr p s a d => .frame (registerFrame c ⟨p, s, true, .sport, a, d⟩)
  | .busctrlWr p s a d => .frame (registerFrame c ⟨p, s, true, .busCtrl, a, d⟩)
  | .setPower b => .call ⟨.op .setPower, [.bool b]⟩
  | .encode p s w ch a d => .call ⟨.op .encode, [.bool p, .nat s, .bool w, .nat ch, .nat a, .word d]⟩
  | .decode raw => .call ⟨.op .decode, [.bytes raw]⟩
  | .writeRegister s ch a v => .call ⟨.op .writeRegister, [.nat s, .nat ch, .nat a, .word v]⟩
  | .readRegister s ch a => .call ⟨.op .readRegister, [.nat s, .nat ch, .nat a]⟩
  | .getSlaveInfo s => .call ⟨.op .getSlaveInfo, [.nat s]⟩
  | .exchange s p0 p1 => .call ⟨.op .exchange, [.nat s, .port p0, .port p1]⟩
  | .scan budget => .call ⟨.op .scan, [.nat budget]⟩
  | .enable s => .call ⟨.op .enable, [.nat s]⟩
  | .erase s r => .call ⟨.op .erase, [.nat s, .range r]⟩
  | .program image => .call ⟨.op .program, [.bytes image]⟩
  | .finalize => .call ⟨.op .finalize, []⟩
  | .reboot => .call ⟨.op .reboot, []⟩
  | .abortFlash => .call ⟨.op .abortFlash, []⟩
  | .flash s r image => .call ⟨.op .flash, [.nat s, .range r, .bytes image]⟩
  | .encodeMFD r => .call ⟨.op .encodeMFD, [.record r]⟩
  | .decodeMFD bs => .call ⟨.op .decodeMFD, [.bytes bs]⟩
  | .writeManufacturingData s r => .call ⟨.op .writeManufacturingData, [.nat s, .record r]⟩
  | .readManufacturingData s => .call ⟨.op .readManufacturingData, [.nat s]⟩
  | .reset => .call ⟨.op .reset, []⟩

/-! ## The words of the opcode table -/

/-- Byte k of an instruction whose bits are w: with bytes as words, byte k is bits 8k+7..8k. -/
def tableByte (w k : Nat) : Byte := BitVec.ofNat 8 (w >>> (8 * k))

/-- The N bytes of the frame of c whose low `nbits` bits are those of w and whose other bits are 0. -/
def tableFrame (c : Cfg) (nbits w : Nat) : Frame :=
  (List.range c.frameLen).map (tableByte (w % 2 ^ nbits))

/-- What the decoder reads from a word of the opcode table, whose match values are those of the reference
configuration (R81). -/
def decodeTableWord (nbits w : Nat) : Option Instr :=
  (decodeFrame Cfg.reference (tableFrame Cfg.reference nbits w)).toOption

end Sys2Proof
end

