-- ==== Sys2Proof/Machine/State.lean ====
section
/-! DEFINITION. The state of the controller (spec/10_state.md R22–R41), of the bus environment as far as the spec
describes it (spec/20_memory.md R60–R69), and the reset state (R41). -/

namespace Sys2Proof.Machine

/-! ## The session record (10_state.md R22) -/

/-- The sixteen characters of an identity string (10_state.md R28): raw bytes, first character first. -/
structure Text16 where
  chars : List Byte
  length_eq : chars.length = 16
deriving DecidableEq, Repr

/-- `SlaveInfo` (R28). -/
structure SlaveInfo where
  boardType : Text16
  boardNumber : Text16
  featureId : Word16
  bugfixId : Word16
  portCount : BitVec 4
deriving DecidableEq, Repr

/-- An entry of the slave table (R27). -/
structure SlaveEntry where
  present : Bool
  enabled : Bool
  info : Option SlaveInfo
deriving DecidableEq, Repr

/-- The entry of a slave no scan has found (R41). -/
def SlaveEntry.absent : SlaveEntry := ⟨false, false, none⟩

/-- `FlashState` (R31). -/
inductive FlashState where
  | idle
  | erasing
  | programming
  | finalizing
  | rebooting
  | failed
  | done
deriving DecidableEq, Repr

/-- `S.flash` (R30). -/
structure FlashSession where
  state : FlashState
  slave : SlaveId
  range : FlashRange
deriving DecidableEq, Repr

/-- The sequencer position `pc` (R35, 00_scope.md R17): idle between operations; during one, the operation, how many
logical transactions of it are over and how many frames of the present one (log 10). -/
inductive SeqPos where
  | idle
  | running (op : OpName) (txn frame : Nat)
deriving DecidableEq, Repr

/-- `S`, the session record of R22. `pendWr[p]` and `pendVal[p]` stand once for each port p. -/
structure Session where
  power : Bool
  curSlave : SlaveId
  pendWr0 : Bool
  pendWr1 : Bool
  pendVal0 : Word32
  pendVal1 : Word32
  errSummary : Option Word16
  slaves : Vector SlaveEntry 8
  presence : Option Byte
  scanStatus : Option Word16
  flash : FlashSession
  dead : Bool
  sel : Bool
  pc : SeqPos
deriving DecidableEq, Repr

/-- The reset values of R41, every field. -/
def Session.reset : Session where
  power := false
  curSlave := 0
  pendWr0 := false
  pendWr1 := false
  pendVal0 := 0
  pendVal1 := 0
  errSummary := none
  slaves := Vector.replicate 8 SlaveEntry.absent
  presence := none
  scanStatus := none
  flash := ⟨.idle, 0, .standard⟩
  dead := false
  sel := false
  pc := .idle

/-! ## Results and errors (60_exceptions.md R154) -/

/-- The steps a `FlashTimeout` names. -/
inductive FlashStep where
  | erase
  | finalize
deriving DecidableEq, Repr

/-- What an `InvalidRecord` carries: the record or the byte stream (R154 row 11). -/
inductive BadRecord where
  | record (r : Record)
  | stream (bs : List Byte)
deriving DecidableEq, Repr

/-- The typed failures of R154. They are results, not faults (R182a). -/
inductive Err where
  | invalidSlave (slave : Nat)
  | invalidChannel (channel : Nat)
  | invalidAddress (addr : Nat)
  | shortFrame (len : Nat)
  | busTimeout (slave : SlaveId) (channel : Channel) (addr : Byte) (attempts : Nat)
  | scanTimeout (budget : Nat)
  | flashTimeout (step : FlashStep) (slave : SlaveId) (range : FlashRange) (budget : Nat)
  | transportFailure (tx : Option Frame)
  | sessionBusy (state : FlashState)
  | outOfSequence (state : FlashState)
  | invalidRecord (x : BadRecord)
deriving DecidableEq, Repr

/-- The success values of the operations (30_encoding.md R84). -/
inductive Value where
  | unit
  | bytes (bs : List Byte)
  | frame (f : FrameFields)
  | word (w : Word16)
  | info (i : SlaveInfo)
  | ports (port0Rx port1Rx : PortBytes) (errSummary : Word16)
  | scan (presence : Byte) (status : Word16)
  | record (r : Record)
deriving DecidableEq, Repr

/-- What an operation returns to the host: a value, or a typed failure. -/
inductive Result where
  | ok (v : Value)
  | error (e : Err)
deriving DecidableEq, Repr

/-! ## The event history (10_state.md R38) -/

/-- The kinds of notification. -/
inductive NoteKind where
  | started
  | timedOut
  | completed
deriving DecidableEq, Repr

/-- The operations that notify. -/
inductive NoteOp where
  | scan
  | erase
  | finalize
deriving DecidableEq, Repr

/-- The events of `H`. -/
inductive Event where
  | select (on : Bool)
  | frame (tx rx : Frame)
  | txFail (tx : Frame)
  | note (kind : NoteKind) (op : NoteOp)
  | ret (op : OpName) (result : Result)
deriving DecidableEq, Repr

/-! ## The bus environment (20_memory.md) -/

/-- The remote registers, as (address, byte) cells with addresses strictly rising (Machine/Memory.lean). -/
abbrev Memory := List Host.Cell

/-- A port value on its way back: the port a frame asked, and the value it had (R60, R66–R69). -/
structure PortAnswer where
  slave : SlaveId
  port : Port
  value : Word32
deriving DecidableEq, Repr

/-- The bus environment as the spec describes it, and its answers. -/
structure Bus where
  /-- the remote registers of R42–R45: what frames have written, and the value at reset elsewhere (log 4, log 5) -/
  mem : Memory
  /-- the register the SPort read FIFO was last asked for (R61, R63) -/
  fifo : Option (SlaveId × Byte)
  /-- the port values on their way back, newest first, at most `LAG` of them (R60, R66–R69) -/
  pipe : List PortAnswer
  /-- the Transport's answer to the last frame exchange (R56, R59), whichever frame that was -/
  reply : Option Answer
  /-- MODEL FIELD: a command frame on the Transport that no operation of the controller sent, as a row of the opcode table
  stands alone (log 7); no run has one, since no host can issue one and no step puts one here (40_frame_codec.md R97) -/
  line : Option Frame
  /-- MODEL FIELD: answers of the Transport chosen for the next frames (00_scope.md R20, log 2) -/
  answers : List Answer
  /-- MODEL FIELD: how many frame exchanges have been made, the argument of the free answer (log 2) -/
  drawn : Nat
deriving DecidableEq, Repr

/-! ## The whole machine -/

/-- The machine: configuration (a parameter, never written), session, history, bus environment, and the calls
the host has still to issue. -/
structure State where
  params : Params
  ses : Session
  hist : List Event
  bus : Bus
  requests : List HostCall
deriving DecidableEq, Repr

/-- The configuration of a machine. -/
abbrev State.cfg (s : State) : Cfg := s.params.cfg

/-- The machine right after reset under a given configuration: the session of R41, `H` empty, every remote register at
its value at reset (log 5), nothing on its way back, nothing waiting. -/
def State.resetWith (p : Params) : State where
  params := p
  ses := Session.reset
  hist := []
  bus := { mem := [], fifo := none, pipe := [], reply := none, line := none, answers := [], drawn := 0 }
  requests := []

/-- The machine right after reset (70_reset_and_hazards.md R183), under the reference configuration
(DESIGN CHOICE, log 1). -/
def State.reset : State := State.resetWith Params.reference

/-- Reasons for a fault: none. Every loop of the controller is bounded and every failure is a result, so the spec
gives nothing that stops the machine with a fault (60_exceptions.md R182a, R182c). Safe: no step answers one. -/
inductive Fault where
deriving DecidableEq, Repr

/-- Reasons for a refusal. -/
inductive Refusal where
  /-- Raised by `exec` for an instruction without a meaning: by none. Safe. -/
  | notModelled (mnemonic : String)
  /-- Raised by `step` for a frame of `bus.line` of fewer than 4 bytes (30_encoding.md R89). Safe: no frame of the
  controller is that short. -/
  | shortFrame (len : Nat)
  /-- Raised by `step` for a host call outside the operation set: "an operation not in this list has no meaning and a
  model refuses it" (30_encoding.md R84, 60_exceptions.md R182b). Safe. -/
  | unknownOperation (name : String)
  /-- Raised by `step` for an operation called with another argument form (60_exceptions.md R182b). Safe. -/
  | argumentForm (name : CallName)
deriving DecidableEq, Repr

end Sys2Proof.Machine
end

