-- ==== Sys2Proof/Machine/Flags.lean ====
section
/-! DEFINITION. What the controller reads of a response (spec/30_encoding.md R79, R80), the status bits it tests
(spec/10_state.md R37) and the busy predicate (R32). -/

namespace Sys2Proof.Machine

/-! ## Response frames -/

/-- `valid(rx)`: the data-valid bit of the status byte (R79). -/
def respValid (c : Cfg) (rx : Frame) : Bool := (rx.getD c.stIdx 0 &&& c.validMask) != 0

/-- `respWord(rx)`: the 16-bit data of a register response (R79). -/
def respWord (c : Cfg) (rx : Frame) : Word16 := word (rx.getD c.hiIdx 0) (rx.getD c.loIdx 0)

/-- `rx[PRX_IDX .. PRX_IDX+3]`: the four port bytes of a port response (R80). -/
def respPortBytes (c : Cfg) (rx : Frame) : PortBytes := portBytesAt 0 rx c.prxIdx

/-- `respPort(rx)` (R80). -/
def respPort (c : Cfg) (rx : Frame) : Word32 := unbe32 (respPortBytes c rx)

/-- `respErr(rx)`: the error-summary word of a port response (R80). -/
def respErr (c : Cfg) (rx : Frame) : Word16 := word (rx.getD c.errHiIdx 0) (rx.getD c.errLoIdx 0)

/-! ## Status bits (R37) -/

/-- `(v & MASK) ≠ 0`, the one test the controller makes on a status word (60_exceptions.md R178). -/
def maskSet (v mask : Word16) : Bool := (v &&& mask) != 0

/-- `portError(err, s, p)`: bit `2*s + p` of the error summary (42_bulk_port.md R118). -/
def portError (err : Word16) (s : SlaveId) (p : Port) : Bool :=
  err.getLsbD (2 * s.toNat + match p with | .zero => 0 | .one => 1)

/-- `PRESENCE(st)` (00_scope.md R8). -/
def presenceOf (c : Cfg) (st : Word16) : Byte :=
  match c.presence with
  | .lowByte => lo st
  | .table bytes => bytes.getD st.toNat 0

/-! ## The busy flag (R32) -/

/-- The flash states in which a session is open. -/
def FlashState.sessionOpen : FlashState → Bool
  | .erasing => true
  | .programming => true
  | .finalizing => true
  | .rebooting => true
  | .idle => false
  | .failed => false
  | .done => false

/-- `busy(S)`: derived, not stored (R32). -/
def Session.busy (u : Session) : Bool := u.flash.state.sessionOpen

/-! ## Error codes (60_exceptions.md R154) -/

/-- The spec's own numbering of the errors. -/
def Err.code : Err → Nat
  | .invalidSlave _ => 1
  | .invalidChannel _ => 2
  | .invalidAddress _ => 3
  | .shortFrame _ => 4
  | .busTimeout _ _ _ _ => 5
  | .scanTimeout _ => 6
  | .flashTimeout _ _ _ _ => 7
  | .transportFailure _ => 8
  | .sessionBusy _ => 9
  | .outOfSequence _ => 10
  | .invalidRecord _ => 11

end Sys2Proof.Machine
end

