-- ==== Sys2Proof/Machine/Memory.lean ====
section
/-! DEFINITION. The remote registers as memory (spec/20_memory.md R42–R53): the cells, the model's numbering of the
four address spaces, and reads and writes of one whole register, high byte first. -/

namespace Sys2Proof.Machine

/-- The number of cells: SPort 8 × 256 × 2, BusCtrl 256 × 2, ports 8 × 2 × 4 bytes. -/
def memorySize : Nat := 4672

/-- What a cell that is not listed reads as: the value at reset of every remote register, which the spec does not give
(DESIGN CHOICE, log 5). -/
def unlistedByte : Byte := 0x00

/-- The canonical form: addresses strictly rising, all of them in the address spaces, and no cell listed with the value
an unlisted one reads as, so that equal memories are equal lists. -/
abbrev Memory.wf (m : Memory) : Prop :=
  m.Pairwise (fun x y => x.1 < y.1) ∧ ∀ x ∈ m, x.1 < memorySize ∧ x.2 ≠ unlistedByte

/-- One cell read. -/
def Memory.get (m : Memory) (a : Nat) : Byte :=
  match m with
  | [] => unlistedByte
  | (k, b) :: rest => if k = a then b else Memory.get rest a

/-- A cell listed with a value. -/
def Memory.insert (m : Memory) (a : Nat) (b : Byte) : Memory :=
  match m with
  | [] => [(a, b)]
  | (k, x) :: rest =>
    if a < k then (a, b) :: (k, x) :: rest
    else if a = k then (a, b) :: rest
    else (k, x) :: Memory.insert rest a b

/-- One cell written; the value an unlisted cell reads as takes the cell off the list. -/
def Memory.put (m : Memory) (a : Nat) (b : Byte) : Memory :=
  if b = unlistedByte then m.filter fun c => c.1 ≠ a else m.insert a b

/-! ## Where a register lies (DESIGN CHOICE, log 4: the spec numbers registers, not bytes) -/

/-- The first cell of register a of the SPort of slave s (R43). -/
def sportCell (s : SlaveId) (a : Byte) : Nat := s.toNat * 512 + a.toNat * 2

/-- The first cell of register a of BusCtrl (R44); the slave field has no meaning there. -/
def busCtrlCell (a : Byte) : Nat := 4096 + a.toNat * 2

/-- The first cell of port p of slave s (R45). -/
def portCell (s : SlaveId) (p : Port) : Nat :=
  4608 + s.toNat * 8 + match p with | .zero => 0 | .one => 4

/-! ## Whole registers (R48, R49, R53) -/

/-- A 16-bit register read, high byte first. -/
def Memory.get16 (m : Memory) (a : Nat) : Word16 := word (m.get a) (m.get (a + 1))

/-- A 16-bit register written. -/
def Memory.put16 (m : Memory) (a : Nat) (v : Word16) : Memory := (m.put a (hi v)).put (a + 1) (lo v)

/-- A port read, most significant byte first. -/
def Memory.get32 (m : Memory) (a : Nat) : Word32 :=
  unbe32 ⟨m.get a, m.get (a + 1), m.get (a + 2), m.get (a + 3)⟩

/-- A port written. -/
def Memory.put32 (m : Memory) (a : Nat) (v : Word32) : Memory :=
  (((m.put a (be32 v).b0).put (a + 1) (be32 v).b1).put (a + 2) (be32 v).b2).put (a + 3) (be32 v).b3

end Sys2Proof.Machine
end

