-- ==== Sys2Proof/Machine/Target.lean ====
section
/-! DEFINITION. What each frame kind means at the target (spec/20_memory.md R60–R69, the environment contract): the
registers a frame writes, the read FIFO, the port pipeline; and which responses the contract allows, which no
operation relies on (R20). -/

namespace Sys2Proof.Machine

/-! ## The pipeline of the port channels (R60) -/

/-- A port frame enters the pipeline with the value its port has after it: its answer comes `LAG` frames later. -/
def Bus.enterPipe (c : Cfg) (b : Bus) (s : SlaveId) (p : Port) : Bus :=
  { b with pipe := (⟨s, p, b.mem.get32 (portCell s p)⟩ :: b.pipe).take c.lag }

/-! ## One effect per frame kind -/

/-- R67: `PORT0_RD` writes nothing; Port0's value is on its way back. -/
def targetPort0Rd (c : Cfg) (s : SlaveId) (b : Bus) : Bus := b.enterPipe c s .zero

/-- R69: as R67 for Port1. -/
def targetPort1Rd (c : Cfg) (s : SlaveId) (b : Bus) : Bus := b.enterPipe c s .one

/-- R63: `SPORT_RD` asks the read FIFO for register a of slave s. -/
def targetSportRd (s : SlaveId) (a : Byte) (b : Bus) : Bus := { b with fifo := some (s, a) }

/-- R65: `BUSCTRL_RD` leaves the target as it is; its answer is in its own response. -/
def targetBusctrlRd (b : Bus) : Bus := b

/-- R66: `PORT0_WR` writes Port0 of slave s; its value after the write is on its way back. -/
def targetPort0Wr (c : Cfg) (s : SlaveId) (v : Word32) (b : Bus) : Bus :=
  { b with mem := b.mem.put32 (portCell s .zero) v }.enterPipe c s .zero

/-- R68: as R66 for Port1. -/
def targetPort1Wr (c : Cfg) (s : SlaveId) (v : Word32) (b : Bus) : Bus :=
  { b with mem := b.mem.put32 (portCell s .one) v }.enterPipe c s .one

/-- R62: `SPORT_WR` writes register a of slave s's SPort. -/
def targetSportWr (s : SlaveId) (a : Byte) (d : Word16) (b : Bus) : Bus :=
  { b with mem := b.mem.put16 (sportCell s a) d }

/-- R64: `BUSCTRL_WR` writes register a of BusCtrl, whatever the slave field. -/
def targetBusctrlWr (a : Byte) (d : Word16) (b : Bus) : Bus :=
  { b with mem := b.mem.put16 (busCtrlCell a) d }

/-- The effect of a frame instruction at the target; a host operation is no frame and has none. -/
def targetEffect (c : Cfg) (i : Instr) (b : Bus) : Bus :=
  match i with
  | .port0Rd _ s => targetPort0Rd c s b
  | .port1Rd _ s => targetPort1Rd c s b
  | .sportRd _ s a _ => targetSportRd s a b
  | .busctrlRd _ _ _ _ => targetBusctrlRd b
  | .port0Wr _ s v => targetPort0Wr c s v b
  | .port1Wr _ s v => targetPort1Wr c s v b
  | .sportWr _ s a d => targetSportWr s a d b
  | .busctrlWr _ _ a d => targetBusctrlWr a d b
  | _ => b

/-- The target accepts a frame: it classifies the frame's bytes (R89) and does what that kind means. -/
def Bus.accept (c : Cfg) (b : Bus) (tx : Frame) : Bus :=
  match decodeFrame c tx with
  | .ok i => targetEffect c i b
  | .error _ => b

/-! ## Responses the contract allows -/

/-- The values a register of the SPort has held since its setup frame, for the contract of R63: `none` where no SPort read
frame has come since chip select last changed, so that the next one is a setup frame. The register is the one the FIFO was
last asked for. -/
abbrev ReadWindow := Option (List Word16)

/-- The window after a frame tx that took the target from b to b': an SPort read of another register than the FIFO was
asked for, or the first one, opens it; every other frame adds what the register holds now. -/
def nextWindow (c : Cfg) (b b' : Bus) (w : ReadWindow) (tx : Frame) : ReadWindow :=
  match decodeFrame c tx, w with
  | .ok (.sportRd _ s a _), none => some [b'.mem.get16 (sportCell s a)]
  | .ok (.sportRd _ s a _), some held =>
    if b.fifo = some (s, a) then some (b'.mem.get16 (sportCell s a) :: held) else some [b'.mem.get16 (sportCell s a)]
  | _, none => none
  | _, some held => b'.fifo.map fun x => b'.mem.get16 (sportCell x.1 x.2) :: held

/-- Whether the contract allows the response rx to the frame tx that meets the target in state b with the read window w. The
response to a setup frame is open, as is one without data-valid (R61, R63, 93_implementation_defined.md I10); a poll with
data-valid carries a value its register has held since the setup frame (R63); a BusCtrl read carries its register (R65); a
port response carries the value that entered the pipeline `LAG` frames ago (R60, R66–R69). Registers whose first cell is
listed in `own` are the target's to change at any time (00_scope.md R5d): nothing is said of their values. All else, the
error summary included, is open (R71). -/
def contractAllows (c : Cfg) (own : List Nat) (b : Bus) (w : ReadWindow) (tx rx : Frame) : Bool :=
  match decodeFrame c tx with
  | .ok (.sportRd _ s a _) =>
    match w with
    | none => true
    | some held =>
      !(respValid c rx) || b.fifo != some (s, a) || own.contains (sportCell s a) || held.contains (respWord c rx)
  | .ok (.busctrlRd _ _ a _) => own.contains (busCtrlCell a) || respWord c rx == b.mem.get16 (busCtrlCell a)
  | .ok (.port0Rd _ _) => portAllows c own b rx
  | .ok (.port1Rd _ _) => portAllows c own b rx
  | .ok (.port0Wr _ _ _) => portAllows c own b rx
  | .ok (.port1Wr _ _ _) => portAllows c own b rx
  | _ => true
where
  /-- The response to a port frame carries the value that entered the pipeline `LAG` frames ago, if one did. -/
  portAllows (c : Cfg) (own : List Nat) (b : Bus) (rx : Frame) : Bool :=
    match b.pipe[c.lag - 1]? with
    | none => true
    | some x => own.contains (portCell x.slave x.port) || respPort c rx == x.value

end Sys2Proof.Machine
end

