-- ==== Sys2Proof/Machine/Operands.lean ====
section
/-! DEFINITION. Operand assembly: the frames the controller builds from its arguments and session (spec/30_encoding.md
R83, spec/40_frame_codec.md R93–R95), the words of an image (spec/44_flash_engine.md R137), identity strings
(spec/41_register_bus.md R106) and the MFD record codec (spec/45_mfd.md R147–R151). -/

namespace Sys2Proof.Machine

/-! ## Frames the controller sends (40_frame_codec.md R93–R95, R97) -/

/-- `regFrame(slave, w, ch, addr, data)` (R93): bit 7 is `S.power`. -/
def State.regFrame (s : State) (slave : SlaveId) (w : Bool) (ch : Channel) (addr : Byte) (data : Word16) : Frame :=
  registerFrame s.cfg ⟨s.ses.power, slave, w, ch, addr, data⟩

/-- The pending write of a port: its value if `S.pendWr[p]` is set (10_state.md R25). -/
def Session.pending (u : Session) : Port → Option Word32
  | .zero => if u.pendWr0 then some u.pendVal0 else none
  | .one => if u.pendWr1 then some u.pendVal1 else none

/-- `portFrame(slave, p)` (R94): the write bit and the value come from the pending write. -/
def State.portFrame (s : State) (slave : SlaveId) (p : Port) : Frame :=
  portLayoutFrame s.cfg s.ses.power slave p (s.ses.pending p)

/-- `flushFrame(slave)` (R95): a Port1 read, whatever is pending. -/
def State.flushFrame (s : State) (slave : SlaveId) : Frame :=
  portLayoutFrame s.cfg s.ses.power slave .one none

/-! ## Parameters per flash range (00_scope.md R8) -/

/-- The parameters of a flash range. -/
def rangeParams (c : Cfg) : FlashRange → RangeParams
  | .standard => c.standard
  | .auxiliary => c.auxiliary
  | .manufacturingData => c.manufacturing

/-- `base + i` on register addresses; it never passes 255 under the constraints of R8 (20_memory.md R52, log 20). -/
def addrAt (base : Byte) (i : Nat) : Byte := base + BitVec.ofNat 8 i

/-! ## Image words (44_flash_engine.md R137) -/

/-- `words(image)`: two bytes a word in file order, the earlier byte high; an odd last byte gets `IMAGE_PAD`. -/
def imageWords (pad : Byte) : List Byte → List Word16
  | [] => []
  | [b] => [word b pad]
  | h :: l :: rest => word h l :: imageWords pad rest

/-! ## Identity strings (41_register_bus.md R106, R107) -/

/-- Eight words as sixteen characters, the high byte of each word first. -/
def Text16.ofWords (w0 w1 w2 w3 w4 w5 w6 w7 : Word16) : Text16 where
  chars := [hi w0, lo w0, hi w1, lo w1, hi w2, lo w2, hi w3, lo w3,
            hi w4, lo w4, hi w5, lo w5, hi w6, lo w6, hi w7, lo w7]
  length_eq := rfl

/-- Bits 3:0 of the port-count word (R106). -/
def portCountOf (w : Word16) : BitVec 4 := w.extractLsb' 0 4

/-! ## MFD records (45_mfd.md) -/

/-- The carriage return that ends a field (R148). -/
def cr : Byte := 0x0D

/-- The most fields of a record (R147). -/
def maxFields : Nat := 14

/-- Printable ASCII, 0x20–0x7E (R147). -/
def printable (b : Byte) : Bool := decide (0x20 ≤ b.toNat) && decide (b.toNat ≤ 0x7E)

/-- An ASCII digit, 0x30–0x39 (R147). -/
def asciiDigit (b : Byte) : Bool := decide (0x30 ≤ b.toNat) && decide (b.toNat ≤ 0x39)

/-- A canonical decimal numeral: one or more digits, no leading `0` unless the field is exactly `0` (R147). -/
def canonicalNumeral : List Byte → Bool
  | [] => false
  | [d] => asciiDigit d
  | d :: ds => (d :: ds).all asciiDigit && d != 0x30

/-- Fields from index i on meet R147: printable, and numerals where the index is in `MFD_NUMERIC`. -/
def fieldsValid (numeric : List Nat) : Nat → Record → Bool
  | _, [] => true
  | i, f :: fs =>
    f.all printable && (!numeric.contains i || canonicalNumeral f) && fieldsValid numeric (i + 1) fs

/-- `validRecord(record)` (R147). -/
def validRecord (c : Cfg) (r : Record) : Bool :=
  decide (r.length ≤ maxFields) && fieldsValid c.mfdNumeric 0 r

/-- One field of the stream, without its terminator: a one-digit numeric field becomes its literal byte (R148). -/
def encodeField (numeric : List Nat) (i : Nat) (f : List Byte) : List Byte :=
  match f with
  | [d] => if numeric.contains i then [d - 0x30] else [d]
  | f => f

/-- Fields from index i on, each ended by a carriage return (R148). -/
def encodeFields (numeric : List Nat) : Nat → Record → List Byte
  | _, [] => []
  | i, f :: fs => encodeField numeric i f ++ cr :: encodeFields numeric (i + 1) fs

/-- Exactly one trailing zero where the length is odd (R148). -/
def padEven (bs : List Byte) : List Byte := if bs.length % 2 = 1 then bs ++ [0x00] else bs

/-- The stream of a valid record (R148). -/
def encodeRecord (c : Cfg) (r : Record) : List Byte := padEven (encodeFields c.mfdNumeric 0 r)

/-- A stream split at every carriage return: the terminated fields, and what follows the last terminator (R149). -/
def splitFields : List Byte → Record × List Byte
  | [] => ([], [])
  | b :: bs =>
    match splitFields bs with
    | (fs, tail) =>
      if b = cr then ([] :: fs, tail)
      else match fs with
        | [] => ([], b :: tail)
        | f :: fs => ((b :: f) :: fs, tail)

/-- One field read back: a lone byte ≤ 9 is its digit, any other byte must be printable (R149). -/
def decodeField : List Byte → Option (List Byte)
  | [b] => if b.toNat ≤ 9 then some [0x30 + b] else if printable b then some [b] else none
  | g => if g.all printable then some g else none

/-- Every field read back, or none if one does not decode. -/
def decodeFields : Record → Option Record
  | [] => some []
  | g :: gs =>
    match decodeField g, decodeFields gs with
    | some f, some fs => some (f :: fs)
    | _, _ => none

/-- The record of a stream, or none where R149 raises `InvalidRecord`. -/
def decodeRecord (bs : List Byte) : Option Record :=
  match splitFields bs with
  | (fs, rest) =>
    if (rest = [] ∨ rest = [0x00]) ∧ fs.length ≤ maxFields then decodeFields fs else none

/-- `ALPHA`, the bytes a stored record may hold: 0x00–0x09, 0x0D, 0x20–0x7E (R151). -/
def recordByte (b : Byte) : Bool := decide (b.toNat ≤ 9) || b == cr || printable b

/-- `cut[0 .. j]` of R151: the longest prefix of record bytes, up to its 14th terminator if it has as many, else up to
its last one. -/
def recordCut (buf : List Byte) : List Byte :=
  ((splitFields (buf.takeWhile recordByte)).1.take maxFields).flatMap (fun f => f ++ [cr])

/-- Whether read-back stops after a word (R151): 14 terminators read, or a byte of the word outside `ALPHA`. -/
def recordEnds (buf : List Byte) (w : Word16) : Bool :=
  decide (maxFields ≤ buf.count cr) || !(recordByte (hi w)) || !(recordByte (lo w))

end Sys2Proof.Machine
end

