-- ==== Sys2Proof/Machine/Ops.lean ====
section
/-! DEFINITION. The shared operations: one frame exchange (spec/20_memory.md R57), chip select and bracketing (R58), the
common check (spec/60_exceptions.md R164), raising and returning a typed failure (R168, R169), and the operation a host
issues from its start to its `Return` event (spec/10_state.md R38). -/

namespace Sys2Proof.Machine

/-! ## Operations as state transformers

`raise E(info)` ends an operation at once and keeps every state write made before it (spec/00_scope.md R15): that is
`throw` here, the result carrying the state as it then is. -/

/-- A computation of the controller: from a state to a value or a typed failure, and the state left behind. -/
abbrev Op (α : Type) := EStateM Err State α

/-- The state changed. -/
def update (f : State → State) : Op Unit := fun s => .ok () (f s)

/-! ## State updates -/

/-- An event appended to `H` (10_state.md R38). -/
def State.log (s : State) (e : Event) : State := { s with hist := s.hist ++ [e] }

/-- The session record changed, nothing else. -/
def State.withSes (s : State) (u : Session) : State := { s with ses := u }

/-- The bus environment changed, nothing else. -/
def State.withBus (s : State) (b : Bus) : State := { s with bus := b }

/-- The flash state written; slave and range are kept (44_flash_engine.md `fail`). -/
def State.setFlashState (s : State) (f : FlashState) : State :=
  s.withSes { s.ses with flash := { s.ses.flash with state := f } }

/-- The slave table entry of slave i. -/
def Session.entry (u : Session) (i : SlaveId) : SlaveEntry := u.slaves[i.toNat]'i.isLt

/-- The slave table with the entry of slave i replaced. -/
def Session.setEntry (u : Session) (i : SlaveId) (e : SlaveEntry) : Session :=
  { u with slaves := u.slaves.set i.toNat e i.isLt }

/-! ## The sequencer position (00_scope.md R17, log 10) -/

/-- One frame further in the present logical transaction. -/
def SeqPos.nextFrame : SeqPos → SeqPos
  | .idle => .idle
  | .running op txn frame => .running op txn (frame + 1)

/-- The next logical transaction. -/
def SeqPos.nextTxn : SeqPos → SeqPos
  | .idle => .idle
  | .running op txn _ => .running op (txn + 1) 0

/-! ## The Transport (20_memory.md R56–R59) -/

/-- The answer the next frame exchange gets: the first listed one, else the free answer (log 2). -/
def Bus.nextAnswer (b : Bus) : Answer :=
  match b.answers with
  | a :: _ => a
  | [] => Config.transportAnswer b.drawn

/-- A response as the Transport delivers it: exactly N bytes (R56, log 2). -/
def fitFrame (c : Cfg) (rx : Frame) : Frame := (rx ++ List.replicate c.frameLen 0).take c.frameLen

/-- An answer as the Transport delivers it. -/
def fitAnswer (c : Cfg) : Answer → Answer
  | .ok rx => .ok (fitFrame c rx)
  | .fail landed => .fail landed

/-- One answer taken: it is the Transport's reply to the frame in flight. -/
def Bus.takeAnswer (c : Cfg) (b : Bus) : Bus :=
  { b with reply := some (fitAnswer c b.nextAnswer), answers := b.answers.tail, drawn := b.drawn + 1 }

/-- One frame exchange at the bus environment's side (00_scope.md R3, R16): the Transport answers, and the target does what
the frame means to it, unless the exchange failed and the frame did not land (log 3). -/
def Bus.serve (c : Cfg) (effect : Bus → Bus) (b : Bus) : Bus :=
  match b.nextAnswer with
  | .ok _ => effect (b.takeAnswer c)
  | .fail landed => if landed then effect (b.takeAnswer c) else b.takeAnswer c

/-- A completed exchange: the target has accepted tx, `H` holds `Frame(tx, rx)`. -/
def State.exchanged (s : State) (tx rx : Frame) : State :=
  { s with
    hist := s.hist ++ [.frame tx rx]
    bus := (s.bus.takeAnswer s.cfg).accept s.cfg tx
    ses := { s.ses with pc := s.ses.pc.nextFrame } }

/-- A failed exchange: `H` holds `TxFail(tx)` and the session is dead (R57, 10_state.md R33); the draw says whether tx
still took effect at the target (log 3). -/
def State.exchangeFailed (s : State) (tx : Frame) (landed : Bool) : State :=
  { s with
    hist := s.hist ++ [.txFail tx]
    bus := if landed then (s.bus.takeAnswer s.cfg).accept s.cfg tx else s.bus.takeAnswer s.cfg
    ses := { s.ses with dead := true, pc := s.ses.pc.nextFrame } }

/-- `Xchg(tx)` (R57): the one bus step, every frame of every operation. -/
def xchg (tx : Frame) : Op Frame := fun s =>
  match s.bus.nextAnswer with
  | .ok rx => .ok (fitFrame s.cfg rx) (s.exchanged tx (fitFrame s.cfg rx))
  | .fail landed => .error (.transportFailure (some tx)) (s.exchangeFailed tx landed)

/-! ## Chip select and bracketing (R58, 10_state.md R34) -/

/-- `Sel()`. -/
def State.sel (s : State) : State := { s with hist := s.hist ++ [.select true], ses := { s.ses with sel := true } }

/-- `Desel()`: the logical transaction is over. -/
def State.desel (s : State) : State :=
  { s with hist := s.hist ++ [.select false], ses := { s.ses with sel := false, pc := s.ses.pc.nextTxn } }

/-- `try: body finally: fin`: fin is made whether body returns or raises (00_scope.md R15). -/
def withFinally {α : Type} (body : Op α) (fin : State → State) : Op α := fun s =>
  match body s with
  | .ok a t => .ok a (fin t)
  | .error e t => .error e (fin t)

/-- One bracketed logical transaction. -/
def bracket {α : Type} (body : Op α) : Op α := do
  update State.sel
  withFinally body State.desel

/-! ## Raising a typed failure (60_exceptions.md R168, R169) -/

/-- `try: body on E as e: h(e); raise e`: the state effects of an error, made before it goes on to the caller
(R168 (4)); errors are never converted (R169). -/
def onError {α : Type} (body : Op α) (h : Err → State → State) : Op α := fun s =>
  match body s with
  | .ok a t => .ok a t
  | .error e t => .error e (h e t)

/-- The flash-state condition of a `guard` (R164). -/
inductive GuardMode where
  | bus
  | flashStart
  | flashStep (st : FlashState)
deriving DecidableEq, Repr

/-- The arguments of `guard` (R164); an omitted one is not checked. -/
structure GuardArgs where
  slave : Option Nat := none
  channel : Option Nat := none
  regChannel : Bool := false
  addr : Option Nat := none
  record : Option Record := none
  mode : GuardMode := .bus

/-- The slave check of R164 and R91. -/
def slaveError (slave : Nat) : Option Err := if 7 < slave then some (.invalidSlave slave) else none

/-- The channel check of R164 and R91; with `regChannel` the Port channels are refused too (41_register_bus.md R109). -/
def channelError (regChannel : Bool) (channel : Nat) : Option Err :=
  if 3 < channel then some (.invalidChannel channel)
  else if regChannel = true ∧ channel ≤ 1 then some (.invalidChannel channel)
  else none

/-- The address check of R164 and R91. -/
def addrError (addr : Nat) : Option Err := if 255 < addr then some (.invalidAddress addr) else none

/-- The record check of R164. -/
def recordError (c : Cfg) (r : Record) : Option Err :=
  if validRecord c r then none else some (.invalidRecord (.record r))

/-- The flash-state check of R164. -/
def modeError (u : Session) : GuardMode → Option Err
  | .bus => if u.busy then some (.sessionBusy u.flash.state) else none
  | .flashStart => if u.busy then some (.sessionBusy u.flash.state) else none
  | .flashStep st => if u.flash.state = st then none else some (.outOfSequence u.flash.state)

/-- The first check of `guard` that fails, in the order of R164: slave, channel, address, record, dead session, flash
state. -/
def guardError (s : State) (g : GuardArgs) : Option Err :=
  (g.slave.bind slaveError).or <|
  (g.channel.bind (channelError g.regChannel)).or <|
  (g.addr.bind addrError).or <|
  (g.record.bind (recordError s.cfg)).or <|
  (if s.ses.dead then some (.transportFailure none) else none).or <|
  modeError s.ses g.mode

/-- `guard(…)` (R164): raises the first failing check; it writes nothing and appends no event. -/
def guard (g : GuardArgs) : Op Unit := fun s =>
  match guardError s g with
  | some e => .error e s
  | none => .ok () s

/-- A checked slave argument as the 3-bit id the frame carries. -/
def slaveId (slave : Nat) : SlaveId := BitVec.ofNat 3 slave

/-- A checked address argument as the 8-bit address the frame carries. -/
def addrByte (addr : Nat) : Byte := BitVec.ofNat 8 addr

/-! ## A host operation from its start to its `Return` (10_state.md R35, R38, 60_exceptions.md R168, R169) -/

/-- The sequencer enters an operation. -/
def State.enter (s : State) (op : OpName) : State := s.withSes { s.ses with pc := .running op 0 0 }

/-- The operation is over: `Return(op, result)` is appended and the sequencer is idle; control is with the host. -/
def State.ret (s : State) (op : OpName) (r : Result) : State :=
  { s with hist := s.hist ++ [.ret op r], ses := { s.ses with pc := .idle } }

/-- TAKING AN ERROR AND RETURNING FROM IT (R168, R169): an operation that raises ends with `Return(op, !E(info))`, one that
returns with `Return(op, value)`; either way the controller is between operations again. A typed failure is a result and
not a fault (R182a). -/
def hostOp (op : OpName) (body : Op Value) (s : State) : State :=
  match body (s.enter op) with
  | .ok v t => t.ret op (.ok v)
  | .error e t => t.ret op (.error e)

/-! ## A frame kind as an instruction -/

/-- One frame exchange that is no part of a host operation: the bus environment serves it, and nothing else of the machine
changes, since the controller neither builds nor sends it and reads nothing of it (40_frame_codec.md R97, log 7). -/
def State.serve (s : State) (effect : Bus → Bus) : State := { s with bus := s.bus.serve s.cfg effect }

end Sys2Proof.Machine
end

