-- ==== Sys2Proof/Machine/BulkPort.lean ====
section
/-! DEFINITION. The Bulk Port Exchange (spec/42_bulk_port.md R113–R122). -/

namespace Sys2Proof.Machine

/-- A port write requested: `S.pendWr[p] <- true; S.pendVal[p] <- v` (R113, 10_state.md R25); `none` requests nothing. -/
def Session.request (u : Session) (p : Port) (w : Option PortBytes) : Session :=
  match p, w with
  | _, none => u
  | .zero, some b => { u with pendWr0 := true, pendVal0 := unbe32 b }
  | .one, some b => { u with pendWr1 := true, pendVal1 := unbe32 b }

/-- `S.curSlave <- slave` and the requested writes (R115). -/
def State.beginExchange (s : State) (slave : SlaveId) (port0 port1 : Option PortBytes) : State :=
  s.withSes (({ s.ses with curSlave := slave }.request .zero port0).request .one port1)

/-- Both pending flags cleared (R116), then `Desel()`. -/
def State.endExchange (s : State) : State :=
  (s.withSes { s.ses with pendWr0 := false, pendWr1 := false }).desel

/-- n flush frames and their responses (R114). -/
def flushFrames (slave : SlaveId) : Nat → Op (List Frame)
  | 0 => return []
  | n + 1 => do
    let s ← get
    let r ← xchg (s.flushFrame slave)
    let rs ← flushFrames slave n
    return r :: rs

/-- The 2 + `LAG` frames of an exchange and their responses R[1], R[2], … in order (R114). -/
def exchangeFrames (slave : SlaveId) : Op (List Frame) := do
  let s ← get
  let r1 ← xchg (s.portFrame slave .zero)
  let s ← get
  let r2 ← xchg (s.portFrame slave .one)
  let rs ← flushFrames slave s.cfg.lag
  return r1 :: r2 :: rs

/-- The frames of an exchange and what is read from them: Port0 from R[1 + LAG], Port1 and the error summary from
R[2 + LAG] (R117), the summary kept in `S.errSummary` (R26). -/
def exchangeBody (slave : SlaveId) : Op Value := do
  let rs ← exchangeFrames slave
  let s ← get
  let err := respErr s.cfg (rs.getD (1 + s.cfg.lag) [])
  update (fun t => t.withSes { t.ses with errSummary := some err })
  return .ports (respPortBytes s.cfg (rs.getD s.cfg.lag [])) (respPortBytes s.cfg (rs.getD (1 + s.cfg.lag) [])) err

/-- `exchange(slave, port0, port1)` (R115): one chip select over all frames; the pending flags are cleared whether it
returns or raises (R116). -/
def opExchange (slave : Nat) (port0 port1 : Option PortBytes) : Op Value := do
  guard { slave := slave }
  update (fun s => s.beginExchange (slaveId slave) port0 port1)
  update State.sel
  withFinally (exchangeBody (slaveId slave)) State.endExchange

/-- The host operation `exchange`. -/
def execExchange (slave : Nat) (port0 port1 : Option PortBytes) (s : State) : Host.Outcome State Fault Refusal :=
  .next (hostOp .exchange (opExchange slave port0 port1) s)

end Sys2Proof.Machine
end

