-- ==== Sys2Proof/Machine/Codec.lean ====
section
/-! DEFINITION. The Frame Codec as host operations (spec/40_frame_codec.md R90–R92): pure, never refused. -/

namespace Sys2Proof.Machine

/-- The first argument check of `encode` that fails, in the order of R91 and R164. -/
def encodeError (slave channel addr : Nat) : Option Err :=
  (slaveError slave).or ((channelError false channel).or (addrError addr))

/-- `encode(power, slave, writeFlag, channel, addr, data)` (R91). -/
def opEncode (power : Bool) (slave : Nat) (writeFlag : Bool) (channel addr : Nat) (data : Word16) : Op Value := fun s =>
  match encodeError slave channel addr, channelOfIndex channel with
  | some e, _ => .error e s
  | none, none => .error (.invalidChannel channel) s
  | none, some ch => .ok (.bytes (commandBytes s.cfg ⟨power, slaveId slave, writeFlag, ch, addrByte addr, data⟩)) s

/-- `decode(raw)` (R92): `ShortFrame` under four bytes, no other error. -/
def opDecode (raw : List Byte) : Op Value := fun s =>
  match decodeCommand s.cfg raw with
  | .ok f => .ok (.frame f) s
  | .error len => .error (.shortFrame len) s

/-- The host operation `encode`. -/
def execEncode (power : Bool) (slave : Nat) (writeFlag : Bool) (channel addr : Nat) (data : Word16) (s : State) :
    Host.Outcome State Fault Refusal :=
  .next (hostOp .encode (opEncode power slave writeFlag channel addr data) s)

/-- The host operation `decode`. -/
def execDecode (raw : List Byte) (s : State) : Host.Outcome State Fault Refusal :=
  .next (hostOp .decode (opDecode raw) s)

end Sys2Proof.Machine
end

