-- ==== Sys2Proof/Machine/Frames.lean ====
section
/-! DEFINITION. The eight frame kinds as instructions (spec/30_encoding.md R81, spec/00_scope.md R6): what each means at the
target (spec/20_memory.md R62–R69, Machine/Target.lean), with the Transport's answer to it. They are the bus environment's
side of a frame exchange (00_scope.md R3, R16), the same that the controller's own frames meet in `xchg`. The controller takes
no part in one that stands alone: it sends only the frames its operations build (40_frame_codec.md R97, log 7). The power
bit says nothing to the target (R71). -/

namespace Sys2Proof.Machine

/-- `PORT0_RD` (R67). -/
def execPort0Rd (_p : Bool) (sl : SlaveId) (s : State) : Host.Outcome State Fault Refusal :=
  .next (s.serve (targetPort0Rd s.cfg sl))

/-- `PORT1_RD` (R69). -/
def execPort1Rd (_p : Bool) (sl : SlaveId) (s : State) : Host.Outcome State Fault Refusal :=
  .next (s.serve (targetPort1Rd s.cfg sl))

/-- `SPORT_RD` (R63); its data bytes are "don't-care". -/
def execSportRd (_p : Bool) (sl : SlaveId) (a : Byte) (_d : Word16) (s : State) : Host.Outcome State Fault Refusal :=
  .next (s.serve (targetSportRd sl a))

/-- `BUSCTRL_RD` (R65). -/
def execBusctrlRd (_p : Bool) (_sl : SlaveId) (_a : Byte) (_d : Word16) (s : State) : Host.Outcome State Fault Refusal :=
  .next (s.serve targetBusctrlRd)

/-- `PORT0_WR` (R66). -/
def execPort0Wr (_p : Bool) (sl : SlaveId) (v : Word32) (s : State) : Host.Outcome State Fault Refusal :=
  .next (s.serve (targetPort0Wr s.cfg sl v))

/-- `PORT1_WR` (R68). -/
def execPort1Wr (_p : Bool) (sl : SlaveId) (v : Word32) (s : State) : Host.Outcome State Fault Refusal :=
  .next (s.serve (targetPort1Wr s.cfg sl v))

/-- `SPORT_WR` (R62). -/
def execSportWr (_p : Bool) (sl : SlaveId) (a : Byte) (d : Word16) (s : State) : Host.Outcome State Fault Refusal :=
  .next (s.serve (targetSportWr sl a d))

/-- `BUSCTRL_WR` (R64); the slave field is ignored. -/
def execBusctrlWr (_p : Bool) (_sl : SlaveId) (a : Byte) (d : Word16) (s : State) : Host.Outcome State Fault Refusal :=
  .next (s.serve (targetBusctrlWr a d))

end Sys2Proof.Machine
end

