-- ==== Sys2Proof/Machine/RegisterBus.lean ====
section
/-! DEFINITION. The Register Bus (spec/41_register_bus.md): `writeRegister`, `readRegister`, `getSlaveInfo`, `setPower`, and
the register write and read sequences every other operation uses. -/

namespace Sys2Proof.Machine

/-! ## Internal sequences; arguments already checked -/

/-- `regWr(slave, ch, addr, value)` (R99): one write frame, bracketed; its response is not read (20_memory.md R70). -/
def regWr (slave : SlaveId) (ch : Channel) (addr : Byte) (value : Word16) : Op Unit := do
  let s ← get
  bracket do
    let _ ← xchg (s.regFrame slave true ch addr value)

/-- The poll loop of R101: at most `budget` polls with the same frame f, until one has data-valid. -/
def pollValid (c : Cfg) (slave : SlaveId) (addr : Byte) (f : Frame) : Nat → Op Word16
  | 0 => throw (.busTimeout slave .sport addr c.readBudget)
  | budget + 1 => do
    let rx ← xchg f
    if respValid c rx then
      return respWord c rx
    else
      pollValid c slave addr f budget

/-- `regRdS(slave, addr)` (R101): a setup frame whose response is ignored, then up to `READ_BUDGET` polls, under one chip
select. -/
def regRdS (slave : SlaveId) (addr : Byte) : Op Word16 := do
  let s ← get
  let f := s.regFrame slave false .sport addr 0
  bracket do
    let _ ← xchg f
    pollValid s.cfg slave addr f s.cfg.readBudget

/-- `regRdB(slave, addr)` (R102): one frame, its data returned whatever the data-valid bit. -/
def regRdB (slave : SlaveId) (addr : Byte) : Op Word16 := do
  let s ← get
  bracket do
    let rx ← xchg (s.regFrame slave false .busCtrl addr 0)
    return respWord s.cfg rx

/-! ## writeRegister and readRegister (R99, R100, R109) -/

/-- `writeRegister(slave, channel, addr, value)` (R99). `guard` lets SPort and BusCtrl through only (R109). -/
def opWriteRegister (slave channel addr : Nat) (value : Word16) : Op Value := do
  guard { slave := slave, channel := channel, regChannel := true, addr := addr }
  if channel = sportIndex then
    regWr (slaveId slave) .sport (addrByte addr) value
  else
    regWr (slaveId slave) .busCtrl (addrByte addr) value
  return .unit

/-- `readRegister(slave, channel, addr)` (R100): the channel decides the sequence before any frame. -/
def opReadRegister (slave channel addr : Nat) : Op Value := do
  guard { slave := slave, channel := channel, regChannel := true, addr := addr }
  let v ← if channel = sportIndex then regRdS (slaveId slave) (addrByte addr)
          else regRdB (slaveId slave) (addrByte addr)
  return .word v

/-! ## getSlaveInfo (R106) -/

/-- The eight reads of an identity string, in increasing address order. -/
def readText (slave : SlaveId) (base : Byte) : Op Text16 := do
  let w0 ← regRdS slave (addrAt base 0)
  let w1 ← regRdS slave (addrAt base 1)
  let w2 ← regRdS slave (addrAt base 2)
  let w3 ← regRdS slave (addrAt base 3)
  let w4 ← regRdS slave (addrAt base 4)
  let w5 ← regRdS slave (addrAt base 5)
  let w6 ← regRdS slave (addrAt base 6)
  let w7 ← regRdS slave (addrAt base 7)
  return Text16.ofWords w0 w1 w2 w3 w4 w5 w6 w7

/-- The identity of a slave written into its table entry. -/
def State.setInfo (s : State) (slave : SlaveId) (i : Option SlaveInfo) : State :=
  s.withSes (s.ses.setEntry slave { s.ses.entry slave with info := i })

/-- `getSlaveInfo(slave)` (R106): 19 SPort reads in fixed order; the table entry is written only when all succeeded. -/
def opGetSlaveInfo (slave : Nat) : Op Value := do
  guard { slave := slave }
  let s ← get
  let bt ← readText (slaveId slave) s.cfg.aBoardType
  let bn ← readText (slaveId slave) s.cfg.aBoardNumber
  let fe ← regRdS (slaveId slave) s.cfg.aFeatureId
  let bf ← regRdS (slaveId slave) s.cfg.aBugfixId
  let pc ← regRdS (slaveId slave) s.cfg.aPortCount
  let info : SlaveInfo := ⟨bt, bn, fe, bf, portCountOf pc⟩
  update (fun t => t.setInfo (slaveId slave) (some info))
  return .info info

/-! ## setPower (R108) -/

/-- `setPower(b)` (R108): no frame, no error. -/
def opSetPower (b : Bool) : Op Value := do
  update (fun s => s.withSes { s.ses with power := b })
  return .unit

/-! ## The host operations -/

/-- The host operation `setPower`. -/
def execSetPower (b : Bool) (s : State) : Host.Outcome State Fault Refusal :=
  .next (hostOp .setPower (opSetPower b) s)

/-- The host operation `writeRegister`. -/
def execWriteRegister (slave channel addr : Nat) (value : Word16) (s : State) : Host.Outcome State Fault Refusal :=
  .next (hostOp .writeRegister (opWriteRegister slave channel addr value) s)

/-- The host operation `readRegister`. -/
def execReadRegister (slave channel addr : Nat) (s : State) : Host.Outcome State Fault Refusal :=
  .next (hostOp .readRegister (opReadRegister slave channel addr) s)

/-- The host operation `getSlaveInfo`. -/
def execGetSlaveInfo (slave : Nat) (s : State) : Host.Outcome State Fault Refusal :=
  .next (hostOp .getSlaveInfo (opGetSlaveInfo slave) s)

end Sys2Proof.Machine
end

