-- ==== Sys2Proof/Machine/Scanner.lean ====
section
/-! DEFINITION. The Bus Scanner and the slave enable sequence (spec/43_bus_scanner.md). -/

namespace Sys2Proof.Machine

/-- `Note(kind, op)` (10_state.md R38). -/
def note (kind : NoteKind) (op : NoteOp) : Op Unit := update (fun s => s.log (.note kind op))

/-- A slave table entry after a completed scan (R126): a slave present keeps its identity, none stays enabled. -/
def SlaveEntry.scanned (e : SlaveEntry) (present : Bool) : SlaveEntry :=
  ⟨present, false, if present then e.info else none⟩

/-- `scanDone(pres, st)` (R126). -/
def Session.scanDone (u : Session) (pres : Byte) (st : Word16) : Session :=
  { u with
    presence := some pres
    scanStatus := some st
    slaves := #v[u.slaves[0].scanned (pres.getLsbD 0), u.slaves[1].scanned (pres.getLsbD 1),
                 u.slaves[2].scanned (pres.getLsbD 2), u.slaves[3].scanned (pres.getLsbD 3),
                 u.slaves[4].scanned (pres.getLsbD 4), u.slaves[5].scanned (pres.getLsbD 5),
                 u.slaves[6].scanned (pres.getLsbD 6), u.slaves[7].scanned (pres.getLsbD 7)] }

/-- `scanLost()` (R127). -/
def Session.scanLost (u : Session) : Session :=
  { u with presence := none, scanStatus := none, slaves := Vector.replicate 8 SlaveEntry.absent }

/-- The words written one after another to one register, each its own logical transaction. -/
def writeWords (slave : SlaveId) (ch : Channel) (addr : Byte) : List Word16 → Op Unit
  | [] => return ()
  | w :: ws => do
    regWr slave ch addr w
    writeWords slave ch addr ws

/-- The three control words of a scan, in order (R124). -/
def scanWords (c : Cfg) : List Word16 := [c.vDisableClear, c.vMaxDelayStart, c.vDisableClear]

/-- The status polls of a scan (R125): at most n, until one shows scan-done; `none` when none did. -/
def pollScan (c : Cfg) : Nat → Op (Option Word16)
  | 0 => return none
  | n + 1 => do
    let st ← regRdB c.bcSlave c.aScanStatus
    if maskSet st c.scanDoneMask then
      return some st
    else
      pollScan c n

/-- `scan(budget)` (R125). -/
def opScan (budget : Nat) : Op Value := do
  guard { }
  note .started .scan
  let s ← get
  writeWords s.cfg.bcSlave .busCtrl s.cfg.aScanCtrl (scanWords s.cfg)
  match ← pollScan s.cfg budget with
  | some st => do
    update (fun t => t.withSes (t.ses.scanDone (presenceOf s.cfg st) st))
    note .completed .scan
    return .scan (presenceOf s.cfg st) st
  | none => do
    update (fun t => t.withSes t.ses.scanLost)
    note .timedOut .scan
    throw (.scanTimeout budget)

/-- `S.slave[slave].enabled <- true` (R130). -/
def State.markEnabled (s : State) (slave : SlaveId) : State :=
  s.withSes (s.ses.setEntry slave { s.ses.entry slave with enabled := true })

/-- `enable(slave)` (R130, R131): the four words to one register, in order, then the flag. -/
def opEnable (slave : Nat) : Op Value := do
  guard { slave := slave }
  let s ← get
  writeWords (slaveId slave) .sport s.cfg.aEnableStatus s.cfg.vEnableSeq.toList
  update (fun t => t.markEnabled (slaveId slave))
  return .unit

/-- The host operation `scan`. -/
def execScan (budget : Nat) (s : State) : Host.Outcome State Fault Refusal :=
  .next (hostOp .scan (opScan budget) s)

/-- The host operation `enable`. -/
def execEnable (slave : Nat) (s : State) : Host.Outcome State Fault Refusal :=
  .next (hostOp .enable (opEnable slave) s)

end Sys2Proof.Machine
end

