-- ==== Sys2Proof/Machine/FlashEngine.lean ====
section
/-! DEFINITION. The Firmware Flash Engine (spec/44_flash_engine.md): erase, program, finalize, reboot, abort and the
composite. -/

namespace Sys2Proof.Machine

/-! ## Failing a step (`fail(e)`, R135) -/

/-- `fail(e)` for `program` and `reboot`: any error of the step's frames leaves the session `Failed`. -/
def failStep (_ : Err) (s : State) : State := s.setFlashState .failed

/-- `fail(e)` for `erase` and `finalize`: a timeout is notified first, a transport failure is not (R136, R141). -/
def failNoted (op : NoteOp) (e : Err) (s : State) : State :=
  match e with
  | .flashTimeout _ _ _ _ => (s.log (.note .timedOut op)).setFlashState .failed
  | .busTimeout _ _ _ _ => (s.log (.note .timedOut op)).setFlashState .failed
  | _ => s.setFlashState .failed

/-! ## Waits -/

/-- `pollStatus(step, mask, budget)` (R142): at most n full SPort reads of the status register, until one shows a bit of
the mask. -/
def pollStatus (step : FlashStep) (slave : SlaveId) (range : FlashRange) (addr : Byte) (mask : Word16) (budget : Nat) :
    Nat → Op Unit
  | 0 => throw (.flashTimeout step slave range budget)
  | n + 1 => do
    let st ← regRdS slave addr
    if maskSet st mask then
      return ()
    else
      pollStatus step slave range addr mask budget n

/-- `awaitRoom()` (R139): at most n reads of the FIFO status, until the half-full bit is clear. -/
def awaitRoom (c : Cfg) : Nat → Op Unit
  | 0 => throw (.busTimeout c.bcSlave .busCtrl c.aFifoStatus c.fifoBudget)
  | n + 1 => do
    let st ← regRdB c.bcSlave c.aFifoStatus
    if maskSet st c.fifoHalfFullMask then
      awaitRoom c n
    else
      return ()

/-! ## erase (R136) -/

/-- The frames of `erase`: the seven unlock words and the request, then the acknowledgement wait. -/
def eraseFrames (c : Cfg) (slave : SlaveId) (range : FlashRange) : Op Unit := do
  writeWords slave .sport (rangeParams c range).ctrl ((rangeParams c range).unlockErase.toList ++ [c.vEraseReq])
  pollStatus .erase slave range (rangeParams c range).status c.eraseDoneMask c.eraseBudget c.eraseBudget

/-- `erase(slave, range)` (R136). -/
def opErase (slave : Nat) (range : FlashRange) : Op Value := do
  guard { slave := slave, mode := .flashStart }
  update (fun s => s.withSes { s.ses with flash := ⟨.erasing, slaveId slave, range⟩ })
  note .started .erase
  let s ← get
  onError (eraseFrames s.cfg (slaveId slave) range) (failNoted .erase)
  update (fun t => t.setFlashState .programming)
  note .completed .erase
  return .unit

/-! ## program (R138) -/

/-- The download writes of `program`, `left` words still allowed in the present burst; before each burst of `BURST_WORDS`
words, with `FLOW_CONTROL`, the engine waits for room (R138–R140). -/
def download (c : Cfg) (slave : SlaveId) (addr : Byte) : Nat → List Word16 → Op Unit
  | _, [] => return ()
  | 0, w :: ws => do
    if c.flowControl then awaitRoom c c.fifoBudget
    regWr slave .sport addr w
    download c slave addr (c.burstWords - 1) ws
  | left + 1, w :: ws => do
    regWr slave .sport addr w
    download c slave addr left ws

/-- `program(image)` (R138): acts on the session's slave and range; the state stays `Programming`. -/
def opProgram (image : List Byte) : Op Value := do
  guard { mode := .flashStep .programming }
  let s ← get
  onError (download s.cfg s.ses.flash.slave (rangeParams s.cfg s.ses.flash.range).download 0
    (imageWords s.cfg.imagePad image)) failStep
  return .unit

/-! ## finalize (R141) -/

/-- The frames of `finalize`: the download-end word, then the acknowledgement wait. -/
def finalizeFrames (c : Cfg) (slave : SlaveId) (range : FlashRange) : Op Unit := do
  regWr slave .sport (rangeParams c range).ctrl c.vDownloadEnd
  pollStatus .finalize slave range (rangeParams c range).status c.downloadDoneMask c.finalizeBudget c.finalizeBudget

/-- `finalize()` (R141). -/
def opFinalize : Op Value := do
  guard { mode := .flashStep .programming }
  let s ← get
  update (fun t => t.setFlashState .finalizing)
  note .started .finalize
  onError (finalizeFrames s.cfg s.ses.flash.slave s.ses.flash.range) (failNoted .finalize)
  update (fun t => t.setFlashState .rebooting)
  note .completed .finalize
  return .unit

/-! ## reboot (R143) -/

/-- `S.flash.state <- Done`; the slave is no longer enabled and its identity is forgotten (R143). -/
def State.rebooted (s : State) (slave : SlaveId) : State :=
  (s.withSes (s.ses.setEntry slave { s.ses.entry slave with enabled := false, info := none })).setFlashState .done

/-- `reboot()` (R143): the seven reboot words and the request; nothing is polled. -/
def opReboot : Op Value := do
  guard { mode := .flashStep .rebooting }
  let s ← get
  onError (writeWords s.ses.flash.slave .sport (rangeParams s.cfg s.ses.flash.range).ctrl
    (s.cfg.vUnlockReboot.toList ++ [s.cfg.vRebootReq])) failStep
  update (fun t => t.rebooted s.ses.flash.slave)
  return .unit

/-! ## abortFlash (R145) and the composite (R146) -/

/-- `abortFlash()` (R145): no guard, no frame. -/
def opAbortFlash : Op Value := do
  update (fun s => if s.ses.busy then s.setFlashState .failed else s)
  return .unit

/-- `flash(slave, range, image)` (R146): the four steps, stopping at the first that raises. -/
def opFlash (slave : Nat) (range : FlashRange) (image : List Byte) : Op Value := do
  let _ ← opErase slave range
  let _ ← opProgram image
  let _ ← opFinalize
  let _ ← opReboot
  return .unit

/-! ## The host operations -/

/-- The host operation `erase`. -/
def execErase (slave : Nat) (range : FlashRange) (s : State) : Host.Outcome State Fault Refusal :=
  .next (hostOp .erase (opErase slave range) s)

/-- The host operation `program`. -/
def execProgram (image : List Byte) (s : State) : Host.Outcome State Fault Refusal :=
  .next (hostOp .program (opProgram image) s)

/-- The host operation `finalize`. -/
def execFinalize (s : State) : Host.Outcome State Fault Refusal :=
  .next (hostOp .finalize opFinalize s)

/-- The host operation `reboot`. -/
def execReboot (s : State) : Host.Outcome State Fault Refusal :=
  .next (hostOp .reboot opReboot s)

/-- The host operation `abortFlash`. -/
def execAbortFlash (s : State) : Host.Outcome State Fault Refusal :=
  .next (hostOp .abortFlash opAbortFlash s)

/-- The host operation `flash`. -/
def execFlash (slave : Nat) (range : FlashRange) (image : List Byte) (s : State) : Host.Outcome State Fault Refusal :=
  .next (hostOp .flash (opFlash slave range image) s)

end Sys2Proof.Machine
end

