-- ==== Sys2Proof/Machine/Mfd.lean ====
section
/-! DEFINITION. Manufacturing-data records (spec/45_mfd.md): the record codec as host operations, the write over the flash
engine and the read-back. -/

namespace Sys2Proof.Machine

/-- `encodeMFD(record)` (R148). -/
def opEncodeMFD (record : Record) : Op Value := fun s =>
  if validRecord s.cfg record then .ok (.bytes (encodeRecord s.cfg record)) s
  else .error (.invalidRecord (.record record)) s

/-- `decodeMFD(bytes)` (R149). -/
def opDecodeMFD (bs : List Byte) : Op Value := fun s =>
  match decodeRecord bs with
  | some r => .ok (.record r) s
  | none => .error (.invalidRecord (.stream bs)) s

/-- The end of an MFD write (R150): `reboot()` if `MFD_REBOOT`, else `S.flash.state <- Done`. -/
def finishMFD (mfdReboot : Bool) : Op Unit :=
  if mfdReboot then do
    let _ ← opReboot
  else
    update (fun t => t.setFlashState .done)

/-- `writeManufacturingData(slave, record)` (R150). -/
def opWriteManufacturingData (slave : Nat) (record : Record) : Op Value := do
  guard { slave := slave, record := record, mode := .flashStart }
  let s ← get
  let _ ← opErase slave .manufacturingData
  let _ ← opProgram (encodeRecord s.cfg record)
  let _ ← opFinalize
  finishMFD s.cfg.mfdReboot
  return .unit

/-- The reads of `readManufacturingData` (R151): at most n words from index i on, appended to buf, until the record
ends. -/
def readRecordBytes (slave : SlaveId) (base : Byte) : Nat → Nat → List Byte → Op (List Byte)
  | 0, _, buf => return buf
  | n + 1, i, buf => do
    let w ← regRdS slave (addrAt base i)
    if recordEnds (buf ++ [hi w, lo w]) w then
      return buf ++ [hi w, lo w]
    else
      readRecordBytes slave base n (i + 1) (buf ++ [hi w, lo w])

/-- `readManufacturingData(slave)` (R151). -/
def opReadManufacturingData (slave : Nat) : Op Value := do
  guard { slave := slave }
  let s ← get
  let buf ← readRecordBytes (slaveId slave) s.cfg.aMfdRead s.cfg.mfdMaxWords 0 []
  opDecodeMFD (recordCut buf)

/-- The host operation `encodeMFD`. -/
def execEncodeMFD (record : Record) (s : State) : Host.Outcome State Fault Refusal :=
  .next (hostOp .encodeMFD (opEncodeMFD record) s)

/-- The host operation `decodeMFD`. -/
def execDecodeMFD (bs : List Byte) (s : State) : Host.Outcome State Fault Refusal :=
  .next (hostOp .decodeMFD (opDecodeMFD bs) s)

/-- The host operation `writeManufacturingData`. -/
def execWriteManufacturingData (slave : Nat) (record : Record) (s : State) : Host.Outcome State Fault Refusal :=
  .next (hostOp .writeManufacturingData (opWriteManufacturingData slave record) s)

/-- The host operation `readManufacturingData`. -/
def execReadManufacturingData (slave : Nat) (s : State) : Host.Outcome State Fault Refusal :=
  .next (hostOp .readManufacturingData (opReadManufacturingData slave) s)

end Sys2Proof.Machine
end

