-- ==== Sys2Proof/Machine/System.lean ====
section
/-! DEFINITION. `reset()` (spec/70_reset_and_hazards.md R183). -/

namespace Sys2Proof.Machine

/-- `S <- the reset state`, every field (R183, 10_state.md R41); `H`, the configuration, the target and what waits are
kept (log 22). -/
def opReset : Op Value := do
  update (fun s => s.withSes Session.reset)
  return .unit

/-- The host operation `reset`. -/
def execReset (s : State) : Host.Outcome State Fault Refusal :=
  .next (hostOp .reset opReset s)

end Sys2Proof.Machine
end

