-- ==== Sys2Proof/Machine/Dispatch.lean ====
section
/-! DEFINITION. One arm per instruction: the frame kinds of spec/30_encoding.md R81, then the host operations of R84. -/

namespace Sys2Proof.Machine

def exec (i : Instr) (s : State) : Host.Outcome State Fault Refusal :=
  match i with
  | .port0Rd p sl => Sys2Proof.Machine.execPort0Rd p sl s
  | .port1Rd p sl => Sys2Proof.Machine.execPort1Rd p sl s
  | .sportRd p sl a d => Sys2Proof.Machine.execSportRd p sl a d s
  | .busctrlRd p sl a d => Sys2Proof.Machine.execBusctrlRd p sl a d s
  | .port0Wr p sl v => Sys2Proof.Machine.execPort0Wr p sl v s
  | .port1Wr p sl v => Sys2Proof.Machine.execPort1Wr p sl v s
  | .sportWr p sl a d => Sys2Proof.Machine.execSportWr p sl a d s
  | .busctrlWr p sl a d => Sys2Proof.Machine.execBusctrlWr p sl a d s
  | .setPower b => Sys2Proof.Machine.execSetPower b s
  | .encode power slave w channel addr data => Sys2Proof.Machine.execEncode power slave w channel addr data s
  | .decode raw => Sys2Proof.Machine.execDecode raw s
  | .writeRegister slave channel addr value => Sys2Proof.Machine.execWriteRegister slave channel addr value s
  | .readRegister slave channel addr => Sys2Proof.Machine.execReadRegister slave channel addr s
  | .getSlaveInfo slave => Sys2Proof.Machine.execGetSlaveInfo slave s
  | .exchange slave port0 port1 => Sys2Proof.Machine.execExchange slave port0 port1 s
  | .scan budget => Sys2Proof.Machine.execScan budget s
  | .enable slave => Sys2Proof.Machine.execEnable slave s
  | .erase slave range => Sys2Proof.Machine.execErase slave range s
  | .program image => Sys2Proof.Machine.execProgram image s
  | .finalize => Sys2Proof.Machine.execFinalize s
  | .reboot => Sys2Proof.Machine.execReboot s
  | .abortFlash => Sys2Proof.Machine.execAbortFlash s
  | .flash slave range image => Sys2Proof.Machine.execFlash slave range image s
  | .encodeMFD record => Sys2Proof.Machine.execEncodeMFD record s
  | .decodeMFD bytes => Sys2Proof.Machine.execDecodeMFD bytes s
  | .writeManufacturingData slave record => Sys2Proof.Machine.execWriteManufacturingData slave record s
  | .readManufacturingData slave => Sys2Proof.Machine.execReadManufacturingData slave s
  | .reset => Sys2Proof.Machine.execReset s

end Sys2Proof.Machine
end

