-- ==== Sys2Proof/Machine/Step.lean ====
section
/-! DEFINITION. One step of the machine: the host's next call is decoded and run to its end; a frame on the Transport, which
no run has, comes before it. -/

namespace Sys2Proof.Machine

/-- The refusal of a form without a meaning (60_exceptions.md R182b). -/
def refusalOf : DecodeError → Refusal
  | .shortFrame len => .shortFrame len
  | .unknownOperation name => .unknownOperation name
  | .argumentForm name => .argumentForm name

/-- The machine with these host calls still to come. -/
def State.withRequests (s : State) (rs : List HostCall) : State := { s with requests := rs }

/-- The machine with this frame on the Transport (log 7). -/
def State.withLine (s : State) (f : Option Frame) : State := { s with bus := { s.bus with line := f } }

/-- A form read as an instruction and run; a form without a meaning is refused. -/
def runForm (w : Form) (s : State) : Host.Outcome State Fault Refusal :=
  match decode s.cfg w with
  | .ok i => exec i s
  | .error e => .refused (refusalOf e)

/-- One step: the host's next call is taken and run. With no call waiting the controller stays as it is and sends nothing
(20_memory.md R54). A frame that stands on the Transport is served first (R59, log 7): no run has one. -/
def step (s : State) : Host.Outcome State Fault Refusal :=
  match s.bus.line with
  | some f => runForm (.frame f) (s.withLine none)
  | none =>
    match s.requests with
    | [] => .next s
    | r :: rest => runForm (.call r) (s.withRequests rest)

/-- The machine with one command frame, whose low bits are those of a word of the opcode table, on the Transport (log 7,
log 12). -/
def State.withFetchWord (s : State) (nbits w : Nat) : State :=
  s.withLine (some (tableFrame s.cfg nbits w))

end Sys2Proof.Machine
end

