-- ==== Sys2Proof/Safety.lean ====
section
/-! DEFINITION. The terms claims about runs are stated in: what holds between operations (spec/70_reset_and_hazards.md
R196), the frames and results a history holds (spec/10_state.md R38), and environments that keep the contract
(spec/00_scope.md R20, spec/20_memory.md R62–R69). -/

namespace Sys2Proof.Machine

/-! ## Between operations -/

/-- What holds of a session between operations: no chip select, no pending write, the sequencer idle, the flash state one
that outlives an operation, and no open session once dead (R196, 10_state.md R25, R34, R35, 44_flash_engine.md R135,
60_exceptions.md R166). -/
structure Session.Settled (u : Session) : Prop where
  sel : u.sel = false
  pendWr0 : u.pendWr0 = false
  pendWr1 : u.pendWr1 = false
  pc : u.pc = .idle
  notErasing : u.flash.state ≠ .erasing
  notFinalizing : u.flash.state ≠ .finalizing
  deadNotBusy : u.dead = true → u.busy = false

/-- What holds of the target's record: memory in its canonical form, at most `LAG` port answers on their way. -/
structure Bus.Sound (c : Cfg) (b : Bus) : Prop where
  mem : b.mem.wf
  pipe : b.pipe.length ≤ c.lag

/-- The invariant of the machine between steps. -/
structure State.Inv (s : State) : Prop where
  ses : s.ses.Settled
  bus : s.bus.Sound s.cfg

/-! ## Reading a history -/

/-- The (command, response) pairs of the completed exchanges of a history, in order. -/
def framePairs : List Event → List (Frame × Frame)
  | [] => []
  | .frame tx rx :: es => (tx, rx) :: framePairs es
  | .select _ :: es => framePairs es
  | .txFail _ :: es => framePairs es
  | .note _ _ :: es => framePairs es
  | .ret _ _ :: es => framePairs es

/-- The commands of a history, completed or failed, in order: every frame sent. -/
def sentFrames : List Event → List Frame
  | [] => []
  | .frame tx _ :: es => tx :: sentFrames es
  | .txFail tx :: es => tx :: sentFrames es
  | .select _ :: es => sentFrames es
  | .note _ _ :: es => sentFrames es
  | .ret _ _ :: es => sentFrames es

/-- The `Return` events of a history, in order. -/
def returns : List Event → List (OpName × Result)
  | [] => []
  | .ret op r :: es => (op, r) :: returns es
  | .frame _ _ :: es => returns es
  | .txFail _ :: es => returns es
  | .select _ :: es => returns es
  | .note _ _ :: es => returns es

/-- A frame of the form every builder gives it: N bytes, bit 2 of the control byte clear (30_encoding.md R78, R85,
40_frame_codec.md R97). -/
structure WellBuilt (c : Cfg) (f : Frame) : Prop where
  length : f.length = c.frameLen
  bit2 : (f.getD 0 0).getLsbD 2 = false

/-- The events a step added to the history. -/
def newEvents (s t : State) : List Event := t.hist.drop s.hist.length

/-- The commands of a history whose exchange failed (20_memory.md R57), in order. -/
def txFails : List Event → List Frame
  | [] => []
  | .txFail tx :: es => tx :: txFails es
  | .frame _ _ :: es => txFails es
  | .select _ :: es => txFails es
  | .note _ _ :: es => txFails es
  | .ret _ _ :: es => txFails es

/-- From chip select at `on`, a history changes chip select at every select event, sends frames only while it is
asserted, and ends with it off: every logical transaction is bracketed (20_memory.md R58). -/
def bracketed : Bool → List Event → Bool
  | on, [] => !on
  | on, .select v :: es => (v != on) && bracketed v es
  | on, .frame _ _ :: es => on && bracketed on es
  | on, .txFail _ :: es => on && bracketed on es
  | on, .note _ _ :: es => bracketed on es
  | on, .ret _ _ :: es => bracketed on es

/-- The bus after the exchanges of a history: one answer taken for each, its command accepted by the target. -/
def Bus.replay (c : Cfg) (b : Bus) : List (Frame × Frame) → Bus
  | [] => b
  | (tx, _) :: rest => Bus.replay c ((b.takeAnswer c).accept c tx) rest

/-- Every exchange of a history was answered as the environment contract allows, from a state b of the target with the read
window w, where the registers of `own` are the target's to change. A frame whose exchange failed may or may not have landed
(log 3). -/
def Bus.keepsContract (c : Cfg) (own : List Nat) (b : Bus) (w : ReadWindow) : List Event → Bool
  | [] => true
  | .select _ :: es => b.keepsContract c own none es
  | .frame tx rx :: es =>
    contractAllows c own b w tx rx &&
      ((b.takeAnswer c).accept c tx).keepsContract c own (nextWindow c b ((b.takeAnswer c).accept c tx) w tx) es
  | .txFail tx :: es =>
    (b.takeAnswer c).keepsContract c own w es ||
      ((b.takeAnswer c).accept c tx).keepsContract c own (nextWindow c b ((b.takeAnswer c).accept c tx) w tx) es
  | .note _ _ :: es => b.keepsContract c own w es
  | .ret _ _ :: es => b.keepsContract c own w es

/-- The machine after a run of the controller in which every exchange was answered: `H` has the events es more, the
session record is u, and the bus has seen the frames of es. -/
def State.after (s : State) (es : List Event) (u : Session) : State :=
  { s with hist := s.hist ++ es, ses := u, bus := s.bus.replay s.cfg (framePairs es) }

/-- The machine after an operation that sent no frame and changed nothing of the session but what u says: `H` has its
`Return` more (10_state.md R38). -/
def State.returned (s : State) (op : OpName) (r : Result) (u : Session) : State :=
  s.after [.ret op r] { u with pc := .idle }

/-! ## Host operations and their checks -/

/-- The host operation an instruction is; a frame kind is none (30_encoding.md R84). -/
def opOf : Instr → Option OpName
  | .port0Rd _ _ => none
  | .port1Rd _ _ => none
  | .sportRd _ _ _ _ => none
  | .busctrlRd _ _ _ _ => none
  | .port0Wr _ _ _ => none
  | .port1Wr _ _ _ => none
  | .sportWr _ _ _ _ => none
  | .busctrlWr _ _ _ _ => none
  | .setPower _ => some .setPower
  | .encode _ _ _ _ _ _ => some .encode
  | .decode _ => some .decode
  | .writeRegister _ _ _ _ => some .writeRegister
  | .readRegister _ _ _ => some .readRegister
  | .getSlaveInfo _ => some .getSlaveInfo
  | .exchange _ _ _ => some .exchange
  | .scan _ => some .scan
  | .enable _ => some .enable
  | .erase _ _ => some .erase
  | .program _ => some .program
  | .finalize => some .finalize
  | .reboot => some .reboot
  | .abortFlash => some .abortFlash
  | .flash _ _ _ => some .flash
  | .encodeMFD _ => some .encodeMFD
  | .decodeMFD _ => some .decodeMFD
  | .writeManufacturingData _ _ => some .writeManufacturingData
  | .readManufacturingData _ => some .readManufacturingData
  | .reset => some .reset

/-- The arguments with which a frame-sending operation runs `guard` (60_exceptions.md R164); `flash` has the check of
its first step (44_flash_engine.md R146). -/
def guardOf : Instr → Option GuardArgs
  | .writeRegister sl ch a _ => some { slave := sl, channel := ch, regChannel := true, addr := a }
  | .readRegister sl ch a => some { slave := sl, channel := ch, regChannel := true, addr := a }
  | .getSlaveInfo sl => some { slave := sl }
  | .exchange sl _ _ => some { slave := sl }
  | .scan _ => some { }
  | .enable sl => some { slave := sl }
  | .erase sl _ => some { slave := sl, mode := .flashStart }
  | .program _ => some { mode := .flashStep .programming }
  | .finalize => some { mode := .flashStep .programming }
  | .reboot => some { mode := .flashStep .rebooting }
  | .flash sl _ _ => some { slave := sl, mode := .flashStart }
  | .writeManufacturingData sl r => some { slave := sl, record := r, mode := .flashStart }
  | .readManufacturingData sl => some { slave := sl }
  | .port0Rd _ _ => none
  | .port1Rd _ _ => none
  | .sportRd _ _ _ _ => none
  | .busctrlRd _ _ _ _ => none
  | .port0Wr _ _ _ => none
  | .port1Wr _ _ _ => none
  | .sportWr _ _ _ _ => none
  | .busctrlWr _ _ _ _ => none
  | .setPower _ => none
  | .encode _ _ _ _ _ _ => none
  | .decode _ => none
  | .abortFlash => none
  | .encodeMFD _ => none
  | .decodeMFD _ => none
  | .reset => none

/-- What an operation may write of the session, from u to v (10_state.md R40; slave and range of the flash record are
written by `erase` alone, R30): every field not named keeps its value. Between operations the position is idle (R35).
A frame kind is no operation and writes no field (40_frame_codec.md R97, log 7). -/
def writesOnly (i : Instr) (u v : Session) : Prop :=
  match i with
  | .setPower _ => v = { u with power := v.power, pc := .idle }
  | .writeRegister _ _ _ _ => v = { u with sel := v.sel, dead := v.dead, pc := .idle }
  | .readRegister _ _ _ => v = { u with sel := v.sel, dead := v.dead, pc := .idle }
  | .readManufacturingData _ => v = { u with sel := v.sel, dead := v.dead, pc := .idle }
  | .getSlaveInfo sl =>
    v = { u.setEntry (slaveId sl) { u.entry (slaveId sl) with info := (v.entry (slaveId sl)).info } with
          sel := v.sel, dead := v.dead, pc := .idle }
  | .exchange _ _ _ =>
    v = { u with curSlave := v.curSlave, pendWr0 := v.pendWr0, pendWr1 := v.pendWr1, pendVal0 := v.pendVal0,
                 pendVal1 := v.pendVal1, errSummary := v.errSummary, sel := v.sel, dead := v.dead, pc := .idle }
  | .scan _ =>
    v = { u with presence := v.presence, scanStatus := v.scanStatus, slaves := v.slaves, sel := v.sel, dead := v.dead,
                 pc := .idle }
  | .enable sl =>
    v = { u.setEntry (slaveId sl) { u.entry (slaveId sl) with enabled := (v.entry (slaveId sl)).enabled } with
          sel := v.sel, dead := v.dead, pc := .idle }
  | .erase _ _ => v = { u with flash := v.flash, sel := v.sel, dead := v.dead, pc := .idle }
  | .program _ =>
    v = { u with flash := { u.flash with state := v.flash.state }, sel := v.sel, dead := v.dead, pc := .idle }
  | .finalize =>
    v = { u with flash := { u.flash with state := v.flash.state }, sel := v.sel, dead := v.dead, pc := .idle }
  | .reboot =>
    v = { u.setEntry u.flash.slave { u.entry u.flash.slave with
            enabled := (v.entry u.flash.slave).enabled, info := (v.entry u.flash.slave).info } with
          flash := { u.flash with state := v.flash.state }, sel := v.sel, dead := v.dead, pc := .idle }
  | .flash sl _ _ =>
    v = { u.setEntry (slaveId sl) { u.entry (slaveId sl) with
            enabled := (v.entry (slaveId sl)).enabled, info := (v.entry (slaveId sl)).info } with
          flash := v.flash, sel := v.sel, dead := v.dead, pc := .idle }
  | .writeManufacturingData sl _ =>
    v = { u.setEntry (slaveId sl) { u.entry (slaveId sl) with
            enabled := (v.entry (slaveId sl)).enabled, info := (v.entry (slaveId sl)).info } with
          flash := v.flash, sel := v.sel, dead := v.dead, pc := .idle }
  | .abortFlash => v = { u with flash := { u.flash with state := v.flash.state }, pc := .idle }
  | .encode _ _ _ _ _ _ => v = { u with pc := .idle }
  | .decode _ => v = { u with pc := .idle }
  | .encodeMFD _ => v = { u with pc := .idle }
  | .decodeMFD _ => v = { u with pc := .idle }
  | .reset => v = Session.reset
  | .port0Rd _ _ => v = u
  | .port1Rd _ _ => v = u
  | .sportRd _ _ _ _ => v = u
  | .busctrlRd _ _ _ _ => v = u
  | .port0Wr _ _ _ => v = u
  | .port1Wr _ _ _ => v = u
  | .sportWr _ _ _ _ => v = u
  | .busctrlWr _ _ _ _ => v = u

/-! ## Runs in which every exchange is answered -/

/-- The next answers of the Transport are these responses, of N bytes each. -/
def State.willAnswer (s : State) (rxs : List Frame) : Prop :=
  rxs.map Answer.ok <+: s.bus.answers ∧ ∀ rx ∈ rxs, rx.length = s.cfg.frameLen

/-- A logical transaction that sends one frame over and over: the frame, and the response to each sending. -/
abbrev Txn := Frame × List Frame

/-- The events of a logical transaction (20_memory.md R58). -/
def Txn.events (x : Txn) : List Event := .select true :: (x.2.map (.frame x.1) ++ [.select false])

/-- The events of logical transactions, one after another. -/
def eventsOf (xs : List Txn) : List Event := xs.flatMap Txn.events

/-- The responses logical transactions take, in order. -/
def answersOf (xs : List Txn) : List Frame := xs.flatMap Prod.snd

/-- The writes of words to one register, each with its ignored response (41_register_bus.md R99). -/
def writeTxns (c : Cfg) (power : Bool) (sl : SlaveId) (ch : Channel) (a : Byte) (ws : List Word16) (rs : List Frame) :
    List Txn :=
  List.zipWith (fun w r => (registerFrame c ⟨power, sl, true, ch, a, w⟩, [r])) ws rs

/-- Reads of registers, each with the responses it takes (41_register_bus.md R101, R102). -/
def readTxns (c : Cfg) (power : Bool) (sl : SlaveId) (ch : Channel) (as : List Byte) (rss : List (List Frame)) :
    List Txn :=
  List.zipWith (fun a rs => (registerFrame c ⟨power, sl, false, ch, a, 0⟩, rs)) as rss

/-- What an SPort read returns that takes exactly these responses: a setup response, polls without data-valid, and one
poll with it, at most `READ_BUDGET` polls in all (41_register_bus.md R101). -/
def sportRead (c : Cfg) : List Frame → Option Word16
  | [] => none
  | _ :: polls =>
    match polls.getLast? with
    | none => none
    | some rx =>
      if polls.length ≤ c.readBudget ∧ (∀ p ∈ polls.dropLast, respValid c p = false) ∧ respValid c rx = true then
        some (respWord c rx)
      else none

/-- Status words polled until one shows a bit of the mask: only the last does (44_flash_engine.md R142). -/
def ShownLast (mask : Word16) (budget : Nat) (ws : List Word16) : Prop :=
  ws.length ≤ budget ∧ ∃ init last, ws = init ++ [last] ∧ (∀ w ∈ init, maskSet w mask = false) ∧ maskSet last mask = true

/-- The transactions of an erase that succeeds (44_flash_engine.md R136, R142). -/
def EraseTxns (c : Cfg) (power : Bool) (sl : SlaveId) (r : FlashRange) (xs : List Txn) : Prop :=
  ∃ rs rss ws, rs.length = 8 ∧ rss.map (sportRead c) = ws.map some ∧ ShownLast c.eraseDoneMask c.eraseBudget ws ∧
    xs = writeTxns c power sl .sport (rangeParams c r).ctrl ((rangeParams c r).unlockErase.toList ++ [c.vEraseReq]) rs ++
      readTxns c power sl .sport (rss.map fun _ => (rangeParams c r).status) rss

/-- The words of burst b (44_flash_engine.md R138). -/
def burstAt (c : Cfg) (ws : List Word16) (b : Nat) : List Word16 := (ws.drop (b * c.burstWords)).take c.burstWords

/-- FIFO status responses until one shows room: only the last does (44_flash_engine.md R139). -/
def RoomLast (c : Cfg) (rs : List Frame) : Prop :=
  rs.length ≤ c.fifoBudget ∧ ∃ init last, rs = init ++ [last] ∧
    (∀ r ∈ init, maskSet (respWord c r) c.fifoHalfFullMask = true) ∧
    maskSet (respWord c last) c.fifoHalfFullMask = false

/-- The transactions of one burst: its FIFO status reads, then its download writes (44_flash_engine.md R138). -/
def burstTxns (c : Cfg) (power : Bool) (sl : SlaveId) (a : Byte) (ws : List Word16) (rooms acks : List Frame) : List Txn :=
  readTxns c power c.bcSlave .busCtrl (rooms.map fun _ => c.aFifoStatus) (rooms.map fun r => [r]) ++
    writeTxns c power sl .sport a ws acks

/-- The transactions of a program that succeeds, burst by burst (44_flash_engine.md R137–R139). -/
def ProgramTxns (c : Cfg) (power : Bool) (sl : SlaveId) (r : FlashRange) (image : List Byte) (xs : List Txn) : Prop :=
  ∃ bursts : List (List Frame × List Frame),
    bursts.length = ((imageWords c.imagePad image).length + c.burstWords - 1) / c.burstWords ∧
    (∀ x ∈ bursts.zipIdx, x.1.2.length = (burstAt c (imageWords c.imagePad image) x.2).length ∧
      (if c.flowControl then RoomLast c x.1.1 else x.1.1 = [])) ∧
    xs = bursts.zipIdx.flatMap fun x =>
      burstTxns c power sl (rangeParams c r).download (burstAt c (imageWords c.imagePad image) x.2) x.1.1 x.1.2

/-- The transactions of a finalize that succeeds (44_flash_engine.md R141, R142). -/
def FinalizeTxns (c : Cfg) (power : Bool) (sl : SlaveId) (r : FlashRange) (xs : List Txn) : Prop :=
  ∃ rx rss ws, rss.map (sportRead c) = ws.map some ∧ ShownLast c.downloadDoneMask c.finalizeBudget ws ∧
    xs = writeTxns c power sl .sport (rangeParams c r).ctrl [c.vDownloadEnd] [rx] ++
      readTxns c power sl .sport (rss.map fun _ => (rangeParams c r).status) rss

/-- The transactions of an erase whose acknowledgement never shows (44_flash_engine.md R142, 60_exceptions.md R165). -/
def EraseTimeoutTxns (c : Cfg) (power : Bool) (sl : SlaveId) (r : FlashRange) (xs : List Txn) : Prop :=
  ∃ (rs : List Frame) (rss : List (List Frame)) (ws : List Word16), rs.length = 8 ∧
    rss.map (sportRead c) = ws.map some ∧ ws.length = c.eraseBudget ∧
    (∀ w ∈ ws, maskSet w c.eraseDoneMask = false) ∧
    xs = writeTxns c power sl .sport (rangeParams c r).ctrl ((rangeParams c r).unlockErase.toList ++ [c.vEraseReq]) rs ++
      readTxns c power sl .sport (rss.map fun _ => (rangeParams c r).status) rss

/-- Status reads of which the last finds no data-valid in `READ_BUDGET` polls, and the others, fewer than the budget, show no
bit of the mask (44_flash_engine.md R142, 41_register_bus.md R101). -/
def UnansweredLast (c : Cfg) (mask : Word16) (budget : Nat) (rss : List (List Frame)) : Prop :=
  ∃ (init : List (List Frame)) (ws : List Word16) (setup : Frame) (polls : List Frame), rss = init ++ [setup :: polls] ∧
    init.map (sportRead c) = ws.map some ∧ ws.length < budget ∧ (∀ w ∈ ws, maskSet w mask = false) ∧
      (∀ p ∈ polls, respValid c p = false) ∧ polls.length = c.readBudget

/-- The transactions of an erase one of whose status reads is not answered (44_flash_engine.md R136, R142). -/
def EraseUnansweredTxns (c : Cfg) (power : Bool) (sl : SlaveId) (r : FlashRange) (xs : List Txn) : Prop :=
  ∃ (rs : List Frame) (rss : List (List Frame)), rs.length = 8 ∧ UnansweredLast c c.eraseDoneMask c.eraseBudget rss ∧
    xs = writeTxns c power sl .sport (rangeParams c r).ctrl ((rangeParams c r).unlockErase.toList ++ [c.vEraseReq]) rs ++
      readTxns c power sl .sport (rss.map fun _ => (rangeParams c r).status) rss

/-- The transactions of a finalize one of whose status reads is not answered (44_flash_engine.md R141, R142). -/
def FinalizeUnansweredTxns (c : Cfg) (power : Bool) (sl : SlaveId) (r : FlashRange) (xs : List Txn) : Prop :=
  ∃ (rx : Frame) (rss : List (List Frame)), UnansweredLast c c.downloadDoneMask c.finalizeBudget rss ∧
    xs = writeTxns c power sl .sport (rangeParams c r).ctrl [c.vDownloadEnd] [rx] ++
      readTxns c power sl .sport (rss.map fun _ => (rangeParams c r).status) rss

/-- The transactions of a finalize whose acknowledgement never shows (44_flash_engine.md R142, 60_exceptions.md R165). -/
def FinalizeTimeoutTxns (c : Cfg) (power : Bool) (sl : SlaveId) (r : FlashRange) (xs : List Txn) : Prop :=
  ∃ (rx : Frame) (rss : List (List Frame)) (ws : List Word16),
    rss.map (sportRead c) = ws.map some ∧ ws.length = c.finalizeBudget ∧
    (∀ w ∈ ws, maskSet w c.downloadDoneMask = false) ∧
    xs = writeTxns c power sl .sport (rangeParams c r).ctrl [c.vDownloadEnd] [rx] ++
      readTxns c power sl .sport (rss.map fun _ => (rangeParams c r).status) rss

/-- The transactions of a reboot (44_flash_engine.md R143). -/
def RebootTxns (c : Cfg) (power : Bool) (sl : SlaveId) (r : FlashRange) (xs : List Txn) : Prop :=
  ∃ rs, rs.length = 8 ∧
    xs = writeTxns c power sl .sport (rangeParams c r).ctrl (c.vUnlockReboot.toList ++ [c.vRebootReq]) rs

/-- The registers `getSlaveInfo` reads, in order (41_register_bus.md R106). -/
def infoAddrs (c : Cfg) : List Byte :=
  (List.range 8).map (addrAt c.aBoardType) ++ (List.range 8).map (addrAt c.aBoardNumber) ++
    [c.aFeatureId, c.aBugfixId, c.aPortCount]

/-! ## Completion -/

/-- The session is between operations, alive, with no flash session open: every bus operation with valid arguments passes
`guard` (60_exceptions.md R164). -/
structure State.Ready (s : State) : Prop where
  settled : s.ses.Settled
  alive : s.ses.dead = false
  free : s.ses.busy = false

/-- The session is between operations, alive, with the flash state at st: the flash step that st calls for passes `guard`
(60_exceptions.md R164). -/
structure State.ReadyAt (s : State) (st : FlashState) : Prop where
  settled : s.ses.Settled
  alive : s.ses.dead = false
  state : s.ses.flash.state = st

/-- The instruction i answers a next state: `H` has the events es more, the session record is u, and the configuration and
what waits are as they were. What the target records then follows from the frames of es (20_memory.md R72). -/
def State.completes (s : State) (i : Instr) (es : List Event) (u : Session) : Prop :=
  ∃ t, exec i s = .next t ∧ t.hist = s.hist ++ es ∧ t.ses = u ∧ t.params = s.params ∧ t.requests = s.requests

/-- The events of a flash step that notifies and completes (44_flash_engine.md R136, R141). -/
def notedEvents (n : NoteOp) (xs : List Txn) : List Event :=
  .note .started n :: (eventsOf xs ++ [.note .completed n])

/-- The events of a flash step that notifies and times out (44_flash_engine.md R136, R141). -/
def timedOutEvents (n : NoteOp) (xs : List Txn) : List Event :=
  .note .started n :: (eventsOf xs ++ [.note .timedOut n])

/-- The session after a reboot of slave sl (44_flash_engine.md R143). -/
def rebootedSession (sl : SlaveId) (u : Session) : Session :=
  { u.setEntry sl { u.entry sl with enabled := false, info := none } with flash := { u.flash with state := .done } }

/-- The session after a completed exchange (42_bulk_port.md R115, R116). -/
def exchangedSession (u : Session) (sl : SlaveId) (p0 p1 : Option PortBytes) (err : Word16) : Session :=
  { (({ u with curSlave := sl } : Session).request .zero p0).request .one p1 with
    errSummary := some err, pendWr0 := false, pendWr1 := false, sel := false }

/-- The bytes of words, high byte first (20_memory.md R48). -/
def wordBytes (ws : List Word16) : List Byte := ws.flatMap fun w => [hi w, lo w]

/-! ## Frames and the cells they store to -/

/-- Frame f comes from a builder as instruction i calls it in state s (40_frame_codec.md R93–R95, R97): from `regFrame` for
SPort or BusCtrl, or in an exchange from `portFrame`, with the pending writes of that exchange, or from `flushFrame`. -/
def BuiltBy (s : State) (i : Instr) (f : Frame) : Prop :=
  (∃ sl w ch a d, (ch = .sport ∨ ch = .busCtrl) ∧ f = s.regFrame sl w ch a d) ∨
    ∃ sl p0 p1, i = .exchange sl p0 p1 ∧
      ((∃ p, f = (s.beginExchange (slaveId sl) p0 p1).portFrame (slaveId sl) p) ∨ f = s.flushFrame (slaveId sl))

/-- The cells of a register of SPort or BusCtrl. -/
def registerCells (ch : Channel) (sl : SlaveId) (a : Byte) : List Nat :=
  match ch with
  | .sport => [sportCell sl a, sportCell sl a + 1]
  | .busCtrl => [busCtrlCell a, busCtrlCell a + 1]
  | .port0 => []
  | .port1 => []

/-- The cells of a port. -/
def portCells (sl : SlaveId) (p : Port) : List Nat :=
  [portCell sl p, portCell sl p + 1, portCell sl p + 2, portCell sl p + 3]

/-- The cells a port write takes, if the exchange requests one or one was pending. -/
def exchangeCells (sl : SlaveId) (p : Port) (requested : Option PortBytes) (pending : Bool) : List Nat :=
  if requested.isSome ∨ pending = true then portCells sl p else []

/-- The cells of the target an instruction can store to, from its operands and the session (20_memory.md R62–R69). -/
def storedCells (s : State) : Instr → List Nat
  | .sportWr _ sl a _ => registerCells .sport sl a
  | .busctrlWr _ sl a _ => registerCells .busCtrl sl a
  | .port0Wr _ sl _ => portCells sl .zero
  | .port1Wr _ sl _ => portCells sl .one
  | .port0Rd _ _ => []
  | .port1Rd _ _ => []
  | .sportRd _ _ _ _ => []
  | .busctrlRd _ _ _ _ => []
  | .writeRegister sl ch a _ =>
    registerCells (if ch = sportIndex then .sport else .busCtrl) (slaveId sl) (addrByte a)
  | .exchange sl p0 p1 =>
    exchangeCells (slaveId sl) .zero p0 s.ses.pendWr0 ++ exchangeCells (slaveId sl) .one p1 s.ses.pendWr1
  | .scan _ => registerCells .busCtrl s.cfg.bcSlave s.cfg.aScanCtrl
  | .enable sl => registerCells .sport (slaveId sl) s.cfg.aEnableStatus
  | .erase sl r => registerCells .sport (slaveId sl) (rangeParams s.cfg r).ctrl
  | .program _ => registerCells .sport s.ses.flash.slave (rangeParams s.cfg s.ses.flash.range).download
  | .finalize => registerCells .sport s.ses.flash.slave (rangeParams s.cfg s.ses.flash.range).ctrl
  | .reboot => registerCells .sport s.ses.flash.slave (rangeParams s.cfg s.ses.flash.range).ctrl
  | .flash sl r _ =>
    registerCells .sport (slaveId sl) (rangeParams s.cfg r).ctrl ++
      registerCells .sport (slaveId sl) (rangeParams s.cfg r).download
  | .writeManufacturingData sl _ =>
    registerCells .sport (slaveId sl) (rangeParams s.cfg .manufacturingData).ctrl ++
      registerCells .sport (slaveId sl) (rangeParams s.cfg .manufacturingData).download
  | .setPower _ => []
  | .encode _ _ _ _ _ _ => []
  | .decode _ => []
  | .readRegister _ _ _ => []
  | .getSlaveInfo _ => []
  | .abortFlash => []
  | .encodeMFD _ => []
  | .decodeMFD _ => []
  | .readManufacturingData _ => []
  | .reset => []

/-- A command frame stores to these cells at most (20_memory.md R62–R69). -/
def frameCells (c : Cfg) (f : Frame) : List Nat :=
  match decodeFrame c f with
  | .ok (.sportWr _ sl a _) => registerCells .sport sl a
  | .ok (.busctrlWr _ sl a _) => registerCells .busCtrl sl a
  | .ok (.port0Wr _ sl _) => portCells sl .zero
  | .ok (.port1Wr _ sl _) => portCells sl .one
  | _ => []

/-- The place of a channel in the listing order of 40_frame_codec.md R90. -/
def channelIndex : Channel → Nat
  | .port0 => 0
  | .port1 => 1
  | .sport => sportIndex
  | .busCtrl => busCtrlIndex

/-! ## The flash engine -/

/-- The flash state an operation of the flash engine ends in when it returns (44_flash_engine.md R135, 45_mfd.md R150). -/
def flashGoal : Instr → Option FlashState
  | .erase _ _ => some .programming
  | .program _ => some .programming
  | .finalize => some .rebooting
  | .reboot => some .done
  | .flash _ _ _ => some .done
  | .writeManufacturingData _ _ => some .done
  | .port0Rd _ _ => none
  | .port1Rd _ _ => none
  | .sportRd _ _ _ _ => none
  | .busctrlRd _ _ _ _ => none
  | .port0Wr _ _ _ => none
  | .port1Wr _ _ _ => none
  | .sportWr _ _ _ _ => none
  | .busctrlWr _ _ _ _ => none
  | .setPower _ => none
  | .encode _ _ _ _ _ _ => none
  | .decode _ => none
  | .writeRegister _ _ _ _ => none
  | .readRegister _ _ _ => none
  | .getSlaveInfo _ => none
  | .exchange _ _ _ => none
  | .scan _ => none
  | .enable _ => none
  | .abortFlash => none
  | .encodeMFD _ => none
  | .decodeMFD _ => none
  | .readManufacturingData _ => none
  | .reset => none

/-- The flash record of the session an operation of the flash engine acts in, with the state st: `erase` and the composites
open a session for their own slave and range, the other steps act on the open one (10_state.md R30). -/
def flashRecord (i : Instr) (f : FlashSession) (st : FlashState) : FlashSession :=
  match i with
  | .erase sl r => ⟨st, slaveId sl, r⟩
  | .flash sl r _ => ⟨st, slaveId sl, r⟩
  | .writeManufacturingData sl _ => ⟨st, slaveId sl, .manufacturingData⟩
  | _ => { f with state := st }

/-! ## The rows of the spec, as statements name them -/

/-- `W<<3 | CH_CODE(ch)`, the match of a row of 30_encoding.md R81 under the mask 0x0B. -/
def rowMatch (c : Cfg) (w : Bool) (ch : Channel) : Byte :=
  ((BitVec.ofBool w).setWidth 8 <<< 3) ||| (c.chCode ch).setWidth 8

/-- The instruction of a row of 30_encoding.md R81, with the fields its layout gives (R76, R77, R86, R89). -/
def rowInstr (c : Cfg) (f : Frame) (w : Bool) (ch : Channel) : Instr :=
  match w, ch with
  | false, .port0 => .port0Rd ((f.getD 0 0).getLsbD 7) ((f.getD 0 0).extractLsb' 4 3)
  | false, .port1 => .port1Rd ((f.getD 0 0).getLsbD 7) ((f.getD 0 0).extractLsb' 4 3)
  | false, .sport => .sportRd ((f.getD 0 0).getLsbD 7) ((f.getD 0 0).extractLsb' 4 3) (f.getD 1 0) (word (f.getD 2 0) (f.getD 3 0))
  | false, .busCtrl =>
    .busctrlRd ((f.getD 0 0).getLsbD 7) ((f.getD 0 0).extractLsb' 4 3) (f.getD 1 0) (word (f.getD 2 0) (f.getD 3 0))
  | true, .port0 => .port0Wr ((f.getD 0 0).getLsbD 7) ((f.getD 0 0).extractLsb' 4 3) (unbe32 (portBytesAt 0 f c.ptxIdx))
  | true, .port1 => .port1Wr ((f.getD 0 0).getLsbD 7) ((f.getD 0 0).extractLsb' 4 3) (unbe32 (portBytesAt 0 f c.ptxIdx))
  | true, .sport => .sportWr ((f.getD 0 0).getLsbD 7) ((f.getD 0 0).extractLsb' 4 3) (f.getD 1 0) (word (f.getD 2 0) (f.getD 3 0))
  | true, .busCtrl =>
    .busctrlWr ((f.getD 0 0).getLsbD 7) ((f.getD 0 0).extractLsb' 4 3) (f.getD 1 0) (word (f.getD 2 0) (f.getD 3 0))

/-- A canonical decimal numeral (45_mfd.md R147). -/
def Numeral (f : List Byte) : Prop :=
  f ≠ [] ∧ (∀ b ∈ f, 0x30 ≤ b.toNat ∧ b.toNat ≤ 0x39) ∧ (f.head? = some 0x30 → f = [0x30])

/-- A valid record (45_mfd.md R147). -/
def RecordOk (c : Cfg) (r : Record) : Prop :=
  r.length ≤ 14 ∧ ∀ i f, r[i]? = some f →
    (∀ b ∈ f, 0x20 ≤ b.toNat ∧ b.toNat ≤ 0x7E) ∧ (i ∈ c.mfdNumeric → Numeral f)

/-- The stream of a record before its pad: each field, a one-digit numeric one as its literal byte, then 0x0D
(45_mfd.md R148). -/
def recordStream (c : Cfg) (r : Record) : List Byte :=
  r.zipIdx.flatMap fun x => (if x.2 ∈ c.mfdNumeric ∧ x.1.length = 1 then [x.1.getD 0 0 - 0x30] else x.1) ++ [0x0D]

/-- A field of a stream and what it is read back as (45_mfd.md R149). -/
def FieldRead (g f : List Byte) : Prop :=
  if g.length = 1 ∧ (g.getD 0 0).toNat ≤ 9 then f = [0x30 + g.getD 0 0]
  else (∀ b ∈ g, 0x20 ≤ b.toNat ∧ b.toNat ≤ 0x7E) ∧ f = g

/-- A stream and the record it is read back as (45_mfd.md R149). -/
def StreamRead (bs : List Byte) (r : Record) : Prop :=
  ∃ gs rest, bs = gs.flatMap (fun g => g ++ [0x0D]) ++ rest ∧ (∀ g ∈ gs, (0x0D : Byte) ∉ g) ∧
    (rest = [] ∨ rest = [0x00]) ∧ gs.length ≤ 14 ∧ List.Forall₂ FieldRead gs r

/-- The arguments of a `guard` are valid: its checks up to the dead session pass (60_exceptions.md R164). -/
structure GuardArgs.Valid (c : Cfg) (g : GuardArgs) : Prop where
  slave : ∀ sl, g.slave = some sl → sl ≤ 7
  channel : ∀ ch, g.channel = some ch → ch ≤ 3 ∧ (g.regChannel = true → 2 ≤ ch)
  addr : ∀ a, g.addr = some a → a ≤ 255
  record : ∀ r, g.record = some r → RecordOk c r

end Sys2Proof.Machine
end

