-- ==== Sys2Proof/Certificates/Slice0/Obligations.lean ====
section
/-! DEFINITION. The statements for the provers. Each holds for every admissible configuration: the configuration is part
of the state (log 1). Answers of the Transport appear as premises only (spec/00_scope.md R20). What the target records
(`bus.mem`, `bus.fifo`, `bus.pipe`) is the environment contract of spec/20_memory.md R62–R69 in the model's form
(log 4, log 6). -/

section Statements

open Sys2Proof Sys2Proof.Machine

/-! ## Encoding -/

/-- Decoding the form an instruction is written in gives that instruction, with every operand at every value and under
every admissible frame layout: the frames of 30_encoding.md R76, R77, R81 and the calls of R84. -/
def Obligations.DecodeReadsBackEncode : Prop :=
  ∀ (c : Cfg) (i : Instr), c.LayoutOk → decode c (encode c i) = .ok i

/-- Words written out from the layouts of 30_encoding.md R75–R77, R81 under the reference configuration, byte 0 lowest:
`BA 10 12 34`, `B2 41`, `83 02`, `8B 00 00 02`, `A8 00 12 34 56 78`, `59 00 00 00 00 01`, `20`, `A1`. -/
def Obligations.TableWordsDecode : Prop :=
  decodeTableWord 64 0x341210BA = some (.sportWr true 3 0x10 0x1234) ∧
  decodeTableWord 64 0x000041B2 = some (.sportRd true 3 0x41 0x0000) ∧
  decodeTableWord 64 0x00000283 = some (.busctrlRd true 0 0x02 0x0000) ∧
  decodeTableWord 64 0x0200008B = some (.busctrlWr true 0 0x00 0x0002) ∧
  decodeTableWord 64 0x7856341200A8 = some (.port0Wr true 2 0x12345678) ∧
  decodeTableWord 64 0x010000000059 = some (.port1Wr false 5 0x00000001) ∧
  decodeTableWord 8 0x20 = some (.port0Rd false 2) ∧
  decodeTableWord 8 0xA1 = some (.port1Rd true 2)

/-- Frame classification (30_encoding.md R81, R89): under the mask 0x0B every control byte matches a row; the frame is the
instruction of that row, with power bit, slave and layout as R89 says; a frame under 4 bytes is refused, and no other is.
That a frame of another length than N, from 4 bytes on, is read at all is the model's choice (log 11). -/
def Obligations.FrameClassificationIsTotal : Prop :=
  ∀ (c : Cfg) (f : Frame), c.LayoutOk →
    (f.length = c.frameLen →
      (∃ w ch, f.getD 0 0 &&& 0x0B = rowMatch c w ch) ∧
      ∀ w ch, f.getD 0 0 &&& 0x0B = rowMatch c w ch → decodeFrame c f = .ok (rowInstr c f w ch)) ∧
    (f.length < 4 → decodeFrame c f = .error (.shortFrame f.length)) ∧
    (4 ≤ f.length → ∃ i, decodeFrame c f = .ok i)

/-- The codec laws of 40_frame_codec.md R96, of the host operations `encode` and `decode`. -/
def Obligations.CodecLaws : Prop :=
  ∀ s : State,
    (∀ (power : Bool) (slave : Nat) (w : Bool) (channel : Nat) (ch : Channel) (addr : Nat) (data : Word16),
      slave ≤ 7 → channelIndex ch = channel → addr ≤ 255 → ∃ bs,
        exec (.encode power slave w channel addr data) s = .next (s.returned .encode (.ok (.bytes bs)) s.ses) ∧
        exec (.decode bs) s =
          .next (s.returned .decode (.ok (.frame ⟨power, slaveId slave, w, ch, addrByte addr, data⟩)) s.ses)) ∧
    (∀ (raw : List Byte) (f : FrameFields),
      exec (.decode raw) s = .next (s.returned .decode (.ok (.frame f)) s.ses) →
      exec (.encode f.power f.slave.toNat f.writeFlag (channelIndex f.channel) f.addr.toNat f.data) s =
        .next (s.returned .encode (.ok (.bytes ((raw.getD 0 0 &&& 0xFB) :: (raw.drop 1).take 3))) s.ses) ∧
      ((raw.getD 0 0).getLsbD 2 = false → (raw.getD 0 0 &&& 0xFB) :: (raw.drop 1).take 3 = raw.take 4)) ∧
    (∀ (power power' : Bool) (slave slave' : Nat) (w w' : Bool) (ch ch' : Channel) (addr addr' : Nat) (data data' : Word16),
      slave ≤ 7 → slave' ≤ 7 → addr ≤ 255 → addr' ≤ 255 →
      exec (.encode power slave w (channelIndex ch) addr data) s =
        exec (.encode power' slave' w' (channelIndex ch') addr' data') s →
      power = power' ∧ slave = slave' ∧ w = w' ∧ ch = ch' ∧ addr = addr' ∧ data = data')

/-- `encode` (40_frame_codec.md R91): the three checks in their order, else the four bytes; nothing else changes. -/
def Obligations.EncodeReturnsTheCommandFrame : Prop :=
  ∀ (s : State) (power : Bool) (slave : Nat) (w : Bool) (channel addr : Nat) (data : Word16),
    (7 < slave → s.completes (.encode power slave w channel addr data)
      [.ret .encode (.error (.invalidSlave slave))] { s.ses with pc := .idle }) ∧
    (slave ≤ 7 → 3 < channel → s.completes (.encode power slave w channel addr data)
      [.ret .encode (.error (.invalidChannel channel))] { s.ses with pc := .idle }) ∧
    (slave ≤ 7 → channel ≤ 3 → 255 < addr → s.completes (.encode power slave w channel addr data)
      [.ret .encode (.error (.invalidAddress addr))] { s.ses with pc := .idle }) ∧
    (∀ ch, slave ≤ 7 → [Channel.port0, .port1, .sport, .busCtrl][channel]? = some ch → addr ≤ 255 →
      s.completes (.encode power slave w channel addr data)
        [.ret .encode (.ok (.bytes
          [BitVec.ofNat 8 (power.toNat <<< 7 ||| slave <<< 4 ||| w.toNat <<< 3 ||| (s.cfg.chCode ch).toNat),
            BitVec.ofNat 8 addr, hi data, lo data]))] { s.ses with pc := .idle })

/-- `decode` (40_frame_codec.md R92): `ShortFrame` under four bytes; else the fields of the first four bytes, of which bit 2
of the first is not read, whatever follows. -/
def Obligations.DecodeReadsTheFirstFourBytes : Prop :=
  ∀ (s : State) (raw : List Byte),
    (raw.length < 4 → s.completes (.decode raw)
      [.ret .decode (.error (.shortFrame raw.length))] { s.ses with pc := .idle }) ∧
    ∀ ctrl a h l rest, raw = ctrl :: a :: h :: l :: rest → ∃ ch, s.cfg.chCode ch = ctrl.extractLsb' 0 2 ∧
      s.completes (.decode raw)
        [.ret .decode (.ok (.frame ⟨ctrl.getLsbD 7, ctrl.extractLsb' 4 3, ctrl.getLsbD 3, ch, a, word h l⟩))]
        { s.ses with pc := .idle }

/-- Every call of a host is a host operation, so none sends a raw frame; and every frame the controller sends, answered or
not, comes from one of the three builders of 40_frame_codec.md R93–R95: `regFrame`, or in an exchange `portFrame`, with the
pending writes of that exchange, or `flushFrame`. It has N bytes, bit 2 of its control byte clear, and the session's power
flag in bit 7 (10_state.md R23, 40_frame_codec.md R97). -/
def Obligations.SentFramesComeFromTheBuilders : Prop :=
  ∀ s : State,
    (∀ (h : HostCall) (i : Instr), decode s.cfg (.call h) = .ok i → ∃ op, opOf i = some op) ∧
    ∀ (i : Instr) (t : State), exec i s = .next t →
      ∀ f ∈ sentFrames (newEvents s t), BuiltBy s i f ∧ WellBuilt s.cfg f ∧ (f.getD 0 0).getLsbD 7 = s.ses.power

/-! ## The step -/

/-- A step takes the host's next call, decodes it and runs the operation; with none waiting the machine stays as it is; a call
that means no instruction is refused, and none ends in a fault (60_exceptions.md R182). How calls wait is the model's choice
(log 8). So is the frame that stands on the Transport by itself, which no run has: it is served first, as its frame kind
(log 7). -/
def Obligations.StepRunsTheDecodedRequest : Prop :=
  ∀ s : State,
    (s.bus.line = none → s.requests = [] → step s = .next s) ∧
    (∀ r rest, s.bus.line = none → s.requests = r :: rest →
      (∀ i, decode s.cfg (.call r) = .ok i → step s = exec i { s with requests := rest }) ∧
      (∀ e, decode s.cfg (.call r) = .error e → step s = .refused (refusalOf e))) ∧
    ∀ f, s.bus.line = some f →
      (∀ i, decode s.cfg (.frame f) = .ok i → step s = exec i { s with bus := { s.bus with line := none } }) ∧
      (∀ e, decode s.cfg (.frame f) = .error e → step s = .refused (refusalOf e))

/-- A call whose name is outside the operation set is refused by that name, a call of an operation with arguments of another
form by the operation's, a frame under 4 bytes by its length (30_encoding.md R84, R89, 60_exceptions.md R182); the calls
with source names of R88 run the operations they expand to. How a call is written down is the model's choice (log 9), and so
is the frame that stands by itself (log 7). -/
def Obligations.CallsOutsideTheSetAreRefused : Prop :=
  ∀ s : State, (∀ f : Frame, f.length < 4 → s.bus.line = some f → step s = .refused (.shortFrame f.length)) ∧
    (s.bus.line = none → ∀ rest : List HostCall,
      (∀ name args, s.requests = ⟨.other name, args⟩ :: rest → step s = .refused (.unknownOperation name)) ∧
      (∀ op args, (∀ i, encode s.cfg i ≠ .call ⟨.op op, args⟩) → ¬(op = .scan ∧ args = []) →
        s.requests = ⟨.op op, args⟩ :: rest → step s = .refused (.argumentForm (.op op))) ∧
      (∀ args, (∀ sl a v, args ≠ [.nat sl, .nat a, .word v]) → s.requests = ⟨.write, args⟩ :: rest →
        step s = .refused (.argumentForm .write)) ∧
      (∀ args, (∀ sl a, args ≠ [.nat sl, .nat a]) → s.requests = ⟨.read, args⟩ :: rest →
        step s = .refused (.argumentForm .read)) ∧
      (∀ args, (∀ sl p0 p1, args ≠ [.nat sl, .ports p0 p1]) → s.requests = ⟨.exchangePorts, args⟩ :: rest →
        step s = .refused (.argumentForm .exchangePorts)) ∧
      (∀ args, (∀ sl, args ≠ [.nat sl]) → s.requests = ⟨.enableSlave, args⟩ :: rest →
        step s = .refused (.argumentForm .enableSlave)) ∧
      (∀ sl a v, s.requests = ⟨.write, [.nat sl, .nat a, .word v]⟩ :: rest →
        step s = exec (.writeRegister sl 2 a v) { s with requests := rest }) ∧
      (∀ sl a, s.requests = ⟨.read, [.nat sl, .nat a]⟩ :: rest →
        step s = exec (.readRegister sl 2 a) { s with requests := rest }) ∧
      (∀ sl p0 p1, s.requests = ⟨.exchangePorts, [.nat sl, .ports p0 p1]⟩ :: rest →
        step s = exec (.exchange sl p0 p1) { s with requests := rest }) ∧
      (∀ sl, s.requests = ⟨.enableSlave, [.nat sl]⟩ :: rest → step s = exec (.enable sl) { s with requests := rest }) ∧
      (s.requests = ⟨.op .scan, []⟩ :: rest → step s = exec (.scan s.cfg.scanBudget) { s with requests := rest }))

/-! ## What holds of every run -/

/-- The invariant holds at reset, under every admissible configuration (10_state.md R41), and no frame stands on the
Transport (40_frame_codec.md R97; that place is the model's, log 7). -/
def Obligations.ResetMeetsTheInvariant : Prop :=
  (∀ p : Params, (State.resetWith p).Inv ∧ (State.resetWith p).bus.line = none) ∧ State.reset.Inv

/-- Every step keeps the invariant: between operations chip select is off, no port write is pending, the sequencer is idle,
the flash state is none of the two that last only while a step runs, a dead session has no flash session open
(10_state.md R25, R34, R35, 44_flash_engine.md R135, 60_exceptions.md R166), the target's record keeps its canonical form
and the port pipeline holds at most `LAG` entries (20_memory.md R60; the record is the model's, log 4 and log 6). And no step
leaves a frame on the Transport, so no run has one that no operation sent (40_frame_codec.md R97; log 7). -/
def Obligations.StepKeepsTheInvariant : Prop :=
  ∀ s t : State, s.Inv → step s = .next t → t.Inv ∧ t.bus.line = none

/-- Every host operation ends, whatever the Transport answers, with exactly one `Return`, the last event it appends; `H`
only grows, the configuration and what waits stay, the sequencer is idle again (10_state.md R35, R38, R39, 60_exceptions.md
R168, R182). -/
def Obligations.EveryOperationEndsWithOneReturn : Prop :=
  ∀ (i : Instr) (op : OpName) (s : State), opOf i = some op → ∃ t es r, exec i s = .next t ∧
    t.hist = s.hist ++ (es ++ [.ret op r]) ∧ returns es = [] ∧ t.params = s.params ∧ t.requests = s.requests ∧
    t.ses.pc = .idle

/-- Every logical transaction of a host operation is bracketed by chip select, also one that fails, and chip select is off
between operations (20_memory.md R58, 10_state.md R34). -/
def Obligations.TransactionsAreBracketed : Prop :=
  ∀ (i : Instr) (op : OpName) (s t : State), opOf i = some op → s.ses.sel = false → exec i s = .next t →
    bracketed false (newEvents s t) = true ∧ t.ses.sel = false

/-- A failed exchange ends the operation: no frame follows it, the session is dead, and the result is `TransportFailure` of
that frame; without one the operation leaves the dead mark alone, and no other result is such a failure (20_memory.md R57,
10_state.md R33, 60_exceptions.md R166, R168). -/
def Obligations.TransportFailureEndsTheOperation : Prop :=
  ∀ (i : Instr) (op : OpName) (s t : State), opOf i = some op → i ≠ .reset → exec i s = .next t →
    sentFrames (newEvents s t) = (framePairs (newEvents s t)).map Prod.fst ++ txFails (newEvents s t) ∧
    ((txFails (newEvents s t) = [] ∧ t.ses.dead = s.ses.dead ∧
        ∀ tx, returns (newEvents s t) ≠ [(op, .error (.transportFailure (some tx)))]) ∨
      ∃ tx, txFails (newEvents s t) = [tx] ∧ t.ses.dead = true ∧
        returns (newEvents s t) = [(op, .error (.transportFailure (some tx)))])

/-- The write matrix (10_state.md R40): every instruction leaves every session field it is not listed for as it was; and one
that raises leaves the error summary (R26), and, but for a scan that timed out, the slave table and the scan result
(41_register_bus.md R106, 43_bus_scanner.md R125, R130, 44_flash_engine.md R143), as they were. A frame kind
by itself is no operation and writes none: that is the model's choice (log 7). -/
def Obligations.WriteMatrixHolds : Prop :=
  ∀ (i : Instr) (s t : State), exec i s = .next t → writesOnly i s.ses t.ses ∧
    ∀ op e, returns (newEvents s t) = [(op, .error e)] → t.ses.errSummary = s.ses.errSummary ∧
      ((∀ budget, e ≠ .scanTimeout budget) →
        t.ses.slaves = s.ses.slaves ∧ t.ses.presence = s.ses.presence ∧ t.ses.scanStatus = s.ses.scanStatus)

/-- Frames reach the target in the order they are sent, each effect complete before the next frame (20_memory.md R59, R72):
after an operation without a failed exchange the target's record is the one its frames leave, one after another. That
nothing else changes the record is the model's choice: only frames write registers (log 4), FIFO and pipeline are taken when a
frame is accepted (log 6), and chip select changes nothing at the target (log 15). -/
def Obligations.TargetSeesFramesInOrder : Prop :=
  ∀ (i : Instr) (op : OpName) (s t : State), opOf i = some op → exec i s = .next t → txFails (newEvents s t) = [] →
    t.bus = s.bus.replay s.cfg (framePairs (newEvents s t))

/-- The frame of every instruction at the target, whatever is answered: a byte outside the cells the instruction stores to
reads as before; the cells come from its operands, the session and the configuration (20_memory.md R62–R69, R105 of
41_register_bus.md; the cells are the model's numbering, log 4). -/
def Obligations.BytesOutsideTheStoredCellsStay : Prop :=
  ∀ (i : Instr) (s t : State) (a : Nat), exec i s = .next t → a ∉ storedCells s i →
    t.bus.mem.get a = s.bus.mem.get a

/-- Distinct registers of the four address spaces share no byte, all lie in the memory, and a register reads back what was
written to it (20_memory.md R42–R45, R48, R49, R52, R53; the numbering is the model's, log 4). -/
def Obligations.RegistersAreApart : Prop :=
  (∀ (m : Memory) (a : Nat) (v : Word16), (m.put16 a v).get16 a = v) ∧
  (∀ (m : Memory) (a : Nat) (v : Word32), (m.put32 a v).get32 a = v) ∧
  (∀ sl sl' a a' x, (sl, a) ≠ (sl', a') → x ∈ registerCells .sport sl a → x ∉ registerCells .sport sl' a') ∧
  (∀ sl sl' a a' x, a ≠ a' → x ∈ registerCells .busCtrl sl a → x ∉ registerCells .busCtrl sl' a') ∧
  (∀ sl sl' p p' x, (sl, p) ≠ (sl', p') → x ∈ portCells sl p → x ∉ portCells sl' p') ∧
  (∀ sl sl' sl'' a a' p x, (x ∈ registerCells .sport sl a → x ∉ registerCells .busCtrl sl' a' ∧ x ∉ portCells sl'' p) ∧
    (x ∈ registerCells .busCtrl sl' a' → x ∉ portCells sl'' p)) ∧
  ∀ sl a p x, x ∈ registerCells .sport sl a ++ registerCells .busCtrl sl a ++ portCells sl p → x < memorySize

/-! ## Frame kinds by themselves

That a frame kind by itself is the bus environment's side of one exchange, of which the controller knows nothing, is the
model's choice (log 7). `t = { s with bus := t.bus }` says that history, session, configuration and waiting calls stay. -/

/-- `SPORT_WR` and `BUSCTRL_WR` (20_memory.md R62, R64): one exchange; the register takes the value, whatever the power bit
and, for BusCtrl, the slave field, and no other byte, nor the FIFO, nor the pipeline changes (log 4, log 7). -/
def Obligations.RegisterWriteFramesStoreTheirRegister : Prop :=
  ∀ (s : State) (p : Bool) (sl : SlaveId) (a : Byte) (d : Word16) (rx : Frame), s.willAnswer [rx] →
    (∃ t, exec (.sportWr p sl a d) s = .next t ∧ t = { s with bus := t.bus } ∧ t.bus.reply = some (.ok rx) ∧
      t.bus.mem.get16 (sportCell sl a) = d ∧ t.bus.fifo = s.bus.fifo ∧ t.bus.pipe = s.bus.pipe ∧
      ∀ x, x ∉ registerCells .sport sl a → t.bus.mem.get x = s.bus.mem.get x) ∧
    (∃ t, exec (.busctrlWr p sl a d) s = .next t ∧ t = { s with bus := t.bus } ∧ t.bus.reply = some (.ok rx) ∧
      t.bus.mem.get16 (busCtrlCell a) = d ∧ t.bus.fifo = s.bus.fifo ∧ t.bus.pipe = s.bus.pipe ∧
      ∀ x, x ∉ registerCells .busCtrl sl a → t.bus.mem.get x = s.bus.mem.get x)

/-- `SPORT_RD` and `BUSCTRL_RD` (20_memory.md R63, R65): one exchange, with its reply; no byte of the target changes; an SPort
read leaves its request in the FIFO, a BusCtrl read leaves the FIFO alone (log 6, log 7). -/
def Obligations.RegisterReadFramesStoreNothing : Prop :=
  ∀ (s : State) (p : Bool) (sl : SlaveId) (a : Byte) (d : Word16) (rx : Frame), s.willAnswer [rx] →
    (∃ t, exec (.sportRd p sl a d) s = .next t ∧ t = { s with bus := t.bus } ∧ t.bus.reply = some (.ok rx) ∧
      t.bus.fifo = some (sl, a) ∧ t.bus.pipe = s.bus.pipe ∧ ∀ x, t.bus.mem.get x = s.bus.mem.get x) ∧
    (∃ t, exec (.busctrlRd p sl a d) s = .next t ∧ t = { s with bus := t.bus } ∧ t.bus.reply = some (.ok rx) ∧
      t.bus.fifo = s.bus.fifo ∧ t.bus.pipe = s.bus.pipe ∧ ∀ x, t.bus.mem.get x = s.bus.mem.get x)

/-- The port frame kinds (20_memory.md R60, R66–R69): one exchange, with its reply; a write gives the port its value and
changes no other byte, a read changes no byte; either way the port's value after the frame enters the pipeline (that it is
taken then is log 6; log 7). -/
def Obligations.PortFramesWriteAndQueueTheirPort : Prop :=
  ∀ (s : State) (p : Bool) (sl : SlaveId) (v : Word32) (rx : Frame), s.willAnswer [rx] →
    (∃ t, exec (.port0Wr p sl v) s = .next t ∧ t = { s with bus := t.bus } ∧ t.bus.reply = some (.ok rx) ∧
      t.bus.mem.get32 (portCell sl .zero) = v ∧ t.bus.pipe = (⟨sl, .zero, v⟩ :: s.bus.pipe).take s.cfg.lag ∧
      t.bus.fifo = s.bus.fifo ∧ ∀ x, x ∉ portCells sl .zero → t.bus.mem.get x = s.bus.mem.get x) ∧
    (∃ t, exec (.port1Wr p sl v) s = .next t ∧ t = { s with bus := t.bus } ∧ t.bus.reply = some (.ok rx) ∧
      t.bus.mem.get32 (portCell sl .one) = v ∧ t.bus.pipe = (⟨sl, .one, v⟩ :: s.bus.pipe).take s.cfg.lag ∧
      t.bus.fifo = s.bus.fifo ∧ ∀ x, x ∉ portCells sl .one → t.bus.mem.get x = s.bus.mem.get x) ∧
    (∃ t, exec (.port0Rd p sl) s = .next t ∧ t = { s with bus := t.bus } ∧ t.bus.reply = some (.ok rx) ∧
      t.bus.pipe = (⟨sl, .zero, s.bus.mem.get32 (portCell sl .zero)⟩ :: s.bus.pipe).take s.cfg.lag ∧
      t.bus.fifo = s.bus.fifo ∧ ∀ x, t.bus.mem.get x = s.bus.mem.get x) ∧
    (∃ t, exec (.port1Rd p sl) s = .next t ∧ t = { s with bus := t.bus } ∧ t.bus.reply = some (.ok rx) ∧
      t.bus.pipe = (⟨sl, .one, s.bus.mem.get32 (portCell sl .one)⟩ :: s.bus.pipe).take s.cfg.lag ∧
      t.bus.fifo = s.bus.fifo ∧ ∀ x, t.bus.mem.get x = s.bus.mem.get x)

/-- A frame kind by itself does at the bus environment what the same frame does when the controller exchanges it (20_memory.md
R57, 00_scope.md R3), and nothing else, also where the exchange fails: then the frame took effect or did not, as the answer
says (log 3, log 7). -/
def Obligations.FrameKindIsTheBusSideOfItsExchange : Prop :=
  ∀ (s : State) (f : Frame) (i : Instr), decodeFrame s.cfg f = .ok i →
    ∃ t, exec i s = .next t ∧ t = { s with bus := t.bus } ∧
      (∀ rx u, xchg f s = .ok rx u → t.bus = u.bus ∧ t.bus.reply = some (.ok rx)) ∧
      (∀ e u, xchg f s = .error e u → t.bus = u.bus) ∧
      (∀ landed, s.bus.nextAnswer = .fail landed → t.bus.reply = some (.fail landed)) ∧
      (s.bus.nextAnswer = .fail false →
        t.bus.mem = s.bus.mem ∧ t.bus.fifo = s.bus.fifo ∧ t.bus.pipe = s.bus.pipe)

/-! ## Session operations -/

/-- `setPower` (41_register_bus.md R108) in every state: the flag is written, no frame is sent, and bit 7 of every frame of
the next operation carries it. -/
def Obligations.SetPowerWritesThePowerFlag : Prop :=
  ∀ (s : State) (b : Bool),
    s.completes (.setPower b) [.ret .setPower (.ok .unit)] { s.ses with power := b, pc := .idle } ∧
    ∀ t i op u, exec (.setPower b) s = .next t → opOf i = some op → exec i t = .next u →
      ∀ f ∈ sentFrames (newEvents t u), (f.getD 0 0).getLsbD 7 = b

/-- `reset` (70_reset_and_hazards.md R183) in every state gives every session field its value of 10_state.md R41, keeps `H`
and sends no frame; the first state has the same session and an empty `H`. The values but the flash state are the spec's
own choice, which R41 says (log 13). -/
def Obligations.ResetGivesTheResetSession : Prop :=
  (∀ s : State, s.completes .reset [.ret .reset (.ok .unit)]
    ⟨false, 0, false, false, 0, 0, none, Vector.replicate 8 ⟨false, false, none⟩, none, none, ⟨.idle, 0, .standard⟩, false,
      false, .idle⟩) ∧
  ∀ p : Params, (State.resetWith p).hist = [] ∧ (State.resetWith p).ses =
    ⟨false, 0, false, false, 0, 0, none, Vector.replicate 8 ⟨false, false, none⟩, none, none, ⟨.idle, 0, .standard⟩, false,
      false, .idle⟩

/-- `abortFlash` (44_flash_engine.md R145) in every state: an open session becomes `Failed` with its slave and range kept,
otherwise nothing changes; no frame is sent. -/
def Obligations.AbortFlashFailsAnOpenSession : Prop :=
  ∀ s : State,
    (s.ses.flash.state ∈ [FlashState.erasing, .programming, .finalizing, .rebooting] →
      s.completes .abortFlash [.ret .abortFlash (.ok .unit)]
        { s.ses with flash := { s.ses.flash with state := .failed }, pc := .idle }) ∧
    (s.ses.flash.state ∈ [FlashState.idle, .done, .failed] →
      s.completes .abortFlash [.ret .abortFlash (.ok .unit)] { s.ses with pc := .idle })

/-- `encodeMFD` (45_mfd.md R147, R148): `InvalidRecord` of an invalid record; else the stream, with exactly one trailing zero
where its length is odd; nothing else changes. -/
def Obligations.EncodeMfdReturnsTheStream : Prop :=
  ∀ (s : State) (r : Record),
    (¬ RecordOk s.cfg r → s.completes (.encodeMFD r)
      [.ret .encodeMFD (.error (.invalidRecord (.record r)))] { s.ses with pc := .idle }) ∧
    (RecordOk s.cfg r → s.completes (.encodeMFD r)
      [.ret .encodeMFD (.ok (.bytes (if (recordStream s.cfg r).length % 2 = 1 then recordStream s.cfg r ++ [0x00]
        else recordStream s.cfg r)))] { s.ses with pc := .idle })

/-- `decodeMFD` (45_mfd.md R149): the record a stream is read back as, `InvalidRecord` of the stream where there is none. -/
def Obligations.DecodeMfdReturnsTheRecord : Prop :=
  ∀ (s : State) (bs : List Byte),
    (∀ r, StreamRead bs r → s.completes (.decodeMFD bs)
      [.ret .decodeMFD (.ok (.record r))] { s.ses with pc := .idle }) ∧
    ((∀ r, ¬ StreamRead bs r) → s.completes (.decodeMFD bs)
      [.ret .decodeMFD (.error (.invalidRecord (.stream bs)))] { s.ses with pc := .idle })

/-- The round trip of the codec (45_mfd.md R152, its first two clauses): a valid record encodes to a stream of even length,
which decodes to the record. -/
def Obligations.MfdRoundTrip : Prop :=
  ∀ (s : State) (r : Record), RecordOk s.cfg r → ∃ bs, bs.length % 2 = 0 ∧
    exec (.encodeMFD r) s = .next (s.returned .encodeMFD (.ok (.bytes bs)) s.ses) ∧
    exec (.decodeMFD bs) s = .next (s.returned .decodeMFD (.ok (.record r)) s.ses)

/-! ## The common check (60_exceptions.md R164) -/

/-- A refused operation's only trace is its `Return` with the error: no frame, no other event, no state written
(60_exceptions.md R164, 41_register_bus.md R110). -/
def Obligations.RefusedOperationLeavesOnlyItsReturn : Prop :=
  ∀ (i : Instr) (op : OpName) (g : GuardArgs) (e : Err) (s : State), opOf i = some op → guardOf i = some g →
    guardError s g = some e → exec i s = .next (s.returned op (.error e) s.ses)

/-- `InvalidSlave` (60_exceptions.md R155): a slave argument above 7 is reported by every operation that takes one, in every
state and whatever the other arguments, before any frame. -/
def Obligations.InvalidSlaveIsReportedFirst : Prop :=
  ∀ (s : State) (sl : Nat), 7 < sl →
    (∀ p w ch a d, exec (.encode p sl w ch a d) s = .next (s.returned .encode (.error (.invalidSlave sl)) s.ses)) ∧
    (∀ ch a, exec (.readRegister sl ch a) s = .next (s.returned .readRegister (.error (.invalidSlave sl)) s.ses)) ∧
    (∀ ch a v, exec (.writeRegister sl ch a v) s = .next (s.returned .writeRegister (.error (.invalidSlave sl)) s.ses)) ∧
    exec (.getSlaveInfo sl) s = .next (s.returned .getSlaveInfo (.error (.invalidSlave sl)) s.ses) ∧
    (∀ p0 p1, exec (.exchange sl p0 p1) s = .next (s.returned .exchange (.error (.invalidSlave sl)) s.ses)) ∧
    exec (.enable sl) s = .next (s.returned .enable (.error (.invalidSlave sl)) s.ses) ∧
    (∀ r, exec (.erase sl r) s = .next (s.returned .erase (.error (.invalidSlave sl)) s.ses)) ∧
    (∀ r im, exec (.flash sl r im) s = .next (s.returned .flash (.error (.invalidSlave sl)) s.ses)) ∧
    (∀ r, exec (.writeManufacturingData sl r) s =
      .next (s.returned .writeManufacturingData (.error (.invalidSlave sl)) s.ses)) ∧
    exec (.readManufacturingData sl) s = .next (s.returned .readManufacturingData (.error (.invalidSlave sl)) s.ses)

/-- `InvalidChannel`, then `InvalidAddress` (60_exceptions.md R156, R157, R164, 41_register_bus.md R109) of the register
operations, with a valid slave and in every state: a Port channel or an index above 3, then an address above 255. -/
def Obligations.RegisterOperationsCheckChannelThenAddress : Prop :=
  ∀ (s : State) (sl ch a : Nat) (v : Word16), sl ≤ 7 →
    (ch ≤ 1 ∨ 3 < ch →
      exec (.readRegister sl ch a) s = .next (s.returned .readRegister (.error (.invalidChannel ch)) s.ses) ∧
      exec (.writeRegister sl ch a v) s = .next (s.returned .writeRegister (.error (.invalidChannel ch)) s.ses)) ∧
    (ch = 2 ∨ ch = 3 → 255 < a →
      exec (.readRegister sl ch a) s = .next (s.returned .readRegister (.error (.invalidAddress a)) s.ses) ∧
      exec (.writeRegister sl ch a v) s = .next (s.returned .writeRegister (.error (.invalidAddress a)) s.ses))

/-- `InvalidRecord` of `writeManufacturingData` (60_exceptions.md R158, R164): with a valid slave, an invalid record is
reported before the dead session and the flash state are looked at, and before any frame. -/
def Obligations.InvalidRecordIsReportedBeforeTheState : Prop :=
  ∀ (s : State) (sl : Nat) (r : Record), sl ≤ 7 → ¬ RecordOk s.cfg r →
    exec (.writeManufacturingData sl r) s =
      .next (s.returned .writeManufacturingData (.error (.invalidRecord (.record r))) s.ses)

/-- A dead session (10_state.md R33, 60_exceptions.md R166): every frame-sending operation with valid arguments raises
`TransportFailure(none)` before any frame, whatever the flash state. -/
def Obligations.DeadSessionRefusesBusOperations : Prop :=
  ∀ (i : Instr) (op : OpName) (g : GuardArgs) (s : State), opOf i = some op → guardOf i = some g → g.Valid s.cfg →
    s.ses.dead = true → exec i s = .next (s.returned op (.error (.transportFailure none)) s.ses)

/-- `SessionBusy` (60_exceptions.md R160): while a flash session is open, every bus operation and every start of a session
is refused with the flash state, and the open session is left as it was. -/
def Obligations.OpenSessionRefusesOtherOperations : Prop :=
  ∀ (i : Instr) (op : OpName) (g : GuardArgs) (s : State), opOf i = some op → guardOf i = some g → g.Valid s.cfg →
    i ≠ .finalize → i ≠ .reboot → (∀ image, i ≠ .program image) → s.ses.dead = false →
    s.ses.flash.state ∉ [FlashState.idle, .done, .failed] →
    exec i s = .next (s.returned op (.error (.sessionBusy s.ses.flash.state)) s.ses)

/-- `OutOfSequence` (60_exceptions.md R161): `program` and `finalize` outside `Programming`, `reboot` outside `Rebooting`,
before any frame and with no state changed. The session is alive (R164 looks at the dead mark first). -/
def Obligations.StepsOutOfOrderAreRefused : Prop :=
  ∀ s : State, s.ses.dead = false →
    (s.ses.flash.state ≠ .programming → ∀ image,
      exec (.program image) s = .next (s.returned .program (.error (.outOfSequence s.ses.flash.state)) s.ses)) ∧
    (s.ses.flash.state ≠ .programming →
      exec .finalize s = .next (s.returned .finalize (.error (.outOfSequence s.ses.flash.state)) s.ses)) ∧
    (s.ses.flash.state ≠ .rebooting →
      exec .reboot s = .next (s.returned .reboot (.error (.outOfSequence s.ses.flash.state)) s.ses))

/-! ## Register bus -/

/-- `writeRegister` (41_register_bus.md R99): exactly one write frame under one chip select; its response is not read; the
session stays as it was. -/
def Obligations.WriteRegisterSendsOneFrame : Prop :=
  ∀ (s : State) (sl : Nat) (ch : Channel) (a : Nat) (v : Word16) (rx : Frame), s.Ready → sl ≤ 7 →
    (ch = .sport ∨ ch = .busCtrl) → a ≤ 255 → s.willAnswer [rx] →
    s.completes (.writeRegister sl (channelIndex ch) a v)
      [.select true, .frame (registerFrame s.cfg ⟨s.ses.power, slaveId sl, true, ch, addrByte a, v⟩) rx, .select false,
        .ret .writeRegister (.ok .unit)] s.ses

/-- The same write at the target: the register takes the value and every other byte stays (20_memory.md R62, R64; the record
is the model's, log 4). -/
def Obligations.WriteRegisterStoresTheWord : Prop :=
  ∀ (s : State) (sl : Nat) (ch : Channel) (a : Nat) (v : Word16) (rx : Frame), s.Ready → sl ≤ 7 →
    (ch = .sport ∨ ch = .busCtrl) → a ≤ 255 → s.willAnswer [rx] →
    ∃ t, exec (.writeRegister sl (channelIndex ch) a v) s = .next t ∧
      t.bus.mem.get16 (if ch = .sport then sportCell (slaveId sl) (addrByte a) else busCtrlCell (addrByte a)) = v ∧
      ∀ x, x ∉ registerCells ch (slaveId sl) (addrByte a) → t.bus.mem.get x = s.bus.mem.get x

/-- A register write whose exchange fails (20_memory.md R57, 60_exceptions.md R166, R168): `TxFail`, chip select released,
`TransportFailure` of the frame, and the session dead. -/
def Obligations.FailedWriteKillsTheSession : Prop :=
  ∀ (s : State) (sl : Nat) (ch : Channel) (a : Nat) (v : Word16) (landed : Bool), s.Ready → sl ≤ 7 →
    (ch = .sport ∨ ch = .busCtrl) → a ≤ 255 → s.bus.nextAnswer = .fail landed →
    s.completes (.writeRegister sl (channelIndex ch) a v)
      [.select true, .txFail (registerFrame s.cfg ⟨s.ses.power, slaveId sl, true, ch, addrByte a, v⟩), .select false,
        .ret .writeRegister (.error (.transportFailure
          (some (registerFrame s.cfg ⟨s.ses.power, slaveId sl, true, ch, addrByte a, v⟩))))]
      { s.ses with dead := true }

/-- A BusCtrl read (41_register_bus.md R102): exactly one frame, its data word returned whatever the data-valid bit. -/
def Obligations.BusCtrlReadTakesOneFrame : Prop :=
  ∀ (s : State) (sl a : Nat) (rx : Frame), s.Ready → sl ≤ 7 → a ≤ 255 → s.willAnswer [rx] →
    s.completes (.readRegister sl 3 a)
      [.select true, .frame (registerFrame s.cfg ⟨s.ses.power, slaveId sl, false, .busCtrl, addrByte a, 0⟩) rx,
        .select false, .ret .readRegister (.ok (.word (respWord s.cfg rx)))] s.ses

/-- An SPort read (41_register_bus.md R101, R103): a setup frame whose response is not read, then polls with the same frame
until the first with data-valid, within the budget: the word of that poll is returned. -/
def Obligations.SPortReadReturnsTheFirstValidWord : Prop :=
  ∀ (s : State) (sl a : Nat) (setup last : Frame) (polls : List Frame), s.Ready → sl ≤ 7 → a ≤ 255 →
    (∀ p ∈ polls, respValid s.cfg p = false) → respValid s.cfg last = true → polls.length + 1 ≤ s.cfg.readBudget →
    s.willAnswer (setup :: (polls ++ [last])) →
    s.completes (.readRegister sl 2 a)
      (.select true :: ((setup :: (polls ++ [last])).map
          (.frame (registerFrame s.cfg ⟨s.ses.power, slaveId sl, false, .sport, addrByte a, 0⟩)) ++
        [.select false, .ret .readRegister (.ok (.word (respWord s.cfg last)))])) s.ses

/-- An SPort read that finds no data-valid in `READ_BUDGET` polls (41_register_bus.md R101, R103, 60_exceptions.md R162):
`BusTimeout` after 1 + `READ_BUDGET` frames, and the session as it was. -/
def Obligations.SPortReadTimesOut : Prop :=
  ∀ (s : State) (sl a : Nat) (setup : Frame) (polls : List Frame), s.Ready → sl ≤ 7 → a ≤ 255 →
    (∀ p ∈ polls, respValid s.cfg p = false) → polls.length = s.cfg.readBudget → s.willAnswer (setup :: polls) →
    s.completes (.readRegister sl 2 a)
      (.select true :: ((setup :: polls).map
          (.frame (registerFrame s.cfg ⟨s.ses.power, slaveId sl, false, .sport, addrByte a, 0⟩)) ++
        [.select false,
          .ret .readRegister (.error (.busTimeout (slaveId sl) .sport (addrByte a) s.cfg.readBudget))])) s.ses

/-- The round trip (41_register_bus.md R104, 20_memory.md R63): against an environment that keeps the FIFO contract and does not
change the register by itself, a read right after a write to the same SPort register returns the value written or raises
`BusTimeout` or `TransportFailure`; where it shows data-valid within the budget and no exchange fails, it returns the value.
The contract's form is the model's (log 6). -/
def Obligations.WriteThenReadReturnsTheValue : Prop :=
  ∀ (s : State) (sl a : Nat) (v : Word16) (own : List Nat), s.Ready → sl ≤ 7 → a ≤ 255 →
    sportCell (slaveId sl) (addrByte a) ∉ own →
    (∀ t u, exec (.writeRegister sl 2 a v) s = .next t → exec (.readRegister sl 2 a) t = .next u →
      s.bus.keepsContract s.cfg own none (newEvents s u) = true →
      ∃ r, returns (newEvents t u) = [(.readRegister, r)] ∧ (r = .ok (.word v) ∨
        r = .error (.busTimeout (slaveId sl) .sport (addrByte a) s.cfg.readBudget) ∨ ∃ tx, r = .error (.transportFailure tx))) ∧
    ∀ (ack setup last : Frame) (polls : List Frame), (∀ p ∈ polls, respValid s.cfg p = false) →
      respValid s.cfg last = true → polls.length + 1 ≤ s.cfg.readBudget → s.willAnswer (ack :: setup :: (polls ++ [last])) →
      (∀ t u, exec (.writeRegister sl 2 a v) s = .next t → exec (.readRegister sl 2 a) t = .next u →
        s.bus.keepsContract s.cfg own none (newEvents s u) = true) →
      ∃ t u, exec (.writeRegister sl 2 a v) s = .next t ∧ exec (.readRegister sl 2 a) t = .next u ∧
        returns (newEvents t u) = [(.readRegister, .ok (.word v))]

/-- `getSlaveInfo` (41_register_bus.md R106, R107): 19 SPort reads in fixed order; the two strings high byte first, feature
id, bugfix id and the low four bits of the port count, written into the slave's entry and returned. -/
def Obligations.GetSlaveInfoReadsTheIdentity : Prop :=
  ∀ (s : State) (sl : Nat) (rss : List (List Frame)) (ws : List Word16), s.Ready → sl ≤ 7 →
    ws.length = 19 → rss.map (sportRead s.cfg) = ws.map some → s.willAnswer rss.flatten →
    ∃ i : SlaveInfo,
      i.boardType.chars = wordBytes (ws.take 8) ∧ i.boardNumber.chars = wordBytes ((ws.drop 8).take 8) ∧
      ws[16]? = some i.featureId ∧ ws[17]? = some i.bugfixId ∧ (ws[18]?).map (fun w => w.extractLsb' 0 4) = some i.portCount ∧
      s.completes (.getSlaveInfo sl)
        (eventsOf (readTxns s.cfg s.ses.power (slaveId sl) .sport (infoAddrs s.cfg) rss) ++
          [.ret .getSlaveInfo (.ok (.info i))])
        (s.ses.setEntry (slaveId sl) { s.ses.entry (slaveId sl) with info := some i })

/-! ## Bulk port exchange -/

/-- `exchange` (42_bulk_port.md R114, R115, R117, R119): the port frames, with the write bit where a write was requested, then
`LAG` flush frames, all under one chip select; Port0 from response 1 + `LAG`, Port1 and the error summary from the last. -/
def Obligations.ExchangeMapsItsResponses : Prop :=
  ∀ (s : State) (sl : Nat) (p0 p1 : Option PortBytes) (r1 r2 : Frame) (rs : List Frame), s.Ready → sl ≤ 7 →
    rs.length = s.cfg.lag → s.willAnswer (r1 :: r2 :: rs) →
    s.completes (.exchange sl p0 p1)
      ([.select true,
        .frame (portLayoutFrame s.cfg s.ses.power (slaveId sl) .zero (p0.map unbe32)) r1,
        .frame (portLayoutFrame s.cfg s.ses.power (slaveId sl) .one (p1.map unbe32)) r2] ++
        rs.map (.frame (portLayoutFrame s.cfg s.ses.power (slaveId sl) .one none)) ++
        [.select false,
          .ret .exchange (.ok (.ports (respPortBytes s.cfg ((r1 :: r2 :: rs).getD s.cfg.lag []))
            (respPortBytes s.cfg ((r1 :: r2 :: rs).getD (1 + s.cfg.lag) []))
            (respErr s.cfg ((r1 :: r2 :: rs).getD (1 + s.cfg.lag) []))))])
      { s.ses with
        curSlave := slaveId sl
        pendVal0 := (p0.map unbe32).getD s.ses.pendVal0
        pendVal1 := (p1.map unbe32).getD s.ses.pendVal1
        errSummary := some (respErr s.cfg ((r1 :: r2 :: rs).getD (1 + s.cfg.lag) [])) }

/-- One-shot writes (42_bulk_port.md R116, R120, 10_state.md R25): after an exchange that passed `guard`, returned or raised,
no write is pending; an exchange refused by `guard` sets no pending flag; and every frame of a next exchange that requests
nothing has bit 3 clear. -/
def Obligations.PortWritesAreOneShot : Prop :=
  ∀ (s t u : State) (sl sl' : Nat) (p0 p1 : Option PortBytes), exec (.exchange sl p0 p1) s = .next t →
    (guardError s { slave := sl } ≠ none → t.ses.pendWr0 = s.ses.pendWr0 ∧ t.ses.pendWr1 = s.ses.pendWr1) ∧
    (guardError s { slave := sl } = none → t.ses.pendWr0 = false ∧ t.ses.pendWr1 = false ∧
      (exec (.exchange sl' none none) t = .next u →
        ∀ f ∈ sentFrames (newEvents t u), (f.getD 0 0).getLsbD 3 = false))

/-- An exchange at the target (20_memory.md R66–R69): a requested port takes its four bytes, most significant first, every
byte outside the requested ports stays (the record is the model's, log 4). -/
def Obligations.ExchangeStoresTheRequestedPorts : Prop :=
  ∀ (s : State) (sl : Nat) (p0 p1 : Option PortBytes) (r1 r2 : Frame) (rs : List Frame), s.Ready → sl ≤ 7 →
    rs.length = s.cfg.lag → s.willAnswer (r1 :: r2 :: rs) →
    ∃ t, exec (.exchange sl p0 p1) s = .next t ∧
      (∀ b, p0 = some b → t.bus.mem.get32 (portCell (slaveId sl) .zero) = unbe32 b) ∧
      (∀ b, p1 = some b → t.bus.mem.get32 (portCell (slaveId sl) .one) = unbe32 b) ∧
      ∀ x, (p0.isSome = true → x ∉ portCells (slaveId sl) .zero) → (p1.isSome = true → x ∉ portCells (slaveId sl) .one) →
        t.bus.mem.get x = s.bus.mem.get x

/-! ## Scanner -/

/-- `scan` (43_bus_scanner.md R124–R126, R129, R133): three control writes, then polls of the status word until the first
with scan-done; presence bitmap and status word from that poll, the slave table updated from the bitmap. -/
def Obligations.ScanReportsTheDoneWord : Prop :=
  ∀ (s : State) (budget : Nat) (acks polls : List Frame) (last : Frame), s.Ready → acks.length = 3 →
    polls.length + 1 ≤ budget → (∀ r ∈ polls, maskSet (respWord s.cfg r) s.cfg.scanDoneMask = false) →
    maskSet (respWord s.cfg last) s.cfg.scanDoneMask = true → s.willAnswer (acks ++ (polls ++ [last])) →
    ∃ u : Session,
      u.presence = some (presenceOf s.cfg (respWord s.cfg last)) ∧ u.scanStatus = some (respWord s.cfg last) ∧
      (∀ k : SlaveId, u.entry k = ⟨(presenceOf s.cfg (respWord s.cfg last)).getLsbD k.toNat, false,
        if (presenceOf s.cfg (respWord s.cfg last)).getLsbD k.toNat then (s.ses.entry k).info else none⟩) ∧
      { u with presence := s.ses.presence, scanStatus := s.ses.scanStatus, slaves := s.ses.slaves } = s.ses ∧
      s.completes (.scan budget)
        (.note .started .scan :: (eventsOf (writeTxns s.cfg s.ses.power s.cfg.bcSlave .busCtrl s.cfg.aScanCtrl
            [s.cfg.vDisableClear, s.cfg.vMaxDelayStart, s.cfg.vDisableClear] acks ++
          readTxns s.cfg s.ses.power s.cfg.bcSlave .busCtrl ((polls ++ [last]).map fun _ => s.cfg.aScanStatus)
            ((polls ++ [last]).map fun r => [r])) ++
        [.note .completed .scan,
          .ret .scan (.ok (.scan (presenceOf s.cfg (respWord s.cfg last)) (respWord s.cfg last)))])) u

/-- A scan whose budget runs out (43_bus_scanner.md R125, R127, R129, 60_exceptions.md R163): `ScanTimeout(budget)` after
exactly 3 + budget frames, also with budget 0; the scan result and the slave table are cleared. -/
def Obligations.ScanTimesOut : Prop :=
  ∀ (s : State) (acks polls : List Frame), s.Ready → acks.length = 3 →
    (∀ r ∈ polls, maskSet (respWord s.cfg r) s.cfg.scanDoneMask = false) → s.willAnswer (acks ++ polls) →
    s.completes (.scan polls.length)
      (.note .started .scan :: (eventsOf (writeTxns s.cfg s.ses.power s.cfg.bcSlave .busCtrl s.cfg.aScanCtrl
          [s.cfg.vDisableClear, s.cfg.vMaxDelayStart, s.cfg.vDisableClear] acks ++
        readTxns s.cfg s.ses.power s.cfg.bcSlave .busCtrl (polls.map fun _ => s.cfg.aScanStatus)
          (polls.map fun r => [r])) ++
      [.note .timedOut .scan, .ret .scan (.error (.scanTimeout polls.length))]))
      { s.ses with presence := none, scanStatus := none, slaves := Vector.replicate 8 ⟨false, false, none⟩ }

/-- `enable` (43_bus_scanner.md R130, R131): the four words in order, each its own transaction, to one register of that
slave; then the enabled flag of its entry. -/
def Obligations.EnableWritesTheFourWords : Prop :=
  ∀ (s : State) (sl : Nat) (acks : List Frame), s.Ready → sl ≤ 7 → acks.length = 4 → s.willAnswer acks →
    s.completes (.enable sl)
      (eventsOf (writeTxns s.cfg s.ses.power (slaveId sl) .sport s.cfg.aEnableStatus
          [s.cfg.vEnableSeq[0], s.cfg.vEnableSeq[1], s.cfg.vEnableSeq[2], s.cfg.vEnableSeq[3]] acks) ++
        [.ret .enable (.ok .unit)])
      (s.ses.setEntry (slaveId sl) { s.ses.entry (slaveId sl) with enabled := true })

/-! ## Flash engine -/

/-- `erase` (44_flash_engine.md R136, R142): the seven unlock words and the request, then status reads until erase-done; the
session is `Programming` for that slave and range. -/
def Obligations.EraseOpensTheSession : Prop :=
  ∀ (s : State) (sl : Nat) (r : FlashRange) (xs : List Txn), s.Ready → sl ≤ 7 →
    EraseTxns s.cfg s.ses.power (slaveId sl) r xs → s.willAnswer (answersOf xs) →
    s.completes (.erase sl r) (notedEvents .erase xs ++ [.ret .erase (.ok .unit)])
      { s.ses with flash := ⟨.programming, slaveId sl, r⟩ }

/-- `program` (44_flash_engine.md R137–R139): the words of the image in file order to the download register, in bursts, each
burst after a wait for room where flow control is on; the state stays `Programming`. -/
def Obligations.ProgramDownloadsTheImage : Prop :=
  ∀ (s : State) (image : List Byte) (xs : List Txn), s.ReadyAt .programming →
    ProgramTxns s.cfg s.ses.power s.ses.flash.slave s.ses.flash.range image xs → s.willAnswer (answersOf xs) →
    s.completes (.program image) (eventsOf xs ++ [.ret .program (.ok .unit)]) s.ses

/-- `finalize` (44_flash_engine.md R141, R142): the download-end word, then status reads until download-done; the state is
`Rebooting`. -/
def Obligations.FinalizeEndsTheDownload : Prop :=
  ∀ (s : State) (xs : List Txn), s.ReadyAt .programming →
    FinalizeTxns s.cfg s.ses.power s.ses.flash.slave s.ses.flash.range xs → s.willAnswer (answersOf xs) →
    s.completes .finalize (notedEvents .finalize xs ++ [.ret .finalize (.ok .unit)])
      { s.ses with flash := { s.ses.flash with state := .rebooting } }

/-- `reboot` (44_flash_engine.md R143): the seven reboot words and the request, nothing polled; the state is `Done`, and the
slave is no longer enabled nor identified. -/
def Obligations.RebootClosesTheSession : Prop :=
  ∀ (s : State) (acks : List Frame), s.ReadyAt .rebooting → acks.length = 8 → s.willAnswer acks →
    s.completes .reboot
      (eventsOf (writeTxns s.cfg s.ses.power s.ses.flash.slave .sport (rangeParams s.cfg s.ses.flash.range).ctrl
          (s.cfg.vUnlockReboot.toList ++ [s.cfg.vRebootReq]) acks) ++ [.ret .reboot (.ok .unit)])
      { s.ses.setEntry s.ses.flash.slave { s.ses.entry s.ses.flash.slave with enabled := false, info := none } with
        flash := { s.ses.flash with state := .done } }

/-- The flash transitions (44_flash_engine.md R135, R146, 45_mfd.md R150): an operation of the flash engine that passes
`guard` returns with the state its row names, or raises and leaves `Failed`, whatever is answered; slave and range are those
of the session. -/
def Obligations.FlashStepsReachTheirStateOrFail : Prop :=
  ∀ (i : Instr) (op : OpName) (g : GuardArgs) (st : FlashState) (s t : State), opOf i = some op → guardOf i = some g →
    flashGoal i = some st → guardError s g = none → exec i s = .next t →
    (t.ses.flash = flashRecord i s.ses.flash st ∧ returns (newEvents s t) = [(op, .ok .unit)]) ∨
      t.ses.flash = flashRecord i s.ses.flash .failed ∧ ∃ e, returns (newEvents s t) = [(op, .error e)]

/-- An erase whose wait fails (44_flash_engine.md R136, R142, 60_exceptions.md R162, R165): `FlashTimeout` where the
acknowledgement never shows in `ERASE_BUDGET` status reads, `BusTimeout` where one of them finds no data-valid; either after a
timeout notification, and `Failed` with slave and range kept. -/
def Obligations.EraseTimesOut : Prop :=
  ∀ (s : State) (sl : Nat) (r : FlashRange) (xs : List Txn), s.Ready → sl ≤ 7 → s.willAnswer (answersOf xs) →
    (EraseTimeoutTxns s.cfg s.ses.power (slaveId sl) r xs →
      s.completes (.erase sl r)
        (timedOutEvents .erase xs ++ [.ret .erase (.error (.flashTimeout .erase (slaveId sl) r s.cfg.eraseBudget))])
        { s.ses with flash := ⟨.failed, slaveId sl, r⟩ }) ∧
    (EraseUnansweredTxns s.cfg s.ses.power (slaveId sl) r xs →
      s.completes (.erase sl r)
        (timedOutEvents .erase xs ++
          [.ret .erase (.error (.busTimeout (slaveId sl) .sport (rangeParams s.cfg r).status s.cfg.readBudget))])
        { s.ses with flash := ⟨.failed, slaveId sl, r⟩ })

/-- A finalize whose wait fails (44_flash_engine.md R141, R142, 60_exceptions.md R162, R165): `FlashTimeout` where the
acknowledgement never shows in `FINALIZE_BUDGET` status reads, `BusTimeout` where one of them finds no data-valid; either
after a timeout notification, and `Failed`. -/
def Obligations.FinalizeTimesOut : Prop :=
  ∀ (s : State) (xs : List Txn), s.ReadyAt .programming → s.willAnswer (answersOf xs) →
    (FinalizeTimeoutTxns s.cfg s.ses.power s.ses.flash.slave s.ses.flash.range xs →
      s.completes .finalize
        (timedOutEvents .finalize xs ++ [.ret .finalize (.error (.flashTimeout .finalize s.ses.flash.slave s.ses.flash.range
          s.cfg.finalizeBudget))])
        { s.ses with flash := { s.ses.flash with state := .failed } }) ∧
    (FinalizeUnansweredTxns s.cfg s.ses.power s.ses.flash.slave s.ses.flash.range xs →
      s.completes .finalize
        (timedOutEvents .finalize xs ++ [.ret .finalize (.error (.busTimeout s.ses.flash.slave .sport
          (rangeParams s.cfg s.ses.flash.range).status s.cfg.readBudget))])
        { s.ses with flash := { s.ses.flash with state := .failed } })

/-- A download whose first wait for room runs out (44_flash_engine.md R139, 60_exceptions.md R162): `BusTimeout` of the FIFO
status register after `FIFO_BUDGET` reads, no download write sent, and `Failed`. -/
def Obligations.ProgramWithoutRoomTimesOut : Prop :=
  ∀ (s : State) (image : List Byte) (rs : List Frame), s.ReadyAt .programming → image ≠ [] → s.cfg.flowControl = true →
    rs.length = s.cfg.fifoBudget → (∀ r ∈ rs, maskSet (respWord s.cfg r) s.cfg.fifoHalfFullMask = true) →
    s.willAnswer rs →
    s.completes (.program image)
      (eventsOf (readTxns s.cfg s.ses.power s.cfg.bcSlave .busCtrl (rs.map fun _ => s.cfg.aFifoStatus)
          (rs.map fun r => [r])) ++
        [.ret .program (.error (.busTimeout s.cfg.bcSlave .busCtrl s.cfg.aFifoStatus s.cfg.fifoBudget))])
      { s.ses with flash := { s.ses.flash with state := .failed } }

/-- `flash` (44_flash_engine.md R146): the frames and notes of erase, program, finalize and reboot, one after another, one
`Return`, and `Done` for that slave and range. -/
def Obligations.FlashRunsTheFourSteps : Prop :=
  ∀ (s : State) (sl : Nat) (r : FlashRange) (image : List Byte) (x1 x2 x3 x4 : List Txn), s.Ready → sl ≤ 7 →
    EraseTxns s.cfg s.ses.power (slaveId sl) r x1 → ProgramTxns s.cfg s.ses.power (slaveId sl) r image x2 →
    FinalizeTxns s.cfg s.ses.power (slaveId sl) r x3 → RebootTxns s.cfg s.ses.power (slaveId sl) r x4 →
    s.willAnswer (answersOf (x1 ++ x2 ++ x3 ++ x4)) →
    s.completes (.flash sl r image)
      (notedEvents .erase x1 ++ eventsOf x2 ++ notedEvents .finalize x3 ++ eventsOf x4 ++ [.ret .flash (.ok .unit)])
      { s.ses.setEntry (slaveId sl) { s.ses.entry (slaveId sl) with enabled := false, info := none } with
        flash := ⟨.done, slaveId sl, r⟩ }

/-! ## Manufacturing data -/

/-- `writeManufacturingData` (45_mfd.md R150): the steps for the record's stream in range ManufacturingData, with the reboot
exactly where `MFD_REBOOT` says so; the session ends `Done`. -/
def Obligations.WriteManufacturingDataRunsItsSteps : Prop :=
  ∀ (s : State) (sl : Nat) (r : Record) (x1 x2 x3 x4 : List Txn), s.Ready → sl ≤ 7 → RecordOk s.cfg r →
    EraseTxns s.cfg s.ses.power (slaveId sl) .manufacturingData x1 →
    ProgramTxns s.cfg s.ses.power (slaveId sl) .manufacturingData (encodeRecord s.cfg r) x2 →
    FinalizeTxns s.cfg s.ses.power (slaveId sl) .manufacturingData x3 →
    (if s.cfg.mfdReboot then RebootTxns s.cfg s.ses.power (slaveId sl) .manufacturingData x4 else x4 = []) →
    s.willAnswer (answersOf (x1 ++ x2 ++ x3 ++ x4)) →
    s.completes (.writeManufacturingData sl r)
      (notedEvents .erase x1 ++ eventsOf x2 ++ notedEvents .finalize x3 ++ eventsOf x4 ++
        [.ret .writeManufacturingData (.ok .unit)])
      (if s.cfg.mfdReboot then
        { s.ses.setEntry (slaveId sl) { s.ses.entry (slaveId sl) with enabled := false, info := none } with
          flash := ⟨.done, slaveId sl, .manufacturingData⟩ }
      else { s.ses with flash := ⟨.done, slaveId sl, .manufacturingData⟩ })

/-- `readManufacturingData` (45_mfd.md R151, R152): where the words read are those of the stream of a valid record, ended by
the 14th field or by one more word that holds a byte outside the record alphabet, the record is returned. R152 does not say
so, but that one more word must not begin with a carriage return: R151 would read it as one more, empty field. -/
def Obligations.ReadManufacturingDataReadsTheRecordBack : Prop :=
  ∀ (s : State) (sl : Nat) (r : Record) (rss : List (List Frame)) (tail : List Word16), s.Ready → sl ≤ 7 →
    RecordOk s.cfg r →
    (r.length = 14 ∧ tail = [] ∨
      r.length < 14 ∧ ∃ w, tail = [w] ∧ (recordByte (hi w) = false ∨ recordByte (lo w) = false) ∧ hi w ≠ 0x0D) →
    rss.map (sportRead s.cfg) = (imageWords s.cfg.imagePad (encodeRecord s.cfg r) ++ tail).map some →
    rss.length ≤ s.cfg.mfdMaxWords → s.willAnswer rss.flatten →
    s.completes (.readManufacturingData sl)
      (eventsOf (readTxns s.cfg s.ses.power (slaveId sl) .sport
          ((List.range rss.length).map (addrAt s.cfg.aMfdRead)) rss) ++
        [.ret .readManufacturingData (.ok (.record r))]) s.ses

end Statements
end

