-- ==== Sys2Proof/Laws/Memory.lean ====
section
/-! SUPPORT. Laws of the memory operations: a read after a write, every other cell left alone, the canonical form kept, and
the registers of the four address spaces apart from each other (spec/20_memory.md R42–R53). -/

namespace Sys2Proof.Machine

/-! ## Bytes -/

/-- `word(h, l) = h*256 + l` (00_scope.md R12). -/
theorem word_toNat (h l : Byte) : (word h l).toNat = h.toNat * 256 + l.toNat := by
  have := l.isLt
  rw [word, BitVec.toNat_append, ← Nat.shiftLeft_add_eq_or_of_lt l.isLt, Nat.shiftLeft_eq]

@[simp] theorem word_hi_lo (v : Word16) : word (hi v) (lo v) = v := by
  apply BitVec.eq_of_toNat_eq
  have := v.isLt
  rw [word_toNat]
  simp only [hi, lo, BitVec.extractLsb'_toNat, Nat.shiftRight_eq_div_pow]
  omega

@[simp] theorem hi_word (h l : Byte) : hi (word h l) = h := by
  apply BitVec.eq_of_toNat_eq
  have h1 := h.isLt
  have h2 := l.isLt
  rw [hi, BitVec.extractLsb'_toNat, word_toNat, Nat.shiftRight_eq_div_pow]
  omega

@[simp] theorem lo_word (h l : Byte) : lo (word h l) = l := by
  apply BitVec.eq_of_toNat_eq
  have h1 := h.isLt
  have h2 := l.isLt
  rw [lo, BitVec.extractLsb'_toNat, word_toNat, Nat.shiftRight_eq_div_pow]
  omega

/-- `unbe32([b0,b1,b2,b3]) = b0*2^24 + b1*2^16 + b2*2^8 + b3` (00_scope.md R12). -/
theorem unbe32_toNat (b : PortBytes) :
    (unbe32 b).toNat = b.b0.toNat * 2 ^ 24 + b.b1.toNat * 2 ^ 16 + b.b2.toNat * 2 ^ 8 + b.b3.toNat := by
  have h0 := b.b0.isLt
  have h1 := b.b1.isLt
  have h2 := b.b2.isLt
  have h3 := b.b3.isLt
  rw [unbe32, BitVec.toNat_append, ← Nat.shiftLeft_add_eq_or_of_lt h3, BitVec.toNat_append,
    ← Nat.shiftLeft_add_eq_or_of_lt h2, BitVec.toNat_append, ← Nat.shiftLeft_add_eq_or_of_lt h1,
    Nat.shiftLeft_eq, Nat.shiftLeft_eq, Nat.shiftLeft_eq]
  omega

@[simp] theorem unbe32_be32 (v : Word32) : unbe32 (be32 v) = v := by
  apply BitVec.eq_of_toNat_eq
  have := v.isLt
  rw [unbe32_toNat]
  simp only [be32, BitVec.extractLsb'_toNat, Nat.shiftRight_eq_div_pow]
  omega

@[simp] theorem unbe32_be32_fields (v : Word32) :
    unbe32 ⟨(be32 v).b0, (be32 v).b1, (be32 v).b2, (be32 v).b3⟩ = v := unbe32_be32 v

/-! ## Cells -/

theorem Memory.get_insert (m : Memory) (a x : Nat) (b : Byte) :
    Memory.get (Memory.insert m a b) x = if x = a then b else Memory.get m x := by
  induction m with
  | nil => simp [Memory.insert, Memory.get, eq_comm]
  | cons c m ih =>
    obtain ⟨k, y⟩ := c
    unfold Memory.insert
    split
    · by_cases hx : x = a
      · simp [Memory.get, hx]
      · simp [Memory.get, hx, Ne.symm hx]
    · split
      · rename_i h
        subst h
        by_cases hx : x = a
        · simp [Memory.get, hx]
        · simp [Memory.get, hx, Ne.symm hx]
      · rename_i h1 h2
        by_cases hk : k = x
        · subst hk
          simp [Memory.get, Ne.symm h2]
        · simp [Memory.get, hk, ih]

theorem Memory.get_filter (m : Memory) (a x : Nat) :
    Memory.get (m.filter fun c => c.1 ≠ a) x = if x = a then unlistedByte else Memory.get m x := by
  induction m with
  | nil => simp [Memory.get]
  | cons c m ih =>
    obtain ⟨k, y⟩ := c
    by_cases hk : k = a
    · subst hk
      rw [List.filter_cons_of_neg (by simp), ih]
      by_cases hx : x = k
      · simp [hx]
      · simp [Memory.get, hx, Ne.symm hx]
    · rw [List.filter_cons_of_pos (by simpa using hk)]
      by_cases hx : k = x
      · subst hx
        simp [Memory.get, hk]
      · simp only [Memory.get, if_neg hx]
        exact ih

/-- A read after a write of one cell. -/
theorem Memory.get_put (m : Memory) (a x : Nat) (b : Byte) :
    Memory.get (Memory.put m a b) x = if x = a then b else Memory.get m x := by
  unfold Memory.put
  split
  · rename_i hb
    rw [Memory.get_filter, hb]
  · exact Memory.get_insert m a x b

theorem Memory.mem_insert {m : Memory} {a : Nat} {b : Byte} {c : Host.Cell} (h : c ∈ Memory.insert m a b) :
    c = (a, b) ∨ c ∈ m := by
  induction m with
  | nil => simpa [Memory.insert] using h
  | cons d m ih =>
    obtain ⟨k, y⟩ := d
    unfold Memory.insert at h
    split at h
    · simpa using h
    · split at h
      · simp only [List.mem_cons] at h ⊢
        tauto
      · simp only [List.mem_cons] at h ⊢
        rcases h with h | h
        · tauto
        · rcases ih h with h | h <;> tauto

theorem Memory.sorted_insert {m : Memory} (hs : m.Pairwise fun x y => x.1 < y.1) (a : Nat) (b : Byte) :
    (Memory.insert m a b).Pairwise fun x y => x.1 < y.1 := by
  induction m with
  | nil => simp [Memory.insert]
  | cons d m ih =>
    obtain ⟨k, y⟩ := d
    obtain ⟨h1, h2⟩ := List.pairwise_cons.1 hs
    unfold Memory.insert
    split
    · rename_i hlt
      refine List.pairwise_cons.2 ⟨fun c hc => ?_, hs⟩
      rcases List.mem_cons.1 hc with rfl | hc
      · exact hlt
      · exact lt_trans hlt (h1 c hc)
    · split
      · rename_i h
        subst h
        exact List.pairwise_cons.2 ⟨h1, h2⟩
      · refine List.pairwise_cons.2 ⟨fun c hc => ?_, ih h2⟩
        rcases Memory.mem_insert hc with rfl | hc
        · simp only
          omega
        · exact h1 c hc

/-- A write keeps the canonical form. -/
theorem Memory.wf_put {m : Memory} (hm : Memory.wf m) {a : Nat} (ha : a < memorySize) (b : Byte) :
    Memory.wf (Memory.put m a b) := by
  unfold Memory.put
  split
  · exact ⟨hm.1.filter _, fun c hc => hm.2 c (List.mem_filter.1 hc).1⟩
  · rename_i hb
    refine ⟨Memory.sorted_insert hm.1 a b, fun c hc => ?_⟩
    rcases Memory.mem_insert hc with rfl | hc
    · exact ⟨ha, hb⟩
    · exact hm.2 c hc

/-! ## Whole registers -/

theorem Memory.get_put16 (m : Memory) (a x : Nat) (v : Word16) :
    Memory.get (Memory.put16 m a v) x =
      if x = a + 1 then lo v else if x = a then hi v else Memory.get m x := by
  simp only [Memory.put16, Memory.get_put]

theorem Memory.get_put32 (m : Memory) (a x : Nat) (v : Word32) :
    Memory.get (Memory.put32 m a v) x =
      if x = a + 3 then (be32 v).b3 else if x = a + 2 then (be32 v).b2
      else if x = a + 1 then (be32 v).b1 else if x = a then (be32 v).b0 else Memory.get m x := by
  simp only [Memory.put32, Memory.get_put]

/-- A 16-bit register just written reads back. -/
@[simp] theorem Memory.get16_put16 (m : Memory) (a : Nat) (v : Word16) :
    Memory.get16 (Memory.put16 m a v) a = v := by
  simp [Memory.get16, Memory.get_put16]

/-- A port just written reads back. -/
@[simp] theorem Memory.get32_put32 (m : Memory) (a : Nat) (v : Word32) :
    Memory.get32 (Memory.put32 m a v) a = v := by
  simp [Memory.get32, Memory.get_put32]

/-- A 16-bit write leaves every cell outside its two alone. -/
theorem Memory.get_put16_of_ne (m : Memory) (a : Nat) (v : Word16) {x : Nat} (h : x < a ∨ a + 1 < x) :
    Memory.get (Memory.put16 m a v) x = Memory.get m x := by
  rw [Memory.get_put16, if_neg (by omega), if_neg (by omega)]

/-- A port write leaves every cell outside its four alone. -/
theorem Memory.get_put32_of_ne (m : Memory) (a : Nat) (v : Word32) {x : Nat} (h : x < a ∨ a + 3 < x) :
    Memory.get (Memory.put32 m a v) x = Memory.get m x := by
  rw [Memory.get_put32, if_neg (by omega), if_neg (by omega), if_neg (by omega), if_neg (by omega)]

theorem Memory.wf_put16 {m : Memory} (hm : Memory.wf m) {a : Nat} (ha : a + 1 < memorySize) (v : Word16) :
    Memory.wf (Memory.put16 m a v) :=
  Memory.wf_put (Memory.wf_put hm (by omega) _) ha _

theorem Memory.wf_put32 {m : Memory} (hm : Memory.wf m) {a : Nat} (ha : a + 3 < memorySize) (v : Word32) :
    Memory.wf (Memory.put32 m a v) :=
  Memory.wf_put (Memory.wf_put (Memory.wf_put (Memory.wf_put hm (by omega) _) (by omega) _) (by omega) _) ha _

/-! ## Where registers lie -/

theorem sportCell_lt (s : SlaveId) (a : Byte) : sportCell s a + 1 < 4096 := by
  have := s.isLt
  have := a.isLt
  unfold sportCell
  omega

theorem busCtrlCell_bounds (a : Byte) : 4096 ≤ busCtrlCell a ∧ busCtrlCell a + 1 < 4608 := by
  have := a.isLt
  unfold busCtrlCell
  omega

theorem portCell_bounds (s : SlaveId) (p : Port) : 4608 ≤ portCell s p ∧ portCell s p + 3 < memorySize := by
  have := s.isLt
  unfold portCell memorySize
  cases p <;> simp <;> omega

/-- Two SPort registers that share a cell are one register. -/
theorem sportCell_apart {s s' : SlaveId} {a a' : Byte} (h : ¬(s = s' ∧ a = a')) :
    sportCell s a + 1 < sportCell s' a' ∨ sportCell s' a' + 1 < sportCell s a := by
  have h1 := s.isLt
  have h2 := s'.isLt
  have h3 := a.isLt
  have h4 := a'.isLt
  have : ¬(s.toNat = s'.toNat ∧ a.toNat = a'.toNat) := fun ⟨x, y⟩ =>
    h ⟨BitVec.eq_of_toNat_eq x, BitVec.eq_of_toNat_eq y⟩
  unfold sportCell
  omega

theorem busCtrlCell_apart {a a' : Byte} (h : a ≠ a') :
    busCtrlCell a + 1 < busCtrlCell a' ∨ busCtrlCell a' + 1 < busCtrlCell a := by
  have h3 := a.isLt
  have h4 := a'.isLt
  have : a.toNat ≠ a'.toNat := fun x => h (BitVec.eq_of_toNat_eq x)
  unfold busCtrlCell
  omega

theorem portCell_apart {s s' : SlaveId} {p p' : Port} (h : ¬(s = s' ∧ p = p')) :
    portCell s p + 3 < portCell s' p' ∨ portCell s' p' + 3 < portCell s p := by
  have h1 := s.isLt
  have h2 := s'.isLt
  have hs : s.toNat = s'.toNat → s = s' := BitVec.eq_of_toNat_eq
  unfold portCell
  cases p <;> cases p' <;> simp at h ⊢ <;> by_cases e : s.toNat = s'.toNat
  all_goals first | (exfalso; exact h (hs e)) | omega

end Sys2Proof.Machine
end

