-- ==== Sys2Proof/Laws/Codec.lean ====
section
/-! SUPPORT. Laws of the frame codec: the fields of a control byte, the layouts read back, the frames the target accepts
(spec/30_encoding.md R75–R89, spec/40_frame_codec.md R91–R97). -/

namespace Sys2Proof

/-! ## The control byte -/

variable (c : Cfg) (power : Bool) (slave : SlaveId) (w : Bool) (ch : Channel)

/-- The control byte as bits, for the field lemmas. -/
theorem controlByte_fields : ∀ (p : BitVec 1) (s : BitVec 3) (v : BitVec 1) (code : BitVec 2),
    ((p ++ s ++ v ++ 0#1 ++ code : BitVec 8).getLsbD 7 = p.getLsbD 0) ∧
    ((p ++ s ++ v ++ 0#1 ++ code : BitVec 8).extractLsb' 4 3 = s) ∧
    ((p ++ s ++ v ++ 0#1 ++ code : BitVec 8).getLsbD 3 = v.getLsbD 0) ∧
    ((p ++ s ++ v ++ 0#1 ++ code : BitVec 8).getLsbD 2 = false) ∧
    ((p ++ s ++ v ++ 0#1 ++ code : BitVec 8).extractLsb' 0 2 = code) := by decide

@[simp] theorem ctrlPower_controlByte : ctrlPower (controlByte c power slave w ch) = power := by
  have := (controlByte_fields (BitVec.ofBool power) slave (BitVec.ofBool w) (c.chCode ch)).1
  rw [ctrlPower, controlByte, this]
  cases power <;> rfl

@[simp] theorem ctrlSlave_controlByte : ctrlSlave (controlByte c power slave w ch) = slave :=
  (controlByte_fields (BitVec.ofBool power) slave (BitVec.ofBool w) (c.chCode ch)).2.1

@[simp] theorem ctrlWrite_controlByte : ctrlWrite (controlByte c power slave w ch) = w := by
  have := (controlByte_fields (BitVec.ofBool power) slave (BitVec.ofBool w) (c.chCode ch)).2.2.1
  rw [ctrlWrite, controlByte, this]
  cases w <;> rfl

/-- Bit 2 of every control byte the controller builds is 0 (R85, R97). -/
@[simp] theorem controlByte_bit2 : (controlByte c power slave w ch).getLsbD 2 = false :=
  (controlByte_fields (BitVec.ofBool power) slave (BitVec.ofBool w) (c.chCode ch)).2.2.2.1

@[simp] theorem controlByte_code : (controlByte c power slave w ch).extractLsb' 0 2 = c.chCode ch :=
  (controlByte_fields (BitVec.ofBool power) slave (BitVec.ofBool w) (c.chCode ch)).2.2.2.2

variable {c}

/-- `CH_CODE⁻¹(CH_CODE(ch)) = ch`. -/
theorem channelOfCode_chCode (h : c.LayoutOk) (ch : Channel) : c.channelOfCode (c.chCode ch) = ch := by
  have hn := h.2.1
  simp only [List.nodup_cons, List.mem_cons, List.not_mem_nil, or_false, not_or] at hn
  obtain ⟨⟨h1, h2, h3⟩, ⟨h4, h5⟩, h6, -⟩ := hn
  cases ch <;> simp [Cfg.channelOfCode, Cfg.chCode, Ne.symm h1, Ne.symm h2, Ne.symm h3, Ne.symm h4, Ne.symm h5, Ne.symm h6]

/-- `CH_CODE(CH_CODE⁻¹(code)) = code`: the four codes are all the 2-bit values. -/
theorem chCode_channelOfCode (h : c.LayoutOk) (code : BitVec 2) : c.chCode (c.channelOfCode code) = code := by
  have hn := h.2.1
  have key : ∀ a b d e x : BitVec 2, [a, b, d, e].Nodup → x = a ∨ x = b ∨ x = d ∨ x = e := by decide
  have := key c.codePort0 c.codePort1 c.codeSPort c.codeBusCtrl code hn
  unfold Cfg.channelOfCode
  split
  · simp_all [Cfg.chCode]
  · split
    · simp_all [Cfg.chCode]
    · split
      · simp_all [Cfg.chCode]
      · simp_all [Cfg.chCode]

theorem ctrlChannel_controlByte (h : c.LayoutOk) : ctrlChannel c (controlByte c power slave w ch) = ch := by
  rw [ctrlChannel, controlByte_code, channelOfCode_chCode h]

/-- A control byte is its fields, but for bit 2. -/
theorem controlByte_of_fields (h : c.LayoutOk) (b : Byte) :
    controlByte c (ctrlPower b) (ctrlSlave b) (ctrlWrite b) (ctrlChannel c b) = b &&& 0xFB#8 := by
  have key : ∀ b : BitVec 8, (BitVec.ofBool (b.getLsbD 7) ++ b.extractLsb' 4 3 ++ BitVec.ofBool (b.getLsbD 3) ++ 0#1 ++
      b.extractLsb' 0 2 : BitVec 8) = b &&& 0xFB#8 := by decide
  rw [controlByte, ctrlChannel, chCode_channelOfCode h]
  exact key b

/-! ## Command frames -/

/-- `decode` reads back what `encode` built, whatever follows (R92, R96). -/
theorem decodeCommand_commandBytes (h : c.LayoutOk) (f : FrameFields) (rest : List Byte) :
    decodeCommand c (commandBytes c f ++ rest) = .ok f := by
  simp [commandBytes, decodeCommand, ctrlChannel_controlByte _ _ _ _ h]

theorem registerFrame_length (h : c.LayoutOk) (f : FrameFields) : (registerFrame c f).length = c.frameLen := by
  have := h.1
  simp [registerFrame, commandBytes]
  omega

/-! ## The port layout -/

@[simp] theorem putPortBytes_length (f : Frame) (k : Nat) (b : PortBytes) : (putPortBytes f k b).length = f.length := by
  simp [putPortBytes]

@[simp] theorem portLayoutFrame_length (c : Cfg) (p : Port) (v : Option Word32) :
    (portLayoutFrame c power slave p v).length = c.frameLen := by
  simp [portLayoutFrame]

/-- The four bytes put into a frame read back. -/
theorem portBytesAt_putPortBytes (d : Byte) (f : Frame) (k : Nat) (b : PortBytes) (h : k + 4 ≤ f.length) :
    portBytesAt d (putPortBytes f k b) k = b := by
  unfold portBytesAt putPortBytes
  simp only [List.getD_eq_getElem?_getD, List.getElem?_set, List.length_set]
  simp (disch := omega) only [if_neg, if_pos]
  simp

/-- A frame whose bytes from 2 on are overwritten keeps its first two. -/
theorem putPortBytes_head {x y : Byte} {f : Frame} {k : Nat} (hk : 2 ≤ k) (b : PortBytes) :
    ∃ g, putPortBytes (x :: y :: f) k b = x :: y :: g ∧ g.length = f.length := by
  obtain ⟨j, rfl⟩ : ∃ j, k = j + 2 := ⟨k - 2, by omega⟩
  exact ⟨putPortBytes f j b, by simp [putPortBytes, List.set_cons_succ], by simp⟩

/-- A port frame begins with its control byte and address and has at least six more bytes. -/
theorem portLayoutFrame_head (h : c.LayoutOk) (p : Port) (v : Option Word32) :
    ∃ b2 b3 g, portLayoutFrame c power slave p v =
      controlByte c power slave v.isSome p.channel :: c.portAddr p :: b2 :: b3 :: g := by
  have hN := h.1
  obtain ⟨n, hn⟩ : ∃ n, c.frameLen = n + 4 := ⟨c.frameLen - 4, by omega⟩
  obtain ⟨g, hg, hl⟩ := putPortBytes_head (x := controlByte c power slave v.isSome p.channel) (y := c.portAddr p)
    (f := List.replicate (n + 2) c.pad) h.2.2.2.2.2.2.2.2.1 (be32 (v.getD 0))
  have : portLayoutFrame c power slave p v = putPortBytes
      (controlByte c power slave v.isSome p.channel :: c.portAddr p :: List.replicate (n + 2) c.pad) c.ptxIdx
      (be32 (v.getD 0)) := by
    simp [portLayoutFrame, hn, List.replicate_succ]
  rw [this, hg]
  match g, hl with
  | b2 :: b3 :: g, _ => exact ⟨b2, b3, g, rfl⟩

theorem portBytesAt_portLayoutFrame (h : c.LayoutOk) (p : Port) (v : Option Word32) (d : Byte) :
    portBytesAt d (portLayoutFrame c power slave p v) c.ptxIdx = be32 (v.getD 0) :=
  portBytesAt_putPortBytes _ _ _ _ (by simpa using h.2.2.2.2.2.2.2.2.2.1)

/-! ## Frames read as instructions -/

/-- A register frame read as an instruction. -/
theorem decodeFrame_registerFrame (h : c.LayoutOk) (a : Byte) (d : Word16) :
    decodeFrame c (registerFrame c ⟨power, slave, false, .sport, a, d⟩) = .ok (.sportRd power slave a d) ∧
    decodeFrame c (registerFrame c ⟨power, slave, false, .busCtrl, a, d⟩) = .ok (.busctrlRd power slave a d) ∧
    decodeFrame c (registerFrame c ⟨power, slave, true, .sport, a, d⟩) = .ok (.sportWr power slave a d) ∧
    decodeFrame c (registerFrame c ⟨power, slave, true, .busCtrl, a, d⟩) = .ok (.busctrlWr power slave a d) := by
  have key : ∀ f, decodeCommand c (registerFrame c f) = .ok f := fun f => decodeCommand_commandBytes h f _
  simp [decodeFrame, key, frameKindOf]

/-- A port frame read as an instruction. -/
theorem decodeFrame_portLayoutFrame (h : c.LayoutOk) (p : Port) (v : Option Word32) :
    decodeFrame c (portLayoutFrame c power slave p v) = .ok (match p, v with
      | .zero, none => .port0Rd power slave
      | .one, none => .port1Rd power slave
      | .zero, some x => .port0Wr power slave x
      | .one, some x => .port1Wr power slave x) := by
  obtain ⟨b2, b3, g, hg⟩ := portLayoutFrame_head power slave h p v
  have hb := portBytesAt_portLayoutFrame power slave h p v c.pad
  rw [hg] at hb ⊢
  simp only [decodeFrame, decodeCommand, ctrlPower_controlByte, ctrlSlave_controlByte, ctrlWrite_controlByte,
    ctrlChannel_controlByte _ _ _ _ h]
  cases p <;> cases v
  all_goals simp only [Option.isSome, Port.channel, frameKindOf] at hb ⊢
  all_goals simp [hb]

end Sys2Proof
end

