-- ==== Sys2Proof/Laws/State.lean ====
section
/-! SUPPORT. One lemma per field per update of `State`, true by `rfl`, so that no later proof unfolds a record update. -/

namespace Sys2Proof.Machine

variable (s : State)

@[simp] theorem State.log_params (e : Event) : (s.log e).params = s.params := rfl
@[simp] theorem State.log_ses (e : Event) : (s.log e).ses = s.ses := rfl
@[simp] theorem State.log_hist (e : Event) : (s.log e).hist = s.hist ++ [e] := rfl
@[simp] theorem State.log_bus (e : Event) : (s.log e).bus = s.bus := rfl
@[simp] theorem State.log_requests (e : Event) : (s.log e).requests = s.requests := rfl

@[simp] theorem State.withSes_params (u : Session) : (s.withSes u).params = s.params := rfl
@[simp] theorem State.withSes_ses (u : Session) : (s.withSes u).ses = u := rfl
@[simp] theorem State.withSes_hist (u : Session) : (s.withSes u).hist = s.hist := rfl
@[simp] theorem State.withSes_bus (u : Session) : (s.withSes u).bus = s.bus := rfl
@[simp] theorem State.withSes_requests (u : Session) : (s.withSes u).requests = s.requests := rfl

@[simp] theorem State.withBus_params (b : Bus) : (s.withBus b).params = s.params := rfl
@[simp] theorem State.withBus_ses (b : Bus) : (s.withBus b).ses = s.ses := rfl
@[simp] theorem State.withBus_hist (b : Bus) : (s.withBus b).hist = s.hist := rfl
@[simp] theorem State.withBus_bus (b : Bus) : (s.withBus b).bus = b := rfl
@[simp] theorem State.withBus_requests (b : Bus) : (s.withBus b).requests = s.requests := rfl

@[simp] theorem State.setFlashState_params (f : FlashState) : (s.setFlashState f).params = s.params := rfl
@[simp] theorem State.setFlashState_ses (f : FlashState) : (s.setFlashState f).ses = { s.ses with flash := { s.ses.flash with state := f } } := rfl
@[simp] theorem State.setFlashState_hist (f : FlashState) : (s.setFlashState f).hist = s.hist := rfl
@[simp] theorem State.setFlashState_bus (f : FlashState) : (s.setFlashState f).bus = s.bus := rfl
@[simp] theorem State.setFlashState_requests (f : FlashState) : (s.setFlashState f).requests = s.requests := rfl

@[simp] theorem State.exchanged_params (tx rx : Frame) : (s.exchanged tx rx).params = s.params := rfl
@[simp] theorem State.exchanged_ses (tx rx : Frame) : (s.exchanged tx rx).ses = { s.ses with pc := s.ses.pc.nextFrame } := rfl
@[simp] theorem State.exchanged_hist (tx rx : Frame) : (s.exchanged tx rx).hist = s.hist ++ [.frame tx rx] := rfl
@[simp] theorem State.exchanged_bus (tx rx : Frame) : (s.exchanged tx rx).bus = (s.bus.takeAnswer s.cfg).accept s.cfg tx := rfl
@[simp] theorem State.exchanged_requests (tx rx : Frame) : (s.exchanged tx rx).requests = s.requests := rfl

@[simp] theorem State.exchangeFailed_params (tx : Frame) (landed : Bool) : (s.exchangeFailed tx landed).params = s.params := rfl
@[simp] theorem State.exchangeFailed_ses (tx : Frame) (landed : Bool) : (s.exchangeFailed tx landed).ses = { s.ses with dead := true, pc := s.ses.pc.nextFrame } := rfl
@[simp] theorem State.exchangeFailed_hist (tx : Frame) (landed : Bool) : (s.exchangeFailed tx landed).hist = s.hist ++ [.txFail tx] := rfl
@[simp] theorem State.exchangeFailed_bus (tx : Frame) (landed : Bool) : (s.exchangeFailed tx landed).bus = if landed then (s.bus.takeAnswer s.cfg).accept s.cfg tx else s.bus.takeAnswer s.cfg := rfl
@[simp] theorem State.exchangeFailed_requests (tx : Frame) (landed : Bool) : (s.exchangeFailed tx landed).requests = s.requests := rfl

@[simp] theorem State.sel_params : (s.sel).params = s.params := rfl
@[simp] theorem State.sel_ses : (s.sel).ses = { s.ses with sel := true } := rfl
@[simp] theorem State.sel_hist : (s.sel).hist = s.hist ++ [.select true] := rfl
@[simp] theorem State.sel_bus : (s.sel).bus = s.bus := rfl
@[simp] theorem State.sel_requests : (s.sel).requests = s.requests := rfl

@[simp] theorem State.desel_params : (s.desel).params = s.params := rfl
@[simp] theorem State.desel_ses : (s.desel).ses = { s.ses with sel := false, pc := s.ses.pc.nextTxn } := rfl
@[simp] theorem State.desel_hist : (s.desel).hist = s.hist ++ [.select false] := rfl
@[simp] theorem State.desel_bus : (s.desel).bus = s.bus := rfl
@[simp] theorem State.desel_requests : (s.desel).requests = s.requests := rfl

@[simp] theorem State.enter_params (op : OpName) : (s.enter op).params = s.params := rfl
@[simp] theorem State.enter_ses (op : OpName) : (s.enter op).ses = { s.ses with pc := .running op 0 0 } := rfl
@[simp] theorem State.enter_hist (op : OpName) : (s.enter op).hist = s.hist := rfl
@[simp] theorem State.enter_bus (op : OpName) : (s.enter op).bus = s.bus := rfl
@[simp] theorem State.enter_requests (op : OpName) : (s.enter op).requests = s.requests := rfl

@[simp] theorem State.ret_params (op : OpName) (r : Result) : (s.ret op r).params = s.params := rfl
@[simp] theorem State.ret_ses (op : OpName) (r : Result) : (s.ret op r).ses = { s.ses with pc := .idle } := rfl
@[simp] theorem State.ret_hist (op : OpName) (r : Result) : (s.ret op r).hist = s.hist ++ [.ret op r] := rfl
@[simp] theorem State.ret_bus (op : OpName) (r : Result) : (s.ret op r).bus = s.bus := rfl
@[simp] theorem State.ret_requests (op : OpName) (r : Result) : (s.ret op r).requests = s.requests := rfl

@[simp] theorem State.setInfo_params (i : SlaveId) (x : Option SlaveInfo) : (s.setInfo i x).params = s.params := rfl
@[simp] theorem State.setInfo_ses (i : SlaveId) (x : Option SlaveInfo) : (s.setInfo i x).ses = s.ses.setEntry i { s.ses.entry i with info := x } := rfl
@[simp] theorem State.setInfo_hist (i : SlaveId) (x : Option SlaveInfo) : (s.setInfo i x).hist = s.hist := rfl
@[simp] theorem State.setInfo_bus (i : SlaveId) (x : Option SlaveInfo) : (s.setInfo i x).bus = s.bus := rfl
@[simp] theorem State.setInfo_requests (i : SlaveId) (x : Option SlaveInfo) : (s.setInfo i x).requests = s.requests := rfl

@[simp] theorem State.beginExchange_params (i : SlaveId) (p0 p1 : Option PortBytes) : (s.beginExchange i p0 p1).params = s.params := rfl
@[simp] theorem State.beginExchange_ses (i : SlaveId) (p0 p1 : Option PortBytes) : (s.beginExchange i p0 p1).ses = ({ s.ses with curSlave := i }.request .zero p0).request .one p1 := rfl
@[simp] theorem State.beginExchange_hist (i : SlaveId) (p0 p1 : Option PortBytes) : (s.beginExchange i p0 p1).hist = s.hist := rfl
@[simp] theorem State.beginExchange_bus (i : SlaveId) (p0 p1 : Option PortBytes) : (s.beginExchange i p0 p1).bus = s.bus := rfl
@[simp] theorem State.beginExchange_requests (i : SlaveId) (p0 p1 : Option PortBytes) : (s.beginExchange i p0 p1).requests = s.requests := rfl

@[simp] theorem State.endExchange_params : (s.endExchange).params = s.params := rfl
@[simp] theorem State.endExchange_ses : (s.endExchange).ses = { s.ses with pendWr0 := false, pendWr1 := false, sel := false, pc := s.ses.pc.nextTxn } := rfl
@[simp] theorem State.endExchange_hist : (s.endExchange).hist = s.hist ++ [.select false] := rfl
@[simp] theorem State.endExchange_bus : (s.endExchange).bus = s.bus := rfl
@[simp] theorem State.endExchange_requests : (s.endExchange).requests = s.requests := rfl

@[simp] theorem State.markEnabled_params (i : SlaveId) : (s.markEnabled i).params = s.params := rfl
@[simp] theorem State.markEnabled_ses (i : SlaveId) : (s.markEnabled i).ses = s.ses.setEntry i { s.ses.entry i with enabled := true } := rfl
@[simp] theorem State.markEnabled_hist (i : SlaveId) : (s.markEnabled i).hist = s.hist := rfl
@[simp] theorem State.markEnabled_bus (i : SlaveId) : (s.markEnabled i).bus = s.bus := rfl
@[simp] theorem State.markEnabled_requests (i : SlaveId) : (s.markEnabled i).requests = s.requests := rfl

@[simp] theorem State.rebooted_params (i : SlaveId) : (s.rebooted i).params = s.params := rfl
@[simp] theorem State.rebooted_ses (i : SlaveId) : (s.rebooted i).ses = { s.ses.setEntry i { s.ses.entry i with enabled := false, info := none } with flash := { s.ses.flash with state := .done } } := rfl
@[simp] theorem State.rebooted_hist (i : SlaveId) : (s.rebooted i).hist = s.hist := rfl
@[simp] theorem State.rebooted_bus (i : SlaveId) : (s.rebooted i).bus = s.bus := rfl
@[simp] theorem State.rebooted_requests (i : SlaveId) : (s.rebooted i).requests = s.requests := rfl

@[simp] theorem State.withRequests_params (rs : List HostCall) : (s.withRequests rs).params = s.params := rfl
@[simp] theorem State.withRequests_ses (rs : List HostCall) : (s.withRequests rs).ses = s.ses := rfl
@[simp] theorem State.withRequests_hist (rs : List HostCall) : (s.withRequests rs).hist = s.hist := rfl
@[simp] theorem State.withRequests_bus (rs : List HostCall) : (s.withRequests rs).bus = s.bus := rfl
@[simp] theorem State.withRequests_requests (rs : List HostCall) : (s.withRequests rs).requests = rs := rfl

@[simp] theorem Session.setEntry_power (u : Session) (i : SlaveId) (e : SlaveEntry) : (u.setEntry i e).power = u.power := rfl
@[simp] theorem Session.setEntry_curSlave (u : Session) (i : SlaveId) (e : SlaveEntry) : (u.setEntry i e).curSlave = u.curSlave := rfl
@[simp] theorem Session.setEntry_flash (u : Session) (i : SlaveId) (e : SlaveEntry) : (u.setEntry i e).flash = u.flash := rfl
@[simp] theorem Session.setEntry_dead (u : Session) (i : SlaveId) (e : SlaveEntry) : (u.setEntry i e).dead = u.dead := rfl
@[simp] theorem Session.setEntry_sel (u : Session) (i : SlaveId) (e : SlaveEntry) : (u.setEntry i e).sel = u.sel := rfl
@[simp] theorem Session.setEntry_pc (u : Session) (i : SlaveId) (e : SlaveEntry) : (u.setEntry i e).pc = u.pc := rfl
@[simp] theorem Session.setEntry_pendWr0 (u : Session) (i : SlaveId) (e : SlaveEntry) : (u.setEntry i e).pendWr0 = u.pendWr0 := rfl
@[simp] theorem Session.setEntry_pendWr1 (u : Session) (i : SlaveId) (e : SlaveEntry) : (u.setEntry i e).pendWr1 = u.pendWr1 := rfl
@[simp] theorem Session.setEntry_pendVal0 (u : Session) (i : SlaveId) (e : SlaveEntry) : (u.setEntry i e).pendVal0 = u.pendVal0 := rfl
@[simp] theorem Session.setEntry_pendVal1 (u : Session) (i : SlaveId) (e : SlaveEntry) : (u.setEntry i e).pendVal1 = u.pendVal1 := rfl
@[simp] theorem Session.setEntry_errSummary (u : Session) (i : SlaveId) (e : SlaveEntry) : (u.setEntry i e).errSummary = u.errSummary := rfl
@[simp] theorem Session.setEntry_presence (u : Session) (i : SlaveId) (e : SlaveEntry) : (u.setEntry i e).presence = u.presence := rfl
@[simp] theorem Session.setEntry_scanStatus (u : Session) (i : SlaveId) (e : SlaveEntry) : (u.setEntry i e).scanStatus = u.scanStatus := rfl
@[simp] theorem Session.setEntry_slaves (u : Session) (i : SlaveId) (e : SlaveEntry) : (u.setEntry i e).slaves = u.slaves.set i.toNat e i.isLt := rfl

@[simp] theorem State.withLine_params (f : Option Frame) : (s.withLine f).params = s.params := rfl
@[simp] theorem State.withLine_ses (f : Option Frame) : (s.withLine f).ses = s.ses := rfl
@[simp] theorem State.withLine_hist (f : Option Frame) : (s.withLine f).hist = s.hist := rfl
@[simp] theorem State.withLine_requests (f : Option Frame) : (s.withLine f).requests = s.requests := rfl
@[simp] theorem State.withLine_mem (f : Option Frame) : (s.withLine f).bus.mem = s.bus.mem := rfl
@[simp] theorem State.withLine_pipe (f : Option Frame) : (s.withLine f).bus.pipe = s.bus.pipe := rfl
@[simp] theorem State.withLine_line (f : Option Frame) : (s.withLine f).bus.line = f := rfl

@[simp] theorem State.serve_params (e : Bus → Bus) : (s.serve e).params = s.params := rfl
@[simp] theorem State.serve_ses (e : Bus → Bus) : (s.serve e).ses = s.ses := rfl
@[simp] theorem State.serve_hist (e : Bus → Bus) : (s.serve e).hist = s.hist := rfl
@[simp] theorem State.serve_requests (e : Bus → Bus) : (s.serve e).requests = s.requests := rfl
@[simp] theorem State.serve_bus (e : Bus → Bus) : (s.serve e).bus = s.bus.serve s.cfg e := rfl

@[simp] theorem Bus.takeAnswer_reply (c : Cfg) (b : Bus) : (b.takeAnswer c).reply = some (fitAnswer c b.nextAnswer) := rfl
@[simp] theorem Bus.takeAnswer_line (c : Cfg) (b : Bus) : (b.takeAnswer c).line = b.line := rfl
@[simp] theorem Bus.takeAnswer_mem (c : Cfg) (b : Bus) : (b.takeAnswer c).mem = b.mem := rfl
@[simp] theorem Bus.takeAnswer_fifo (c : Cfg) (b : Bus) : (b.takeAnswer c).fifo = b.fifo := rfl
@[simp] theorem Bus.takeAnswer_pipe (c : Cfg) (b : Bus) : (b.takeAnswer c).pipe = b.pipe := rfl
@[simp] theorem Bus.takeAnswer_answers (c : Cfg) (b : Bus) : (b.takeAnswer c).answers = b.answers.tail := rfl
@[simp] theorem Bus.takeAnswer_drawn (c : Cfg) (b : Bus) : (b.takeAnswer c).drawn = b.drawn + 1 := rfl

@[simp] theorem SeqPos.nextFrame_idle : SeqPos.idle.nextFrame = .idle := rfl
@[simp] theorem SeqPos.nextTxn_idle : SeqPos.idle.nextTxn = .idle := rfl

/-- A slave table entry just written reads back. -/
@[simp] theorem Session.entry_setEntry_self (u : Session) (i : SlaveId) (e : SlaveEntry) :
    (u.setEntry i e).entry i = e := by
  simp [Session.entry, Session.setEntry]

/-- Another entry is left alone. -/
theorem Session.entry_setEntry_ne (u : Session) {i j : SlaveId} (e : SlaveEntry) (h : i ≠ j) :
    (u.setEntry i e).entry j = u.entry j := by
  have hn : i.toNat ≠ j.toNat := fun hk => h (BitVec.eq_of_toNat_eq hk)
  simp [Session.entry, Session.setEntry, hn]

end Sys2Proof.Machine
end

