-- ==== Sys2Proof/Laws/Ops.lean ====
section
/-! SUPPORT. Laws of the shared operations: how computations of the controller run in sequence, the two outcomes of a frame
exchange, the outcomes of `guard`, and what a host operation leaves (spec/20_memory.md R57, spec/60_exceptions.md R164,
R168). -/

namespace Sys2Proof.Machine

variable {α β : Type}

/-! ## Sequencing -/

theorem Op.bind_ok {x : Op α} {f : α → Op β} {s t : State} {a : α} (h : x s = .ok a t) : (x >>= f) s = f a t := by
  show EStateM.bind x f s = _
  simp [EStateM.bind, h]

theorem Op.bind_error {x : Op α} {f : α → Op β} {s t : State} {e : Err} (h : x s = .error e t) :
    (x >>= f) s = .error e t := by
  show EStateM.bind x f s = _
  simp [EStateM.bind, h]

theorem Op.pure_run (a : α) (s : State) : (pure a : Op α) s = .ok a s := rfl

theorem Op.throw_run (e : Err) (s : State) : (throw e : Op α) s = .error e s := rfl

theorem Op.get_bind (f : State → Op β) (s : State) : ((get : Op State) >>= f) s = f s s := rfl

theorem Op.update_bind (g : State → State) (f : Unit → Op β) (s : State) : (update g >>= f) s = f () (g s) := rfl

/-- A sequence that succeeds: both parts did. -/
theorem Op.bind_eq_ok {x : Op α} {f : α → Op β} {s u : State} {b : β} (h : (x >>= f) s = .ok b u) :
    ∃ a t, x s = .ok a t ∧ f a t = .ok b u := by
  cases hx : x s with
  | ok a t => exact ⟨a, t, rfl, by rwa [Op.bind_ok hx] at h⟩
  | error e t => rw [Op.bind_error hx] at h; cases h

/-- A sequence that raises: its first part did, or its second. -/
theorem Op.bind_eq_error {x : Op α} {f : α → Op β} {s u : State} {e : Err} (h : (x >>= f) s = .error e u) :
    x s = .error e u ∨ ∃ a t, x s = .ok a t ∧ f a t = .error e u := by
  cases hx : x s with
  | ok a t => exact .inr ⟨a, t, rfl, by rwa [Op.bind_ok hx] at h⟩
  | error e' t => rw [Op.bind_error hx] at h; cases h; exact .inl rfl

/-! ## One frame exchange -/

theorem xchg_ok {s : State} {rx : Frame} (h : s.bus.nextAnswer = .ok rx) (tx : Frame) :
    xchg tx s = .ok (fitFrame s.cfg rx) (s.exchanged tx (fitFrame s.cfg rx)) := by
  simp [xchg, h]

theorem xchg_fail {s : State} {l : Bool} (h : s.bus.nextAnswer = .fail l) (tx : Frame) :
    xchg tx s = .error (.transportFailure (some tx)) (s.exchangeFailed tx l) := by
  simp [xchg, h]

/-- A response has exactly N bytes (20_memory.md R56). -/
@[simp] theorem fitFrame_length (c : Cfg) (rx : Frame) : (fitFrame c rx).length = c.frameLen := by
  simp [fitFrame]

/-- A response of N bytes is delivered as it is. -/
theorem fitFrame_of_length {c : Cfg} {rx : Frame} (h : rx.length = c.frameLen) : fitFrame c rx = rx := by
  simp [fitFrame, ← h]

theorem nextAnswer_cons {b : Bus} {a : Answer} {rest : List Answer} (h : b.answers = a :: rest) :
    b.nextAnswer = a := by
  simp [Bus.nextAnswer, h]

/-! ## Brackets and error effects -/

theorem withFinally_ok {x : Op α} {s t : State} {a : α} (h : x s = .ok a t) (fin : State → State) :
    withFinally x fin s = .ok a (fin t) := by
  simp [withFinally, h]

theorem withFinally_error {x : Op α} {s t : State} {e : Err} (h : x s = .error e t) (fin : State → State) :
    withFinally x fin s = .error e (fin t) := by
  simp [withFinally, h]

theorem bracket_run (x : Op α) (s : State) : bracket x s = withFinally x State.desel s.sel := rfl

theorem onError_ok {x : Op α} {s t : State} {a : α} (h : x s = .ok a t) (f : Err → State → State) :
    onError x f s = .ok a t := by
  simp [onError, h]

theorem onError_error {x : Op α} {s t : State} {e : Err} (h : x s = .error e t) (f : Err → State → State) :
    onError x f s = .error e (f e t) := by
  simp [onError, h]

/-! ## The common check -/

theorem guard_pass {s : State} {g : GuardArgs} (h : guardError s g = none) : guard g s = .ok () s := by
  simp [guard, h]

theorem guard_refuse {s : State} {g : GuardArgs} {e : Err} (h : guardError s g = some e) : guard g s = .error e s := by
  simp [guard, h]

/-- What `guard` lets through, check by check (R164). -/
theorem guardError_eq_none {s : State} {g : GuardArgs} : guardError s g = none ↔
    (∀ n, g.slave = some n → n ≤ 7) ∧
    (∀ n, g.channel = some n → n ≤ 3 ∧ (g.regChannel = true → 1 < n)) ∧
    (∀ n, g.addr = some n → n ≤ 255) ∧
    (∀ r, g.record = some r → validRecord s.cfg r = true) ∧
    s.ses.dead = false ∧ modeError s.ses g.mode = none := by
  unfold guardError
  simp only [Option.or_eq_none_iff]
  refine and_congr ?_ (and_congr ?_ (and_congr ?_ (and_congr ?_ (and_congr ?_ Iff.rfl))))
  · cases g.slave <;> simp [slaveError]
  · cases g.channel with
    | none => simp
    | some n =>
      simp only [Option.bind_some, channelError, Option.some.injEq, forall_eq']
      split
      · simp; omega
      · split
        · rename_i h; simp [h.1]; omega
        · rename_i h1 h2
          simp only [true_iff]
          exact ⟨by omega, fun hr => by by_contra hc; exact h2 ⟨hr, by omega⟩⟩
  · cases g.addr <;> simp [addrError]
  · cases g.record with
    | none => simp
    | some r => by_cases h : validRecord s.cfg r = true <;> simp [recordError, h]
  · cases s.ses.dead <;> simp

/-- A `guard` never raises a failed exchange, only a dead session. -/
theorem guardError_ne_txFail {s : State} {g : GuardArgs} {e : Err} (h : guardError s g = some e) (tx : Frame) :
    e ≠ .transportFailure (some tx) := by
  rintro rfl
  unfold guardError at h
  simp only [Option.or_eq_some_iff] at h
  rcases h with h | ⟨-, h | ⟨-, h | ⟨-, h | ⟨-, h | ⟨-, h⟩⟩⟩⟩⟩
  · cases hg : g.slave <;> simp [hg, slaveError] at h
  · cases hg : g.channel with
    | none => simp [hg] at h
    | some n =>
      simp only [hg, Option.bind_some, channelError] at h
      split at h
      · simp at h
      · split at h <;> simp at h
  · cases hg : g.addr <;> simp [hg, addrError] at h
  · cases hg : g.record <;> simp [hg, recordError] at h
  · cases hd : s.ses.dead <;> simp [hd] at h
  · cases hm : g.mode <;> simp [hm, modeError] at h

/-! ## A host operation -/

theorem hostOp_ok {body : Op Value} {op : OpName} {s t : State} {v : Value} (h : body (s.enter op) = .ok v t) :
    hostOp op body s = t.ret op (.ok v) := by
  simp [hostOp, h]

theorem hostOp_error {body : Op Value} {op : OpName} {s t : State} {e : Err} (h : body (s.enter op) = .error e t) :
    hostOp op body s = t.ret op (.error e) := by
  simp [hostOp, h]

/-! ## The bus environment's side of a frame exchange -/

theorem Bus.serve_ok {c : Cfg} {b : Bus} {rx : Frame} (h : b.nextAnswer = .ok rx) (e : Bus → Bus) :
    b.serve c e = e (b.takeAnswer c) := by
  simp [Bus.serve, h]

theorem Bus.serve_fail {c : Cfg} {b : Bus} {l : Bool} (h : b.nextAnswer = .fail l) (e : Bus → Bus) :
    b.serve c e = if l then e (b.takeAnswer c) else b.takeAnswer c := by
  simp [Bus.serve, h]

/-- What holds of the bus once the answer is taken, and after the effect, holds after the exchange. -/
theorem Bus.serve_keeps {P : Bus → Prop} {c : Cfg} {b : Bus} {e : Bus → Bus} (h : P (b.takeAnswer c))
    (he : P (e (b.takeAnswer c))) : P (b.serve c e) := by
  unfold Bus.serve
  split
  · exact he
  · split
    · exact he
    · exact h

/-- Every exchange of the controller is served by the bus environment as the frame kind it sends. -/
theorem xchg_serve (tx : Frame) (s : State) :
    (match xchg tx s with
      | .ok _ t => t.bus
      | .error _ t => t.bus) = s.bus.serve s.cfg fun b => b.accept s.cfg tx := by
  cases h : s.bus.nextAnswer with
  | ok rx => rw [xchg_ok h, Bus.serve_ok h]; rfl
  | fail l => rw [xchg_fail h, Bus.serve_fail h]; rfl

end Sys2Proof.Machine
end

