-- ==== Sys2Proof/Laws/Path.lean ====
section
/-! SUPPORT. What a computation of the controller can do, said once: it is a path of elementary actions (chip select, frame
exchanges, notifications, edits of the session), and a failed exchange or another raise ends it, but for `finally` steps
and error effects (spec/60_exceptions.md R168). Every whole-machine law is an induction over paths. -/

namespace Sys2Proof.Machine

variable {α β : Type}

/-- An edit of the session that leaves chip select, the dead mark and the sequencer position alone. -/
structure EditOk (u v : Session) : Prop where
  sel : v.sel = u.sel
  dead : v.dead = u.dead
  pc : v.pc = u.pc

/-- What may follow a raise: `finally` steps and error effects, no frame (R168 (3), (4)). With `b`, deselecting needs the
select to be on; `E` says which edits are made. -/
inductive Tail (b : Bool) (E : Session → Session → Prop) : State → State → Prop
  | done (s : State) : Tail b E s s
  | desel {s t : State} (h : b = true → s.ses.sel = true) (rest : Tail b E s.desel t) : Tail b E s t
  | edit {s t : State} (u : Session) (hE : E s.ses u) (hk : EditOk s.ses u) (rest : Tail b E (s.withSes u) t) : Tail b E s t
  | noted {s t : State} (k : NoteKind) (n : NoteOp) (rest : Tail b E (s.log (.note k n)) t) : Tail b E s t

/-- What a computation does from s to t, ending with an error or without. -/
inductive Path (b : Bool) (E : Session → Session → Prop) : State → Option Err → State → Prop
  | done (s : State) : Path b E s none s
  | raised {s t : State} (e : Err) (h : ∀ tx, e ≠ .transportFailure (some tx)) (tail : Tail b E s t) :
      Path b E s (some e) t
  | failed {s t : State} (tx : Frame) (l : Bool) (h : b = true → s.ses.sel = true) (hf : WellBuilt s.cfg tx)
      (tail : Tail b E (s.exchangeFailed tx l) t) : Path b E s (some (.transportFailure (some tx))) t
  | sent {s t : State} {o : Option Err} (tx rx : Frame) (h : b = true → s.ses.sel = true) (hf : WellBuilt s.cfg tx)
      (hr : rx.length = s.cfg.frameLen) (rest : Path b E (s.exchanged tx rx) o t) : Path b E s o t
  | sel {s t : State} {o : Option Err} (h : b = true → s.ses.sel = false) (rest : Path b E s.sel o t) : Path b E s o t
  | desel {s t : State} {o : Option Err} (h : b = true → s.ses.sel = true) (rest : Path b E s.desel o t) : Path b E s o t
  | edit {s t : State} {o : Option Err} (u : Session) (hE : E s.ses u) (hk : EditOk s.ses u)
      (rest : Path b E (s.withSes u) o t) : Path b E s o t
  | noted {s t : State} {o : Option Err} (k : NoteKind) (n : NoteOp) (rest : Path b E (s.log (.note k n)) o t) :
      Path b E s o t

section
variable {b : Bool} {E F : Session → Session → Prop} {s t u : State} {o : Option Err}

theorem Tail.trans (h : Tail b E s t) (h' : Tail b E t u) : Tail b E s u := by
  induction h with
  | done => exact h'
  | desel h _ ih => exact .desel h (ih h')
  | edit w hE hk _ ih => exact .edit w hE hk (ih h')
  | noted k n _ ih => exact .noted k n (ih h')

theorem Tail.mono (hEF : ∀ x y, E x y → F x y) (h : Tail b E s t) : Tail b F s t := by
  induction h with
  | done => exact .done _
  | desel h _ ih => exact .desel h ih
  | edit w hE hk _ ih => exact .edit w (hEF _ _ hE) hk ih
  | noted k n _ ih => exact .noted k n ih

theorem Path.trans {r : Option Err} (h : Path b E s r t) (hr : r = none) (h' : Path b E t o u) : Path b E s o u := by
  induction h with
  | done => exact h'
  | raised => cases hr
  | failed => cases hr
  | sent tx rx h hf hl _ ih => exact .sent tx rx h hf hl (ih hr h')
  | sel h _ ih => exact .sel h (ih hr h')
  | desel h _ ih => exact .desel h (ih hr h')
  | edit w hE hk _ ih => exact .edit w hE hk (ih hr h')
  | noted k n _ ih => exact .noted k n (ih hr h')

theorem Path.ofTail (h : Tail b E s t) : Path b E s none t := by
  induction h with
  | done => exact .done _
  | desel h _ ih => exact .desel h ih
  | edit w hE hk _ ih => exact .edit w hE hk ih
  | noted k n _ ih => exact .noted k n ih

theorem Path.addTail (h : Path b E s o t) (h' : Tail b E t u) : Path b E s o u := by
  induction h with
  | done => exact Path.ofTail h'
  | raised e he tail => exact .raised e he (tail.trans h')
  | failed tx l h hf tail => exact .failed tx l h hf (tail.trans h')
  | sent tx rx h hf hl _ ih => exact .sent tx rx h hf hl (ih h')
  | sel h _ ih => exact .sel h (ih h')
  | desel h _ ih => exact .desel h (ih h')
  | edit w hE hk _ ih => exact .edit w hE hk (ih h')
  | noted k n _ ih => exact .noted k n (ih h')

theorem Path.mono (hEF : ∀ x y, E x y → F x y) (h : Path b E s o t) : Path b F s o t := by
  induction h with
  | done => exact .done _
  | raised e he tail => exact .raised e he (tail.mono hEF)
  | failed tx l h hf tail => exact .failed tx l h hf (tail.mono hEF)
  | sent tx rx h hf hl _ ih => exact .sent tx rx h hf hl ih
  | sel h _ ih => exact .sel h ih
  | desel h _ ih => exact .desel h ih
  | edit w hE hk _ ih => exact .edit w (hEF _ _ hE) hk ih
  | noted k n _ ih => exact .noted k n ih

/-- No edit of the session at all: what the register sequences and waits make. -/
def NoEdit : Session → Session → Prop := fun _ _ => False

end

/-! ## Computations that run as paths -/

/-- The run of x from s is a path that keeps the parameters and (with `b`) ends with chip select at k. -/
def RunsAt (b : Bool) (E : Session → Session → Prop) (k : Bool) (x : Op α) (s : State) : Prop :=
  match x s with
  | .ok _ t => Path b E s none t ∧ t.params = s.params ∧ (b = true → t.ses.sel = k)
  | .error e t => Path b E s (some e) t ∧ t.params = s.params ∧ (b = true → t.ses.sel = k)

/-- Every run of x, under parameters p and (with `b`) from chip select at k, is such a path. -/
def Runs (b : Bool) (E : Session → Session → Prop) (p : Params) (k : Bool) (x : Op α) : Prop :=
  ∀ s, s.params = p → (b = true → s.ses.sel = k) → RunsAt b E k x s

section
variable {b : Bool} {E F : Session → Session → Prop} {k : Bool} {s t : State}

theorem RunsAt.ok {x : Op α} {a : α} (hx : x s = .ok a t) (h : Path b E s none t) (hp : t.params = s.params)
    (hk : b = true → t.ses.sel = k) : RunsAt b E k x s := by
  simp only [RunsAt, hx]
  exact ⟨h, hp, hk⟩

theorem RunsAt.error {x : Op α} {e : Err} (hx : x s = .error e t) (h : Path b E s (some e) t)
    (hp : t.params = s.params) (hk : b = true → t.ses.sel = k) : RunsAt b E k x s := by
  simp only [RunsAt, hx]
  exact ⟨h, hp, hk⟩

theorem RunsAt.of_ok {x : Op α} {a : α} (h : RunsAt b E k x s) (hx : x s = .ok a t) :
    Path b E s none t ∧ t.params = s.params ∧ (b = true → t.ses.sel = k) := by
  simpa only [RunsAt, hx] using h

theorem RunsAt.of_error {x : Op α} {e : Err} (h : RunsAt b E k x s) (hx : x s = .error e t) :
    Path b E s (some e) t ∧ t.params = s.params ∧ (b = true → t.ses.sel = k) := by
  simpa only [RunsAt, hx] using h

theorem RunsAt.mono (hEF : ∀ x y, E x y → F x y) {x : Op α} (h : RunsAt b E k x s) : RunsAt b F k x s := by
  cases hx : x s with
  | ok a t => exact .ok hx ((h.of_ok hx).1.mono hEF) (h.of_ok hx).2.1 (h.of_ok hx).2.2
  | error e t => exact .error hx ((h.of_error hx).1.mono hEF) (h.of_error hx).2.1 (h.of_error hx).2.2

theorem RunsAt.bind {x : Op α} {f : α → Op β} (hx : RunsAt b E k x s)
    (hf : ∀ a t, x s = .ok a t → t.params = s.params → (b = true → t.ses.sel = k) → RunsAt b E k (f a) t) :
    RunsAt b E k (x >>= f) s := by
  cases hs : x s with
  | ok a t =>
    obtain ⟨h1, h2, h3⟩ := hx.of_ok hs
    have h' := hf a t hs h2 h3
    cases ht : f a t with
    | ok c u =>
      obtain ⟨g1, g2, g3⟩ := h'.of_ok ht
      exact .ok (by rw [Op.bind_ok hs, ht]) (h1.trans rfl g1) (g2.trans h2) g3
    | error e u =>
      obtain ⟨g1, g2, g3⟩ := h'.of_error ht
      exact .error (by rw [Op.bind_ok hs, ht]) (h1.trans rfl g1) (g2.trans h2) g3
  | error e t =>
    obtain ⟨h1, h2, h3⟩ := hx.of_error hs
    exact .error (Op.bind_error hs) h1 h2 h3

end

section
variable {b : Bool} {E F : Session → Session → Prop} {p : Params} {k : Bool}

theorem Runs.mono (hEF : ∀ x y, E x y → F x y) {x : Op α} (h : Runs b E p k x) : Runs b F p k x :=
  fun s hp hk => (h s hp hk).mono hEF

theorem Runs.pure (a : α) : Runs b E p k (pure a : Op α) := fun s _ hk => .ok rfl (.done s) rfl hk

theorem Runs.throw (e : Err) (he : ∀ tx, e ≠ .transportFailure (some tx)) : Runs b E p k (throw e : Op α) :=
  fun s _ hk => .error rfl (.raised e he (.done s)) rfl hk

theorem Runs.bind {x : Op α} {f : α → Op β} (hx : Runs b E p k x) (hf : ∀ a, Runs b E p k (f a)) :
    Runs b E p k (x >>= f) := fun s hp hk =>
  (hx s hp hk).bind fun a t _ hp' hk' => hf a t (hp'.trans hp) hk'

theorem Runs.get_bind {f : State → Op β} (h : ∀ s0, s0.params = p → Runs b E p k (f s0)) :
    Runs b E p k ((get : Op State) >>= f) := fun s hp hk => h s hp s hp hk

theorem Runs.ite {c : Prop} [Decidable c] {x y : Op α} (hx : Runs b E p k x) (hy : Runs b E p k y) :
    Runs b E p k (if c then x else y) := by
  split
  · exact hx
  · exact hy

theorem Runs.xchg {tx : Frame} (h : WellBuilt p.cfg tx) (hk : b = true → k = true) :
    Runs b E p k (xchg tx) := by
  intro s hp hs
  subst hp
  have hsel : b = true → s.ses.sel = true := fun hb => by rw [hs hb, hk hb]
  cases ha : s.bus.nextAnswer with
  | ok rx => exact .ok (xchg_ok ha tx) (.sent tx _ hsel h (by simp) (.done _)) rfl hs
  | fail l => exact .error (xchg_fail ha tx) (.failed tx l hsel h (.done _)) rfl hs

theorem Runs.edit (g : Session → Session) (hE : ∀ u, E u (g u)) (hg : ∀ u, EditOk u (g u)) :
    Runs b E p k (update (fun s => s.withSes (g s.ses))) := fun s _ hk =>
  .ok rfl (.edit (g s.ses) (hE _) (hg _) (.done _)) rfl fun hb => ((hg s.ses).sel).trans (hk hb)

theorem Runs.note (kd : NoteKind) (n : NoteOp) : Runs b E p k (note kd n) := fun _ _ hk =>
  .ok rfl (.noted kd n (.done _)) rfl hk

theorem Runs.guard (g : GuardArgs) : Runs b E p k (guard g) := by
  intro s _ hk
  cases hg : guardError s g with
  | none => exact .ok (guard_pass hg) (.done s) rfl hk
  | some e => exact .error (guard_refuse hg) (.raised e (guardError_ne_txFail hg) (.done s)) rfl hk

/-- A body under one chip select, with any `finally` steps that end with chip select off. -/
theorem Runs.selected {x : Op α} {fin : State → State} (hx : Runs b E p true x)
    (hfin : ∀ s, (b = true → s.ses.sel = true) → Tail b E s (fin s) ∧ (fin s).params = s.params ∧
      (fin s).ses.sel = false) :
    Runs b E p false (update State.sel >>= fun _ => withFinally x fin) := by
  intro s hp hk
  have h := hx s.sel hp (fun _ => rfl)
  cases hs : x s.sel with
  | ok a t =>
    obtain ⟨g1, g2, g3⟩ := h.of_ok hs
    obtain ⟨h1, h2, h3⟩ := hfin t g3
    exact .ok (by rw [Op.update_bind, withFinally_ok hs]) (.sel hk (g1.addTail h1)) (h2.trans g2) fun _ => h3
  | error e t =>
    obtain ⟨g1, g2, g3⟩ := h.of_error hs
    obtain ⟨h1, h2, h3⟩ := hfin t g3
    exact .error (by rw [Op.update_bind, withFinally_error hs]) (.sel hk (g1.addTail h1)) (h2.trans g2) fun _ => h3

theorem Runs.bracket {x : Op α} (hx : Runs b E p true x) : Runs b E p false (bracket x) :=
  Runs.selected hx fun _ h => ⟨.desel h (.done _), rfl, rfl⟩

theorem Runs.onError {x : Op α} {f : Err → State → State} (hx : Runs b E p k x)
    (hf : ∀ e s, Tail b E s (f e s) ∧ (f e s).params = s.params ∧ (f e s).ses.sel = s.ses.sel) :
    Runs b E p k (onError x f) := by
  intro s hp hk
  have h := hx s hp hk
  cases hs : x s with
  | ok a t =>
    obtain ⟨g1, g2, g3⟩ := h.of_ok hs
    exact .ok (onError_ok hs f) g1 g2 g3
  | error e t =>
    obtain ⟨g1, g2, g3⟩ := h.of_error hs
    obtain ⟨h1, h2, h3⟩ := hf e t
    exact .error (onError_error hs f) (g1.addTail h1) (h2.trans g2) fun hb => h3.trans (g3 hb)

end

/-! ## The frames the builders give -/

theorem wellBuilt_registerFrame (p : Params) (f : FrameFields) : WellBuilt p.cfg (registerFrame p.cfg f) :=
  ⟨registerFrame_length p.admissible.1 f, controlByte_bit2 _ _ _ _ _⟩

theorem wellBuilt_portLayoutFrame (p : Params) (power : Bool) (sl : SlaveId) (pt : Port) (v : Option Word32) :
    WellBuilt p.cfg (portLayoutFrame p.cfg power sl pt v) := by
  obtain ⟨b2, b3, g, hg⟩ := portLayoutFrame_head power sl p.admissible.1 pt v
  exact ⟨by simp, by rw [hg]; exact controlByte_bit2 _ _ _ _ _⟩

section
variable {b : Bool} {E : Session → Session → Prop} {p : Params}

/-! ## Register sequences and waits: no edit of the session -/

theorem runs_regWr (sl : SlaveId) (ch : Channel) (a : Byte) (v : Word16) : Runs b E p false (regWr sl ch a v) := by
  refine Runs.get_bind fun s hp => Runs.bracket (Runs.bind (Runs.xchg ?_ fun _ => rfl) fun _ => Runs.pure _)
  subst hp
  exact wellBuilt_registerFrame s.params _

theorem runs_pollValid (c : Cfg) (sl : SlaveId) (a : Byte) {f : Frame} (hf : WellBuilt p.cfg f) (n : Nat) :
    Runs b E p true (pollValid c sl a f n) := by
  induction n with
  | zero => exact Runs.throw _ (by simp)
  | succ n ih => exact Runs.bind (Runs.xchg hf fun _ => rfl) fun rx => Runs.ite (Runs.pure _) ih

theorem runs_regRdS (sl : SlaveId) (a : Byte) : Runs b E p false (regRdS sl a) := by
  refine Runs.get_bind fun s hp => ?_
  subst hp
  have hf : WellBuilt s.params.cfg (s.regFrame sl false .sport a 0) := wellBuilt_registerFrame s.params _
  exact Runs.bracket (Runs.bind (Runs.xchg hf fun _ => rfl) fun _ => runs_pollValid _ _ _ hf _)

theorem runs_regRdB (sl : SlaveId) (a : Byte) : Runs b E p false (regRdB sl a) := by
  refine Runs.get_bind fun s hp => Runs.bracket (Runs.bind (Runs.xchg ?_ fun _ => rfl) fun _ => Runs.pure _)
  subst hp
  exact wellBuilt_registerFrame s.params _

theorem runs_readText (sl : SlaveId) (a : Byte) : Runs b E p false (readText sl a) := by
  unfold readText
  repeat refine Runs.bind (runs_regRdS _ _) fun _ => ?_
  exact Runs.pure _

theorem runs_writeWords (sl : SlaveId) (ch : Channel) (a : Byte) (ws : List Word16) :
    Runs b E p false (writeWords sl ch a ws) := by
  induction ws with
  | nil => exact Runs.pure _
  | cons w ws ih => exact Runs.bind (runs_regWr _ _ _ _) fun _ => ih

theorem runs_pollScan (c : Cfg) (n : Nat) : Runs b E p false (pollScan c n) := by
  induction n with
  | zero => exact Runs.pure _
  | succ n ih => exact Runs.bind (runs_regRdB _ _) fun _ => Runs.ite (Runs.pure _) ih

theorem runs_pollStatus (st : FlashStep) (sl : SlaveId) (r : FlashRange) (a : Byte) (m : Word16) (bud n : Nat) :
    Runs b E p false (pollStatus st sl r a m bud n) := by
  induction n with
  | zero => exact Runs.throw _ (by simp)
  | succ n ih => exact Runs.bind (runs_regRdS _ _) fun _ => Runs.ite (Runs.pure _) ih

theorem runs_awaitRoom (c : Cfg) (n : Nat) : Runs b E p false (awaitRoom c n) := by
  induction n with
  | zero => exact Runs.throw _ (by simp)
  | succ n ih => exact Runs.bind (runs_regRdB _ _) fun _ => Runs.ite ih (Runs.pure _)

theorem runs_download (c : Cfg) (sl : SlaveId) (a : Byte) (left : Nat) (ws : List Word16) :
    Runs b E p false (download c sl a left ws) := by
  induction ws generalizing left with
  | nil => cases left <;> exact Runs.pure _
  | cons w ws ih =>
    cases left with
    | zero =>
      unfold download
      split
      · exact Runs.bind (runs_awaitRoom _ _) fun _ => Runs.bind (runs_regWr _ _ _ _) fun _ => ih _
      · exact Runs.bind (runs_regWr _ _ _ _) fun _ => ih _
    | succ left => exact Runs.bind (runs_regWr _ _ _ _) fun _ => ih _

theorem runs_readRecordBytes (sl : SlaveId) (a : Byte) (n i : Nat) (buf : List Byte) :
    Runs b E p false (readRecordBytes sl a n i buf) := by
  induction n generalizing i buf with
  | zero => exact Runs.pure _
  | succ n ih => exact Runs.bind (runs_regRdS _ _) fun _ => Runs.ite (Runs.pure _) (ih _ _)

theorem runs_flushFrames (sl : SlaveId) (n : Nat) : Runs b E p true (flushFrames sl n) := by
  induction n with
  | zero => exact Runs.pure _
  | succ n ih =>
    refine Runs.get_bind fun s hp => ?_
    subst hp
    exact Runs.bind (Runs.xchg (wellBuilt_portLayoutFrame s.params _ _ _ _) fun _ => rfl) fun _ =>
      Runs.bind ih fun _ => Runs.pure _

theorem runs_exchangeFrames (sl : SlaveId) : Runs b E p true (exchangeFrames sl) := by
  refine Runs.get_bind fun s hp => ?_
  subst hp
  refine Runs.bind (Runs.xchg (wellBuilt_portLayoutFrame s.params _ _ _ _) fun _ => rfl) fun _ => ?_
  refine Runs.get_bind fun s' hp' => ?_
  rw [← hp']
  exact Runs.bind (Runs.xchg (wellBuilt_portLayoutFrame s'.params _ _ _ _) fun _ => rfl) fun _ =>
    Runs.bind (runs_flushFrames _ _) fun _ => Runs.pure _

end

end Sys2Proof.Machine
end

