-- ==== Sys2Proof/Laws/Bodies.lean ====
section
/-! SUPPORT. Every host operation as a path, with the edits of the session it makes (spec/10_state.md R40). -/

namespace Sys2Proof.Machine

variable {b : Bool} {p : Params}

/-- Edits of the flash record and the slave table only. -/
def FlashTable (u v : Session) : Prop := v = { u with flash := v.flash, slaves := v.slaves }

/-- Edits of the flash record only. -/
def FlashOnly (u v : Session) : Prop := v = { u with flash := v.flash }

/-- Edits of the flash state only. -/
def FlashStateOnly (u v : Session) : Prop := v = { u with flash := { u.flash with state := v.flash.state } }

/-- Edits of the flash state, and of `enabled` and `info` of one slave's entry. -/
def Rebooting (i : SlaveId) (u v : Session) : Prop :=
  FlashStateOnly u v ∨
    v = { u.setEntry i { u.entry i with enabled := (v.entry i).enabled, info := (v.entry i).info } with
          flash := { u.flash with state := v.flash.state } }

/-- Edits of `info` of one slave's entry. -/
def InfoOnly (i : SlaveId) (u v : Session) : Prop :=
  v = u.setEntry i { u.entry i with info := (v.entry i).info }

/-- Edits of `enabled` of one slave's entry. -/
def EnabledOnly (i : SlaveId) (u v : Session) : Prop :=
  v = u.setEntry i { u.entry i with enabled := (v.entry i).enabled }

/-- Edits of the scan result and the slave table. -/
def ScanOnly (u v : Session) : Prop :=
  v = { u with presence := v.presence, scanStatus := v.scanStatus, slaves := v.slaves }

/-- Edits of the fields an exchange writes. -/
def PortOnly (u v : Session) : Prop :=
  v = { u with curSlave := v.curSlave, pendWr0 := v.pendWr0, pendWr1 := v.pendWr1, pendVal0 := v.pendVal0,
               pendVal1 := v.pendVal1, errSummary := v.errSummary }

/-- Edits of the power flag. -/
def PowerOnly (u v : Session) : Prop := v = { u with power := v.power }

theorem FlashStateOnly.flashOnly {u v : Session} (h : FlashStateOnly u v) : FlashOnly u v := by
  unfold FlashStateOnly at h
  unfold FlashOnly
  rw [h]

theorem FlashOnly.flashTable {u v : Session} (h : FlashOnly u v) : FlashTable u v := by
  unfold FlashOnly at h
  unfold FlashTable
  rw [h]

theorem Rebooting.flashTable {i : SlaveId} {u v : Session} (h : Rebooting i u v) : FlashTable u v := by
  rcases h with h | h
  · exact h.flashOnly.flashTable
  · unfold FlashTable
    rw [h]
    rfl

/-! ## Register bus -/

theorem runs_opWriteRegister (sl ch a : Nat) (v : Word16) : Runs b NoEdit p false (opWriteRegister sl ch a v) := by
  unfold opWriteRegister
  refine Runs.bind (Runs.guard _) fun _ => ?_
  split
  · exact Runs.bind (runs_regWr _ _ _ _) fun _ => Runs.pure _
  · exact Runs.bind (runs_regWr _ _ _ _) fun _ => Runs.pure _

theorem runs_opReadRegister (sl ch a : Nat) : Runs b NoEdit p false (opReadRegister sl ch a) := by
  unfold opReadRegister
  refine Runs.bind (Runs.guard _) fun _ => ?_
  split
  · exact Runs.bind (runs_regRdS _ _) fun _ => Runs.pure _
  · exact Runs.bind (runs_regRdB _ _) fun _ => Runs.pure _

theorem runs_opGetSlaveInfo (sl : Nat) : Runs b (InfoOnly (slaveId sl)) p false (opGetSlaveInfo sl) := by
  refine Runs.bind (Runs.guard _) fun _ => Runs.get_bind fun s _ => ?_
  refine Runs.bind (runs_readText _ _) fun bt => Runs.bind (runs_readText _ _) fun bn => ?_
  refine Runs.bind (runs_regRdS _ _) fun fe => Runs.bind (runs_regRdS _ _) fun bf => ?_
  refine Runs.bind (runs_regRdS _ _) fun pc => Runs.bind ?_ fun _ => Runs.pure _
  exact Runs.edit (fun u => u.setEntry (slaveId sl) { u.entry (slaveId sl) with info := some ⟨bt, bn, fe, bf, portCountOf pc⟩ })
    (fun u => by simp [InfoOnly]) fun u => ⟨rfl, rfl, rfl⟩

theorem runs_opSetPower (x : Bool) : Runs b PowerOnly p false (opSetPower x) :=
  Runs.bind (Runs.edit (fun u => { u with power := x }) (fun _ => rfl) fun _ => ⟨rfl, rfl, rfl⟩) fun _ => Runs.pure _

/-! ## Bulk port exchange -/

theorem request_portOnly (u : Session) (sl : SlaveId) (p0 p1 : Option PortBytes) :
    PortOnly u ((({ u with curSlave := sl } : Session).request .zero p0).request .one p1) ∧
      EditOk u ((({ u with curSlave := sl } : Session).request .zero p0).request .one p1) := by
  cases p0 <;> cases p1 <;> exact ⟨rfl, rfl, rfl, rfl⟩

theorem runs_opExchange (sl : Nat) (p0 p1 : Option PortBytes) : Runs b PortOnly p false (opExchange sl p0 p1) := by
  refine Runs.bind (Runs.guard _) fun _ => ?_
  refine Runs.bind (Runs.edit (fun u => (({ u with curSlave := slaveId sl } : Session).request .zero p0).request .one p1)
    (fun u => (request_portOnly u _ p0 p1).1) fun u => (request_portOnly u _ p0 p1).2) fun _ => ?_
  refine Runs.selected ?_ fun s h => ⟨.edit { s.ses with pendWr0 := false, pendWr1 := false } rfl ⟨rfl, rfl, rfl⟩
    (.desel h (.done _)), rfl, rfl⟩
  refine Runs.bind (runs_exchangeFrames _) fun rs => Runs.get_bind fun s _ => ?_
  exact Runs.bind (Runs.edit (fun u => { u with errSummary := some (respErr s.cfg (rs.getD (1 + s.cfg.lag) [])) })
    (fun _ => rfl) fun _ => ⟨rfl, rfl, rfl⟩) fun _ => Runs.pure _

/-! ## Scanner -/

theorem runs_opScan (n : Nat) : Runs b ScanOnly p false (opScan n) := by
  refine Runs.bind (Runs.guard _) fun _ => Runs.bind (Runs.note _ _) fun _ => Runs.get_bind fun s _ => ?_
  refine Runs.bind (runs_writeWords _ _ _ _) fun _ => Runs.bind (runs_pollScan _ _) fun r => ?_
  cases r with
  | some st =>
    refine Runs.bind (Runs.edit (fun u => u.scanDone (presenceOf s.cfg st) st) (fun _ => rfl) fun _ => ⟨rfl, rfl, rfl⟩)
      fun _ => ?_
    exact Runs.bind (Runs.note _ _) fun _ => Runs.pure _
  | none =>
    refine Runs.bind (Runs.edit (fun u => u.scanLost) (fun _ => rfl) fun _ => ⟨rfl, rfl, rfl⟩) fun _ => ?_
    exact Runs.bind (Runs.note _ _) fun _ => Runs.throw _ (by simp)

theorem runs_opEnable (sl : Nat) : Runs b (EnabledOnly (slaveId sl)) p false (opEnable sl) := by
  refine Runs.bind (Runs.guard _) fun _ => Runs.get_bind fun s _ => Runs.bind (runs_writeWords _ _ _ _) fun _ => ?_
  refine Runs.bind ?_ fun _ => Runs.pure _
  exact Runs.edit (fun u => u.setEntry (slaveId sl) { u.entry (slaveId sl) with enabled := true })
    (fun u => by simp [EnabledOnly]) fun u => ⟨rfl, rfl, rfl⟩

/-! ## Flash engine -/

theorem tail_setFlashState {E : Session → Session → Prop} (hE : ∀ u v, FlashStateOnly u v → E u v) (f : FlashState)
    (s : State) : Tail b E s (s.setFlashState f) :=
  .edit { s.ses with flash := { s.ses.flash with state := f } } (hE _ _ rfl) ⟨rfl, rfl, rfl⟩ (.done _)

theorem tail_failStep {E : Session → Session → Prop} (hE : ∀ u v, FlashStateOnly u v → E u v) (e : Err) (s : State) :
    Tail b E s (failStep e s) ∧ (failStep e s).params = s.params ∧ (failStep e s).ses.sel = s.ses.sel :=
  ⟨tail_setFlashState hE _ s, rfl, rfl⟩

theorem tail_failNoted {E : Session → Session → Prop} (hE : ∀ u v, FlashStateOnly u v → E u v) (op : NoteOp) (e : Err)
    (s : State) : Tail b E s (failNoted op e s) ∧ (failNoted op e s).params = s.params ∧
      (failNoted op e s).ses.sel = s.ses.sel := by
  cases e
  case flashTimeout => exact ⟨.noted _ _ (tail_setFlashState hE _ _), rfl, rfl⟩
  case busTimeout => exact ⟨.noted _ _ (tail_setFlashState hE _ _), rfl, rfl⟩
  all_goals exact ⟨tail_setFlashState hE _ _, rfl, rfl⟩

theorem runs_setFlashState {E : Session → Session → Prop} (hE : ∀ u v, FlashStateOnly u v → E u v) (f : FlashState) :
    Runs b E p false (update fun s => s.setFlashState f) :=
  Runs.edit (fun u => { u with flash := { u.flash with state := f } }) (fun _ => hE _ _ rfl) fun _ => ⟨rfl, rfl, rfl⟩

theorem runs_eraseFrames {E : Session → Session → Prop} (c : Cfg) (sl : SlaveId) (r : FlashRange) :
    Runs b E p false (eraseFrames c sl r) :=
  Runs.bind (runs_writeWords _ _ _ _) fun _ => runs_pollStatus _ _ _ _ _ _ _

theorem runs_finalizeFrames {E : Session → Session → Prop} (c : Cfg) (sl : SlaveId) (r : FlashRange) :
    Runs b E p false (finalizeFrames c sl r) :=
  Runs.bind (runs_regWr _ _ _ _) fun _ => runs_pollStatus _ _ _ _ _ _ _

theorem runs_opErase (sl : Nat) (r : FlashRange) : Runs b FlashOnly p false (opErase sl r) := by
  refine Runs.bind (Runs.guard _) fun _ => ?_
  refine Runs.bind (Runs.edit (fun u => { u with flash := ⟨.erasing, slaveId sl, r⟩ }) (fun _ => rfl)
    fun _ => ⟨rfl, rfl, rfl⟩) fun _ => ?_
  refine Runs.bind (Runs.note _ _) fun _ => Runs.get_bind fun s _ => ?_
  refine Runs.bind (Runs.onError (runs_eraseFrames _ _ _) (tail_failNoted (fun _ _ h => h.flashOnly) _)) fun _ => ?_
  refine Runs.bind (runs_setFlashState (fun _ _ h => h.flashOnly) _) fun _ => ?_
  exact Runs.bind (Runs.note _ _) fun _ => Runs.pure _

theorem runs_opProgram {E : Session → Session → Prop} (hE : ∀ u v, FlashStateOnly u v → E u v) (image : List Byte) :
    Runs b E p false (opProgram image) := by
  refine Runs.bind (Runs.guard _) fun _ => Runs.get_bind fun s _ => ?_
  exact Runs.bind (Runs.onError (runs_download _ _ _ _ _) (tail_failStep hE)) fun _ => Runs.pure _

theorem runs_opFinalize {E : Session → Session → Prop} (hE : ∀ u v, FlashStateOnly u v → E u v) :
    Runs b E p false opFinalize := by
  refine Runs.bind (Runs.guard _) fun _ => Runs.get_bind fun s _ => ?_
  refine Runs.bind (runs_setFlashState hE _) fun _ => Runs.bind (Runs.note _ _) fun _ => ?_
  refine Runs.bind (Runs.onError (runs_finalizeFrames _ _ _) (tail_failNoted hE _)) fun _ => ?_
  refine Runs.bind (runs_setFlashState hE _) fun _ => ?_
  exact Runs.bind (Runs.note _ _) fun _ => Runs.pure _

/-- A reboot edits the entry of the slave its session names. -/
theorem runsAt_opReboot {s : State} (hk : b = true → s.ses.sel = false) :
    RunsAt b (Rebooting s.ses.flash.slave) false opReboot s := by
  refine (Runs.guard (p := s.params) _ s rfl hk).bind fun _ t ht hp hk' => ?_
  have hst : t = s := by
    cases hg : guardError s { mode := .flashStep .rebooting } with
    | none => rw [guard_pass hg] at ht; cases ht; rfl
    | some e => rw [guard_refuse hg] at ht; cases ht
  subst hst
  show RunsAt b _ false (onError _ failStep >>= fun _ => update (fun u => u.rebooted t.ses.flash.slave) >>= fun _ => pure _) t
  have : Runs b (Rebooting t.ses.flash.slave) t.params false
      (onError (writeWords t.ses.flash.slave .sport (rangeParams t.cfg t.ses.flash.range).ctrl
        (t.cfg.vUnlockReboot.toList ++ [t.cfg.vRebootReq])) failStep >>= fun _ =>
        update (fun u => u.rebooted t.ses.flash.slave) >>= fun _ => pure Value.unit) := by
    refine Runs.bind (Runs.onError (runs_writeWords _ _ _ _) (tail_failStep fun _ _ h => .inl h)) fun _ => ?_
    refine Runs.bind ?_ fun _ => Runs.pure _
    exact Runs.edit (fun u => { u.setEntry t.ses.flash.slave
      { u.entry t.ses.flash.slave with enabled := false, info := none } with flash := { u.flash with state := .done } })
      (fun u => .inr (by simp [Session.entry, Session.setEntry])) fun _ => ⟨rfl, rfl, rfl⟩
  exact this t rfl hk

theorem runs_opReboot : Runs b FlashTable p false opReboot := fun _ _ hk =>
  (runsAt_opReboot hk).mono fun _ _ h => h.flashTable

theorem runs_opFlash (sl : Nat) (r : FlashRange) (image : List Byte) :
    Runs b FlashTable p false (opFlash sl r image) :=
  Runs.bind ((runs_opErase sl r).mono fun _ _ h => h.flashTable) fun _ =>
    Runs.bind (runs_opProgram (fun _ _ h => h.flashOnly.flashTable) _) fun _ =>
      Runs.bind (runs_opFinalize fun _ _ h => h.flashOnly.flashTable) fun _ =>
        Runs.bind runs_opReboot fun _ => Runs.pure _

theorem runs_opAbortFlash : Runs b FlashStateOnly p false opAbortFlash := by
  refine Runs.bind (f := fun _ => (pure Value.unit : Op Value)) ?_ fun _ => Runs.pure _
  intro s hp hk
  by_cases h : s.ses.busy = true
  · exact .ok (a := ()) (t := s.setFlashState .failed) (by simp [update, h])
      (Path.ofTail (tail_setFlashState (fun _ _ h => h) _ _)) rfl hk
  · exact .ok (a := ()) (t := s) (by simp [update, h]) (.done _) rfl hk

/-! ## Codecs and manufacturing data -/

theorem encodeError_ne {sl ch a : Nat} {e : Err} (h : encodeError sl ch a = some e) (tx : Frame) :
    e ≠ .transportFailure (some tx) := by
  rintro rfl
  unfold encodeError at h
  simp only [Option.or_eq_some_iff, slaveError, channelError, addrError] at h
  rcases h with h | ⟨-, h | ⟨-, h⟩⟩
  · split at h <;> simp at h
  · split at h
    · simp at h
    · split at h <;> simp at h
  · split at h <;> simp at h

theorem runs_opEncode {E : Session → Session → Prop} (pw : Bool) (sl : Nat) (w : Bool) (ch a : Nat) (d : Word16) :
    Runs b E p false (opEncode pw sl w ch a d) := by
  intro s _ hk
  cases he : encodeError sl ch a with
  | some e => exact .error (e := e) (t := s) (by simp [opEncode, he]) (.raised e (encodeError_ne he) (.done s)) rfl hk
  | none =>
    cases hc : channelOfIndex ch with
    | none => exact .error (t := s) (by simp [opEncode, he, hc]; rfl) (.raised _ (by simp) (.done s)) rfl hk
    | some c => exact .ok (t := s) (by simp [opEncode, he, hc]; rfl) (.done s) rfl hk

theorem runs_opDecode {E : Session → Session → Prop} (raw : List Byte) : Runs b E p false (opDecode raw) := by
  intro s _ hk
  cases h : decodeCommand s.cfg raw with
  | ok f => exact .ok (t := s) (by simp [opDecode, h]; rfl) (.done s) rfl hk
  | error e => exact .error (t := s) (by simp [opDecode, h]; rfl) (.raised _ (by simp) (.done s)) rfl hk

theorem runs_opEncodeMFD {E : Session → Session → Prop} (r : Record) : Runs b E p false (opEncodeMFD r) := by
  intro s _ hk
  by_cases h : validRecord s.cfg r = true
  · exact .ok (t := s) (by simp [opEncodeMFD, h]; rfl) (.done s) rfl hk
  · exact .error (t := s) (by simp [opEncodeMFD, h]; rfl) (.raised _ (by simp) (.done s)) rfl hk

theorem runs_opDecodeMFD {E : Session → Session → Prop} (bs : List Byte) : Runs b E p false (opDecodeMFD bs) := by
  intro s _ hk
  cases h : decodeRecord bs with
  | some r => exact .ok (t := s) (by simp [opDecodeMFD, h]; rfl) (.done s) rfl hk
  | none => exact .error (t := s) (by simp [opDecodeMFD, h]; rfl) (.raised _ (by simp) (.done s)) rfl hk

theorem runs_finishMFD (m : Bool) : Runs b FlashTable p false (finishMFD m) := by
  unfold finishMFD
  split
  · exact Runs.bind runs_opReboot fun _ => Runs.pure _
  · exact runs_setFlashState (fun _ _ h => h.flashOnly.flashTable) _

theorem runs_opWriteManufacturingData (sl : Nat) (r : Record) :
    Runs b FlashTable p false (opWriteManufacturingData sl r) := by
  refine Runs.bind (Runs.guard _) fun _ => Runs.get_bind fun s _ => ?_
  exact Runs.bind ((runs_opErase sl _).mono fun _ _ h => h.flashTable) fun _ =>
    Runs.bind (runs_opProgram (fun _ _ h => h.flashOnly.flashTable) _) fun _ =>
      Runs.bind (runs_opFinalize fun _ _ h => h.flashOnly.flashTable) fun _ =>
        Runs.bind (runs_finishMFD _) fun _ => Runs.pure _

theorem runs_opReadManufacturingData (sl : Nat) : Runs b NoEdit p false (opReadManufacturingData sl) := by
  refine Runs.bind (Runs.guard _) fun _ => Runs.get_bind fun s _ => ?_
  exact Runs.bind (runs_readRecordBytes _ _ _ _ _) fun _ => runs_opDecodeMFD _

end Sys2Proof.Machine
end

