-- ==== Sys2Proof/Laws/Outcome.lean ====
section
/-! SUPPORT. What every run of a computation of the controller leaves: its events, the frames it sent, the target, the
session (spec/20_memory.md R57, R58, R72, spec/60_exceptions.md R168). -/

namespace Sys2Proof.Machine

/-! ## Reading histories -/

theorem framePairs_append (es fs : List Event) : framePairs (es ++ fs) = framePairs es ++ framePairs fs := by
  induction es with
  | nil => rfl
  | cons e es ih => cases e <;> simp [framePairs, ih]

theorem sentFrames_append (es fs : List Event) : sentFrames (es ++ fs) = sentFrames es ++ sentFrames fs := by
  induction es with
  | nil => rfl
  | cons e es ih => cases e <;> simp [sentFrames, ih]

theorem txFails_append (es fs : List Event) : txFails (es ++ fs) = txFails es ++ txFails fs := by
  induction es with
  | nil => rfl
  | cons e es ih => cases e <;> simp [txFails, ih]

theorem returns_append (es fs : List Event) : returns (es ++ fs) = returns es ++ returns fs := by
  induction es with
  | nil => rfl
  | cons e es ih => cases e <;> simp [returns, ih]

theorem newEvents_of_append {s t : State} {es : List Event} (h : t.hist = s.hist ++ es) : newEvents s t = es := by
  simp [newEvents, h]

/-! ## The target -/

theorem Bus.replay_append (c : Cfg) (b : Bus) (xs ys : List (Frame × Frame)) :
    b.replay c (xs ++ ys) = (b.replay c xs).replay c ys := by
  induction xs generalizing b with
  | nil => rfl
  | cons x xs ih => exact ih _

theorem Bus.Sound.takeAnswer {c : Cfg} {b : Bus} (h : b.Sound c) : (b.takeAnswer c).Sound c := ⟨h.mem, h.pipe⟩

theorem Bus.enterPipe_length (c : Cfg) (b : Bus) (s : SlaveId) (p : Port) : (b.enterPipe c s p).pipe.length ≤ c.lag := by
  simp [Bus.enterPipe]

/-- What a frame kind does at the target keeps the record sound. -/
theorem Bus.Sound.effect {c : Cfg} {b : Bus} (h : b.Sound c) (i : Instr) : (targetEffect c i b).Sound c := by
  cases i
  case port0Rd => exact ⟨h.mem, Bus.enterPipe_length ..⟩
  case port1Rd => exact ⟨h.mem, Bus.enterPipe_length ..⟩
  case port0Wr => exact ⟨Memory.wf_put32 h.mem (portCell_bounds _ .zero).2 _, Bus.enterPipe_length ..⟩
  case port1Wr => exact ⟨Memory.wf_put32 h.mem (portCell_bounds _ .one).2 _, Bus.enterPipe_length ..⟩
  case sportWr =>
    exact ⟨Memory.wf_put16 h.mem (lt_trans (sportCell_lt _ _) (by decide)) _, h.pipe⟩
  case busctrlWr =>
    exact ⟨Memory.wf_put16 h.mem (lt_trans (busCtrlCell_bounds _).2 (by decide)) _, h.pipe⟩
  all_goals exact ⟨h.mem, h.pipe⟩

/-- Accepting a frame keeps the target's record sound. -/
theorem Bus.Sound.accept {c : Cfg} {b : Bus} (h : b.Sound c) (tx : Frame) : (b.accept c tx).Sound c := by
  unfold Bus.accept
  split
  · exact h.effect _
  · exact h

/-! No frame's effect puts a frame on the Transport. -/

@[simp] theorem targetEffect_line (c : Cfg) (i : Instr) (b : Bus) : (targetEffect c i b).line = b.line := by
  cases i <;> rfl

@[simp] theorem Bus.accept_line (c : Cfg) (b : Bus) (tx : Frame) : (b.accept c tx).line = b.line := by
  unfold Bus.accept
  split <;> simp

@[simp] theorem Bus.replay_line (c : Cfg) (b : Bus) (ps : List (Frame × Frame)) : (b.replay c ps).line = b.line := by
  induction ps generalizing b with
  | nil => rfl
  | cons p ps ih => simp [Bus.replay, ih]

/-! ## What a path leaves -/

/-- What a run leaves, with its new events es and its error o. -/
structure Ran (b : Bool) (s : State) (o : Option Err) (t : State) (es : List Event) : Prop where
  hist : t.hist = s.hist ++ es
  params : t.params = s.params
  requests : t.requests = s.requests
  rets : returns es = []
  built : ∀ f ∈ sentFrames es, WellBuilt s.cfg f
  answered : ∀ x ∈ framePairs es, x.2.length = s.cfg.frameLen
  order : sentFrames es = (framePairs es).map (·.1) ++ txFails es
  outcome : (txFails es = [] ∧ t.ses.dead = s.ses.dead ∧ (∀ tx, o ≠ some (.transportFailure (some tx))) ∧
      t.bus = s.bus.replay s.cfg (framePairs es)) ∨
    ∃ tx, txFails es = [tx] ∧ t.ses.dead = true ∧ o = some (.transportFailure (some tx)) ∧
      (t.bus = (s.bus.replay s.cfg (framePairs es)).takeAnswer s.cfg ∨
        t.bus = ((s.bus.replay s.cfg (framePairs es)).takeAnswer s.cfg).accept s.cfg tx)
  sel : b = true → ∀ rest, bracketed t.ses.sel rest = true → bracketed s.ses.sel (es ++ rest) = true

section
variable {b : Bool} {E : Session → Session → Prop} {s t : State} {o : Option Err}

/-- What `finally` steps and error effects leave: no frame, the target untouched. -/
theorem Tail.leaves (h : Tail b E s t) : ∃ es, t.hist = s.hist ++ es ∧ t.params = s.params ∧ t.requests = s.requests ∧
    returns es = [] ∧ sentFrames es = [] ∧ framePairs es = [] ∧ txFails es = [] ∧ t.bus = s.bus ∧
    t.ses.dead = s.ses.dead ∧
    (b = true → ∀ rest, bracketed t.ses.sel rest = true → bracketed s.ses.sel (es ++ rest) = true) := by
  induction h with
  | done => exact ⟨[], by simp [returns, sentFrames, framePairs, txFails]⟩
  | desel h _ ih =>
    obtain ⟨es, h1, h2, h3, h4, h5, h6, h7, h8, h9, h10⟩ := ih
    refine ⟨.select false :: es, by simp [h1], h2, h3, h4, h5, h6, h7, h8, h9, fun hb rest hr => ?_⟩
    have := h10 hb rest hr
    simp only [State.desel_ses] at this
    simpa [bracketed, h hb] using this
  | edit u hE hk _ ih =>
    obtain ⟨es, h1, h2, h3, h4, h5, h6, h7, h8, h9, h10⟩ := ih
    exact ⟨es, h1, h2, h3, h4, h5, h6, h7, h8, h9.trans hk.dead, fun hb rest hr => by
      simpa [hk.sel] using h10 hb rest hr⟩
  | noted k n _ ih =>
    obtain ⟨es, h1, h2, h3, h4, h5, h6, h7, h8, h9, h10⟩ := ih
    exact ⟨.note k n :: es, by simp [h1], h2, h3, h4, h5, h6, h7, h8, h9, fun hb rest hr => by
      simpa [bracketed] using h10 hb rest hr⟩

theorem Path.leaves (h : Path b E s o t) : ∃ es, Ran b s o t es := by
  induction h with
  | done s =>
    exact ⟨[], by simp, rfl, rfl, rfl, by simp [sentFrames], by simp [framePairs], rfl,
      .inl ⟨rfl, rfl, by simp, rfl⟩, fun _ _ h => h⟩
  | raised e he tail =>
    obtain ⟨es, h1, h2, h3, h4, h5, h6, h7, h8, h9, h10⟩ := tail.leaves
    exact ⟨es, h1, h2, h3, h4, by simp [h5], by simp [h6], by simp [h5, h6, h7],
      .inl ⟨h7, h9, by simpa using he, by simp [h6, h8, Bus.replay]⟩, h10⟩
  | failed tx l h hf tail =>
    obtain ⟨es, h1, h2, h3, h4, h5, h6, h7, h8, h9, h10⟩ := tail.leaves
    refine ⟨.txFail tx :: es, by simp [h1], h2, h3, h4, ?_, ?_, ?_, .inr ⟨tx, ?_, h9, rfl, ?_⟩, fun hb rest hr => ?_⟩
    · simp [sentFrames, h5]; exact hf
    · simp [framePairs, h6]
    · simp [sentFrames, framePairs, txFails, h5, h6, h7]
    · simp [txFails, h7]
    · rw [h8]
      cases l
      · exact .inl (by simp [framePairs, h6, Bus.replay])
      · exact .inr (by simp [framePairs, h6, Bus.replay])
    · have := h10 hb rest hr
      simp only [State.exchangeFailed_ses] at this
      simpa [bracketed, h hb] using this
  | sent tx rx h hf hr _ ih =>
    obtain ⟨es, g⟩ := ih
    refine ⟨.frame tx rx :: es, by simp [g.hist], g.params, g.requests, g.rets, ?_, ?_, ?_, ?_, fun hb rest hr => ?_⟩
    · intro f hm
      rcases List.mem_cons.1 hm with rfl | hm
      · exact hf
      · exact g.built f hm
    · intro x hm
      rcases List.mem_cons.1 hm with rfl | hm
      · exact hr
      · exact g.answered x hm
    · simp [sentFrames, framePairs, txFails, g.order]
    · exact g.outcome
    · simpa [bracketed, h hb] using g.sel hb rest hr
  | sel h _ ih =>
    obtain ⟨es, g⟩ := ih
    exact ⟨.select true :: es, by simp [g.hist], g.params, g.requests, g.rets, g.built, g.answered, g.order, g.outcome,
      fun hb rest hr => by simpa [bracketed, h hb] using g.sel hb rest hr⟩
  | desel h _ ih =>
    obtain ⟨es, g⟩ := ih
    exact ⟨.select false :: es, by simp [g.hist], g.params, g.requests, g.rets, g.built, g.answered, g.order, g.outcome,
      fun hb rest hr => by simpa [bracketed, h hb] using g.sel hb rest hr⟩
  | edit u hE hk _ ih =>
    obtain ⟨es, g⟩ := ih
    refine ⟨es, g.hist, g.params, g.requests, g.rets, g.built, g.answered, g.order, ?_, fun hb rest hr => by
      simpa [hk.sel] using g.sel hb rest hr⟩
    have := g.outcome
    simp only [State.withSes_ses, hk.dead] at this
    exact this
  | noted k n _ ih =>
    obtain ⟨es, g⟩ := ih
    exact ⟨.note k n :: es, by simp [g.hist], g.params, g.requests, g.rets, g.built, g.answered, g.order, g.outcome,
      fun hb rest hr => by simpa [bracketed] using g.sel hb rest hr⟩

theorem Tail.bus (h : Tail b E s t) : t.bus = s.bus ∧ t.params = s.params := by
  induction h with
  | done => exact ⟨rfl, rfl⟩
  | desel _ _ ih => exact ih
  | edit _ _ _ _ ih => exact ih
  | noted _ _ _ ih => exact ih

/-- The target's record stays sound. -/
theorem Path.sound (h : Path b E s o t) (hs : s.bus.Sound s.cfg) : t.bus.Sound t.cfg := by
  induction h with
  | done => exact hs
  | raised _ _ tail => rw [State.cfg, tail.bus.1, tail.bus.2]; exact hs
  | @failed s t tx l _ _ tail =>
    rw [State.cfg, tail.bus.1, tail.bus.2]
    cases l
    · exact hs.takeAnswer
    · exact hs.takeAnswer.accept tx
  | sent tx rx _ _ _ _ ih => exact ih (hs.takeAnswer.accept tx)
  | sel _ _ ih => exact ih hs
  | desel _ _ ih => exact ih hs
  | edit _ _ _ _ ih => exact ih hs
  | noted _ _ _ ih => exact ih hs

/-! ## What a path does to the session -/

/-- A relation on sessions that holds of every edit and of every change of chip select, dead mark and position holds
between the ends of a path. -/
theorem Tail.session {R : Session → Session → Prop} (refl : ∀ u, R u u) (trans : ∀ u v w, R u v → R v w → R u w)
    (hE : ∀ u v, E u v → R u v) (hsys : ∀ u a d q, R u { u with sel := a, dead := d, pc := q })
    (h : Tail b E s t) : R s.ses t.ses := by
  induction h with
  | done => exact refl _
  | @desel s t _ _ ih => exact trans _ _ _ (hsys s.ses false s.ses.dead _) ih
  | edit u h _ _ ih => exact trans _ _ _ (hE _ _ h) ih
  | noted _ _ _ ih => exact ih

theorem Path.session {R : Session → Session → Prop} (refl : ∀ u, R u u) (trans : ∀ u v w, R u v → R v w → R u w)
    (hE : ∀ u v, E u v → R u v) (hsys : ∀ u a d q, R u { u with sel := a, dead := d, pc := q })
    (h : Path b E s o t) : R s.ses t.ses := by
  induction h with
  | done => exact refl _
  | raised _ _ tail => exact tail.session refl trans hE hsys
  | @failed s t tx l _ _ tail => exact trans _ _ _ (hsys s.ses s.ses.sel true _) (tail.session refl trans hE hsys)
  | @sent s t o tx rx _ _ _ _ ih => exact trans _ _ _ (hsys s.ses s.ses.sel s.ses.dead _) ih
  | @sel s t o _ _ ih => exact trans _ _ _ (hsys s.ses true s.ses.dead s.ses.pc) ih
  | @desel s t o _ _ ih => exact trans _ _ _ (hsys s.ses false s.ses.dead _) ih
  | edit u h _ _ ih => exact trans _ _ _ (hE _ _ h) ih
  | noted _ _ _ ih => exact ih

end

end Sys2Proof.Machine
end

