-- ==== Sys2Proof/Laws/Lands.lean ====
section
/-! SUPPORT. Runs in which every exchange is answered, computed exactly: the events, the session and the value of every
register sequence and wait (spec/41_register_bus.md R99–R103, spec/44_flash_engine.md R138–R142). -/

namespace Sys2Proof.Machine

variable {α β : Type} {s : State} {u v : Session} {es fs : List Event} {c : Cfg} {power : Bool}

/-! ## `after` -/

@[simp] theorem State.after_params : (s.after es u).params = s.params := rfl
@[simp] theorem State.after_ses : (s.after es u).ses = u := rfl
@[simp] theorem State.after_hist : (s.after es u).hist = s.hist ++ es := rfl
@[simp] theorem State.after_requests : (s.after es u).requests = s.requests := rfl
@[simp] theorem State.after_bus : (s.after es u).bus = s.bus.replay s.cfg (framePairs es) := rfl

theorem State.after_nil (s : State) : s.after [] s.ses = s := by
  simp [State.after, framePairs, Bus.replay]

theorem State.after_after : (s.after es u).after fs v = s.after (es ++ fs) v := by
  simp [State.after, framePairs_append, Bus.replay_append]

theorem Bus.accept_answers (c : Cfg) (b : Bus) (tx : Frame) : (b.accept c tx).answers = b.answers := by
  unfold Bus.accept
  split
  · rename_i i _
    cases i <;> rfl
  · rfl

theorem Bus.replay_answers (c : Cfg) (b : Bus) (ps : List (Frame × Frame)) :
    (b.replay c ps).answers = b.answers.drop ps.length := by
  induction ps generalizing b with
  | nil => rfl
  | cons p ps ih =>
    obtain ⟨tx, rx⟩ := p
    simp only [Bus.replay, ih, Bus.accept_answers, Bus.takeAnswer_answers, List.length_cons]
    rw [List.drop_tail]

/-! ## Answers to come -/

theorem State.willAnswer.left {xs ys : List Frame} (h : s.willAnswer (xs ++ ys)) : s.willAnswer xs :=
  ⟨(List.prefix_append _ _).trans (by simpa using h.1), fun r hr => h.2 r (List.mem_append_left _ hr)⟩

theorem State.willAnswer.after {xs ys : List Frame} (h : s.willAnswer (xs ++ ys))
    (hl : (framePairs es).length = xs.length) : (s.after es u).willAnswer ys := by
  obtain ⟨⟨zs, hz⟩, h2⟩ := h
  refine ⟨⟨zs, ?_⟩, fun r hr => h2 r (List.mem_append_right _ hr)⟩
  rw [State.after_bus, Bus.replay_answers, ← hz, hl]
  simp

theorem State.willAnswer.next {r : Frame} {rs : List Frame} (h : s.willAnswer (r :: rs)) :
    s.bus.nextAnswer = .ok r ∧ r.length = s.cfg.frameLen := by
  obtain ⟨⟨zs, hz⟩, h2⟩ := h
  exact ⟨nextAnswer_cons (by rw [← hz]; rfl), h2 r (by simp)⟩

/-- One exchange that is answered. -/
theorem xchg_answered {r : Frame} {rs : List Frame} (h : s.willAnswer (r :: rs)) (tx : Frame) :
    xchg tx s = .ok r (s.after [.frame tx r] { s.ses with pc := s.ses.pc.nextFrame }) := by
  rw [xchg_ok h.next.1, fitFrame_of_length h.next.2]
  rfl

/-! ## Where a run lands -/

/-- x runs from s to its end with the events es, the session u up to the position, and the value a. -/
def Lands (x : Op α) (s : State) (es : List Event) (u : Session) (a : α) : Prop :=
  ∃ q, x s = .ok a (s.after es { u with pc := q })

/-- x raises e after the events es, with the session u up to the position. -/
def Raises (x : Op α) (s : State) (es : List Event) (u : Session) (e : Err) : Prop :=
  ∃ q, x s = .error e (s.after es { u with pc := q })

theorem Lands.pure (a : α) (s : State) : Lands (pure a : Op α) s [] s.ses a :=
  ⟨s.ses.pc, by rw [show ({ s.ses with pc := s.ses.pc } : Session) = s.ses from rfl, State.after_nil]; rfl⟩

theorem Lands.update (g : Session → Session) (s : State) : Lands (Machine.update fun t : State => t.withSes (g t.ses)) s [] (g s.ses) () :=
  ⟨(g s.ses).pc, by
    rw [show ({ g s.ses with pc := (g s.ses).pc } : Session) = g s.ses from rfl]
    simp [Machine.update, State.after, framePairs, Bus.replay, State.withSes]⟩

theorem Lands.noted (k : NoteKind) (n : NoteOp) (s : State) :
    Lands (Machine.update fun t : State => t.log (.note k n)) s [.note k n] s.ses () := ⟨s.ses.pc, rfl⟩

theorem Lands.bind {x : Op α} {f : α → Op β} {a : α} {d : β} (h : Lands x s es u a)
    (hf : ∀ q, Lands (f a) (s.after es { u with pc := q }) fs v d) : Lands (x >>= f) s (es ++ fs) v d := by
  obtain ⟨q, hq⟩ := h
  obtain ⟨q', hq'⟩ := hf q
  exact ⟨q', by rw [Op.bind_ok hq, hq', State.after_after]⟩

theorem Lands.bind_raises {x : Op α} {f : α → Op β} {a : α} {e : Err} (h : Lands x s es u a)
    (hf : ∀ q, Raises (f a) (s.after es { u with pc := q }) fs v e) : Raises (x >>= f) s (es ++ fs) v e := by
  obtain ⟨q, hq⟩ := h
  obtain ⟨q', hq'⟩ := hf q
  exact ⟨q', by rw [Op.bind_ok hq, hq', State.after_after]⟩

/-- A run, and its value passed on. -/
theorem Lands.map {x : Op α} {a : α} (h : Lands x s es u a) (f : α → β) :
    Lands (x >>= fun a => Pure.pure (f a)) s es u (f a) := by
  obtain ⟨q, hq⟩ := h
  exact ⟨q, by rw [Op.bind_ok hq]; rfl⟩

theorem Raises.bind {x : Op α} {e : Err} (h : Raises x s es u e) (f : α → Op β) : Raises (x >>= f) s es u e := by
  obtain ⟨q, hq⟩ := h
  exact ⟨q, Op.bind_error hq⟩

/-- A host operation whose body lands. -/
theorem Lands.hostOp {body : Op Value} {op : OpName} {a : Value} (h : Lands body (s.enter op) es u a) :
    hostOp op body s = s.after (es ++ [.ret op (.ok a)]) { u with pc := .idle } := by
  obtain ⟨q, hq⟩ := h
  rw [hostOp_ok hq]
  simp [State.ret, State.after, framePairs_append, framePairs, State.enter, State.withSes]

/-- A host operation whose body raises. -/
theorem Raises.hostOp {body : Op Value} {op : OpName} {e : Err} (h : Raises body (s.enter op) es u e) :
    hostOp op body s = s.after (es ++ [.ret op (.error e)]) { u with pc := .idle } := by
  obtain ⟨q, hq⟩ := h
  rw [hostOp_error hq]
  simp [State.ret, State.after, framePairs_append, framePairs, State.enter, State.withSes]

/-! ## Brackets -/

theorem Lands.bracket {x : Op α} {a : α} (hs : s.ses.sel = false)
    (h : Lands x (s.after [.select true] { s.ses with sel := true }) es { s.ses with sel := true } a) :
    Lands (bracket x) s (.select true :: (es ++ [.select false])) s.ses a := by
  obtain ⟨q, hq⟩ := h
  refine ⟨q.nextTxn, ?_⟩
  rw [State.after_after] at hq
  rw [bracket_run, show s.sel = s.after [.select true] { s.ses with sel := true } from rfl, withFinally_ok hq,
    show ∀ t : State, t.desel = t.after [.select false] { t.ses with sel := false, pc := t.ses.pc.nextTxn } from
      fun _ => rfl, State.after_after]
  simp [hs]

theorem Raises.bracket {x : Op α} {e : Err} (hs : s.ses.sel = false)
    (h : Raises x (s.after [.select true] { s.ses with sel := true }) es { s.ses with sel := true } e) :
    Raises (bracket x) s (.select true :: (es ++ [.select false])) s.ses e := by
  obtain ⟨q, hq⟩ := h
  refine ⟨q.nextTxn, ?_⟩
  rw [State.after_after] at hq
  rw [bracket_run, show s.sel = s.after [.select true] { s.ses with sel := true } from rfl, withFinally_error hq,
    show ∀ t : State, t.desel = t.after [.select false] { t.ses with sel := false, pc := t.ses.pc.nextTxn } from
      fun _ => rfl, State.after_after]
  simp [hs]

/-! ## Logical transactions -/

@[simp] theorem eventsOf_nil : eventsOf [] = [] := rfl
@[simp] theorem answersOf_nil : answersOf [] = [] := rfl

theorem eventsOf_append (xs ys : List Txn) : eventsOf (xs ++ ys) = eventsOf xs ++ eventsOf ys := by
  simp [eventsOf]

theorem answersOf_append (xs ys : List Txn) : answersOf (xs ++ ys) = answersOf xs ++ answersOf ys := by
  simp [answersOf]

theorem framePairs_events (x : Txn) : framePairs x.events = x.2.map (x.1, ·) := by
  have : ∀ (f : Frame) (rs : List Frame), framePairs (rs.map (.frame f)) = rs.map (f, ·) := by
    intro f rs
    induction rs with
    | nil => rfl
    | cons r rs ih => simp [framePairs, ih]
  simp [Txn.events, framePairs, framePairs_append, this]

theorem framePairs_eventsOf (xs : List Txn) : framePairs (eventsOf xs) = xs.flatMap fun x => x.2.map (x.1, ·) := by
  induction xs with
  | nil => rfl
  | cons x xs ih =>
    rw [show eventsOf (x :: xs) = x.events ++ eventsOf xs from rfl, framePairs_append, framePairs_events, ih]
    rfl

theorem framePairs_eventsOf_length (xs : List Txn) : (framePairs (eventsOf xs)).length = (answersOf xs).length := by
  rw [framePairs_eventsOf, answersOf]
  simp [List.length_flatMap]

/-- x, under a configuration and power bit, makes exactly these transactions and returns a. -/
def Does (c : Cfg) (power : Bool) (x : Op α) (xs : List Txn) (a : α) : Prop :=
  ∀ s : State, s.cfg = c → s.ses.power = power → s.ses.sel = false → s.willAnswer (answersOf xs) →
    Lands x s (eventsOf xs) s.ses a

/-- x makes exactly these transactions and raises e. -/
def Fails (c : Cfg) (power : Bool) (x : Op α) (xs : List Txn) (e : Err) : Prop :=
  ∀ s : State, s.cfg = c → s.ses.power = power → s.ses.sel = false → s.willAnswer (answersOf xs) →
    Raises x s (eventsOf xs) s.ses e

theorem Does.pure (a : α) : Does c power (pure a : Op α) [] a := fun s _ _ _ _ => Lands.pure a s

theorem Fails.throw (e : Err) : Fails c power (throw e : Op α) [] e := fun s _ _ _ _ =>
  ⟨s.ses.pc, by
    rw [eventsOf_nil, show ({ s.ses with pc := s.ses.pc } : Session) = s.ses from rfl, State.after_nil]; rfl⟩

theorem Does.get_bind {f : State → Op β} {xs : List Txn} {d : β}
    (h : ∀ s0 : State, s0.cfg = c → s0.ses.power = power → Does c power (f s0) xs d) :
    Does c power ((get : Op State) >>= f) xs d := fun s hc hp hs hw => h s hc hp s hc hp hs hw

theorem Fails.get_bind {f : State → Op β} {xs : List Txn} {e : Err}
    (h : ∀ s0 : State, s0.cfg = c → s0.ses.power = power → Fails c power (f s0) xs e) :
    Fails c power ((get : Op State) >>= f) xs e := fun s hc hp hs hw => h s hc hp s hc hp hs hw

theorem Does.bind {x : Op α} {f : α → Op β} {xs ys : List Txn} {a : α} {d : β} (h : Does c power x xs a)
    (hf : Does c power (f a) ys d) : Does c power (x >>= f) (xs ++ ys) d := by
  intro s hc hp hs hw
  rw [answersOf_append] at hw
  rw [eventsOf_append]
  exact (h s hc hp hs hw.left).bind fun q =>
    hf _ hc hp hs (hw.after (by rw [framePairs_eventsOf_length]))

theorem Does.bind_fails {x : Op α} {f : α → Op β} {xs ys : List Txn} {a : α} {e : Err} (h : Does c power x xs a)
    (hf : Fails c power (f a) ys e) : Fails c power (x >>= f) (xs ++ ys) e := by
  intro s hc hp hs hw
  rw [answersOf_append] at hw
  rw [eventsOf_append]
  exact (h s hc hp hs hw.left).bind_raises fun q =>
    hf _ hc hp hs (hw.after (by rw [framePairs_eventsOf_length]))

theorem Fails.bind {x : Op α} {xs : List Txn} {e : Err} (h : Fails c power x xs e) (f : α → Op β) :
    Fails c power (x >>= f) xs e := fun s hc hp hs hw => (h s hc hp hs hw).bind f

/-! ## One transaction -/

/-- A body that sends one frame over and over, under one chip select. -/
theorem Does.bracket {x : Op α} {f : Frame} {rs : List Frame} {a : α}
    (h : ∀ s : State, s.cfg = c → s.ses.power = power → s.willAnswer rs → Lands x s (rs.map (.frame f)) s.ses a) :
    Does c power (bracket x) [(f, rs)] a := by
  intro s hc hp hs hw
  have hw' : s.willAnswer ([] ++ rs) := by simpa [answersOf] using hw
  have := h (s.after [.select true] { s.ses with sel := true }) hc hp (hw'.after rfl)
  simpa [eventsOf, Txn.events] using Lands.bracket hs this

theorem Fails.bracket {x : Op α} {f : Frame} {rs : List Frame} {e : Err}
    (h : ∀ s : State, s.cfg = c → s.ses.power = power → s.willAnswer rs → Raises x s (rs.map (.frame f)) s.ses e) :
    Fails c power (bracket x) [(f, rs)] e := by
  intro s hc hp hs hw
  have hw' : s.willAnswer ([] ++ rs) := by simpa [answersOf] using hw
  have := h (s.after [.select true] { s.ses with sel := true }) hc hp (hw'.after rfl)
  simpa [eventsOf, Txn.events] using Raises.bracket hs this

theorem lands_xchg {r : Frame} {rs : List Frame} {f : Frame → Op β} {tx : Frame} {d : β} (h : s.willAnswer (r :: rs))
    (hf : ∀ q, (s.after [.frame tx r] { s.ses with pc := q }).willAnswer rs →
      Lands (f r) (s.after [.frame tx r] { s.ses with pc := q }) fs s.ses d) :
    Lands (xchg tx >>= f) s (.frame tx r :: fs) s.ses d :=
  Lands.bind (es := [.frame tx r]) ⟨_, xchg_answered h tx⟩ fun q =>
    hf q (State.willAnswer.after (xs := [r]) h rfl)

theorem raises_xchg {r : Frame} {rs : List Frame} {f : Frame → Op β} {tx : Frame} {e : Err} (h : s.willAnswer (r :: rs))
    (hf : ∀ q, (s.after [.frame tx r] { s.ses with pc := q }).willAnswer rs →
      Raises (f r) (s.after [.frame tx r] { s.ses with pc := q }) fs s.ses e) :
    Raises (xchg tx >>= f) s (.frame tx r :: fs) s.ses e :=
  Lands.bind_raises (es := [.frame tx r]) ⟨_, xchg_answered h tx⟩ fun q =>
    hf q (State.willAnswer.after (xs := [r]) h rfl)

/-- A register write (41_register_bus.md R99). -/
theorem does_regWr (sl : SlaveId) (ch : Channel) (a : Byte) (w : Word16) (r : Frame) :
    Does c power (regWr sl ch a w) [(registerFrame c ⟨power, sl, true, ch, a, w⟩, [r])] () := by
  refine Does.get_bind fun s0 h0 hp0 => Does.bracket fun s _ _ hw => ?_
  subst h0 hp0
  exact lands_xchg hw fun q _ => Lands.pure _ _

/-- A BusCtrl read (41_register_bus.md R102). -/
theorem does_regRdB (sl : SlaveId) (a : Byte) (r : Frame) :
    Does c power (regRdB sl a) [(registerFrame c ⟨power, sl, false, .busCtrl, a, 0⟩, [r])] (respWord c r) := by
  refine Does.get_bind fun s0 h0 hp0 => Does.bracket fun s _ _ hw => ?_
  subst h0 hp0
  exact lands_xchg hw fun q _ => Lands.pure _ _

/-- The polls of an SPort read that ends in data (41_register_bus.md R101). -/
theorem lands_pollValid (c : Cfg) (sl : SlaveId) (a : Byte) (f : Frame) {bad : List Frame} {rx : Frame} {n : Nat}
    (hn : bad.length + 1 ≤ n) (hb : ∀ p ∈ bad, respValid c p = false) (hv : respValid c rx = true) (s : State)
    (hw : s.willAnswer (bad ++ [rx])) :
    Lands (pollValid c sl a f n) s ((bad ++ [rx]).map (.frame f)) s.ses (respWord c rx) := by
  induction bad generalizing s n with
  | nil =>
    obtain ⟨n, rfl⟩ : ∃ m, n = m + 1 := ⟨n - 1, by omega⟩
    refine lands_xchg hw fun q _ => ?_
    simp only [hv, if_true]
    exact Lands.pure _ _
  | cons p bad ih =>
    obtain ⟨n, rfl⟩ : ∃ m, n = m + 1 := ⟨n - 1, by simp at hn; omega⟩
    refine lands_xchg hw fun q hq => ?_
    simp only [hb p (by simp), Bool.false_eq_true, if_false]
    exact ih (by simpa using hn) (fun p hp => hb p (by simp [hp])) _ hq

/-- The polls of an SPort read that times out (41_register_bus.md R101). -/
theorem raises_pollValid (c : Cfg) (sl : SlaveId) (a : Byte) (f : Frame) {bad : List Frame}
    (hb : ∀ p ∈ bad, respValid c p = false) (s : State) (hw : s.willAnswer bad) :
    Raises (pollValid c sl a f bad.length) s (bad.map (.frame f)) s.ses (.busTimeout sl .sport a c.readBudget) := by
  induction bad generalizing s with
  | nil =>
    exact ⟨s.ses.pc, by
      rw [List.map_nil, show ({ s.ses with pc := s.ses.pc } : Session) = s.ses from rfl, State.after_nil]; rfl⟩
  | cons p bad ih =>
    refine raises_xchg hw fun q hq => ?_
    simp only [hb p (by simp), Bool.false_eq_true, if_false]
    exact ih (fun p hp => hb p (by simp [hp])) _ hq

theorem sportRead_eq_some {rxs : List Frame} {w : Word16} (h : sportRead c rxs = some w) :
    ∃ setup bad rx, rxs = setup :: (bad ++ [rx]) ∧ bad.length + 1 ≤ c.readBudget ∧
      (∀ p ∈ bad, respValid c p = false) ∧ respValid c rx = true ∧ w = respWord c rx := by
  cases rxs with
  | nil => cases h
  | cons setup polls =>
    rcases List.eq_nil_or_concat polls with rfl | ⟨bad, rx, rfl⟩
    · cases h
    · simp only [sportRead, List.concat_eq_append, List.getLast?_append, List.getLast?_singleton, Option.some_or,
        List.length_append, List.length_singleton, List.dropLast_concat] at h
      split at h
      · rename_i hc
        exact ⟨setup, bad, rx, by simp, hc.1, hc.2.1, hc.2.2, by cases h; rfl⟩
      · cases h

theorem sportRead_of {setup rx : Frame} {bad : List Frame} (hn : bad.length + 1 ≤ c.readBudget)
    (hb : ∀ p ∈ bad, respValid c p = false) (hv : respValid c rx = true) :
    sportRead c (setup :: (bad ++ [rx])) = some (respWord c rx) := by
  simp only [sportRead, List.getLast?_append, List.getLast?_singleton, Option.some_or, List.length_append,
    List.length_singleton, List.dropLast_concat]
  rw [if_pos ⟨hn, hb, hv⟩]

/-- An SPort read that ends in data (41_register_bus.md R101). -/
theorem does_regRdS (sl : SlaveId) (a : Byte) {rxs : List Frame} {w : Word16} (h : sportRead c rxs = some w) :
    Does c power (regRdS sl a) [(registerFrame c ⟨power, sl, false, .sport, a, 0⟩, rxs)] w := by
  obtain ⟨setup, bad, rx, rfl, hn, hb, hv, rfl⟩ := sportRead_eq_some h
  refine Does.get_bind fun s0 h0 hp0 => Does.bracket fun s _ _ hw => ?_
  subst h0 hp0
  exact lands_xchg hw fun q hq => lands_pollValid _ _ _ _ hn hb hv _ hq

/-- An SPort read that times out (41_register_bus.md R101). -/
theorem fails_regRdS (sl : SlaveId) (a : Byte) {setup : Frame} {bad : List Frame} (hn : bad.length = c.readBudget)
    (hb : ∀ p ∈ bad, respValid c p = false) :
    Fails c power (regRdS sl a) [(registerFrame c ⟨power, sl, false, .sport, a, 0⟩, setup :: bad)]
      (.busTimeout sl .sport a c.readBudget) := by
  refine Fails.get_bind fun s0 h0 hp0 => Fails.bracket fun s _ _ hw => ?_
  subst h0 hp0
  refine raises_xchg hw fun q hq => ?_
  have := raises_pollValid s0.cfg sl a (s0.regFrame sl false .sport a 0) hb _ hq
  rw [hn] at this
  exact this

/-! ## Sequences -/

theorem does_writeWords (sl : SlaveId) (ch : Channel) (a : Byte) {ws : List Word16} {rs : List Frame}
    (h : rs.length = ws.length) :
    Does c power (writeWords sl ch a ws) (writeTxns c power sl ch a ws rs) () := by
  induction ws generalizing rs with
  | nil =>
    cases rs with
    | nil => exact Does.pure ()
    | cons r rs => cases h
  | cons w ws ih =>
    cases rs with
    | nil => cases h
    | cons r rs => exact (does_regWr sl ch a w r).bind (ih (by simpa using h))

theorem answersOf_writeTxns {sl : SlaveId} {ch : Channel} {a : Byte} {ws : List Word16} {rs : List Frame}
    (h : rs.length = ws.length) : answersOf (writeTxns c power sl ch a ws rs) = rs := by
  induction ws generalizing rs with
  | nil => cases rs with
    | nil => rfl
    | cons r rs => cases h
  | cons w ws ih => cases rs with
    | nil => cases h
    | cons r rs =>
      have := ih (rs := rs) (by simpa using h)
      simp only [answersOf, writeTxns] at this ⊢
      simp [this]

theorem answersOf_readTxns {sl : SlaveId} {ch : Channel} {as : List Byte} {rss : List (List Frame)}
    (h : as.length = rss.length) : answersOf (readTxns c power sl ch as rss) = rss.flatten := by
  induction as generalizing rss with
  | nil => cases rss with
    | nil => rfl
    | cons r rs => cases h
  | cons w ws ih => cases rss with
    | nil => cases h
    | cons r rs =>
      have := ih (rss := rs) (by simpa using h)
      simp only [answersOf, readTxns] at this ⊢
      rw [List.zipWith_cons_cons, List.flatMap_cons, this, List.flatten_cons]

/-- Status reads until a bit of the mask shows (44_flash_engine.md R142). -/
theorem does_pollStatus (st : FlashStep) (sl : SlaveId) (r : FlashRange) (a : Byte) (mask : Word16) (budget : Nat)
    {rss : List (List Frame)} {ws : List Word16} {n : Nat} (hr : rss.map (sportRead c) = ws.map some)
    (hs : ShownLast mask n ws) :
    Does c power (pollStatus st sl r a mask budget n) (readTxns c power sl .sport (rss.map fun _ => a) rss) () := by
  obtain ⟨hn, init, last, rfl, hi, hl⟩ := hs
  induction init generalizing n rss with
  | nil =>
    obtain ⟨n, rfl⟩ : ∃ m, n = m + 1 := ⟨n - 1, by simp at hn; omega⟩
    match rss, hr with
    | [rs], hr =>
      simp only [List.map_cons, List.map_nil, List.nil_append, List.cons.injEq, and_true] at hr
      refine ((does_regRdS sl a hr).bind (ys := []) ?_ : Does c power _ ([_] ++ []) ())
      simp only [hl, if_true]
      exact Does.pure ()
    | [], hr => cases hr
    | _ :: _ :: _, hr => simp at hr
  | cons w init ih =>
    obtain ⟨n, rfl⟩ : ∃ m, n = m + 1 := ⟨n - 1, by simp at hn; omega⟩
    match rss, hr with
    | [], hr => cases hr
    | rs :: rss, hr =>
      simp only [List.map_cons, List.cons_append, List.cons.injEq] at hr
      refine ((does_regRdS sl a hr.1).bind ?_ : Does c power _ ([_] ++ _) ())
      simp only [hi w (by simp), Bool.false_eq_true, if_false]
      exact ih (by simpa using hr.2) (by simpa using hn) (fun w hw => hi w (by simp [hw]))

/-- Status reads that never show a bit of the mask (44_flash_engine.md R142). -/
theorem fails_pollStatus (st : FlashStep) (sl : SlaveId) (r : FlashRange) (a : Byte) (mask : Word16) (budget : Nat)
    {rss : List (List Frame)} {ws : List Word16} (hr : rss.map (sportRead c) = ws.map some)
    (hs : ∀ w ∈ ws, maskSet w mask = false) :
    Fails c power (pollStatus st sl r a mask budget ws.length) (readTxns c power sl .sport (rss.map fun _ => a) rss)
      (.flashTimeout st sl r budget) := by
  induction ws generalizing rss with
  | nil =>
    match rss, hr with
    | [], _ => exact Fails.throw _
    | _ :: _, hr => cases hr
  | cons w ws ih =>
    match rss, hr with
    | [], hr => cases hr
    | rs :: rss, hr =>
      simp only [List.map_cons, List.cons.injEq] at hr
      refine ((does_regRdS sl a hr.1).bind_fails ?_ : Fails c power _ ([_] ++ _) _)
      simp only [hs w (by simp), Bool.false_eq_true, if_false]
      exact ih hr.2 (fun w hw => hs w (by simp [hw]))

/-- Status reads of which the last is not answered (44_flash_engine.md R142): its `BusTimeout` ends the wait at once. -/
theorem fails_pollStatus_unanswered (st : FlashStep) (sl : SlaveId) (r : FlashRange) (a : Byte) {mask : Word16} (budget : Nat)
    {n : Nat} {rss : List (List Frame)} (h : UnansweredLast c mask n rss) :
    Fails c power (pollStatus st sl r a mask budget n) (readTxns c power sl .sport (rss.map fun _ => a) rss)
      (.busTimeout sl .sport a c.readBudget) := by
  obtain ⟨init, ws, setup, polls, rfl, hr, hn, hs, hb, hl⟩ := h
  induction ws generalizing n init with
  | nil =>
    obtain ⟨n, rfl⟩ : ∃ m, n = m + 1 := ⟨n - 1, by simp at hn; omega⟩
    match init, hr with
    | [], _ => exact Fails.bind (fails_regRdS sl a hl hb) _
    | _ :: _, hr => cases hr
  | cons w ws ih =>
    obtain ⟨n, rfl⟩ : ∃ m, n = m + 1 := ⟨n - 1, by simp at hn; omega⟩
    match init, hr with
    | [], hr => cases hr
    | rs :: init, hr =>
      simp only [List.map_cons, List.cons.injEq] at hr
      refine ((does_regRdS sl a hr.1).bind_fails ?_ : Fails c power _ ([_] ++ _) _)
      simp only [hs w (by simp), Bool.false_eq_true, if_false]
      exact ih init hr.2 (by simpa using hn) fun w hw => hs w (by simp [hw])

/-- FIFO status reads until one shows room (44_flash_engine.md R139). -/
theorem does_awaitRoom {rs : List Frame} {n : Nat} (hn : rs.length ≤ n) {init : List Frame} {last : Frame}
    (he : rs = init ++ [last]) (hi : ∀ r ∈ init, maskSet (respWord c r) c.fifoHalfFullMask = true)
    (hl : maskSet (respWord c last) c.fifoHalfFullMask = false) :
    Does c power (awaitRoom c n)
      (readTxns c power c.bcSlave .busCtrl (rs.map fun _ => c.aFifoStatus) (rs.map fun r => [r])) () := by
  subst he
  induction init generalizing n with
  | nil =>
    obtain ⟨n, rfl⟩ : ∃ m, n = m + 1 := ⟨n - 1, by simp at hn; omega⟩
    refine ((does_regRdB c.bcSlave c.aFifoStatus last).bind (ys := []) ?_ : Does c power _ ([_] ++ []) ())
    simp only [hl, Bool.false_eq_true, if_false]
    exact Does.pure ()
  | cons r init ih =>
    obtain ⟨n, rfl⟩ : ∃ m, n = m + 1 := ⟨n - 1, by simp at hn; omega⟩
    refine ((does_regRdB c.bcSlave c.aFifoStatus r).bind ?_ : Does c power _ ([_] ++ _) ())
    simp only [hi r (by simp), if_true]
    exact ih (fun r hr => hi r (by simp [hr])) (by simpa using hn)

/-- FIFO status reads that never show room (44_flash_engine.md R139). -/
theorem fails_awaitRoom {rs : List Frame} (hi : ∀ r ∈ rs, maskSet (respWord c r) c.fifoHalfFullMask = true) :
    Fails c power (awaitRoom c rs.length)
      (readTxns c power c.bcSlave .busCtrl (rs.map fun _ => c.aFifoStatus) (rs.map fun r => [r]))
      (.busTimeout c.bcSlave .busCtrl c.aFifoStatus c.fifoBudget) := by
  induction rs with
  | nil => exact Fails.throw _
  | cons r rs ih =>
    refine ((does_regRdB c.bcSlave c.aFifoStatus r).bind_fails ?_ : Fails c power _ ([_] ++ _) _)
    simp only [hi r (by simp), if_true]
    exact ih fun r hr => hi r (by simp [hr])

/-- Scan status reads until one shows scan-done (43_bus_scanner.md R125). -/
theorem does_pollScan {init : List Frame} {last : Frame} {n : Nat} (hn : init.length + 1 ≤ n)
    (hi : ∀ r ∈ init, maskSet (respWord c r) c.scanDoneMask = false)
    (hl : maskSet (respWord c last) c.scanDoneMask = true) :
    Does c power (pollScan c n) (readTxns c power c.bcSlave .busCtrl ((init ++ [last]).map fun _ => c.aScanStatus)
      ((init ++ [last]).map fun r => [r])) (some (respWord c last)) := by
  induction init generalizing n with
  | nil =>
    obtain ⟨n, rfl⟩ : ∃ m, n = m + 1 := ⟨n - 1, by omega⟩
    refine ((does_regRdB c.bcSlave c.aScanStatus last).bind (ys := []) ?_ : Does c power _ ([_] ++ []) _)
    simp only [hl, if_true]
    exact Does.pure _
  | cons r init ih =>
    obtain ⟨n, rfl⟩ : ∃ m, n = m + 1 := ⟨n - 1, by simp at hn; omega⟩
    refine ((does_regRdB c.bcSlave c.aScanStatus r).bind ?_ : Does c power _ ([_] ++ _) _)
    simp only [hi r (by simp), Bool.false_eq_true, if_false]
    exact ih (by simpa using hn) (fun r hr => hi r (by simp [hr]))

/-- Scan status reads none of which shows scan-done (43_bus_scanner.md R125). -/
theorem does_pollScan_none {rs : List Frame} (hi : ∀ r ∈ rs, maskSet (respWord c r) c.scanDoneMask = false) :
    Does c power (pollScan c rs.length) (readTxns c power c.bcSlave .busCtrl (rs.map fun _ => c.aScanStatus)
      (rs.map fun r => [r])) none := by
  induction rs with
  | nil => exact Does.pure _
  | cons r rs ih =>
    refine ((does_regRdB c.bcSlave c.aScanStatus r).bind ?_ : Does c power _ ([_] ++ _) _)
    simp only [hi r (by simp), Bool.false_eq_true, if_false]
    exact ih fun r hr => hi r (by simp [hr])

end Sys2Proof.Machine
end

