-- ==== Sys2Proof/Laws/Engine.lean ====
section
/-! SUPPORT. How the flash state moves: what each flash step leaves when it returns, when it raises and when `guard` refuses
it (spec/44_flash_engine.md R135). -/

namespace Sys2Proof.Machine

variable {b : Bool} {s t : State} {k : Bool}

/-- A register sequence or wait leaves the session alone, but for chip select, the dead mark and the position. -/
theorem Path.noEdit {o : Option Err} (h : Path b NoEdit s o t) :
    t.ses = { s.ses with sel := t.ses.sel, dead := t.ses.dead, pc := t.ses.pc } := by
  refine Path.session (R := fun u v => v = { u with sel := v.sel, dead := v.dead, pc := v.pc }) (fun _ => rfl) ?_
    (fun _ _ h => h.elim) (fun _ _ _ _ => rfl) h
  intro u v w h1 h2
  rw [h2, h1]

theorem Path.flash_noEdit {o : Option Err} (h : Path b NoEdit s o t) : t.ses.flash = s.ses.flash := by rw [h.noEdit]

/-- Edits of the flash state keep the slave and range of the session record. -/
theorem Path.flash_target {o : Option Err} (h : Path b FlashStateOnly s o t) :
    t.ses.flash = { s.ses.flash with state := t.ses.flash.state } := by
  refine Path.session (R := fun u v => v.flash = { u.flash with state := v.flash.state }) (fun _ => rfl) ?_
    (fun u v h => ?_) (fun _ _ _ _ => rfl) h
  · intro u v w h1 h2
    rw [h2, h1]
  · rw [h]

theorem failNoted_flash (op : NoteOp) (e : Err) (s : State) :
    (failNoted op e s).ses.flash = { s.ses.flash with state := .failed } := by
  cases e <;> rfl

theorem onError_eq_ok {α : Type} {x : Op α} {f : Err → State → State} {a : α} (h : onError x f s = .ok a t) :
    x s = .ok a t := by
  unfold onError at h
  split at h
  · rename_i hx; cases h; exact hx
  · cases h

theorem onError_eq_error {α : Type} {x : Op α} {f : Err → State → State} {e : Err} (h : onError x f s = .error e t) :
    ∃ u, x s = .error e u ∧ t = f e u := by
  unfold onError at h
  split at h
  · cases h
  · rename_i e' u hx; cases h; exact ⟨u, hx, rfl⟩

/-- What `guard` lets through goes on from the same state. -/
theorem guard_bind_pass {α : Type} {g : GuardArgs} (h : guardError s g = none) (f : Unit → Op α) :
    (guard g >>= f) s = f () s := Op.bind_ok (guard_pass h)

/-- What `guard` refuses ends there. -/
theorem guard_bind_refuse {α : Type} {g : GuardArgs} {e : Err} (h : guardError s g = some e) (f : Unit → Op α) :
    (guard g >>= f) s = .error e s := Op.bind_error (guard_refuse h)

/-! ## The steps -/

/-- `erase` after `guard`. -/
theorem opErase_pass {sl : Nat} {r : FlashRange} (h : guardError s { slave := sl, mode := .flashStart } = none) :
    opErase sl r s = (onError (eraseFrames s.cfg (slaveId sl) r) (failNoted .erase) >>= fun _ =>
      update (fun t => t.setFlashState .programming) >>= fun _ => note .completed .erase >>= fun _ =>
      (pure .unit : Op Value))
      ((s.withSes { s.ses with flash := ⟨.erasing, slaveId sl, r⟩ }).log (.note .started .erase)) :=
  guard_bind_pass h _

/-- `program` after `guard`. -/
theorem opProgram_pass {image : List Byte} (h : guardError s { mode := .flashStep .programming } = none) :
    opProgram image s = (onError (download s.cfg s.ses.flash.slave (rangeParams s.cfg s.ses.flash.range).download 0
      (imageWords s.cfg.imagePad image)) failStep >>= fun _ => (pure .unit : Op Value)) s :=
  guard_bind_pass h _

/-- `finalize` after `guard`. -/
theorem opFinalize_pass (h : guardError s { mode := .flashStep .programming } = none) :
    opFinalize s = (onError (finalizeFrames s.cfg s.ses.flash.slave s.ses.flash.range) (failNoted .finalize) >>= fun _ =>
      update (fun t => t.setFlashState .rebooting) >>= fun _ => note .completed .finalize >>= fun _ =>
      (pure .unit : Op Value)) ((s.setFlashState .finalizing).log (.note .started .finalize)) :=
  guard_bind_pass h _

/-- `reboot` after `guard`. -/
theorem opReboot_pass (h : guardError s { mode := .flashStep .rebooting } = none) :
    opReboot s = (onError (writeWords s.ses.flash.slave .sport (rangeParams s.cfg s.ses.flash.range).ctrl
      (s.cfg.vUnlockReboot.toList ++ [s.cfg.vRebootReq])) failStep >>= fun _ =>
      update (fun t => t.rebooted s.ses.flash.slave) >>= fun _ => (pure .unit : Op Value)) s :=
  guard_bind_pass h _

/-- `erase` returns with the session `Programming`, for its slave and range. -/
theorem opErase_ok {sl : Nat} {r : FlashRange} {v : Value} (h : opErase sl r s = .ok v t) :
    v = .unit ∧ t.ses.flash = ⟨.programming, slaveId sl, r⟩ := by
  cases hg : guardError s { slave := sl, mode := .flashStart } with
  | some e => unfold opErase at h; rw [guard_bind_refuse hg] at h; cases h
  | none =>
    rw [opErase_pass hg] at h
    obtain ⟨_, t1, h1, h2⟩ := Op.bind_eq_ok h
    have := (runs_eraseFrames (b := false) (E := NoEdit) s.cfg (slaveId sl) r _ rfl (by simp)).of_ok (onError_eq_ok h1)
    cases h2
    refine ⟨rfl, ?_⟩
    simp [this.1.flash_noEdit]

/-- A failed `erase` leaves the session `Failed`, unless `guard` refused it. -/
theorem opErase_error {sl : Nat} {r : FlashRange} {e : Err} (h : opErase sl r s = .error e t) :
    (guardError s { slave := sl, mode := .flashStart } = some e ∧ t = s) ∨
      guardError s { slave := sl, mode := .flashStart } = none ∧ t.ses.flash = ⟨.failed, slaveId sl, r⟩ := by
  cases hg : guardError s { slave := sl, mode := .flashStart } with
  | some e' => unfold opErase at h; rw [guard_bind_refuse hg] at h; cases h; exact .inl ⟨rfl, rfl⟩
  | none =>
    rw [opErase_pass hg] at h
    rcases Op.bind_eq_error h with h | ⟨_, _, _, h2⟩
    · obtain ⟨u, hu, rfl⟩ := onError_eq_error h
      have := (runs_eraseFrames (b := false) (E := NoEdit) s.cfg (slaveId sl) r _ rfl (by simp)).of_error hu
      refine .inr ⟨rfl, ?_⟩
      simp [failNoted_flash, this.1.flash_noEdit]
    · cases h2

theorem opProgram_ok {image : List Byte} {v : Value} (h : opProgram image s = .ok v t) :
    v = .unit ∧ s.ses.flash.state = .programming ∧ t.ses.flash = s.ses.flash := by
  cases hg : guardError s { mode := .flashStep .programming } with
  | some e => unfold opProgram at h; rw [guard_bind_refuse hg] at h; cases h
  | none =>
    rw [opProgram_pass hg] at h
    obtain ⟨_, t1, h1, h2⟩ := Op.bind_eq_ok h
    have := (runs_download (b := false) (E := NoEdit) (p := s.params) _ _ _ _ _ _ rfl (by simp)).of_ok (onError_eq_ok h1)
    cases h2
    refine ⟨rfl, ?_, this.1.flash_noEdit⟩
    have hm := (guardError_eq_none.1 hg).2.2.2.2.2
    by_contra hc
    simp [modeError, hc] at hm

theorem opProgram_error {image : List Byte} {e : Err} (h : opProgram image s = .error e t) :
    (guardError s { mode := .flashStep .programming } = some e ∧ t = s) ∨
      guardError s { mode := .flashStep .programming } = none ∧ t.ses.flash = { s.ses.flash with state := .failed } := by
  cases hg : guardError s { mode := .flashStep .programming } with
  | some e' => unfold opProgram at h; rw [guard_bind_refuse hg] at h; cases h; exact .inl ⟨rfl, rfl⟩
  | none =>
    rw [opProgram_pass hg] at h
    rcases Op.bind_eq_error h with h | ⟨_, _, _, h2⟩
    · obtain ⟨u, hu, rfl⟩ := onError_eq_error h
      have := (runs_download (b := false) (E := NoEdit) (p := s.params) _ _ _ _ _ _ rfl (by simp)).of_error hu
      refine .inr ⟨rfl, ?_⟩
      simp [failStep, this.1.flash_noEdit]
    · cases h2

theorem guardError_step {st : FlashState} (hg : guardError s { mode := .flashStep st } = none) :
    s.ses.flash.state = st := by
  have hm := (guardError_eq_none.1 hg).2.2.2.2.2
  by_contra hc
  simp [modeError, hc] at hm

theorem opFinalize_ok {v : Value} (h : opFinalize s = .ok v t) :
    v = .unit ∧ s.ses.flash.state = .programming ∧ t.ses.flash = { s.ses.flash with state := .rebooting } := by
  cases hg : guardError s { mode := .flashStep .programming } with
  | some e => unfold opFinalize at h; rw [guard_bind_refuse hg] at h; cases h
  | none =>
    rw [opFinalize_pass hg] at h
    obtain ⟨_, t1, h1, h2⟩ := Op.bind_eq_ok h
    have := (runs_finalizeFrames (b := false) (E := NoEdit) s.cfg s.ses.flash.slave s.ses.flash.range _ rfl (by simp)).of_ok (onError_eq_ok h1)
    cases h2
    refine ⟨rfl, guardError_step hg, ?_⟩
    simp [this.1.flash_noEdit]

theorem opFinalize_error {e : Err} (h : opFinalize s = .error e t) :
    (guardError s { mode := .flashStep .programming } = some e ∧ t = s) ∨
      guardError s { mode := .flashStep .programming } = none ∧ t.ses.flash = { s.ses.flash with state := .failed } := by
  cases hg : guardError s { mode := .flashStep .programming } with
  | some e' => unfold opFinalize at h; rw [guard_bind_refuse hg] at h; cases h; exact .inl ⟨rfl, rfl⟩
  | none =>
    rw [opFinalize_pass hg] at h
    rcases Op.bind_eq_error h with h | ⟨_, _, _, h2⟩
    · obtain ⟨u, hu, rfl⟩ := onError_eq_error h
      have := (runs_finalizeFrames (b := false) (E := NoEdit) s.cfg s.ses.flash.slave s.ses.flash.range _ rfl (by simp)).of_error hu
      refine .inr ⟨rfl, ?_⟩
      simp [failNoted_flash, this.1.flash_noEdit]
    · cases h2

theorem opReboot_ok {v : Value} (h : opReboot s = .ok v t) :
    v = .unit ∧ s.ses.flash.state = .rebooting ∧ t.ses.flash = { s.ses.flash with state := .done } ∧
      t.ses.entry s.ses.flash.slave = { s.ses.entry s.ses.flash.slave with enabled := false, info := none } := by
  cases hg : guardError s { mode := .flashStep .rebooting } with
  | some e => unfold opReboot at h; rw [guard_bind_refuse hg] at h; cases h
  | none =>
    rw [opReboot_pass hg] at h
    obtain ⟨_, t1, h1, h2⟩ := Op.bind_eq_ok h
    have := (runs_writeWords (b := false) (E := NoEdit) (p := s.params) _ _ _ _ _ rfl (by simp)).of_ok (onError_eq_ok h1)
    cases h2
    refine ⟨rfl, guardError_step hg, ?_, ?_⟩
    · simp [this.1.flash_noEdit]
    · rw [State.rebooted_ses, this.1.noEdit]
      simp [Session.entry, Session.setEntry]

theorem opReboot_error {e : Err} (h : opReboot s = .error e t) :
    (guardError s { mode := .flashStep .rebooting } = some e ∧ t = s) ∨
      guardError s { mode := .flashStep .rebooting } = none ∧ t.ses.flash = { s.ses.flash with state := .failed } := by
  cases hg : guardError s { mode := .flashStep .rebooting } with
  | some e' => unfold opReboot at h; rw [guard_bind_refuse hg] at h; cases h; exact .inl ⟨rfl, rfl⟩
  | none =>
    rw [opReboot_pass hg] at h
    rcases Op.bind_eq_error h with h | ⟨_, _, _, h2⟩
    · obtain ⟨u, hu, rfl⟩ := onError_eq_error h
      have := (runs_writeWords (b := false) (E := NoEdit) (p := s.params) _ _ _ _ _ rfl (by simp)).of_error hu
      refine .inr ⟨rfl, ?_⟩
      simp [failStep, this.1.flash_noEdit]
    · cases h2

end Sys2Proof.Machine
end

