-- ==== Sys2Proof/Laws/Exec.lean ====
section
/-! SUPPORT. What `exec` leaves, for every instruction: the events and the result of a host operation, the write matrix
(spec/10_state.md R38, R40), the composites of the flash engine, and the invariant between operations. -/

namespace Sys2Proof.Machine

variable {b : Bool} {s t : State}

/-! ## Host operations -/

/-- The body of a host operation. -/
def bodyOf : Instr → Option (Op Value)
  | .setPower b => some (opSetPower b)
  | .encode p sl w ch a d => some (opEncode p sl w ch a d)
  | .decode raw => some (opDecode raw)
  | .writeRegister sl ch a v => some (opWriteRegister sl ch a v)
  | .readRegister sl ch a => some (opReadRegister sl ch a)
  | .getSlaveInfo sl => some (opGetSlaveInfo sl)
  | .exchange sl p0 p1 => some (opExchange sl p0 p1)
  | .scan n => some (opScan n)
  | .enable sl => some (opEnable sl)
  | .erase sl r => some (opErase sl r)
  | .program image => some (opProgram image)
  | .finalize => some opFinalize
  | .reboot => some opReboot
  | .abortFlash => some opAbortFlash
  | .flash sl r image => some (opFlash sl r image)
  | .encodeMFD r => some (opEncodeMFD r)
  | .decodeMFD bs => some (opDecodeMFD bs)
  | .writeManufacturingData sl r => some (opWriteManufacturingData sl r)
  | .readManufacturingData sl => some (opReadManufacturingData sl)
  | .reset => some opReset
  | _ => none

theorem exec_body {i : Instr} {body : Op Value} {op : OpName} (hb : bodyOf i = some body) (ho : opOf i = some op) :
    exec i s = .next (hostOp op body s) := by
  cases i <;> cases hb <;> cases ho <;> rfl

theorem bodyOf_of_opOf {i : Instr} {op : OpName} (ho : opOf i = some op) : ∃ body, bodyOf i = some body := by
  cases i <;> cases ho <;> exact ⟨_, rfl⟩

/-- Any edit of the session. -/
def AnyEdit : Session → Session → Prop := fun _ _ => True

theorem runs_body {i : Instr} {body : Op Value} (hb : bodyOf i = some body) (hr : i ≠ .reset) (b : Bool) (p : Params) :
    Runs b AnyEdit p false body := by
  cases i <;> cases hb
  case setPower => exact (runs_opSetPower _).mono fun _ _ _ => trivial
  case encode => exact runs_opEncode _ _ _ _ _ _
  case decode => exact runs_opDecode _
  case writeRegister => exact (runs_opWriteRegister _ _ _ _).mono fun _ _ _ => trivial
  case readRegister => exact (runs_opReadRegister _ _ _).mono fun _ _ _ => trivial
  case getSlaveInfo => exact (runs_opGetSlaveInfo _).mono fun _ _ _ => trivial
  case exchange => exact (runs_opExchange _ _ _).mono fun _ _ _ => trivial
  case scan => exact (runs_opScan _).mono fun _ _ _ => trivial
  case enable => exact (runs_opEnable _).mono fun _ _ _ => trivial
  case erase => exact (runs_opErase _ _).mono fun _ _ _ => trivial
  case program => exact runs_opProgram (fun _ _ _ => trivial) _
  case finalize => exact runs_opFinalize fun _ _ _ => trivial
  case reboot => exact runs_opReboot.mono fun _ _ _ => trivial
  case abortFlash => exact runs_opAbortFlash.mono fun _ _ _ => trivial
  case flash => exact (runs_opFlash _ _ _).mono fun _ _ _ => trivial
  case encodeMFD => exact runs_opEncodeMFD _
  case decodeMFD => exact runs_opDecodeMFD _
  case writeManufacturingData => exact (runs_opWriteManufacturingData _ _).mono fun _ _ _ => trivial
  case readManufacturingData => exact (runs_opReadManufacturingData _).mono fun _ _ _ => trivial
  case reset => exact absurd rfl hr

/-- The error of a result. -/
def errOf : Result → Option Err
  | .ok _ => none
  | .error e => some e

/-- A host operation: its events, then its `Return` (10_state.md R38). -/
theorem hostOp_law {E : Session → Session → Prop} {body : Op Value} (hx : ∀ b p, Runs b E p false body) (op : OpName)
    (s : State) : ∃ es r u, hostOp op body s = u.ret op r ∧ Ran false (s.enter op) (errOf r) u es ∧
      Path false E (s.enter op) (errOf r) u ∧
      (s.ses.sel = false → u.ses.sel = false ∧ bracketed false es = true) := by
  have h0 := hx false s.params (s.enter op) rfl (by simp)
  have h1 := fun hs : s.ses.sel = false => hx true s.params (s.enter op) rfl fun _ => hs
  cases hb : body (s.enter op) with
  | ok v u =>
    obtain ⟨es, he⟩ := (h0.of_ok hb).1.leaves
    refine ⟨es, .ok v, u, hostOp_ok hb, he, (h0.of_ok hb).1, fun hs => ?_⟩
    obtain ⟨g1, -, g3⟩ := (h1 hs).of_ok hb
    obtain ⟨fs, hf⟩ := g1.leaves
    have : es = fs := by have := he.hist.symm.trans hf.hist; simpa using this
    subst this
    refine ⟨g3 rfl, ?_⟩
    have := hf.sel rfl [] (by simp [bracketed, g3 rfl])
    simpa [hs] using this
  | error e u =>
    obtain ⟨es, he⟩ := (h0.of_error hb).1.leaves
    refine ⟨es, .error e, u, hostOp_error hb, he, (h0.of_error hb).1, fun hs => ?_⟩
    obtain ⟨g1, -, g3⟩ := (h1 hs).of_error hb
    obtain ⟨fs, hf⟩ := g1.leaves
    have : es = fs := by have := he.hist.symm.trans hf.hist; simpa using this
    subst this
    refine ⟨g3 rfl, ?_⟩
    have := hf.sel rfl [] (by simp [bracketed, g3 rfl])
    simpa [hs] using this

/-- `reset` (70_reset_and_hazards.md R183). -/
theorem exec_reset (s : State) : exec .reset s = .next (s.returned .reset (.ok .unit) Session.reset) := rfl

/-- Every host operation but `reset`: its events, then its `Return`. -/
theorem exec_law {i : Instr} {op : OpName} (ho : opOf i = some op) (hr : i ≠ .reset) (s : State) :
    ∃ es r u, exec i s = .next (u.ret op r) ∧ Ran false (s.enter op) (errOf r) u es ∧
      Path false AnyEdit (s.enter op) (errOf r) u ∧
      (s.ses.sel = false → u.ses.sel = false ∧ bracketed false es = true) := by
  obtain ⟨body, hb⟩ := bodyOf_of_opOf ho
  obtain ⟨es, r, u, h1, h2, h3, h4⟩ := hostOp_law (runs_body hb hr) op s
  exact ⟨es, r, u, by rw [exec_body hb ho, h1], h2, h3, h4⟩

/-! ## The frame kinds -/

/-- A frame kind is served by the bus environment, with its effect at the target. -/
theorem exec_frame {i : Instr} (h : opOf i = none) : exec i s = .next (s.serve (targetEffect s.cfg i)) := by
  cases i <;> cases h <;> rfl

/-- What a frame decodes to is a frame kind, and the target does that kind's effect. -/
theorem opOf_decodeFrame {c : Cfg} {f : Frame} {i : Instr} (h : decodeFrame c f = .ok i) : opOf i = none := by
  unfold decodeFrame at h
  split at h
  · cases h
  · cases h
    split <;> rfl

theorem accept_of_decode {c : Cfg} {b : Bus} {f : Frame} {i : Instr} (h : decodeFrame c f = .ok i) :
    b.accept c f = targetEffect c i b := by
  simp only [Bus.accept, h]

/-! ## The write matrix (10_state.md R40) -/

/-- A relation of the session that holds of every edit of a body, and of chip select, dead mark and position, holds
between the ends of the operation. -/
theorem hostOp_session {E R : Session → Session → Prop} (refl : ∀ u, R u u) (trans : ∀ u v w, R u v → R v w → R u w)
    (hE : ∀ u v, E u v → R u v) (hsys : ∀ u a d q, R u { u with sel := a, dead := d, pc := q })
    {body : Op Value} (hx : ∀ b p, Runs b E p false body) (op : OpName) (s : State) : R s.ses (hostOp op body s).ses := by
  obtain ⟨es, r, u, h1, -, h3, -⟩ := hostOp_law hx op s
  have h := h3.session refl trans hE hsys
  rw [h1]
  exact trans _ _ _ (trans _ _ _ (hsys s.ses s.ses.sel s.ses.dead _) h) (hsys u.ses u.ses.sel u.ses.dead .idle)

@[simp] theorem hostOp_pc (op : OpName) (body : Op Value) (s : State) : (hostOp op body s).ses.pc = .idle := by
  unfold hostOp
  split <;> rfl

end Sys2Proof.Machine
end

