-- ==== Sys2Proof/Laws/Matrix.lean ====
section
/-! SUPPORT. The composites of the flash engine, step by step (spec/44_flash_engine.md R146, spec/45_mfd.md R150), and which
fields each operation may write (spec/10_state.md R40). -/

namespace Sys2Proof.Machine

variable {b : Bool} {s t : State}

/-! ## Operations without a frame -/

theorem opSetPower_run (x : Bool) (s : State) : opSetPower x s = .ok .unit (s.withSes { s.ses with power := x }) := rfl

theorem opReset_run (s : State) : opReset s = .ok .unit (s.withSes Session.reset) := rfl

theorem opAbortFlash_run (s : State) :
    opAbortFlash s = .ok .unit (if s.ses.busy then s.setFlashState .failed else s) := rfl

/-- The codec operations end in the state they start in. -/
theorem pure_body {i : Instr} {body : Op Value} (hb : bodyOf i = some body)
    (hi : opOf i = some .encode ∨ opOf i = some .decode ∨ opOf i = some .encodeMFD ∨ opOf i = some .decodeMFD)
    (s : State) : (∃ v, body s = .ok v s) ∨ ∃ e, body s = .error e s := by
  cases i <;> simp [opOf] at hi <;> cases hb
  case encode =>
    unfold opEncode
    split
    · exact .inr ⟨_, rfl⟩
    · exact .inr ⟨_, rfl⟩
    · exact .inl ⟨_, rfl⟩
  case decode =>
    unfold opDecode
    split
    · exact .inl ⟨_, rfl⟩
    · exact .inr ⟨_, rfl⟩
  case encodeMFD =>
    unfold opEncodeMFD
    split
    · exact .inl ⟨_, rfl⟩
    · exact .inr ⟨_, rfl⟩
  case decodeMFD =>
    unfold opDecodeMFD
    split
    · exact .inl ⟨_, rfl⟩
    · exact .inr ⟨_, rfl⟩

/-! ## Runs that return -/

theorem RunsAt.ok_dead {E : Session → Session → Prop} {k : Bool} {α : Type} {x : Op α} {a : α} (h : RunsAt b E k x s)
    (hx : x s = .ok a t) : t.ses.dead = s.ses.dead := by
  obtain ⟨es, he⟩ := (h.of_ok hx).1.leaves
  rcases he.outcome with ⟨-, h, -⟩ | ⟨_, -, -, h, -⟩
  · exact h
  · cases h

theorem guardError_mode {s : State} {g : GuardArgs} (h : guardError s g = none) :
    s.ses.dead = false ∧ modeError s.ses g.mode = none := (guardError_eq_none.1 h).2.2.2.2

theorem guardError_flashStep {s : State} {st : FlashState} (hd : s.ses.dead = false) (hf : s.ses.flash.state = st) :
    guardError s { mode := .flashStep st } = none := by
  simp [guardError, hd, modeError, hf]

/-- After an erase that returned, the next steps' guards pass. -/
theorem opErase_ok_guard {sl : Nat} {r : FlashRange} {v : Value} (h : opErase sl r s = .ok v t) :
    guardError t { mode := .flashStep .programming } = none := by
  have hd := (runs_opErase (b := false) sl r s rfl (by simp)).ok_dead h
  have hg : guardError s { slave := sl, mode := .flashStart } = none := by
    cases hg : guardError s { slave := sl, mode := .flashStart } with
    | none => rfl
    | some e => unfold opErase at h; rw [guard_bind_refuse hg] at h; cases h
  exact guardError_flashStep (hd.trans (guardError_mode hg).1) (by rw [(opErase_ok h).2])

theorem opProgram_ok_guard {image : List Byte} {v : Value} (h : opProgram image s = .ok v t)
    (hd : s.ses.dead = false) : guardError t { mode := .flashStep .programming } = none := by
  have := (runs_opProgram (b := false) (fun _ _ h => h) image s rfl (by simp)).ok_dead h
  exact guardError_flashStep (this.trans hd) (by rw [(opProgram_ok h).2.2, (opProgram_ok h).2.1])

theorem opFinalize_ok_guard {v : Value} (h : opFinalize s = .ok v t)
    (hd : s.ses.dead = false) : guardError t { mode := .flashStep .rebooting } = none := by
  have := (runs_opFinalize (b := false) (fun _ _ h => h) s rfl (by simp)).ok_dead h
  exact guardError_flashStep (this.trans hd) (by rw [(opFinalize_ok h).2.2])

/-- The steps of a composite after its erase: program, finalize, and a last one. -/
def flashRest (image : List Byte) (last : Op Unit) : Op Value :=
  opProgram image >>= fun _ => opFinalize >>= fun _ => last >>= fun _ => pure .unit

theorem opFlash_eq (sl : Nat) (r : FlashRange) (image : List Byte) :
    opFlash sl r image s = (opErase sl r >>= fun _ => flashRest image (opReboot >>= fun _ => pure ())) s := by
  unfold opFlash flashRest
  cases h1 : opErase sl r s with
  | error e u => rw [Op.bind_error h1, Op.bind_error h1]
  | ok v u =>
    rw [Op.bind_ok h1, Op.bind_ok h1]
    cases h2 : opProgram image u with
    | error e u => rw [Op.bind_error h2, Op.bind_error h2]
    | ok v u =>
      rw [Op.bind_ok h2, Op.bind_ok h2]
      cases h3 : opFinalize u with
      | error e u => rw [Op.bind_error h3, Op.bind_error h3]
      | ok v u =>
        rw [Op.bind_ok h3, Op.bind_ok h3]
        cases h4 : opReboot u with
        | error e u => rw [Op.bind_error h4, Op.bind_error (Op.bind_error h4)]
        | ok v u => rw [Op.bind_ok h4, Op.bind_ok (a := ()) (t := u) (by rw [Op.bind_ok h4]; rfl)]

theorem opWriteManufacturingData_pass {sl : Nat} {r : Record}
    (h : guardError s { slave := sl, record := r, mode := .flashStart } = none) :
    opWriteManufacturingData sl r s =
      (opErase sl .manufacturingData >>= fun _ => flashRest (encodeRecord s.cfg r) (finishMFD s.cfg.mfdReboot)) s :=
  guard_bind_pass h _

/-- What the last step of a composite does: a reboot, or the flash state `Done`. -/
structure LastStep (last : Op Unit) : Prop where
  runs : ∀ s : State, ∀ b : Bool, (b = true → s.ses.sel = false) → RunsAt b (Rebooting s.ses.flash.slave) false last s
  ok : ∀ s t, guardError s { mode := .flashStep .rebooting } = none → last s = .ok () t →
    t.ses.flash = { s.ses.flash with state := .done }
  error : ∀ s e t, guardError s { mode := .flashStep .rebooting } = none → last s = .error e t →
    t.ses.flash = { s.ses.flash with state := .failed }

theorem lastStep_reboot : LastStep (opReboot >>= fun _ => pure ()) where
  runs s b hk := (runsAt_opReboot hk).bind fun _ t _ _ hk' => Runs.pure () t rfl hk'
  ok s t _ h := by
    obtain ⟨_, u, h1, h2⟩ := Op.bind_eq_ok h
    cases h2
    exact (opReboot_ok h1).2.2.1
  error s e t hg h := by
    rcases Op.bind_eq_error h with h | ⟨_, _, _, h2⟩
    · rcases opReboot_error h with ⟨h, -⟩ | ⟨-, h⟩
      · rw [hg] at h; cases h
      · exact h
    · cases h2

theorem lastStep_finishMFD (m : Bool) : LastStep (finishMFD m) := by
  cases m
  · refine ⟨fun s b hk => ?_, fun s t _ h => ?_, fun s e t _ h => ?_⟩
    · exact runs_setFlashState (p := s.params) (E := Rebooting s.ses.flash.slave) (fun _ _ h => .inl h) .done s rfl hk
    · cases h; rfl
    · cases h
  · exact lastStep_reboot

/-- The steps of a composite after its erase edit the flash state, and the entry of the session's slave. -/
theorem runsAt_flashRest {image : List Byte} {last : Op Unit} (hl : LastStep last) (hk : b = true → s.ses.sel = false) :
    RunsAt b (Rebooting s.ses.flash.slave) false (flashRest image last) s := by
  have h1 := runs_opProgram (b := b) (E := FlashStateOnly) (fun _ _ h => h) image s rfl hk
  refine (h1.mono fun _ _ h => .inl h).bind fun _ t ht _ hk' => ?_
  have e1 : t.ses.flash.slave = s.ses.flash.slave := by rw [(h1.of_ok ht).1.flash_target]
  have h2 := runs_opFinalize (b := b) (E := FlashStateOnly) (fun _ _ h => h) t rfl hk'
  refine (h2.mono fun _ _ h => .inl h).bind fun _ u hu _ hk'' => ?_
  have e2 : u.ses.flash.slave = s.ses.flash.slave := by rw [(h2.of_ok hu).1.flash_target, ← e1]
  exact (e2 ▸ hl.runs u b hk'').bind fun _ v _ _ hkv => Runs.pure _ v rfl hkv

/-- The steps of a composite after an erase that returned: `Done`, or `Failed`. -/
theorem flashRest_result {image : List Byte} {last : Op Unit} (hl : LastStep last)
    (hg : guardError s { mode := .flashStep .programming } = none) :
    (∀ v, flashRest image last s = .ok v t → v = .unit ∧ t.ses.flash = { s.ses.flash with state := .done }) ∧
      ∀ e, flashRest image last s = .error e t → t.ses.flash = { s.ses.flash with state := .failed } := by
  have hd := (guardError_mode hg).1
  refine ⟨fun v h => ?_, fun e h => ?_⟩
  · obtain ⟨_, t1, h1, h⟩ := Op.bind_eq_ok h
    obtain ⟨_, t2, h2, h⟩ := Op.bind_eq_ok h
    obtain ⟨_, t3, h3, h⟩ := Op.bind_eq_ok h
    cases h
    have d1 := (runs_opProgram (b := false) (fun _ _ h => h) image s rfl (by simp)).ok_dead h1
    refine ⟨rfl, ?_⟩
    rw [hl.ok t2 _ (opFinalize_ok_guard h2 (d1.trans hd)) h3, (opFinalize_ok h2).2.2, (opProgram_ok h1).2.2]
  · rcases Op.bind_eq_error h with h | ⟨_, t1, h1, h⟩
    · rcases opProgram_error h with ⟨h, -⟩ | ⟨-, h⟩
      · rw [hg] at h; cases h
      · exact h
    have d1 := (runs_opProgram (b := false) (fun _ _ h => h) image s rfl (by simp)).ok_dead h1
    rcases Op.bind_eq_error h with h | ⟨_, t2, h2, h⟩
    · rcases opFinalize_error h with ⟨h, -⟩ | ⟨-, h⟩
      · rw [opProgram_ok_guard h1 hd] at h; cases h
      · rw [h, (opProgram_ok h1).2.2]
    rcases Op.bind_eq_error h with h | ⟨_, t3, h3, h⟩
    · rw [hl.error t2 e _ (opFinalize_ok_guard h2 (d1.trans hd)) h, (opFinalize_ok h2).2.2, (opProgram_ok h1).2.2]
    · cases h

/-- A composite of the flash engine: an erase, then the rest. -/
theorem composite_result {sl : Nat} {r : FlashRange} {image : List Byte} {last : Op Unit} (hl : LastStep last)
    (hg : guardError s { slave := sl, mode := .flashStart } = none) :
    (∀ v, (opErase sl r >>= fun _ => flashRest image last) s = .ok v t →
      v = .unit ∧ t.ses.flash = ⟨.done, slaveId sl, r⟩) ∧
    ∀ e, (opErase sl r >>= fun _ => flashRest image last) s = .error e t → t.ses.flash = ⟨.failed, slaveId sl, r⟩ := by
  refine ⟨fun v h => ?_, fun e h => ?_⟩
  · obtain ⟨_, t1, h1, h⟩ := Op.bind_eq_ok h
    obtain ⟨rfl, h'⟩ := (flashRest_result hl (opErase_ok_guard h1)).1 v h
    exact ⟨rfl, by rw [h', (opErase_ok h1).2]⟩
  · rcases Op.bind_eq_error h with h | ⟨_, t1, h1, h⟩
    · rcases opErase_error h with ⟨h, -⟩ | ⟨-, h⟩
      · rw [hg] at h; cases h
      · exact h
    · rw [(flashRest_result hl (opErase_ok_guard h1)).2 e h, (opErase_ok h1).2]

end Sys2Proof.Machine
end

