-- ==== Sys2Proof/Laws/OpLands.lean ====
section
/-! SUPPORT. Host operations whose exchanges are all answered, computed exactly (spec/41_register_bus.md R99–R106,
spec/42_bulk_port.md R114–R117, spec/43_bus_scanner.md R125–R130, spec/44_flash_engine.md R136–R146). -/

namespace Sys2Proof.Machine

variable {α β : Type} {s : State} {u v : Session} {es fs : List Event} {c : Cfg} {power : Bool}

/-! ## Downloads (44_flash_engine.md R138) -/

theorem does_download_left (sl : SlaveId) (a : Byte) {left : Nat} {ws : List Word16}
    {rs : List Frame} {ys : List Txn} (h : rs.length = (ws.take left).length)
    (hy : Does c power (download c sl a 0 (ws.drop left)) ys ()) :
    Does c power (download c sl a left ws) (writeTxns c power sl .sport a (ws.take left) rs ++ ys) () := by
  induction left generalizing ws rs with
  | zero =>
    simp only [List.take_zero, List.length_nil, List.length_eq_zero_iff] at h
    subst h
    exact hy
  | succ left ih =>
    cases ws with
    | nil =>
      simp only [List.take_nil, List.length_nil, List.length_eq_zero_iff] at h
      subst h
      simpa [writeTxns, download] using hy
    | cons w ws =>
      cases rs with
      | nil => simp at h
      | cons r rs =>
        simp only [List.take_succ_cons, List.length_cons, Nat.add_right_cancel_iff] at h
        exact (does_regWr sl .sport a w r).bind (ih h (by simpa using hy))

/-- The start of a burst: the wait for room, then the words of the burst. -/
theorem download_burst (hB : 1 ≤ c.burstWords) (sl : SlaveId) (a : Byte) {ws : List Word16} (hw : ws ≠ []) (s : State) :
    download c sl a 0 ws s =
      ((if c.flowControl then awaitRoom c c.fifoBudget else pure ()) >>= fun _ => download c sl a c.burstWords ws) s := by
  obtain ⟨w, ws, rfl⟩ := List.exists_cons_of_ne_nil hw
  obtain ⟨n, hn⟩ : ∃ n, c.burstWords = n + 1 := ⟨c.burstWords - 1, by omega⟩
  rw [hn]
  simp only [download, hn, Nat.add_sub_cancel]
  split <;> rfl

theorem Does.congr {x y : Op α} {xs : List Txn} {a : α} (h : ∀ s, x s = y s) (hy : Does c power y xs a) :
    Does c power x xs a := fun s hc hp hs hw => by
  obtain ⟨q, hq⟩ := hy s hc hp hs hw
  exact ⟨q, by rw [h, hq]⟩

theorem Fails.congr {x y : Op α} {xs : List Txn} {e : Err} (h : ∀ s, x s = y s) (hy : Fails c power y xs e) :
    Fails c power x xs e := fun s hc hp hs hw => by
  obtain ⟨q, hq⟩ := hy s hc hp hs hw
  exact ⟨q, by rw [h, hq]⟩

theorem ceil_step {m B : Nat} (hB : 1 ≤ B) (hm : 0 < m) : (m + B - 1) / B = (m - B + B - 1) / B + 1 := by
  rw [show m + B - 1 = (m - 1) + B by omega, Nat.add_div_right _ (by omega)]
  congr 1
  by_cases h : B ≤ m
  · congr 1
    omega
  · rw [Nat.div_eq_of_lt (by omega), Nat.div_eq_of_lt (by omega)]

/-- A whole download, burst by burst. -/
theorem does_download (hB : 1 ≤ c.burstWords) (sl : SlaveId) (a : Byte) (ws : List Word16)
    (bursts : List (List Frame × List Frame)) (k : Nat)
    (hl : bursts.length = (ws.length - k * c.burstWords + c.burstWords - 1) / c.burstWords)
    (hb : ∀ x ∈ bursts.zipIdx k, x.1.2.length = (burstAt c ws x.2).length ∧
      (if c.flowControl then RoomLast c x.1.1 else x.1.1 = [])) :
    Does c power (download c sl a 0 (ws.drop (k * c.burstWords)))
      ((bursts.zipIdx k).flatMap fun x => burstTxns c power sl a (burstAt c ws x.2) x.1.1 x.1.2) () := by
  induction bursts generalizing k with
  | nil =>
    have : ws.length - k * c.burstWords = 0 := by
      by_contra hne
      have h1 : 1 ≤ (ws.length - k * c.burstWords + c.burstWords - 1) / c.burstWords :=
        (Nat.one_le_div_iff (by omega)).2 (by omega)
      simp at hl
      omega
    rw [List.drop_eq_nil_of_le (by omega)]
    exact Does.pure ()
  | cons x bursts ih =>
    have hne : ws.drop (k * c.burstWords) ≠ [] := by
      intro hnil
      have : ws.length - k * c.burstWords = 0 := by
        have := List.drop_eq_nil_iff.1 hnil
        omega
      rw [this, Nat.zero_add, Nat.div_eq_of_lt (by omega)] at hl
      simp at hl
    have hlen : 0 < ws.length - k * c.burstWords := by
      have := List.length_pos_iff.2 hne
      simpa using this
    refine Does.congr (download_burst hB sl a hne) ?_
    have hx := hb (x, k) (by simp)
    have hmul : (k + 1) * c.burstWords = k * c.burstWords + c.burstWords := Nat.succ_mul _ _
    have ih' := ih (k + 1) (by
      rw [List.length_cons, ceil_step hB hlen] at hl
      rw [hmul, Nat.sub_add_eq]
      omega) fun y hy => hb y (by rw [List.zipIdx_cons]; exact List.mem_cons_of_mem _ hy)
    rw [hmul, ← List.drop_drop] at ih'
    rw [List.zipIdx_cons, List.flatMap_cons, burstTxns, List.append_assoc]
    refine Does.bind (a := ()) ?_ (does_download_left sl a hx.1 ih')
    split at hx
    · rename_i hf
      obtain ⟨hn, init, last, he, hi, hl⟩ := hx.2
      simp only [hf, if_true]
      exact does_awaitRoom hn he hi hl
    · rename_i hf
      have h0 : x.1 = [] := hx.2
      simp only [hf, h0]
      exact Does.pure ()

/-- A download whose first wait for room runs out (44_flash_engine.md R139). -/
theorem fails_download (hB : 1 ≤ c.burstWords) (sl : SlaveId) (a : Byte) {ws : List Word16} (hw : ws ≠ [])
    (hf : c.flowControl = true) {rs : List Frame} (hl : rs.length = c.fifoBudget)
    (hi : ∀ r ∈ rs, maskSet (respWord c r) c.fifoHalfFullMask = true) :
    Fails c power (download c sl a 0 ws)
      (readTxns c power c.bcSlave .busCtrl (rs.map fun _ => c.aFifoStatus) (rs.map fun r => [r]))
      (.busTimeout c.bcSlave .busCtrl c.aFifoStatus c.fifoBudget) := by
  refine Fails.congr (download_burst hB sl a hw) ?_
  simp only [hf, if_true]
  have := fails_awaitRoom (c := c) (power := power) hi
  rw [hl] at this
  exact this.bind _

/-! ## Runs inside an operation -/

/-- A state later in a run, with the session u up to the position: a variable, so that sessions do not pile up. -/
structure Later (s : State) (u : Session) (t : State) : Prop where
  params : t.params = s.params
  ses : ∃ q, t.ses = { u with pc := q }

theorem Later.cfg {t : State} (h : Later s u t) : t.cfg = s.cfg := congrArg Params.cfg h.params

theorem Later.trans {t t' : State} (h : Later s u t) (h' : Later t t.ses t') : Later s u t' := by
  obtain ⟨q, hq⟩ := h.ses
  obtain ⟨q', hq'⟩ := h'.ses
  exact ⟨h'.params.trans h.params, q', by rw [hq', hq]⟩

theorem Does.lands {x : Op α} {xs : List Txn} {a : α} (h : Does s.cfg s.ses.power x xs a) (hs : s.ses.sel = false)
    (hw : s.willAnswer (answersOf xs)) : Lands x s (eventsOf xs) s.ses a := h s rfl rfl hs hw

theorem Fails.raises {x : Op α} {xs : List Txn} {e : Err} (h : Fails s.cfg s.ses.power x xs e) (hs : s.ses.sel = false)
    (hw : s.willAnswer (answersOf xs)) : Raises x s (eventsOf xs) s.ses e := h s rfl rfl hs hw

theorem Lands.onError {x : Op α} {a : α} (h : Lands x s es u a) (f : Err → State → State) :
    Lands (onError x f) s es u a := by
  obtain ⟨q, hq⟩ := h
  exact ⟨q, onError_ok hq f⟩

theorem Lands.congr {x y : Op α} {a : α} (h : x s = y s) (hy : Lands y s es u a) : Lands x s es u a := by
  obtain ⟨q, hq⟩ := hy
  exact ⟨q, by rw [h, hq]⟩

theorem Raises.congr {x y : Op α} {e : Err} (h : x s = y s) (hy : Raises y s es u e) : Raises x s es u e := by
  obtain ⟨q, hq⟩ := hy
  exact ⟨q, by rw [h, hq]⟩

theorem Lands.guard {g : GuardArgs} {k : Unit → Op α} {a : α} (h : guardError s g = none) (hk : Lands (k ()) s es u a) :
    Lands (guard g >>= k) s es u a := Lands.congr (guard_bind_pass h k) hk

theorem Raises.guard {g : GuardArgs} {k : Unit → Op α} {e : Err} (h : guardError s g = none)
    (hk : Raises (k ()) s es u e) : Raises (guard g >>= k) s es u e := Raises.congr (guard_bind_pass h k) hk

theorem Lands.get {k : State → Op α} {a : α} (hk : Lands (k s) s es u a) : Lands ((get : Op State) >>= k) s es u a := hk

theorem Raises.get {k : State → Op α} {e : Err} (hk : Raises (k s) s es u e) :
    Raises ((get : Op State) >>= k) s es u e := hk

/-- An edit of the session, then the rest. -/
theorem Lands.edit (g : Session → Session) {k : Unit → Op α} {a : α}
    (hk : ∀ t : State, t.params = s.params → t.ses = g s.ses → (∀ rs, s.willAnswer rs → t.willAnswer rs) →
      Lands (k ()) t es u a) :
    Lands (Machine.update (fun t : State => t.withSes (g t.ses)) >>= k) s es u a := by
  obtain ⟨q, hq⟩ := hk (s.after [] (g s.ses)) rfl rfl fun rs h => State.willAnswer.after (xs := []) h rfl
  refine ⟨q, ?_⟩
  rw [Op.update_bind, show s.withSes (g s.ses) = s.after [] (g s.ses) by
    simp [State.after, framePairs, Bus.replay, State.withSes], hq, State.after_after]
  rfl

theorem Raises.edit (g : Session → Session) {k : Unit → Op α} {e : Err}
    (hk : ∀ t : State, t.params = s.params → t.ses = g s.ses → (∀ rs, s.willAnswer rs → t.willAnswer rs) →
      Raises (k ()) t es u e) :
    Raises (Machine.update (fun t : State => t.withSes (g t.ses)) >>= k) s es u e := by
  obtain ⟨q, hq⟩ := hk (s.after [] (g s.ses)) rfl rfl fun rs h => State.willAnswer.after (xs := []) h rfl
  refine ⟨q, ?_⟩
  rw [Op.update_bind, show s.withSes (g s.ses) = s.after [] (g s.ses) by
    simp [State.after, framePairs, Bus.replay, State.withSes], hq, State.after_after]
  rfl

/-- A notification, then the rest. -/
theorem Lands.note (kd : NoteKind) (n : NoteOp) {k : Unit → Op α} {a : α}
    (hk : ∀ t : State, t.params = s.params → t.ses = s.ses → (∀ rs, s.willAnswer rs → t.willAnswer rs) →
      Lands (k ()) t es u a) : Lands (Machine.note kd n >>= k) s (.note kd n :: es) u a := by
  obtain ⟨q, hq⟩ := hk (s.after [.note kd n] s.ses) rfl rfl fun rs h => State.willAnswer.after (xs := []) h rfl
  exact ⟨q, by
    rw [show (Machine.note kd n >>= k) s = k () (s.after [.note kd n] s.ses) from rfl, hq, State.after_after]; rfl⟩

theorem Raises.note (kd : NoteKind) (n : NoteOp) {k : Unit → Op α} {e : Err}
    (hk : ∀ t : State, t.params = s.params → t.ses = s.ses → (∀ rs, s.willAnswer rs → t.willAnswer rs) →
      Raises (k ()) t es u e) : Raises (Machine.note kd n >>= k) s (.note kd n :: es) u e := by
  obtain ⟨q, hq⟩ := hk (s.after [.note kd n] s.ses) rfl rfl fun rs h => State.willAnswer.after (xs := []) h rfl
  exact ⟨q, by
    rw [show (Machine.note kd n >>= k) s = k () (s.after [.note kd n] s.ses) from rfl, hq, State.after_after]; rfl⟩

/-- Transactions, then the rest, from a state they lead to. -/
theorem Does.bind_lands {x : Op α} {f : α → Op β} {xs ys : List Txn} {a : α} {d : β}
    (h : Does c power x xs a) (hc : s.cfg = c) (hp : s.ses.power = power) (hs : s.ses.sel = false)
    (hw : s.willAnswer (answersOf (xs ++ ys)))
    (hf : ∀ t, Later s s.ses t → t.willAnswer (answersOf ys) → Lands (f a) t fs v d) :
    Lands (x >>= f) s (eventsOf xs ++ fs) v d := by
  rw [answersOf_append] at hw
  exact (h s hc hp hs hw.left).bind fun q => hf _ ⟨rfl, q, rfl⟩ (hw.after (framePairs_eventsOf_length xs))

/-- Transactions, then a rest that sends nothing. -/
theorem Lands.bind_quiet {x : Op α} {f : α → Op β} {a : α} {d : β} (h : Lands x s es u a)
    (hf : ∀ t, Later s u t → Lands (f a) t fs v d) : Lands (x >>= f) s (es ++ fs) v d :=
  h.bind fun q => hf _ ⟨rfl, q, rfl⟩

theorem Later.does {t : State} {x : Op α} {xs : List Txn} {a : α} (hl : Later s s.ses t)
    (h : Does s.cfg s.ses.power x xs a) (hs : s.ses.sel = false) (hw : t.willAnswer (answersOf xs)) :
    Lands x t (eventsOf xs) t.ses a := by
  obtain ⟨q, hq⟩ := hl.ses
  exact h t hl.cfg (by rw [hq]) (by rw [hq, ← hs]) hw

/-- `guard` reads nothing of the position. -/
@[simp] theorem guardError_enter (op : OpName) (g : GuardArgs) : guardError (s.enter op) g = guardError s g := rfl

theorem willAnswer_enter {op : OpName} {rs : List Frame} (h : s.willAnswer rs) : (s.enter op).willAnswer rs := h

/-- The session a run lands in matters up to the position. -/
theorem Lands.upto {x : Op α} {a : α} (h : Lands x s es u a) (huv : ∀ q, ({ u with pc := q } : Session) = { v with pc := q }) :
    Lands x s es v a := by
  obtain ⟨q, hq⟩ := h
  exact ⟨q, by rw [hq, huv]⟩

theorem Raises.upto {x : Op α} {e : Err} (h : Raises x s es u e)
    (huv : ∀ q, ({ u with pc := q } : Session) = { v with pc := q }) : Raises x s es v e := by
  obtain ⟨q, hq⟩ := h
  exact ⟨q, by rw [hq, huv]⟩

/-! ## Register bus -/

theorem lands_setInfo (i : SlaveId) (x : SlaveInfo) (s : State) :
    Lands (update (fun t => t.setInfo i (some x)) >>= fun _ => (pure (.info x) : Op Value)) s []
      (s.ses.setEntry i { s.ses.entry i with info := some x }) (.info x) :=
  Lands.edit (fun u => u.setEntry i { u.entry i with info := some x }) fun t _ ht _ => ht ▸ Lands.pure _ t

theorem slave_le_of_guard {g : GuardArgs} {n : Nat} (h : guardError s g = none) (hg : g.slave = some n) : n ≤ 7 :=
  (guardError_eq_none.1 h).1 n hg

theorem does_readText (sl : SlaveId) (base : Byte) {rss : List (List Frame)} {ws : List Word16} (hl : ws.length = 8)
    (hr : rss.map (sportRead c) = ws.map some) :
    ∃ t : Text16, t.chars = ws.flatMap (fun w => [hi w, lo w]) ∧
      Does c power (readText sl base) (readTxns c power sl .sport ((List.range 8).map (addrAt base)) rss) t := by
  have hl' : rss.length = 8 := by simpa [hl] using congrArg List.length hr
  match ws, hl, rss, hl' with
  | [w0, w1, w2, w3, w4, w5, w6, w7], _, [r0, r1, r2, r3, r4, r5, r6, r7], _ =>
    simp only [List.map_cons, List.map_nil, List.cons.injEq, and_true] at hr
    obtain ⟨h0, h1, h2, h3, h4, h5, h6, h7⟩ := hr
    refine ⟨Text16.ofWords w0 w1 w2 w3 w4 w5 w6 w7, rfl, ?_⟩
    exact (does_regRdS sl _ h0).bind ((does_regRdS sl _ h1).bind ((does_regRdS sl _ h2).bind
      ((does_regRdS sl _ h3).bind ((does_regRdS sl _ h4).bind ((does_regRdS sl _ h5).bind
      ((does_regRdS sl _ h6).bind ((does_regRdS sl _ h7).bind (Does.pure _))))))))

theorem readTxns_append (ch : Channel) (sl : SlaveId) {as bs : List Byte} {rs ts : List (List Frame)}
    (h : as.length = rs.length) :
    readTxns c power sl ch (as ++ bs) (rs ++ ts) = readTxns c power sl ch as rs ++ readTxns c power sl ch bs ts :=
  List.zipWith_append h

/-- The nineteen reads of `getSlaveInfo` (R106). -/
theorem lands_opGetSlaveInfo {sl : Nat} {rss : List (List Frame)} {ws : List Word16}
    (hg : guardError s { slave := sl } = none) (hs : s.ses.sel = false) (hl : ws.length = 19)
    (hr : rss.map (sportRead s.cfg) = ws.map some)
    (hw : s.willAnswer (answersOf (readTxns s.cfg s.ses.power (slaveId sl) .sport (infoAddrs s.cfg) rss))) :
    ∃ i : SlaveInfo, i.boardType.chars = (ws.take 8).flatMap (fun w => [hi w, lo w]) ∧
      i.boardNumber.chars = ((ws.drop 8).take 8).flatMap (fun w => [hi w, lo w]) ∧
      ws.drop 16 = [i.featureId, i.bugfixId, ws.getD 18 0] ∧ i.portCount = (ws.getD 18 0).extractLsb' 0 4 ∧
      Lands (opGetSlaveInfo sl) s (eventsOf (readTxns s.cfg s.ses.power (slaveId sl) .sport (infoAddrs s.cfg) rss))
        (s.ses.setEntry (slaveId sl) { s.ses.entry (slaveId sl) with info := some i }) (.info i) := by
  have hl' : rss.length = 19 := by simpa [hl] using congrArg List.length hr
  have hr1 : (rss.take 8).map (sportRead s.cfg) = (ws.take 8).map some := by rw [List.map_take, hr, List.map_take]
  have hr2 : ((rss.drop 8).take 8).map (sportRead s.cfg) = ((ws.drop 8).take 8).map some := by
    rw [List.map_take, List.map_drop, hr, List.map_take, List.map_drop]
  have hr3 : (rss.drop 16).map (sportRead s.cfg) = (ws.drop 16).map some := by rw [List.map_drop, hr, List.map_drop]
  obtain ⟨bt, hbt, d1⟩ := does_readText (power := s.ses.power) (slaveId sl) s.cfg.aBoardType (by simp [hl]) hr1
  obtain ⟨bn, hbn, d2⟩ := does_readText (power := s.ses.power) (slaveId sl) s.cfg.aBoardNumber (by simp [hl]) hr2
  have hsplit : rss = rss.take 8 ++ ((rss.drop 8).take 8 ++ rss.drop 16) := by
    rw [show rss.drop 16 = (rss.drop 8).drop 8 by simp, List.take_append_drop, List.take_append_drop]
  have htx : readTxns s.cfg s.ses.power (slaveId sl) .sport (infoAddrs s.cfg) rss =
      readTxns s.cfg s.ses.power (slaveId sl) .sport ((List.range 8).map (addrAt s.cfg.aBoardType)) (rss.take 8) ++
      (readTxns s.cfg s.ses.power (slaveId sl) .sport ((List.range 8).map (addrAt s.cfg.aBoardNumber))
        ((rss.drop 8).take 8) ++
      readTxns s.cfg s.ses.power (slaveId sl) .sport [s.cfg.aFeatureId, s.cfg.aBugfixId, s.cfg.aPortCount]
        (rss.drop 16)) := by
    rw [← readTxns_append _ _ (by simp [hl']), ← readTxns_append _ _ (by simp [hl']), ← hsplit, infoAddrs,
      List.append_assoc]
  have h3 : (ws.drop 16).length = 3 := by simp [hl]
  have h3' : (rss.drop 16).length = 3 := by simp [hl']
  have hlast : ws.getD 18 0 = (ws.drop 16).getD 2 0 := by simp [List.getD_eq_getElem?_getD]
  rw [hlast]
  match hws : ws.drop 16, h3, hrs : rss.drop 16, h3' with
  | [fe, bf, pc], _, [rf, rb, rp], _ =>
    rw [hws, hrs] at hr3
    simp only [List.map_cons, List.map_nil, List.cons.injEq, and_true] at hr3
    obtain ⟨g1, g2, g3⟩ := hr3
    refine ⟨⟨bt, bn, fe, bf, portCountOf pc⟩, hbt, hbn, rfl, rfl, ?_⟩
    rw [hrs] at htx
    rw [htx] at hw ⊢
    have h3t : readTxns s.cfg s.ses.power (slaveId sl) .sport [s.cfg.aFeatureId, s.cfg.aBugfixId, s.cfg.aPortCount]
        [rf, rb, rp] =
        [(registerFrame s.cfg ⟨s.ses.power, slaveId sl, false, .sport, s.cfg.aFeatureId, 0⟩, rf)] ++
        ([(registerFrame s.cfg ⟨s.ses.power, slaveId sl, false, .sport, s.cfg.aBugfixId, 0⟩, rb)] ++
        [(registerFrame s.cfg ⟨s.ses.power, slaveId sl, false, .sport, s.cfg.aPortCount, 0⟩, rp)]) := rfl
    rw [h3t] at hw ⊢
    rw [eventsOf_append, eventsOf_append, eventsOf_append, eventsOf_append]
    refine Lands.guard hg (Lands.get ?_)
    have next : ∀ {t : State}, Later s s.ses t → t.cfg = s.cfg ∧ t.ses.power = s.ses.power ∧ t.ses.sel = false := by
      intro t ht
      obtain ⟨q, hq⟩ := ht.ses
      exact ⟨ht.cfg, by rw [hq], by rw [hq]; exact hs⟩
    refine d1.bind_lands rfl rfl hs hw fun t1 l1 hw => ?_
    refine d2.bind_lands (next l1).1 (next l1).2.1 (next l1).2.2 hw fun t2 l2 hw => ?_
    have l2 := l1.trans l2
    refine Does.bind_lands (ys := [_] ++ [_]) (does_regRdS _ _ g1) (next l2).1 (next l2).2.1 (next l2).2.2 hw
      fun t3 l3 hw => ?_
    have l3 := l2.trans l3
    refine Does.bind_lands (ys := [_]) (does_regRdS _ _ g2) (next l3).1 (next l3).2.1 (next l3).2.2 hw
      fun t4 l4 hw => ?_
    have l4 := l3.trans l4
    rw [← List.append_nil (eventsOf [(_, rp)])]
    refine (does_regRdS _ _ g3 t4 (next l4).1 (next l4).2.1 (next l4).2.2 hw).bind_quiet fun t5 l5 => ?_
    obtain ⟨q, hq⟩ := (l4.trans l5).ses
    exact (lands_setInfo _ _ t5).upto fun _ => by rw [hq]; rfl

end Sys2Proof.Machine
end

