-- ==== Sys2Proof/Laws/FlashLands.lean ====
section
/-! SUPPORT. The flash engine, the scanner, the exchange and the manufacturing-data operations whose exchanges are all
answered, computed exactly (spec/42_bulk_port.md R114–R117, spec/43_bus_scanner.md R125–R130, spec/44_flash_engine.md
R136–R146, spec/45_mfd.md R150). -/

namespace Sys2Proof.Machine

variable {α β : Type} {s : State} {u v : Session} {es fs : List Event} {c : Cfg} {power : Bool}

/-! ## Register bus -/

theorem lands_opWriteRegister {sl ch a : Nat} {w : Word16} {r : Frame}
    (hg : guardError s { slave := sl, channel := ch, regChannel := true, addr := a } = none) (hs : s.ses.sel = false)
    (hw : s.willAnswer [r]) :
    Lands (opWriteRegister sl ch a w) s
      (eventsOf [(registerFrame s.cfg ⟨s.ses.power, slaveId sl, true, if ch = sportIndex then .sport else .busCtrl,
        addrByte a, w⟩, [r])]) s.ses .unit := by
  refine Lands.guard hg ?_
  split
  · exact ((does_regWr _ _ _ _ r).lands hs (by simpa [answersOf] using hw)).map fun _ => Value.unit
  · exact ((does_regWr _ _ _ _ r).lands hs (by simpa [answersOf] using hw)).map fun _ => Value.unit

theorem lands_opReadRegister_sport {sl a : Nat} {rxs : List Frame} {w : Word16}
    (hg : guardError s { slave := sl, channel := (2 : Nat), regChannel := true, addr := a } = none)
    (hs : s.ses.sel = false) (hr : sportRead s.cfg rxs = some w) (hw : s.willAnswer rxs) :
    Lands (opReadRegister sl 2 a) s
      (eventsOf [(registerFrame s.cfg ⟨s.ses.power, slaveId sl, false, .sport, addrByte a, 0⟩, rxs)]) s.ses (.word w) :=
  Lands.guard hg (((does_regRdS _ _ hr).lands hs (by simpa [answersOf] using hw)).map Value.word)

theorem raises_opReadRegister {sl a : Nat} {setup : Frame} {bad : List Frame}
    (hg : guardError s { slave := sl, channel := (2 : Nat), regChannel := true, addr := a } = none)
    (hs : s.ses.sel = false) (hn : bad.length = s.cfg.readBudget) (hb : ∀ p ∈ bad, respValid s.cfg p = false)
    (hw : s.willAnswer (setup :: bad)) :
    Raises (opReadRegister sl 2 a) s
      (eventsOf [(registerFrame s.cfg ⟨s.ses.power, slaveId sl, false, .sport, addrByte a, 0⟩, setup :: bad)]) s.ses
      (.busTimeout (slaveId sl) .sport (addrByte a) s.cfg.readBudget) :=
  Raises.guard hg (((fails_regRdS _ _ hn hb).raises hs (by simpa [answersOf] using hw)).bind fun v => pure (Value.word v))

theorem lands_opReadRegister_busCtrl {sl a : Nat} {r : Frame}
    (hg : guardError s { slave := sl, channel := (3 : Nat), regChannel := true, addr := a } = none)
    (hs : s.ses.sel = false) (hw : s.willAnswer [r]) :
    Lands (opReadRegister sl 3 a) s
      (eventsOf [(registerFrame s.cfg ⟨s.ses.power, slaveId sl, false, .busCtrl, addrByte a, 0⟩, [r])]) s.ses
      (.word (respWord s.cfg r)) :=
  Lands.guard hg (((does_regRdB _ _ r).lands hs (by simpa [answersOf] using hw)).map Value.word)

/-! ## Scanner -/

theorem lands_markEnabled (i : SlaveId) (s : State) :
    Lands (update (fun t => t.markEnabled i) >>= fun _ => (pure .unit : Op Value)) s []
      (s.ses.setEntry i { s.ses.entry i with enabled := true }) .unit :=
  Lands.edit (fun u => u.setEntry i { u.entry i with enabled := true }) fun t _ ht _ => ht ▸ Lands.pure _ t

theorem lands_opEnable {sl : Nat} {rs : List Frame} (hg : guardError s { slave := sl } = none) (hs : s.ses.sel = false)
    (hl : rs.length = 4)
    (hw : s.willAnswer rs) :
    Lands (opEnable sl) s
      (eventsOf (writeTxns s.cfg s.ses.power (slaveId sl) .sport s.cfg.aEnableStatus s.cfg.vEnableSeq.toList rs))
      (s.ses.setEntry (slaveId sl) { s.ses.entry (slaveId sl) with enabled := true }) .unit := by
  have hlen : rs.length = s.cfg.vEnableSeq.toList.length := by simp [hl]
  have ha : answersOf (writeTxns s.cfg s.ses.power (slaveId sl) .sport s.cfg.aEnableStatus s.cfg.vEnableSeq.toList rs)
      = rs := answersOf_writeTxns hlen
  refine Lands.guard hg (Lands.get ?_)
  rw [← List.append_nil (eventsOf _)]
  refine ((does_writeWords _ _ _ hlen).lands hs (by rw [ha]; exact hw)).bind_quiet fun t l => ?_
  obtain ⟨q, hq⟩ := l.ses
  exact (lands_markEnabled _ t).upto fun _ => by rw [hq]; rfl

/-- The rest of a scan whose status word showed scan-done. -/
theorem lands_scanDone (c : Cfg) (st : Word16) (s : State) :
    Lands (update (fun t => t.withSes (t.ses.scanDone (presenceOf c st) st)) >>= fun _ =>
        note .completed .scan >>= fun _ => (pure (.scan (presenceOf c st) st) : Op Value)) s
      [.note .completed .scan] (s.ses.scanDone (presenceOf c st) st) (.scan (presenceOf c st) st) :=
  Lands.edit (fun u => u.scanDone (presenceOf c st) st) fun _ _ ht _ =>
    Lands.note _ _ fun t' _ ht' _ => ht ▸ ht' ▸ Lands.pure _ t'

theorem Raises.throw (e : Err) (s : State) : Raises (throw e : Op α) s [] s.ses e :=
  ⟨s.ses.pc, by rw [show ({ s.ses with pc := s.ses.pc } : Session) = s.ses from rfl, State.after_nil]; rfl⟩

/-- The rest of a scan whose budget ran out. -/
theorem raises_scanLost (n : Nat) (s : State) :
    Raises (update (fun t => t.withSes t.ses.scanLost) >>= fun _ =>
        note .timedOut .scan >>= fun _ => (throw (.scanTimeout n) : Op Value)) s
      [.note .timedOut .scan] s.ses.scanLost (.scanTimeout n) :=
  Raises.edit (fun u => u.scanLost) fun _ _ ht _ =>
    Raises.note _ _ fun t' _ ht' _ => ht ▸ ht' ▸ Raises.throw _ t'

theorem lands_opScan {n : Nat} {rs init : List Frame} {last : Frame} (hg : guardError s { } = none)
    (hs : s.ses.sel = false) (hl : rs.length = 3) (hn : init.length + 1 ≤ n)
    (hi : ∀ r ∈ init, maskSet (respWord s.cfg r) s.cfg.scanDoneMask = false)
    (hd : maskSet (respWord s.cfg last) s.cfg.scanDoneMask = true) (hw : s.willAnswer (rs ++ (init ++ [last]))) :
    Lands (opScan n) s
      (.note .started .scan :: (eventsOf (writeTxns s.cfg s.ses.power s.cfg.bcSlave .busCtrl s.cfg.aScanCtrl
          (scanWords s.cfg) rs ++ readTxns s.cfg s.ses.power s.cfg.bcSlave .busCtrl
          ((init ++ [last]).map fun _ => s.cfg.aScanStatus) ((init ++ [last]).map fun r => [r])) ++
        [.note .completed .scan]))
      (s.ses.scanDone (presenceOf s.cfg (respWord s.cfg last)) (respWord s.cfg last))
      (.scan (presenceOf s.cfg (respWord s.cfg last)) (respWord s.cfg last)) := by
  have ha : answersOf (writeTxns s.cfg s.ses.power s.cfg.bcSlave .busCtrl s.cfg.aScanCtrl (scanWords s.cfg) rs) = rs :=
    answersOf_writeTxns (by simp [hl, scanWords])
  have hb : answersOf (readTxns s.cfg s.ses.power s.cfg.bcSlave .busCtrl
      ((init ++ [last]).map fun _ => s.cfg.aScanStatus) ((init ++ [last]).map fun r => [r])) = init ++ [last] := by
    rw [answersOf_readTxns (by simp), ← List.flatMap_def]
    simp
  refine Lands.guard hg (Lands.note _ _ fun t hp ht hwt => Lands.get ?_)
  have hc : t.cfg = s.cfg := congrArg Params.cfg hp
  rw [hc]
  have d1 := does_writeWords (c := s.cfg) (power := s.ses.power) (rs := rs) s.cfg.bcSlave .busCtrl s.cfg.aScanCtrl
    (ws := scanWords s.cfg) (by simp [hl, scanWords])
  have d2 := does_pollScan (c := s.cfg) (power := s.ses.power) hn hi hd
  revert d1 d2 ha hb
  generalize writeTxns s.cfg s.ses.power s.cfg.bcSlave .busCtrl s.cfg.aScanCtrl (scanWords s.cfg) rs = xs
  generalize readTxns s.cfg s.ses.power s.cfg.bcSlave .busCtrl ((init ++ [last]).map fun _ => s.cfg.aScanStatus)
    ((init ++ [last]).map fun r => [r]) = ys
  intro ha hb d1 d2
  rw [eventsOf_append, List.append_assoc]
  refine d1.bind_lands (ys := ys) hc (by rw [ht]) (by rw [ht]; exact hs)
    (by rw [answersOf_append, ha, hb]; exact hwt _ hw) fun t1 l1 hw1 => ?_
  obtain ⟨q1, hq1⟩ := l1.ses
  rw [ht] at hq1
  refine (d2 t1 (l1.cfg.trans hc) (by rw [hq1])
    (by rw [hq1]; exact hs) hw1).bind_quiet fun t2 l2 => ?_
  obtain ⟨q2, hq2⟩ := l2.ses
  exact (lands_scanDone _ _ t2).upto fun _ => by rw [hq2, hq1]; rfl

theorem raises_opScan {rs polls : List Frame} (hg : guardError s { } = none) (hs : s.ses.sel = false)
    (hl : rs.length = 3) (hi : ∀ r ∈ polls, maskSet (respWord s.cfg r) s.cfg.scanDoneMask = false)
    (hw : s.willAnswer (rs ++ polls)) :
    Raises (opScan polls.length) s
      (.note .started .scan :: (eventsOf (writeTxns s.cfg s.ses.power s.cfg.bcSlave .busCtrl s.cfg.aScanCtrl
          (scanWords s.cfg) rs ++ readTxns s.cfg s.ses.power s.cfg.bcSlave .busCtrl
          (polls.map fun _ => s.cfg.aScanStatus) (polls.map fun r => [r])) ++ [.note .timedOut .scan]))
      s.ses.scanLost (.scanTimeout polls.length) := by
  have ha : answersOf (writeTxns s.cfg s.ses.power s.cfg.bcSlave .busCtrl s.cfg.aScanCtrl (scanWords s.cfg) rs) = rs :=
    answersOf_writeTxns (by simp [hl, scanWords])
  have hb : answersOf (readTxns s.cfg s.ses.power s.cfg.bcSlave .busCtrl
      (polls.map fun _ => s.cfg.aScanStatus) (polls.map fun r => [r])) = polls := by
    rw [answersOf_readTxns (by simp), ← List.flatMap_def]
    simp
  refine Raises.guard hg (Raises.note _ _ fun t hp ht hwt => Raises.get ?_)
  have hc : t.cfg = s.cfg := congrArg Params.cfg hp
  rw [hc]
  rw [eventsOf_append, List.append_assoc]
  have hwt := hwt _ hw
  refine Lands.bind_raises ((does_writeWords (c := s.cfg) (power := s.ses.power) (rs := rs) _ _ _ (by simp [hl, scanWords]))
    t hc (by rw [ht]) (by rw [ht]; exact hs) (by rw [ha]; exact hwt.left)) fun q => ?_
  have hw1 : (t.after (eventsOf (writeTxns s.cfg s.ses.power s.cfg.bcSlave .busCtrl s.cfg.aScanCtrl (scanWords s.cfg) rs))
      { t.ses with pc := q }).willAnswer polls := hwt.after (by rw [framePairs_eventsOf_length, ha])
  generalize hT : t.after _ _ = t1 at hw1 ⊢
  have hq1 : t1.ses = { s.ses with pc := q } := by rw [← hT, State.after_ses, ht]
  have hc1 : t1.cfg = s.cfg := by rw [← hT]; exact hc
  refine Lands.bind_raises ((does_pollScan_none (c := s.cfg) (power := s.ses.power) hi) t1 hc1 (by rw [hq1])
    (by rw [hq1]; exact hs) (by rw [hb]; exact hw1)) fun q' => ?_
  refine (raises_scanLost _ _).upto fun _ => ?_
  rw [State.after_ses, hq1]
  rfl

/-! ## Flash engine -/

/-- Notes the end of a step. -/
theorem lands_stepDone (f : FlashState) (n : NoteOp) (s : State) :
    Lands (update (fun t => t.setFlashState f) >>= fun _ => note .completed n >>= fun _ => (pure .unit : Op Value)) s
      [.note .completed n] { s.ses with flash := { s.ses.flash with state := f } } .unit :=
  Lands.edit (fun u => { u with flash := { u.flash with state := f } }) fun _ _ ht _ =>
    Lands.note _ _ fun t' _ ht' _ => ht ▸ ht' ▸ Lands.pure _ t'

theorem does_eraseFrames {sl : SlaveId} {r : FlashRange} {xs : List Txn} (hx : EraseTxns c power sl r xs) :
    Does c power (eraseFrames c sl r) xs () := by
  obtain ⟨rs, rss, ws, h8, hr, hs, rfl⟩ := hx
  exact (does_writeWords _ _ _ (by simp [h8])).bind (does_pollStatus _ _ _ _ _ _ hr hs)

theorem lands_opErase {sl : Nat} {r : FlashRange} {xs : List Txn}
    (hg : guardError s { slave := sl, mode := .flashStart } = none) (hs : s.ses.sel = false)
    (hx : EraseTxns s.cfg s.ses.power (slaveId sl) r xs) (hw : s.willAnswer (answersOf xs)) :
    Lands (opErase sl r) s (.note .started .erase :: (eventsOf xs ++ [.note .completed .erase]))
      { s.ses with flash := ⟨.programming, slaveId sl, r⟩ } .unit := by
  refine Lands.guard hg ?_
  refine Lands.edit (fun u => { u with flash := ⟨.erasing, slaveId sl, r⟩ }) fun t hp ht hwt => ?_
  refine Lands.note _ _ fun t' hp' ht' hwt' => Lands.get ?_
  have hc : t'.cfg = s.cfg := congrArg Params.cfg (hp'.trans hp)
  have hses : t'.ses = { s.ses with flash := ⟨.erasing, slaveId sl, r⟩ } := ht'.trans ht
  rw [hc]
  have hl := (does_eraseFrames hx) t' hc (by rw [hses]) (by rw [hses]; exact hs) (hwt' _ (hwt _ hw))
  refine (hl.onError _).bind_quiet fun t'' l => ?_
  obtain ⟨q, hq⟩ := l.ses
  exact (lands_stepDone _ _ t'').upto fun _ => by rw [hq, hses]

theorem does_program {image : List Byte} {sl : SlaveId} {r : FlashRange} {xs : List Txn} (hB : 1 ≤ c.burstWords)
    (hx : ProgramTxns c power sl r image xs) :
    Does c power (download c sl (rangeParams c r).download 0 (imageWords c.imagePad image)) xs () := by
  obtain ⟨bursts, hl, hb, rfl⟩ := hx
  have := does_download (power := power) hB sl (rangeParams c r).download (imageWords c.imagePad image) bursts 0
    (by simpa using hl) hb
  simpa using this

theorem lands_opProgram {image : List Byte} {xs : List Txn}
    (hg : guardError s { mode := .flashStep .programming } = none) (hs : s.ses.sel = false)
    (hx : ProgramTxns s.cfg s.ses.power s.ses.flash.slave s.ses.flash.range image xs)
    (hw : s.willAnswer (answersOf xs)) :
    Lands (opProgram image) s (eventsOf xs) s.ses .unit := by
  have hB : 1 ≤ s.cfg.burstWords := s.params.admissible.2.2.2.2.2.2.2.2.2.2.2.2.2.2.2.2.1
  exact Lands.guard hg (Lands.get ((((does_program hB hx).lands hs hw).onError _).map fun _ => Value.unit))

theorem does_finalizeFrames {sl : SlaveId} {r : FlashRange} {xs : List Txn} (hx : FinalizeTxns c power sl r xs) :
    Does c power (finalizeFrames c sl r) xs () := by
  obtain ⟨rx, rss, ws, hr, hs, rfl⟩ := hx
  exact (does_regWr _ _ _ _ rx).bind (does_pollStatus _ _ _ _ _ _ hr hs)

theorem lands_opFinalize {xs : List Txn} (hg : guardError s { mode := .flashStep .programming } = none)
    (hs : s.ses.sel = false) (hx : FinalizeTxns s.cfg s.ses.power s.ses.flash.slave s.ses.flash.range xs)
    (hw : s.willAnswer (answersOf xs)) :
    Lands opFinalize s (.note .started .finalize :: (eventsOf xs ++ [.note .completed .finalize]))
      { s.ses with flash := { s.ses.flash with state := .rebooting } } .unit := by
  refine Lands.guard hg (Lands.get ?_)
  refine Lands.edit (fun u => { u with flash := { u.flash with state := .finalizing } }) fun t hp ht hwt => ?_
  refine Lands.note _ _ fun t' hp' ht' hwt' => ?_
  have hc : t'.cfg = s.cfg := congrArg Params.cfg (hp'.trans hp)
  have hses : t'.ses = { s.ses with flash := { s.ses.flash with state := .finalizing } } := ht'.trans ht
  have hl := (does_finalizeFrames hx) t' hc (by rw [hses]) (by rw [hses]; exact hs) (hwt' _ (hwt _ hw))
  refine (hl.onError _).bind_quiet fun t'' l => ?_
  obtain ⟨q, hq⟩ := l.ses
  exact (lands_stepDone _ _ t'').upto fun _ => by rw [hq, hses]

theorem lands_rebooted (i : SlaveId) (s : State) :
    Lands (update (fun t => t.rebooted i) >>= fun _ => (pure .unit : Op Value)) s []
      { s.ses.setEntry i { s.ses.entry i with enabled := false, info := none } with
        flash := { s.ses.flash with state := .done } } .unit :=
  Lands.edit (fun u => { u.setEntry i { u.entry i with enabled := false, info := none } with
    flash := { u.flash with state := .done } }) fun t _ ht _ => ht ▸ Lands.pure _ t

theorem lands_opReboot {xs : List Txn} (hg : guardError s { mode := .flashStep .rebooting } = none)
    (hs : s.ses.sel = false) (hx : RebootTxns s.cfg s.ses.power s.ses.flash.slave s.ses.flash.range xs)
    (hw : s.willAnswer (answersOf xs)) :
    Lands opReboot s (eventsOf xs)
      { s.ses.setEntry s.ses.flash.slave { s.ses.entry s.ses.flash.slave with enabled := false, info := none } with
        flash := { s.ses.flash with state := .done } } .unit := by
  obtain ⟨rs, h8, rfl⟩ := hx
  refine Lands.guard hg (Lands.get ?_)
  have hl := (does_writeWords (c := s.cfg) (power := s.ses.power) (rs := rs) s.ses.flash.slave .sport
    (rangeParams s.cfg s.ses.flash.range).ctrl (ws := s.cfg.vUnlockReboot.toList ++ [s.cfg.vRebootReq])
    (by simp [h8])).lands hs hw
  rw [← List.append_nil (eventsOf _)]
  refine (hl.onError _).bind_quiet fun t l => ?_
  obtain ⟨q, hq⟩ := l.ses
  exact (lands_rebooted _ t).upto fun _ => by rw [hq]; rfl

end Sys2Proof.Machine
end

