-- ==== Sys2Proof/Laws/CompositeLands.lean ====
section
/-! SUPPORT. The composites of the flash engine and the bulk port exchange whose exchanges are all answered, computed exactly
(spec/42_bulk_port.md R114–R117, spec/44_flash_engine.md R146, spec/45_mfd.md R150). -/

namespace Sys2Proof.Machine

variable {α β : Type} {s : State} {u v : Session} {es fs : List Event} {c : Cfg} {power : Bool}

/-! ## Composites -/

/-- A run that takes answers, then the rest, from a state it leads to. -/
theorem Lands.bind_answers {x : Op α} {f : α → Op β} {a : α} {d : β} {rs rs' : List Frame} (h : Lands x s es u a)
    (hl : (framePairs es).length = rs.length) (hw : s.willAnswer (rs ++ rs'))
    (hf : ∀ t, Later s u t → t.willAnswer rs' → Lands (f a) t fs v d) : Lands (x >>= f) s (es ++ fs) v d :=
  h.bind fun q => hf _ ⟨rfl, q, rfl⟩ (hw.after hl)

theorem framePairs_notedEvents (n : NoteOp) (xs : List Txn) :
    (framePairs (notedEvents n xs)).length = (answersOf xs).length := by
  simp [notedEvents, framePairs, framePairs_append, framePairs_eventsOf_length]

/-- The last step of a composite lands: a reboot, or no frame at all. -/
structure LastLands (last : Op Unit) (c : Cfg) (power : Bool) (sl : SlaveId) (r : FlashRange) (xs : List Txn)
    (fin : Session → Session) : Prop where
  lands : ∀ s : State, s.cfg = c → s.ses.power = power → s.ses.sel = false → s.ses.dead = false →
    s.ses.flash = ⟨.rebooting, sl, r⟩ → s.willAnswer (answersOf xs) → Lands last s (eventsOf xs) (fin s.ses) ()

theorem lastLands_reboot {sl : SlaveId} {r : FlashRange} {xs : List Txn} (hx : RebootTxns c power sl r xs) :
    LastLands (opReboot >>= fun _ => pure ()) c power sl r xs (rebootedSession sl) := by
  refine ⟨fun s hc hp hs hd hf hw => ?_⟩
  subst hc hp
  have hf1 : s.ses.flash.slave = sl := by rw [hf]
  have hf2 : s.ses.flash.range = r := by rw [hf]
  subst hf1 hf2
  exact (lands_opReboot (guardError_flashStep hd (by rw [hf])) hs hx hw).map fun _ => ()

theorem lastLands_done {sl : SlaveId} {r : FlashRange} :
    LastLands (finishMFD false) c power sl r [] (fun u => { u with flash := { u.flash with state := .done } }) :=
  ⟨fun s _ _ _ _ _ _ => Lands.update (fun u => { u with flash := { u.flash with state := .done } }) s⟩

/-- A composite: erase, program, finalize, and its last step. -/
theorem lands_composite {sl : Nat} {r : FlashRange} {image : List Byte} {last : Op Unit} {x1 x2 x3 x4 : List Txn}
    {fin : Session → Session} (hg : guardError s { slave := sl, mode := .flashStart } = none) (hs : s.ses.sel = false)
    (h1 : EraseTxns s.cfg s.ses.power (slaveId sl) r x1) (h2 : ProgramTxns s.cfg s.ses.power (slaveId sl) r image x2)
    (h3 : FinalizeTxns s.cfg s.ses.power (slaveId sl) r x3)
    (h4 : LastLands last s.cfg s.ses.power (slaveId sl) r x4 fin)
    (hfin : ∀ u q q', ({ fin { u with pc := q } with pc := q' } : Session) = { fin u with pc := q' })
    (hw : s.willAnswer (answersOf (x1 ++ (x2 ++ (x3 ++ x4))))) :
    Lands (opErase sl r >>= fun _ => flashRest image last) s
      (notedEvents .erase x1 ++ (eventsOf x2 ++ (notedEvents .finalize x3 ++ eventsOf x4)))
      (fin { s.ses with flash := ⟨.rebooting, slaveId sl, r⟩ }) .unit := by
  have hd := (guardError_mode hg).1
  rw [answersOf_append, answersOf_append, answersOf_append] at hw
  refine (lands_opErase hg hs h1 hw.left).bind_answers (framePairs_notedEvents _ _) hw fun t1 l1 hw1 => ?_
  obtain ⟨q1, hq1⟩ := l1.ses
  have hc1 := l1.cfg
  have h2' : ProgramTxns t1.cfg t1.ses.power t1.ses.flash.slave t1.ses.flash.range image x2 := by
    rw [hc1, hq1]; exact h2
  refine (lands_opProgram (guardError_flashStep (by rw [hq1]; exact hd) (by rw [hq1])) (by rw [hq1]; exact hs) h2'
    hw1.left).bind_answers (framePairs_eventsOf_length _) hw1 fun t2 l2 hw2 => ?_
  obtain ⟨q2, hq2⟩ : ∃ q, t2.ses = { s.ses with flash := ⟨.programming, slaveId sl, r⟩, pc := q } := by
    obtain ⟨q, hq⟩ := l2.ses
    exact ⟨q, by rw [hq, hq1]⟩
  have hc2 := l2.cfg.trans hc1
  have h3' : FinalizeTxns t2.cfg t2.ses.power t2.ses.flash.slave t2.ses.flash.range x3 := by
    rw [hc2, hq2]; exact h3
  refine (lands_opFinalize (guardError_flashStep (by rw [hq2]; exact hd) (by rw [hq2])) (by rw [hq2]; exact hs) h3'
    hw2.left).bind_answers (framePairs_notedEvents _ _) hw2 fun t3 l3 hw3 => ?_
  obtain ⟨q3, hq3⟩ : ∃ q, t3.ses = { s.ses with flash := ⟨.rebooting, slaveId sl, r⟩, pc := q } := by
    obtain ⟨q, hq⟩ := l3.ses
    exact ⟨q, by rw [hq, hq2]⟩
  have hc3 := l3.cfg.trans hc2
  refine ((h4.lands t3 hc3 (by rw [hq3]) (by rw [hq3]; exact hs) (by rw [hq3]; exact hd) (by rw [hq3]) hw3).map
    fun _ => Value.unit).upto fun q => ?_
  rw [hq3]
  exact hfin { s.ses with flash := ⟨.rebooting, slaveId sl, r⟩ } q3 q

theorem rebootedSession_pc (sl : SlaveId) (u : Session) (q q' : SeqPos) :
    ({ rebootedSession sl { u with pc := q } with pc := q' } : Session) = { rebootedSession sl u with pc := q' } := rfl

theorem lands_opFlash {sl : Nat} {r : FlashRange} {image : List Byte} {x1 x2 x3 x4 : List Txn}
    (hg : guardError s { slave := sl, mode := .flashStart } = none) (hs : s.ses.sel = false)
    (h1 : EraseTxns s.cfg s.ses.power (slaveId sl) r x1) (h2 : ProgramTxns s.cfg s.ses.power (slaveId sl) r image x2)
    (h3 : FinalizeTxns s.cfg s.ses.power (slaveId sl) r x3) (h4 : RebootTxns s.cfg s.ses.power (slaveId sl) r x4)
    (hw : s.willAnswer (answersOf (x1 ++ (x2 ++ (x3 ++ x4))))) :
    Lands (opFlash sl r image) s
      (notedEvents .erase x1 ++ (eventsOf x2 ++ (notedEvents .finalize x3 ++ eventsOf x4)))
      (rebootedSession (slaveId sl) { s.ses with flash := ⟨.rebooting, slaveId sl, r⟩ }) .unit :=
  Lands.congr (opFlash_eq sl r image) (lands_composite hg hs h1 h2 h3 (lastLands_reboot h4)
    (rebootedSession_pc _) hw)

theorem guardError_flashStart {sl : Nat} {r : Record}
    (h : guardError s { slave := sl, record := r, mode := .flashStart } = none) :
    guardError s { slave := sl, mode := .flashStart } = none := by
  rw [guardError_eq_none] at h ⊢
  exact ⟨h.1, by simp, by simp, by simp, h.2.2.2.2⟩

theorem lands_opWriteManufacturingData {sl : Nat} {r : Record} {x1 x2 x3 x4 : List Txn}
    (hg : guardError s { slave := sl, record := r, mode := .flashStart } = none) (hs : s.ses.sel = false)
    (h1 : EraseTxns s.cfg s.ses.power (slaveId sl) .manufacturingData x1)
    (h2 : ProgramTxns s.cfg s.ses.power (slaveId sl) .manufacturingData (encodeRecord s.cfg r) x2)
    (h3 : FinalizeTxns s.cfg s.ses.power (slaveId sl) .manufacturingData x3)
    (h4 : if s.cfg.mfdReboot then RebootTxns s.cfg s.ses.power (slaveId sl) .manufacturingData x4 else x4 = [])
    (hw : s.willAnswer (answersOf (x1 ++ (x2 ++ (x3 ++ x4))))) :
    Lands (opWriteManufacturingData sl r) s
      (notedEvents .erase x1 ++ (eventsOf x2 ++ (notedEvents .finalize x3 ++ eventsOf x4)))
      (if s.cfg.mfdReboot then
        rebootedSession (slaveId sl) { s.ses with flash := ⟨.rebooting, slaveId sl, .manufacturingData⟩ }
      else { s.ses with flash := ⟨.done, slaveId sl, .manufacturingData⟩ }) .unit := by
  refine Lands.congr (opWriteManufacturingData_pass hg) ?_
  cases hm : s.cfg.mfdReboot with
  | true =>
    simp only [hm, if_true] at h4 ⊢
    exact lands_composite (guardError_flashStart hg) hs h1 h2 h3 (lastLands_reboot h4) (rebootedSession_pc _) hw
  | false =>
    simp only [hm] at h4 ⊢
    have h4 : x4 = [] := h4
    subst h4
    exact lands_composite (guardError_flashStart hg) hs h1 h2 h3 lastLands_done (fun _ _ _ => rfl) hw

/-! ## Bulk port exchange (42_bulk_port.md R114–R117) -/

theorem lands_flushFrames (sl : SlaveId) {rs : List Frame} {n : Nat} (hn : rs.length = n) (s : State)
    (hw : s.willAnswer rs) : Lands (flushFrames sl n) s (rs.map (.frame (s.flushFrame sl))) s.ses rs := by
  subst hn
  induction rs generalizing s with
  | nil => exact Lands.pure _ s
  | cons r rs ih =>
    refine Lands.get (lands_xchg hw fun q hq => ?_)
    exact ((ih _ hq).upto fun _ => rfl).map fun rs => r :: rs

theorem lands_exchangeFrames (sl : SlaveId) {r1 r2 : Frame} {rs : List Frame} (hn : rs.length = s.cfg.lag)
    (hw : s.willAnswer (r1 :: r2 :: rs)) :
    Lands (exchangeFrames sl) s
      (.frame (s.portFrame sl .zero) r1 :: .frame (s.portFrame sl .one) r2 :: rs.map (.frame (s.flushFrame sl)))
      s.ses (r1 :: r2 :: rs) := by
  refine Lands.get (lands_xchg hw fun q hq => Lands.get ?_)
  refine (lands_xchg (s := s.after _ _) hq fun q' hq' => ?_).upto fun _ => rfl
  exact ((lands_flushFrames sl hn _ hq').upto fun _ => rfl).map fun rs => r1 :: r2 :: rs

/-- A body under one chip select whose last step deselects and edits the session. -/
theorem Lands.selected {x : Op α} {fin : State → State} {g : Session → Session} {a : α}
    (hfin : ∀ X : State, fin X = X.after [.select false] (g X.ses))
    (hg : ∀ u q q', ({ g { u with pc := q } with pc := q' } : Session) = { g u with pc := q' })
    (h : ∀ T : State, T.params = s.params → T.ses = { s.ses with sel := true } →
      (∀ rs, s.willAnswer rs → T.willAnswer rs) → Lands x T es u a) :
    Lands (Machine.update State.sel >>= fun _ => withFinally x fin) s (.select true :: (es ++ [.select false])) (g u) a := by
  obtain ⟨q, hq⟩ := h (s.after [.select true] { s.ses with sel := true }) rfl rfl
    fun rs hw => State.willAnswer.after (xs := []) hw rfl
  rw [State.after_after] at hq
  refine ⟨(g { u with pc := q }).pc, ?_⟩
  rw [Op.update_bind, show s.sel = s.after [.select true] { s.ses with sel := true } from rfl, withFinally_ok hq, hfin,
    State.after_after, ← hg u q]
  rfl

theorem lands_exchangeBody (sl : SlaveId) {r1 r2 : Frame} {rs : List Frame} (hn : rs.length = s.cfg.lag)
    (hw : s.willAnswer (r1 :: r2 :: rs)) :
    Lands (exchangeBody sl) s
      (.frame (s.portFrame sl .zero) r1 :: .frame (s.portFrame sl .one) r2 :: rs.map (.frame (s.flushFrame sl)))
      { s.ses with errSummary := some (respErr s.cfg ((r1 :: r2 :: rs).getD (1 + s.cfg.lag) [])) }
      (.ports (respPortBytes s.cfg ((r1 :: r2 :: rs).getD s.cfg.lag []))
        (respPortBytes s.cfg ((r1 :: r2 :: rs).getD (1 + s.cfg.lag) []))
        (respErr s.cfg ((r1 :: r2 :: rs).getD (1 + s.cfg.lag) []))) := by
  have h := (lands_exchangeFrames sl hn hw).bind_quiet (fs := [])
    (f := fun rs' => (do
      let s ← get
      let err := respErr s.cfg (rs'.getD (1 + s.cfg.lag) [])
      update (fun t => t.withSes { t.ses with errSummary := some err })
      return .ports (respPortBytes s.cfg (rs'.getD s.cfg.lag [])) (respPortBytes s.cfg (rs'.getD (1 + s.cfg.lag) [])) err
      : Op Value))
    (v := { s.ses with errSummary := some (respErr s.cfg ((r1 :: r2 :: rs).getD (1 + s.cfg.lag) [])) })
    (d := .ports (respPortBytes s.cfg ((r1 :: r2 :: rs).getD s.cfg.lag []))
        (respPortBytes s.cfg ((r1 :: r2 :: rs).getD (1 + s.cfg.lag) []))
        (respErr s.cfg ((r1 :: r2 :: rs).getD (1 + s.cfg.lag) []))) (fun t l => ?_)
  · rw [List.append_nil] at h
    exact h
  · obtain ⟨q, hq⟩ := l.ses
    refine Lands.get ?_
    rw [l.cfg]
    refine (Lands.edit (fun u => { u with errSummary := some (respErr s.cfg ((r1 :: r2 :: rs).getD (1 + s.cfg.lag) [])) })
      fun t' _ ht' _ => ht' ▸ Lands.pure _ t').upto fun _ => ?_
    rw [hq]

theorem lands_opExchange {sl : Nat} {p0 p1 : Option PortBytes} {r1 r2 : Frame} {rs : List Frame}
    (hg : guardError s { slave := sl } = none) (hn : rs.length = s.cfg.lag)
    (h0 : s.ses.pendWr0 = false) (h1 : s.ses.pendWr1 = false) (hw : s.willAnswer (r1 :: r2 :: rs)) :
    Lands (opExchange sl p0 p1) s
      (.select true :: ((.frame (portLayoutFrame s.cfg s.ses.power (slaveId sl) .zero (p0.map unbe32)) r1 ::
        .frame (portLayoutFrame s.cfg s.ses.power (slaveId sl) .one (p1.map unbe32)) r2 ::
        rs.map (.frame (portLayoutFrame s.cfg s.ses.power (slaveId sl) .one none))) ++ [.select false]))
      (exchangedSession s.ses (slaveId sl) p0 p1 (respErr s.cfg ((r1 :: r2 :: rs).getD (1 + s.cfg.lag) [])))
      (.ports (respPortBytes s.cfg ((r1 :: r2 :: rs).getD s.cfg.lag []))
        (respPortBytes s.cfg ((r1 :: r2 :: rs).getD (1 + s.cfg.lag) []))
        (respErr s.cfg ((r1 :: r2 :: rs).getD (1 + s.cfg.lag) []))) := by
  refine Lands.guard hg ?_
  refine Lands.edit (fun u => (({ u with curSlave := slaveId sl } : Session).request .zero p0).request .one p1)
    fun t hp ht hwt => ?_
  have hc : t.cfg = s.cfg := congrArg Params.cfg hp
  have begun : ∃ u : Session, u = (({ s.ses with curSlave := slaveId sl } : Session).request .zero p0).request .one p1 :=
    ⟨_, rfl⟩
  obtain ⟨u, hu⟩ := begun
  rw [exchangedSession, ← hu]
  refine (Lands.selected (u :=
    { u with sel := true, errSummary := some (respErr s.cfg ((r1 :: r2 :: rs).getD (1 + s.cfg.lag) [])) }) (g := fun u =>
    { u with pendWr0 := false, pendWr1 := false, sel := false, pc := u.pc.nextTxn }) (fun _ => rfl) (fun _ _ _ => rfl) fun T hpT hT hwT => ?_).upto
    fun _ => rfl
  rw [ht, ← hu] at hT
  have hcT : T.cfg = s.cfg := (congrArg Params.cfg hpT).trans hc
  have hb := lands_exchangeBody (s := T) (slaveId sl) (by rw [hcT]; exact hn) (hwT _ (hwt _ hw))
  have hf0 : T.portFrame (slaveId sl) .zero =
      portLayoutFrame s.cfg s.ses.power (slaveId sl) .zero (p0.map unbe32) := by
    rw [State.portFrame, hcT, hT, hu]
    cases p0 <;> cases p1 <;> simp [Session.request, Session.pending, h0]
  have hf1 : T.portFrame (slaveId sl) .one =
      portLayoutFrame s.cfg s.ses.power (slaveId sl) .one (p1.map unbe32) := by
    rw [State.portFrame, hcT, hT, hu]
    cases p0 <;> cases p1 <;> simp [Session.request, Session.pending, h1]
  have hff : T.flushFrame (slaveId sl) = portLayoutFrame s.cfg s.ses.power (slaveId sl) .one none := by
    rw [State.flushFrame, hcT, hT, hu]
    cases p0 <;> cases p1 <;> rfl
  rw [hf0, hf1, hff, hcT] at hb
  exact hb.upto fun _ => by rw [hT]

end Sys2Proof.Machine
end

