-- ==== Sys2Proof/Laws/Contract.lean ====
section
/-! SUPPORT. An SPort read while the environment keeps the FIFO contract (spec/20_memory.md R61, R63, spec/41_register_bus.md
R104): whatever is answered, it gives the value its register holds, or raises. -/

namespace Sys2Proof.Machine

variable {α : Type} {c : Cfg} {own : List Nat} {sl : SlaveId} {a : Byte} {v : Word16}

/-- x, run at s, adds the events es, none of them a `Return`, and ends at t with the outcome o. -/
structure RunsTo (x : Op α) (s : State) (es : List Event) (o : Except Err α) (t : State) : Prop where
  run : x s = match o with
    | .ok a => .ok a t
    | .error e => .error e t
  hist : t.hist = s.hist ++ es
  rets : returns es = []

/-- How a read of register a may end that holds v: with v, with no data-valid in the budget, or with a failed exchange. -/
def ReadEnds (c : Cfg) (sl : SlaveId) (a : Byte) (v : Word16) (o : Except Err Word16) : Prop :=
  o = .ok v ∨ o = .error (.busTimeout sl .sport a c.readBudget) ∨ ∃ tx, o = .error (.transportFailure tx)

/-- An SPort read frame at the target asks the FIFO and changes no register (R63). -/
theorem accept_sportRd {b : Bus} {f : Frame} {p : Bool} {d : Word16} (h : decodeFrame c f = .ok (.sportRd p sl a d)) :
    b.accept c f = { b with fifo := some (sl, a) } := by
  rw [accept_of_decode h]
  rfl

/-- The polls of a read, where every value held since the setup frame is v. -/
theorem pollValid_contract {f : Frame} {p : Bool} {d : Word16} (hf : decodeFrame c f = .ok (.sportRd p sl a d))
    (ho : sportCell sl a ∉ own) (n : Nat) (s : State) (hc : s.cfg = c) :
    ∃ es o t, RunsTo (pollValid c sl a f n) s es o t ∧ ∀ held rest, (∀ x ∈ held, x = v) → s.bus.fifo = some (sl, a) →
      s.bus.mem.get16 (sportCell sl a) = v → s.bus.keepsContract c own (some held) (es ++ rest) = true →
      ReadEnds c sl a v o := by
  induction n generalizing s with
  | zero => exact ⟨[], .error _, s, ⟨rfl, by simp, rfl⟩, fun _ _ _ _ _ _ => .inr (.inl rfl)⟩
  | succ n ih =>
    cases hn : s.bus.nextAnswer with
    | fail l =>
      exact ⟨[.txFail f], .error _, _, ⟨Op.bind_error (xchg_fail hn f), rfl, rfl⟩,
        fun _ _ _ _ _ _ => .inr (.inr ⟨_, rfl⟩)⟩
    | ok rx =>
      have hx := xchg_ok hn f
      generalize fitFrame s.cfg rx = r at hx
      cases hv : respValid c r with
      | true =>
        refine ⟨[.frame f r], .ok (respWord c r), _, ⟨(Op.bind_ok hx).trans (by simp only [hv, if_pos]; rfl), rfl, rfl⟩,
          fun held rest hh hfi hm hk => .inl ?_⟩
        simp only [List.cons_append, Bus.keepsContract, Bool.and_eq_true, contractAllows, hf] at hk
        have hr : respWord c r ∈ held := by simpa [hv, hfi, ho] using hk.1
        rw [hh _ hr]
      | false =>
        obtain ⟨es, o, t, h1, h2⟩ := ih (s.exchanged f r) hc
        refine ⟨.frame f r :: es, o, t, ⟨(Op.bind_ok hx).trans (by rw [if_neg (by simp [hv])]; exact h1.run), ?_, h1.rets⟩,
          fun held rest hh hfi hm hk => ?_⟩
        · rw [h1.hist]; simp [State.exchanged]
        · have hb : (s.exchanged f r).bus = { (s.bus.takeAnswer c) with fifo := some (sl, a) } := by
            rw [← accept_sportRd hf, ← hc]; rfl
          have hm' : (s.exchanged f r).bus.mem.get16 (sportCell sl a) = v := by rw [hb]; exact hm
          have ht : (s.bus.takeAnswer c).mem.get16 (sportCell sl a) = v := hm
          simp only [List.cons_append, Bus.keepsContract, Bool.and_eq_true, accept_sportRd hf, nextWindow, hf, hfi,
            if_pos] at hk
          rw [← hb, ht] at hk
          exact h2 _ rest (List.forall_mem_cons.2 ⟨rfl, hh⟩) (by rw [hb]) hm' hk.2

/-- A read of a register that holds v (R101, R104). -/
theorem regRdS_contract (ho : sportCell sl a ∉ own) (s : State) (hm : s.bus.mem.get16 (sportCell sl a) = v) :
    ∃ es o t, RunsTo (regRdS sl a) s es o t ∧ ∀ w rest, s.bus.keepsContract s.cfg own w (es ++ rest) = true →
      ReadEnds s.cfg sl a v o := by
  obtain ⟨hf, -⟩ := decodeFrame_registerFrame (c := s.cfg) s.ses.power sl s.params.admissible.1 a 0
  generalize hF : registerFrame s.cfg ⟨s.ses.power, sl, false, .sport, a, 0⟩ = f at hf
  have hrun : regRdS sl a s = withFinally (xchg f >>= fun _ => pollValid s.cfg sl a f s.cfg.readBudget) State.desel s.sel := by
    rw [← hF]; rfl
  cases hn : s.bus.nextAnswer with
  | fail l =>
    exact ⟨[.select true, .txFail f, .select false], .error _, _,
      ⟨hrun.trans (withFinally_error (Op.bind_error (xchg_fail (s := s.sel) hn f)) _),
        by simp [State.desel, State.exchangeFailed, State.sel], rfl⟩, fun _ _ _ => .inr (.inr ⟨_, rfl⟩)⟩
  | ok rx =>
    have hx := xchg_ok (s := s.sel) hn f
    generalize fitFrame s.sel.cfg rx = r at hx
    obtain ⟨es, o, t, h1, h2⟩ := pollValid_contract (own := own) (v := v) hf ho s.cfg.readBudget (s.sel.exchanged f r) rfl
    refine ⟨.select true :: .frame f r :: (es ++ [.select false]), o, t.desel, ⟨?_, ?_, ?_⟩, fun w rest hk => ?_⟩
    · have := (Op.bind_ok (f := fun _ => pollValid s.cfg sl a f s.cfg.readBudget) hx).trans h1.run
      rw [hrun]
      cases o with
      | ok b => exact withFinally_ok this _
      | error e => exact withFinally_error this _
    · simp [State.desel, h1.hist, State.exchanged, State.sel]
    · show returns (es ++ [.select false]) = []
      rw [returns_append, h1.rets]
      rfl
    · have hb : (s.sel.exchanged f r).bus = { (s.bus.takeAnswer s.cfg) with fifo := some (sl, a) } := accept_sportRd hf
      have hm' : (s.sel.exchanged f r).bus.mem.get16 (sportCell sl a) = v := by rw [hb]; exact hm
      simp only [List.cons_append, List.append_assoc, Bus.keepsContract, Bool.and_eq_true, accept_sportRd hf, nextWindow,
        hf] at hk
      rw [← hb, show (s.bus.takeAnswer s.cfg).mem.get16 (sportCell sl a) = v from hm] at hk
      exact h2 _ _ (by simp) (by rw [hb]) hm' hk.2

end Sys2Proof.Machine
end

