-- ==== Sys2Proof/Laws/Mfd.lean ====
section
/-! SUPPORT. Laws of the manufacturing-data codec: streams and fields, the round trip, and the read-back (spec/45_mfd.md
R147–R152). -/

namespace Sys2Proof.Machine

variable {c : Cfg} {power : Bool}

/-! ## Streams split at carriage returns (R149) -/

/-- The fields of a stream, each with its terminator. -/
def joinFields (gs : Record) : List Byte := gs.flatMap fun g => g ++ [cr]

theorem splitFields_append_cr (g rest : List Byte) (hg : cr ∉ g) :
    splitFields (g ++ cr :: rest) = (g :: (splitFields rest).1, (splitFields rest).2) := by
  induction g with
  | nil => simp [splitFields]
  | cons b g ih =>
    simp only [List.mem_cons, not_or] at hg
    simp only [List.cons_append, splitFields, ih hg.2, if_neg (Ne.symm hg.1)]

theorem splitFields_tail (rest : List Byte) (h : cr ∉ rest) : splitFields rest = ([], rest) := by
  induction rest with
  | nil => rfl
  | cons b rest ih =>
    simp only [List.mem_cons, not_or] at h
    simp only [splitFields, ih h.2, if_neg (Ne.symm h.1)]

/-- A stream put together from fields and a tail splits into them again. -/
theorem splitFields_join (gs : Record) (rest : List Byte) (hg : ∀ g ∈ gs, cr ∉ g) (hr : cr ∉ rest) :
    splitFields (joinFields gs ++ rest) = (gs, rest) := by
  induction gs with
  | nil => exact splitFields_tail rest hr
  | cons g gs ih =>
    rw [joinFields, List.flatMap_cons, List.append_assoc, List.append_assoc, List.singleton_append,
      splitFields_append_cr _ _ (hg g (by simp))]
    have := ih fun g hgm => hg g (by simp [hgm])
    rw [joinFields] at this
    rw [this]

/-- Every stream is put together from its fields and its tail. -/
theorem join_splitFields (bs : List Byte) : joinFields (splitFields bs).1 ++ (splitFields bs).2 = bs ∧
    (∀ g ∈ (splitFields bs).1, cr ∉ g) ∧ cr ∉ (splitFields bs).2 := by
  induction bs with
  | nil => exact ⟨rfl, by simp [splitFields], by simp [splitFields]⟩
  | cons b bs ih =>
    obtain ⟨h1, h2, h3⟩ := ih
    unfold splitFields
    generalize splitFields bs = p at *
    obtain ⟨fs, tail⟩ := p
    by_cases hb : b = cr
    · simp only [if_pos hb]
      refine ⟨by simp only [joinFields, List.flatMap_cons] at h1 ⊢; simp [hb, h1], ?_, h3⟩
      simpa using h2
    · simp only [if_neg hb]
      cases fs with
      | nil => exact ⟨by simpa [joinFields] using h1, by simp, by simpa [Ne.symm hb] using h3⟩
      | cons f fs =>
        refine ⟨by simp only [joinFields, List.flatMap_cons] at h1 ⊢; simp [← h1], ?_, h3⟩
        intro g hg
        rcases List.mem_cons.1 hg with rfl | hg
        · simpa [Ne.symm hb] using h2 f (by simp)
        · exact h2 g (by simp [hg])

theorem splitFields_eq {bs : List Byte} {gs : Record} {rest : List Byte} :
    splitFields bs = (gs, rest) ↔ bs = joinFields gs ++ rest ∧ (∀ g ∈ gs, cr ∉ g) ∧ cr ∉ rest := by
  constructor
  · intro h
    have := join_splitFields bs
    rw [h] at this
    exact ⟨this.1.symm, this.2⟩
  · rintro ⟨rfl, h1, h2⟩
    exact splitFields_join gs rest h1 h2

/-! ## Fields -/

theorem decodeFields_eq_some {gs r : Record} : decodeFields gs = some r ↔ gs.map decodeField = r.map some := by
  induction gs generalizing r with
  | nil => cases r <;> simp [decodeFields]
  | cons g gs ih =>
    rw [decodeFields]
    cases hg : decodeField g with
    | none => cases r <;> simp [hg]
    | some f =>
      cases hgs : decodeFields gs with
      | none =>
        cases r with
        | nil => simp
        | cons x r =>
          simp only [reduceCtorEq, List.map_cons, hg, List.cons.injEq, Option.some.injEq, false_iff, not_and]
          intro _ h
          rw [← ih, hgs] at h
          cases h
      | some fs =>
        cases r with
        | nil => simp
        | cons x r => simp only [Option.some.injEq, List.cons.injEq, List.map_cons, hg, ← ih, hgs]

/-- What `decodeMFD` makes of a stream (R149). -/
theorem decodeRecord_eq_some {bs : List Byte} {r : Record} : decodeRecord bs = some r ↔
    ∃ gs rest, bs = joinFields gs ++ rest ∧ (∀ g ∈ gs, cr ∉ g) ∧ (rest = [] ∨ rest = [0x00]) ∧ gs.length ≤ maxFields ∧
      gs.map decodeField = r.map some := by
  unfold decodeRecord
  cases hs : splitFields bs with
  | mk fs rest =>
    have hsp := splitFields_eq.1 hs
    constructor
    · intro h
      simp only at h
      split at h
      · rename_i hc
        exact ⟨fs, rest, hsp.1, hsp.2.1, hc.1, hc.2, decodeFields_eq_some.1 h⟩
      · cases h
    · rintro ⟨gs, rest', hb, hg, hr, hl, hd⟩
      have hr' : cr ∉ rest' := by rcases hr with rfl | rfl <;> decide
      have := splitFields_eq.2 ⟨hb, hg, hr'⟩
      rw [hs] at this
      cases this
      simp only
      rw [if_pos ⟨hr, hl⟩]
      exact decodeFields_eq_some.2 hd

theorem cr_not_printable : printable cr = false := by decide

theorem printable_recordByte {b : Byte} (h : printable b = true) : recordByte b = true := by
  simp [recordByte, h]

theorem printable_ne_cr {b : Byte} (h : printable b = true) : b ≠ cr := by
  rintro rfl
  rw [cr_not_printable] at h
  cases h

theorem digit_byte (d : Byte) (h : asciiDigit d = true) : (d - 0x30).toNat ≤ 9 ∧ 0x30 + (d - 0x30) = d := by
  revert d
  decide

/-- A valid field, encoded, has no terminator in it, only record bytes, and decodes back. -/
theorem encodeField_facts {numeric : List Nat} {i : Nat} {f : List Byte} (hp : f.all printable = true)
    (hn : numeric.contains i = true → canonicalNumeral f = true) :
    cr ∉ encodeField numeric i f ∧ (encodeField numeric i f).all recordByte = true ∧
      decodeField (encodeField numeric i f) = some f := by
  have plain : ∀ g : List Byte, g.all printable = true → cr ∉ g ∧ g.all recordByte = true := by
    intro g hg
    rw [List.all_eq_true] at hg
    exact ⟨fun h => printable_ne_cr (hg _ h) rfl, List.all_eq_true.2 fun b hb => printable_recordByte (hg b hb)⟩
  match f, hp, hn with
  | [], hp, _ => exact ⟨by simp [encodeField], rfl, rfl⟩
  | [d], hp, hn =>
    have hd : printable d = true := by simpa using hp
    rw [encodeField]
    split
    · rename_i hc
      have := digit_byte d (by simpa [canonicalNumeral] using hn hc)
      have hne : d - 0x30 ≠ cr := by
        intro h
        rw [h] at this
        exact absurd this.1 (by decide)
      refine ⟨fun h => hne (List.mem_singleton.1 h).symm, ?_, ?_⟩
      · rw [List.all_cons, List.all_nil, Bool.and_true, recordByte, decide_eq_true this.1]
        rfl
      rw [decodeField, if_pos this.1, this.2]
    · refine ⟨(plain [d] hp).1, (plain [d] hp).2, ?_⟩
      have : ¬ d.toNat ≤ 9 := by
        simp only [printable, Bool.and_eq_true, decide_eq_true_eq] at hd
        omega
      rw [decodeField, if_neg this, if_pos hd]
  | a :: b :: f, hp, _ =>
    refine ⟨(plain _ hp).1, (plain _ hp).2, ?_⟩
    show (if (a :: b :: f).all printable = true then _ else _) = _
    rw [if_pos hp]

/-! ## Records -/

/-- The fields of the stream of a record, without terminators. -/
def encodedFields (numeric : List Nat) (i : Nat) (r : Record) : Record :=
  (r.zipIdx i).map fun x => encodeField numeric x.2 x.1

theorem encodeFields_eq_join (numeric : List Nat) (i : Nat) (r : Record) :
    encodeFields numeric i r = joinFields (encodedFields numeric i r) := by
  induction r generalizing i with
  | nil => rfl
  | cons f r ih => simp [encodeFields, encodedFields, joinFields, ih]

theorem encodedFields_facts {numeric : List Nat} {i : Nat} {r : Record} (h : fieldsValid numeric i r = true) :
    (∀ g ∈ encodedFields numeric i r, cr ∉ g ∧ g.all recordByte = true) ∧
      (encodedFields numeric i r).map decodeField = r.map some := by
  induction r generalizing i with
  | nil => exact ⟨by simp [encodedFields], rfl⟩
  | cons f r ih =>
    simp only [fieldsValid, Bool.and_eq_true, Bool.or_eq_true, Bool.not_eq_true'] at h
    obtain ⟨⟨hp, hn⟩, hr⟩ := h
    obtain ⟨h1, h2, h3⟩ := encodeField_facts (numeric := numeric) (i := i) hp fun hc => by
      rcases hn with hn | hn
      · rw [hc] at hn; cases hn
      · exact hn
    obtain ⟨g1, g2⟩ := ih hr
    rw [show encodedFields numeric i (f :: r) = encodeField numeric i f :: encodedFields numeric (i + 1) r from rfl]
    refine ⟨fun g hg => ?_, by rw [List.map_cons, h3, g2, List.map_cons]⟩
    rcases List.mem_cons.1 hg with rfl | hg
    · exact ⟨h1, h2⟩
    · exact g1 g hg

theorem encodedFields_length (numeric : List Nat) (i : Nat) (r : Record) :
    (encodedFields numeric i r).length = r.length := by
  simp [encodedFields]

theorem validRecord_facts {r : Record} (h : validRecord c r = true) :
    r.length ≤ maxFields ∧ fieldsValid c.mfdNumeric 0 r = true := by
  simpa [validRecord] using h

/-- The stream of a record is its fields, terminated, and at most one zero. -/
theorem encodeRecord_eq (c : Cfg) (r : Record) :
    ∃ rest, encodeRecord c r = joinFields (encodedFields c.mfdNumeric 0 r) ++ rest ∧ (rest = [] ∨ rest = [0x00]) := by
  rw [encodeRecord, padEven, encodeFields_eq_join]
  split
  · exact ⟨[0x00], rfl, .inr rfl⟩
  · exact ⟨[], by simp, .inl rfl⟩

theorem encodeRecord_even (c : Cfg) (r : Record) : (encodeRecord c r).length % 2 = 0 := by
  rw [encodeRecord, padEven]
  split
  · rename_i h
    rw [List.length_append, List.length_singleton]
    omega
  · omega

/-- The round trip of the codec (R152). -/
theorem decodeRecord_encodeRecord {r : Record} (h : validRecord c r = true) :
    decodeRecord (encodeRecord c r) = some r := by
  obtain ⟨hl, hv⟩ := validRecord_facts h
  obtain ⟨h1, h2⟩ := encodedFields_facts hv
  obtain ⟨rest, he, hr⟩ := encodeRecord_eq c r
  exact decodeRecord_eq_some.2 ⟨_, rest, he, fun g hg => (h1 g hg).1, hr, by rw [encodedFields_length]; exact hl, h2⟩

/-! ## Read-back (R151, R152) -/

theorem wordBytes_imageWords (pad : Byte) {bs : List Byte} (h : bs.length % 2 = 0) :
    wordBytes (imageWords pad bs) = bs := by
  match bs, h with
  | [], _ => rfl
  | [b], h => simp at h
  | a :: b :: bs, h =>
    have := wordBytes_imageWords pad (bs := bs) (by simp at h; omega)
    rw [wordBytes] at this
    rw [imageWords, wordBytes, List.flatMap_cons, this, hi_word, lo_word]
    rfl

/-- Reads of consecutive words that end at the last one. -/
theorem does_readRecordBytes (sl : SlaveId) (base : Byte) {rss : List (List Frame)} {ws : List Word16} {last : Word16}
    {n i : Nat} {buf : List Byte} (hn : ws.length + 1 ≤ n) (hr : rss.map (sportRead c) = (ws ++ [last]).map some)
    (hc : ∀ k w, ws[k]? = some w → recordEnds (buf ++ wordBytes (ws.take (k + 1))) w = false)
    (he : recordEnds (buf ++ wordBytes (ws ++ [last])) last = true) :
    Does c power (readRecordBytes sl base n i buf)
      (readTxns c power sl .sport ((List.range' i rss.length).map (addrAt base)) rss)
      (buf ++ wordBytes (ws ++ [last])) := by
  induction ws generalizing rss n i buf with
  | nil =>
    obtain ⟨n, rfl⟩ : ∃ m, n = m + 1 := ⟨n - 1, by omega⟩
    match rss, hr with
    | [], hr => cases hr
    | _ :: _ :: _, hr => simp at hr
    | [rs], hr =>
      simp only [List.map_cons, List.map_nil, List.nil_append, List.cons.injEq, and_true] at hr
      refine ((does_regRdS sl (addrAt base i) hr).bind (ys := []) ?_ : Does c power _ ([_] ++ []) _)
      have he' : recordEnds (buf ++ [hi last, lo last]) last = true := by simpa [wordBytes] using he
      simp only [he', if_true]
      exact Does.pure _
  | cons w ws ih =>
    obtain ⟨n, rfl⟩ : ∃ m, n = m + 1 := ⟨n - 1, by simp at hn; omega⟩
    match rss, hr with
    | [], hr => cases hr
    | rs :: rss, hr =>
      simp only [List.map_cons, List.cons_append, List.cons.injEq] at hr
      refine ((does_regRdS sl (addrAt base i) hr.1).bind ?_ : Does c power _ ([_] ++ _) _)
      have h0 : recordEnds (buf ++ [hi w, lo w]) w = false := by simpa [wordBytes] using hc 0 w rfl
      simp only [h0, Bool.false_eq_true, if_false]
      have hv : buf ++ wordBytes (w :: ws ++ [last]) = (buf ++ [hi w, lo w]) ++ wordBytes (ws ++ [last]) := by
        simp [wordBytes]
      rw [hv] at he ⊢
      exact ih (rss := rss) (n := n) (i := i + 1) (buf := buf ++ [hi w, lo w]) (by simpa using hn) hr.2
        (fun k x hk => by simpa [wordBytes] using hc (k + 1) x (by simpa using hk)) he

theorem joinFields_count (gs : Record) (h : ∀ g ∈ gs, cr ∉ g) : (joinFields gs).count cr = gs.length := by
  induction gs with
  | nil => rfl
  | cons g gs ih =>
    have := ih fun g hg => h g (by simp [hg])
    rw [joinFields] at this
    rw [joinFields, List.flatMap_cons, List.count_append, List.count_append, this,
      List.count_eq_zero.2 (h g (by simp)), List.length_cons]
    simp
    omega

theorem joinFields_all (gs : Record) (h : ∀ g ∈ gs, g.all recordByte = true) : (joinFields gs).all recordByte = true := by
  rw [List.all_eq_true]
  intro b hb
  obtain ⟨g, hg, hb⟩ := List.mem_flatMap.1 hb
  rcases List.mem_append.1 hb with hb | hb
  · exact List.all_eq_true.1 (h g hg) b hb
  · rw [List.mem_singleton.1 hb]
    decide

/-- The facts of the stream of a valid record that the read-back needs. -/
theorem encodeRecord_facts {r : Record} (h : validRecord c r = true) :
    (encodeRecord c r).all recordByte = true ∧ (encodeRecord c r).count cr = r.length ∧
      ∀ x : List Byte, cr ∉ x → ((splitFields (encodeRecord c r ++ x)).1 = encodedFields c.mfdNumeric 0 r) := by
  obtain ⟨hl, hv⟩ := validRecord_facts h
  obtain ⟨h1, -⟩ := encodedFields_facts hv
  obtain ⟨rest, he, hr⟩ := encodeRecord_eq c r
  have hr' : cr ∉ rest ∧ rest.all recordByte = true := by rcases hr with rfl | rfl <;> decide
  refine ⟨?_, ?_, fun x hx => ?_⟩
  · rw [he, List.all_append, joinFields_all _ fun g hg => (h1 g hg).2, hr'.2]
    rfl
  · rw [he, List.count_append, joinFields_count _ fun g hg => (h1 g hg).1, List.count_eq_zero.2 hr'.1,
      encodedFields_length]
    rfl
  · rw [he, List.append_assoc, splitFields_join _ _ (fun g hg => (h1 g hg).1) (by simp [hr'.1, hx])]

/-- What the read-back keeps of the stream of a valid record decodes to the record. -/
theorem decodeRecord_recordCut {r : Record} (h : validRecord c r = true) {x y : List Byte} (hx : cr ∉ x)
    (hcut : (encodeRecord c r ++ y).takeWhile recordByte = encodeRecord c r ++ x) :
    decodeRecord (recordCut (encodeRecord c r ++ y)) = some r := by
  obtain ⟨hl, hv⟩ := validRecord_facts h
  obtain ⟨h1, h2⟩ := encodedFields_facts hv
  rw [recordCut, hcut, (encodeRecord_facts h).2.2 x hx,
    List.take_of_length_le (by rw [encodedFields_length]; exact hl)]
  exact decodeRecord_eq_some.2 ⟨_, [], by simp [joinFields], fun g hg => (h1 g hg).1, .inl rfl,
    by rw [encodedFields_length]; exact hl, h2⟩

/-- A word of the stream of a valid record, before the last terminator is read, does not end the read-back. -/
theorem recordEnds_false {pre : List Byte} {w : Word16} (hc : pre.count cr < maxFields)
    (hw : recordByte (hi w) = true ∧ recordByte (lo w) = true) : recordEnds pre w = false := by
  simp only [recordEnds, hw.1, hw.2, Bool.not_true, Bool.or_false, decide_eq_false_iff_not]
  omega

theorem wordBytes_append (ws vs : List Word16) : wordBytes (ws ++ vs) = wordBytes ws ++ wordBytes vs := by
  simp [wordBytes]

theorem wordBytes_length (ws : List Word16) : (wordBytes ws).length = 2 * ws.length := by
  induction ws with
  | nil => rfl
  | cons w ws ih =>
    rw [wordBytes, List.flatMap_cons, List.length_append, List.length_cons]
    rw [wordBytes] at ih
    simp [ih]
    omega

theorem wordBytes_take (ws : List Word16) (k : Nat) : ∃ z, wordBytes ws = wordBytes (ws.take k) ++ z := by
  refine ⟨wordBytes (ws.drop k), ?_⟩
  rw [← wordBytes_append, List.take_append_drop]

theorem recordByte_of_word {ws : List Word16} {w : Word16} (h : (wordBytes ws).all recordByte = true) (hw : w ∈ ws) :
    recordByte (hi w) = true ∧ recordByte (lo w) = true := by
  rw [List.all_eq_true] at h
  exact ⟨h _ (List.mem_flatMap.2 ⟨w, hw, by simp⟩), h _ (List.mem_flatMap.2 ⟨w, hw, by simp⟩)⟩

/-- The words read back of a record of fewer than 14 fields: those of its stream, and one outside the alphabet. -/
theorem reads_short {r : Record} (h : validRecord c r = true) (hl : r.length < maxFields) (pad : Byte) {w : Word16}
    (hw : recordByte (hi w) = false ∨ recordByte (lo w) = false) (hcr : hi w ≠ cr) :
    (∀ k x, (imageWords pad (encodeRecord c r))[k]? = some x →
      recordEnds (wordBytes ((imageWords pad (encodeRecord c r)).take (k + 1))) x = false) ∧
    recordEnds (wordBytes (imageWords pad (encodeRecord c r) ++ [w])) w = true ∧
    decodeRecord (recordCut (wordBytes (imageWords pad (encodeRecord c r) ++ [w]))) = some r := by
  obtain ⟨ha, hcount, -⟩ := encodeRecord_facts h
  have hb := wordBytes_imageWords pad (encodeRecord_even c r)
  generalize hW : imageWords pad (encodeRecord c r) = W at *
  refine ⟨fun k x hk => recordEnds_false ?_ (recordByte_of_word (by rw [hb]; exact ha) (List.mem_of_getElem? hk)), ?_, ?_⟩
  · obtain ⟨z, hz⟩ := wordBytes_take W (k + 1)
    rw [hb] at hz
    rw [hz, List.count_append] at hcount
    omega
  · rcases hw with hw | hw <;> simp [recordEnds, hw]
  · rw [wordBytes_append, hb]
    have htw : ∀ y, (encodeRecord c r ++ y).takeWhile recordByte = encodeRecord c r ++ y.takeWhile recordByte := by
      intro y
      rw [List.takeWhile_append_of_pos fun b hb => List.all_eq_true.1 ha b hb]
    refine decodeRecord_recordCut h (x := (wordBytes [w]).takeWhile recordByte) ?_ (htw _)
    simp only [wordBytes, List.flatMap_cons, List.flatMap_nil, List.append_nil, List.takeWhile_cons]
    cases hh : recordByte (hi w) with
    | false => simp
    | true =>
      rw [hh] at hw
      simp only [Bool.true_eq_false, false_or] at hw
      simp [hw, Ne.symm hcr]

/-- The words read back of a record of 14 fields: those of its stream, and no more. -/
theorem reads_full {r : Record} (h : validRecord c r = true) (hl : r.length = maxFields) (pad : Byte) :
    ∃ ws w, imageWords pad (encodeRecord c r) = ws ++ [w] ∧
      (∀ k x, ws[k]? = some x → recordEnds (wordBytes (ws.take (k + 1))) x = false) ∧
      recordEnds (wordBytes (ws ++ [w])) w = true ∧ decodeRecord (recordCut (wordBytes (ws ++ [w]))) = some r := by
  obtain ⟨ha, hcount, -⟩ := encodeRecord_facts h
  have hb := wordBytes_imageWords pad (encodeRecord_even c r)
  obtain ⟨rest, he, hr⟩ := encodeRecord_eq c r
  generalize hW : imageWords pad (encodeRecord c r) = W at *
  rcases List.eq_nil_or_concat W with rfl | ⟨ws, w, rfl⟩
  · rw [← hb] at hcount
    rw [hl] at hcount
    cases hcount
  · rw [List.concat_eq_append] at *
    refine ⟨ws, w, rfl, fun k x hk => recordEnds_false ?_
      (recordByte_of_word (by rw [hb]; exact ha) (List.mem_append_left _ (List.mem_of_getElem? hk))), ?_, ?_⟩
    · -- the last terminator stands in the last word
      obtain ⟨z, hz⟩ := wordBytes_take ws (k + 1)
      have hlast : cr ∈ wordBytes [w] := by
        obtain ⟨gs, g, hg⟩ : ∃ gs g, encodedFields c.mfdNumeric 0 r = gs ++ [g] := by
          rcases List.eq_nil_or_concat (encodedFields c.mfdNumeric 0 r) with h0 | ⟨gs, g, hg⟩
          · have := encodedFields_length c.mfdNumeric 0 r
            rw [h0, hl] at this
            cases this
          · exact ⟨gs, g, by simpa using hg⟩
        have hj : joinFields (encodedFields c.mfdNumeric 0 r) = (joinFields gs ++ g) ++ [cr] := by
          rw [hg, joinFields, List.flatMap_append, joinFields]
          simp
        rw [wordBytes_append, he, hj] at hb
        rcases hr with rfl | rfl
        · have h2 : wordBytes ws ++ wordBytes [w] = (wordBytes ws ++ [hi w]) ++ [lo w] := by simp [wordBytes]
          rw [h2, List.append_nil] at hb
          have := (List.append_inj' hb rfl).2
          rw [List.singleton_inj] at this
          simp [wordBytes, this]
        · have h2 : wordBytes ws ++ wordBytes [w] = (wordBytes ws ++ [hi w]) ++ [lo w] := by simp [wordBytes]
          rw [h2] at hb
          have hb1 := (List.append_inj' hb rfl).1
          have := (List.append_inj' hb1 rfl).2
          rw [List.singleton_inj] at this
          simp [wordBytes, this]
      rw [← hb, wordBytes_append, hz, List.count_append, List.count_append, hl] at hcount
      have := List.count_pos_iff.2 hlast
      omega
    · simp only [recordEnds, hb, hcount, hl, le_refl, decide_true, Bool.true_or]
    · rw [hb]
      have := decodeRecord_recordCut (c := c) h (x := []) (y := []) (by simp) (by
        rw [List.append_nil, List.takeWhile_eq_self_iff]
        exact fun b hb => List.all_eq_true.1 ha b hb)
      rwa [List.append_nil] at this

/-! ## The codec as statements name it -/

/-- The numerals of R147. -/
theorem numeral_iff (f : List Byte) : canonicalNumeral f = true ↔ Numeral f := by
  unfold Numeral
  match f with
  | [] => simp [canonicalNumeral]
  | [d] =>
    simp [canonicalNumeral, asciiDigit]
  | d :: e :: ds =>
    simp [canonicalNumeral, asciiDigit]

theorem fieldsValid_iff (num : List Nat) (k : Nat) (r : Record) : fieldsValid num k r = true ↔
    ∀ i f, r[i]? = some f → (∀ b ∈ f, 0x20 ≤ b.toNat ∧ b.toNat ≤ 0x7E) ∧ (k + i ∈ num → Numeral f) := by
  induction r generalizing k with
  | nil => simp [fieldsValid]
  | cons g gs ih =>
    simp only [fieldsValid, Bool.and_eq_true, ih]
    constructor
    · rintro ⟨⟨h1, h2⟩, h3⟩ i f hf
      cases i with
      | zero =>
        simp at hf; subst hf
        refine ⟨fun b hb => ?_, fun hk => ?_⟩
        · have := List.all_eq_true.1 h1 b hb
          simpa [printable] using this
        · rw [← numeral_iff]
          simp at hk
          simpa [hk] using h2
      | succ i =>
        have := h3 i f (by simpa using hf)
        rw [show k + (i + 1) = k + 1 + i by omega]
        exact this
    · intro h
      refine ⟨⟨?_, ?_⟩, fun i f hf => ?_⟩
      · have := (h 0 g rfl).1
        exact List.all_eq_true.2 fun b hb => by simpa [printable] using this b hb
      · have := (h 0 g rfl).2
        by_cases hk : k ∈ num
        · simp [(numeral_iff g).2 (this hk)]
        · simp [hk]
      · have := h (i + 1) f (by simpa using hf)
        rw [show k + (i + 1) = k + 1 + i by omega] at this
        exact this

/-- The records of R147. -/
theorem validRecord_iff (c : Cfg) (r : Record) : validRecord c r = true ↔ RecordOk c r := by
  unfold validRecord RecordOk
  rw [Bool.and_eq_true, fieldsValid_iff]
  simp only [maxFields, Nat.zero_add]
  exact ⟨fun h => ⟨of_decide_eq_true h.1, h.2⟩, fun h => ⟨decide_eq_true h.1, h.2⟩⟩

theorem fieldRead_iff (g f : List Byte) : FieldRead g f ↔ decodeField g = some f := by
  unfold FieldRead
  match g with
  | [] => simp [decodeField]
  | [b] =>
    by_cases hb : b.toNat ≤ 9
    · simp [decodeField, hb]; exact eq_comm
    · simp [decodeField, hb, printable]
      intros; exact eq_comm
  | a :: b :: gs =>
    simp [decodeField, printable]
    intros; exact eq_comm

/-- The streams of R149 and what they are read back as. -/
theorem streamRead_iff (bs : List Byte) (r : Record) : StreamRead bs r ↔ decodeRecord bs = some r := by
  rw [decodeRecord_eq_some]
  unfold StreamRead joinFields
  have : ∀ gs : Record, List.Forall₂ FieldRead gs r ↔ gs.map decodeField = r.map some := by
    intro gs
    induction gs generalizing r with
    | nil => cases r <;> simp
    | cons g gs ih => cases r with
      | nil => simp
      | cons f fs => simp [fieldRead_iff, ih]
  simp only [this]
  rfl

end Sys2Proof.Machine
end

