-- ==== Sys2Proof/Laws/PerInstr.lean ====
section
/-! SUPPORT. One lemma per instruction: the decoder reads back what the encoder writes, under every admissible frame layout
(spec/30_encoding.md R81, R84, R89). -/

namespace Sys2Proof.Laws.RoundTrip

/-- The form an instruction is written in decodes to that instruction. -/
def Statement (i : Instr) : Prop := ∀ c : Cfg, c.LayoutOk → decode c (encode c i) = .ok i

theorem port0Rd (p : Bool) (s : SlaveId) : Statement (.port0Rd p s) := fun _ h =>
  decodeFrame_portLayoutFrame p s h .zero none

theorem port1Rd (p : Bool) (s : SlaveId) : Statement (.port1Rd p s) := fun _ h =>
  decodeFrame_portLayoutFrame p s h .one none

theorem sportRd (p : Bool) (s : SlaveId) (a : Byte) (d : Word16) : Statement (.sportRd p s a d) := fun _ h =>
  (decodeFrame_registerFrame p s h a d).1

theorem busctrlRd (p : Bool) (s : SlaveId) (a : Byte) (d : Word16) : Statement (.busctrlRd p s a d) := fun _ h =>
  (decodeFrame_registerFrame p s h a d).2.1

theorem port0Wr (p : Bool) (s : SlaveId) (v : Word32) : Statement (.port0Wr p s v) := fun _ h =>
  decodeFrame_portLayoutFrame p s h .zero (some v)

theorem port1Wr (p : Bool) (s : SlaveId) (v : Word32) : Statement (.port1Wr p s v) := fun _ h =>
  decodeFrame_portLayoutFrame p s h .one (some v)

theorem sportWr (p : Bool) (s : SlaveId) (a : Byte) (d : Word16) : Statement (.sportWr p s a d) := fun _ h =>
  (decodeFrame_registerFrame p s h a d).2.2.1

theorem busctrlWr (p : Bool) (s : SlaveId) (a : Byte) (d : Word16) : Statement (.busctrlWr p s a d) := fun _ h =>
  (decodeFrame_registerFrame p s h a d).2.2.2

theorem setPower (b : Bool) : Statement (.setPower b) := fun _ _ => rfl

theorem encode (p : Bool) (s : Nat) (w : Bool) (ch a : Nat) (d : Word16) : Statement (.encode p s w ch a d) :=
  fun _ _ => rfl

theorem decode (raw : List Byte) : Statement (.decode raw) := fun _ _ => rfl

theorem writeRegister (s ch a : Nat) (v : Word16) : Statement (.writeRegister s ch a v) := fun _ _ => rfl

theorem readRegister (s ch a : Nat) : Statement (.readRegister s ch a) := fun _ _ => rfl

theorem getSlaveInfo (s : Nat) : Statement (.getSlaveInfo s) := fun _ _ => rfl

theorem exchange (s : Nat) (p0 p1 : Option PortBytes) : Statement (.exchange s p0 p1) := fun _ _ => rfl

theorem scan (budget : Nat) : Statement (.scan budget) := fun _ _ => rfl

theorem enable (s : Nat) : Statement (.enable s) := fun _ _ => rfl

theorem erase (s : Nat) (r : FlashRange) : Statement (.erase s r) := fun _ _ => rfl

theorem program (image : List Byte) : Statement (.program image) := fun _ _ => rfl

theorem finalize : Statement .finalize := fun _ _ => rfl

theorem reboot : Statement .reboot := fun _ _ => rfl

theorem abortFlash : Statement .abortFlash := fun _ _ => rfl

theorem flash (s : Nat) (r : FlashRange) (image : List Byte) : Statement (.flash s r image) := fun _ _ => rfl

theorem encodeMFD (r : Record) : Statement (.encodeMFD r) := fun _ _ => rfl

theorem decodeMFD (bs : List Byte) : Statement (.decodeMFD bs) := fun _ _ => rfl

theorem writeManufacturingData (s : Nat) (r : Record) : Statement (.writeManufacturingData s r) := fun _ _ => rfl

theorem readManufacturingData (s : Nat) : Statement (.readManufacturingData s) := fun _ _ => rfl

theorem reset : Statement .reset := fun _ _ => rfl

end Sys2Proof.Laws.RoundTrip
end

