-- ==== Sys2Proof/Laws/Raised.lean ====
section
/-! SUPPORT. What an operation that raises leaves as it was: the error summary, and, but for a scan that timed out, the slave
table and the scan result (spec/10_state.md R26, R27, R29, spec/41_register_bus.md R106, spec/43_bus_scanner.md R125–R130). -/

namespace Sys2Proof.Machine

variable {α β : Type} {E : Session → Session → Prop} {s t : State} {e : Err}

/-- Slave table, scan result and error summary as they were. -/
structure Kept (u v : Session) : Prop where
  slaves : v.slaves = u.slaves
  presence : v.presence = u.presence
  scanStatus : v.scanStatus = u.scanStatus
  errSummary : v.errSummary = u.errSummary

theorem Kept.refl (u : Session) : Kept u u := ⟨rfl, rfl, rfl, rfl⟩

theorem Kept.trans {u v w : Session} (h : Kept u v) (h' : Kept v w) : Kept u w :=
  ⟨h'.slaves.trans h.slaves, h'.presence.trans h.presence, h'.scanStatus.trans h.scanStatus,
    h'.errSummary.trans h.errSummary⟩

/-- What an error leaves: a scan's own timeout clears the table and the scan result (R127), no other error does. -/
structure Raised (e : Err) (u v : Session) : Prop where
  errSummary : v.errSummary = u.errSummary
  table : (∀ budget, e ≠ .scanTimeout budget) →
    v.slaves = u.slaves ∧ v.presence = u.presence ∧ v.scanStatus = u.scanStatus

theorem Kept.raised {u v : Session} (h : Kept u v) (e : Err) : Raised e u v :=
  ⟨h.errSummary, fun _ => ⟨h.slaves, h.presence, h.scanStatus⟩⟩

theorem Kept.raised_trans {u v w : Session} (h : Kept u v) (h' : Raised e v w) : Raised e u w :=
  ⟨h'.errSummary.trans h.errSummary, fun he =>
    ⟨(h'.table he).1.trans h.slaves, (h'.table he).2.1.trans h.presence, (h'.table he).2.2.trans h.scanStatus⟩⟩

/-- However x ends, it keeps them. -/
def Keeps (x : Op α) : Prop := ∀ s, match x s with
  | .ok _ t => Kept s.ses t.ses
  | .error _ t => Kept s.ses t.ses

/-- If x raises, it leaves what its error leaves. -/
def RaisesKept (x : Op α) : Prop := ∀ s e t, x s = .error e t → Raised e s.ses t.ses

theorem Keeps.of_ok {x : Op α} {a : α} (h : Keeps x) (hx : x s = .ok a t) : Kept s.ses t.ses := by
  simpa only [hx] using h s

theorem Keeps.of_error {x : Op α} (h : Keeps x) (hx : x s = .error e t) : Kept s.ses t.ses := by
  simpa only [hx] using h s

theorem Keeps.raises {x : Op α} (h : Keeps x) : RaisesKept x := fun _ _ _ hx => (h.of_error hx).raised _

/-- A computation whose edits keep them keeps them. -/
theorem Keeps.of_runs {x : Op α} (hx : ∀ p, Runs false E p false x) (hE : ∀ u v, E u v → Kept u v) : Keeps x := by
  have hp : ∀ {s t : State} {o : Option Err}, Path false E s o t → Kept s.ses t.ses := fun h =>
    h.session Kept.refl (fun _ _ _ => Kept.trans) hE fun _ _ _ _ => ⟨rfl, rfl, rfl, rfl⟩
  intro s
  have h := hx s.params s rfl (by simp)
  cases hs : x s with
  | ok a t => exact hp (h.of_ok hs).1
  | error e t => exact hp (h.of_error hs).1

theorem Keeps.of_noEdit {x : Op α} (hx : ∀ p, Runs false NoEdit p false x) : Keeps x :=
  Keeps.of_runs hx fun _ _ h => h.elim

theorem RaisesKept.bind {x : Op α} {f : α → Op β} (hx : Keeps x) (hf : ∀ a, RaisesKept (f a)) :
    RaisesKept (x >>= f) := by
  intro s e t h
  cases hs : x s with
  | ok a u =>
    rw [Op.bind_ok hs] at h
    exact (hx.of_ok hs).raised_trans (hf a u e t h)
  | error e' u =>
    rw [Op.bind_error hs] at h
    cases h
    exact (hx.of_error hs).raised e

theorem RaisesKept.get_bind {f : State → Op β} (hf : ∀ s, RaisesKept (f s)) :
    RaisesKept ((get : Op State) >>= f) := fun s e t h => hf s s e t h

/-- An edit, then the value: nothing that raises. -/
theorem RaisesKept.edit (g : State → State) (a : α) : RaisesKept (update g >>= fun _ => (pure a : Op α)) :=
  fun _ _ _ h => by cases h

theorem Keeps.guard (g : GuardArgs) : Keeps (guard g) := Keeps.of_noEdit fun _ => Runs.guard g

theorem Keeps.note (k : NoteKind) (n : NoteOp) : Keeps (note k n) := Keeps.of_noEdit fun _ => Runs.note k n

theorem Keeps.flash {x : Op α} (hx : ∀ p, Runs false FlashOnly p false x) : Keeps x :=
  Keeps.of_runs hx fun u v h => by unfold FlashOnly at h; exact ⟨by rw [h], by rw [h], by rw [h], by rw [h]⟩

/-! ## The operations -/

theorem raisesKept_opGetSlaveInfo (sl : Nat) : RaisesKept (opGetSlaveInfo sl) := by
  refine RaisesKept.bind (Keeps.guard _) fun _ => RaisesKept.get_bind fun s => ?_
  refine RaisesKept.bind (Keeps.of_noEdit fun _ => runs_readText _ _) fun _ => ?_
  refine RaisesKept.bind (Keeps.of_noEdit fun _ => runs_readText _ _) fun _ => ?_
  refine RaisesKept.bind (Keeps.of_noEdit fun _ => runs_regRdS _ _) fun _ => ?_
  refine RaisesKept.bind (Keeps.of_noEdit fun _ => runs_regRdS _ _) fun _ => ?_
  exact RaisesKept.bind (Keeps.of_noEdit fun _ => runs_regRdS _ _) fun _ => RaisesKept.edit _ _

theorem raisesKept_opEnable (sl : Nat) : RaisesKept (opEnable sl) := by
  refine RaisesKept.bind (Keeps.guard _) fun _ => RaisesKept.get_bind fun s => ?_
  exact RaisesKept.bind (Keeps.of_noEdit fun _ => runs_writeWords _ _ _ _) fun _ => RaisesKept.edit _ _

theorem raisesKept_opScan (n : Nat) : RaisesKept (opScan n) := by
  refine RaisesKept.bind (Keeps.guard _) fun _ => RaisesKept.bind (Keeps.note _ _) fun _ => RaisesKept.get_bind fun s => ?_
  refine RaisesKept.bind (Keeps.of_noEdit fun _ => runs_writeWords _ _ _ _) fun _ => ?_
  refine RaisesKept.bind (Keeps.of_noEdit fun _ => runs_pollScan _ _) fun r => ?_
  cases r with
  | some st => intro s e t h; cases h
  | none =>
    intro s e t h
    cases h
    exact ⟨rfl, fun he => absurd rfl (he _)⟩

/-- The frames of an exchange, under one chip select: on an error only the pending flags are cleared. -/
theorem raisesKept_opExchange (sl : Nat) (p0 p1 : Option PortBytes) : RaisesKept (opExchange sl p0 p1) := by
  refine RaisesKept.bind (Keeps.guard _) fun _ => RaisesKept.bind ?_ fun _ => RaisesKept.bind ?_ fun _ => ?_
  · intro s
    show Kept s.ses (s.beginExchange (slaveId sl) p0 p1).ses
    cases p0 <;> cases p1 <;> exact ⟨rfl, rfl, rfl, rfl⟩
  · exact fun _ => ⟨rfl, rfl, rfl, rfl⟩
  · have hb : RaisesKept (exchangeBody (slaveId sl)) := by
      intro s e t h
      have hf : ∀ {s t : State} {o : Option Err}, Path false NoEdit s o t → Kept s.ses t.ses := fun h =>
        h.session Kept.refl (fun _ _ _ => Kept.trans) (fun _ _ h => h.elim) fun _ _ _ _ => ⟨rfl, rfl, rfl, rfl⟩
      have hr := runs_exchangeFrames (b := false) (E := NoEdit) (p := s.params) (slaveId sl) s rfl (by simp)
      cases hs : exchangeFrames (slaveId sl) s with
      | ok rs u =>
        rw [exchangeBody, Op.bind_ok hs] at h
        cases h
      | error e' u =>
        rw [exchangeBody, Op.bind_error hs] at h
        cases h
        exact (hf (hr.of_error hs).1).raised e
    intro s e t h
    unfold withFinally at h
    split at h
    · cases h
    · rename_i e' u hu
      cases h
      have := hb s e u hu
      exact ⟨this.errSummary, this.table⟩

theorem raisesKept_opReboot : RaisesKept opReboot := by
  refine RaisesKept.bind (Keeps.guard _) fun _ => RaisesKept.get_bind fun s => ?_
  refine RaisesKept.bind (Keeps.flash fun _ => ?_) fun _ => RaisesKept.edit _ _
  exact Runs.onError (runs_writeWords _ _ _ _) (tail_failStep fun _ _ h => h.flashOnly)

theorem keeps_opErase (sl : Nat) (r : FlashRange) : Keeps (opErase sl r) := Keeps.flash fun _ => runs_opErase sl r

theorem keeps_opProgram (image : List Byte) : Keeps (opProgram image) :=
  Keeps.flash fun _ => runs_opProgram (fun _ _ h => h.flashOnly) image

theorem keeps_opFinalize : Keeps opFinalize := Keeps.flash fun _ => runs_opFinalize fun _ _ h => h.flashOnly

theorem RaisesKept.pure (a : α) : RaisesKept (pure a : Op α) := fun _ _ _ h => by cases h

/-- What raises in a first step raises in the whole, if what follows raises nothing. -/
theorem RaisesKept.last {x : Op α} (hx : RaisesKept x) (b : β) : RaisesKept (x >>= fun _ => (Pure.pure b : Op β)) := by
  intro s e t h
  cases hs : x s with
  | ok a u => rw [Op.bind_ok hs] at h; cases h
  | error e' u => rw [Op.bind_error hs] at h; cases h; exact hx s e t hs

theorem raisesKept_opFlash (sl : Nat) (r : FlashRange) (image : List Byte) : RaisesKept (opFlash sl r image) :=
  RaisesKept.bind (keeps_opErase _ _) fun _ => RaisesKept.bind (keeps_opProgram _) fun _ =>
    RaisesKept.bind keeps_opFinalize fun _ => raisesKept_opReboot.last _

theorem raisesKept_finishMFD (m : Bool) : RaisesKept (finishMFD m) := by
  unfold finishMFD
  split
  · exact raisesKept_opReboot.last _
  · exact fun _ _ _ h => by cases h

theorem raisesKept_opWriteManufacturingData (sl : Nat) (r : Record) : RaisesKept (opWriteManufacturingData sl r) :=
  RaisesKept.bind (Keeps.guard _) fun _ => RaisesKept.get_bind fun _ => RaisesKept.bind (keeps_opErase _ _) fun _ =>
    RaisesKept.bind (keeps_opProgram _) fun _ => RaisesKept.bind keeps_opFinalize fun _ => (raisesKept_finishMFD _).last _

/-- What the body of a host operation leaves when it raises. -/
theorem body_raised {i : Instr} {body : Op Value} (hb : bodyOf i = some body) : RaisesKept body := by
  cases i <;> cases hb
  case setPower => exact RaisesKept.edit _ _
  case encode => exact (Keeps.of_noEdit fun _ => runs_opEncode _ _ _ _ _ _).raises
  case decode => exact (Keeps.of_noEdit fun _ => runs_opDecode _).raises
  case writeRegister => exact (Keeps.of_noEdit fun _ => runs_opWriteRegister _ _ _ _).raises
  case readRegister => exact (Keeps.of_noEdit fun _ => runs_opReadRegister _ _ _).raises
  case getSlaveInfo => exact raisesKept_opGetSlaveInfo _
  case exchange => exact raisesKept_opExchange _ _ _
  case scan => exact raisesKept_opScan _
  case enable => exact raisesKept_opEnable _
  case erase => exact (keeps_opErase _ _).raises
  case program => exact (keeps_opProgram _).raises
  case finalize => exact keeps_opFinalize.raises
  case reboot => exact raisesKept_opReboot
  case abortFlash => exact (Keeps.flash fun _ => runs_opAbortFlash.mono fun _ _ h => h.flashOnly).raises
  case flash => exact raisesKept_opFlash _ _ _
  case encodeMFD => exact (Keeps.of_noEdit fun _ => runs_opEncodeMFD _).raises
  case decodeMFD => exact (Keeps.of_noEdit fun _ => runs_opDecodeMFD _).raises
  case writeManufacturingData => exact raisesKept_opWriteManufacturingData _ _
  case readManufacturingData => exact (Keeps.of_noEdit fun _ => runs_opReadManufacturingData _).raises
  case reset => exact RaisesKept.edit _ _

end Sys2Proof.Machine
end

