-- ==== Sys2Proof/Laws/Writes.lean ====
section
/-! SUPPORT. The write matrix (spec/10_state.md R40): every operation leaves every session field it is not listed for as it
was. -/

namespace Sys2Proof.Machine

variable {s t : State}

/-- Two slave tables with the same entries are the same. -/
theorem Session.slaves_ext {u v : Session} (h : ∀ j, v.entry j = u.entry j) : v.slaves = u.slaves := by
  apply Vector.ext
  intro j hj
  have hn : (BitVec.ofNat 3 j).toNat = j := by simp; omega
  have := h (BitVec.ofNat 3 j)
  simp only [Session.entry, hn] at this
  exact this

/-- One entry of the slave table changed as said, every other one as it was. -/
theorem Session.slaves_setEntry {u v : Session} {i : SlaveId} {e : SlaveEntry} (hi : v.entry i = e)
    (hj : ∀ j, j ≠ i → v.entry j = u.entry j) : v.slaves = (u.setEntry i e).slaves := by
  refine Session.slaves_ext (u := u.setEntry i e) fun j => ?_
  by_cases h : j = i
  · subst h; rw [hi, Session.entry_setEntry_self]
  · rw [hj j h, Session.entry_setEntry_ne _ _ (Ne.symm h)]

/-- Two entries with the same presence differ in `enabled` and `info` at most. -/
theorem SlaveEntry.eq_of_present {e f : SlaveEntry} (h : f.present = e.present) :
    f = { e with enabled := f.enabled, info := f.info } := by
  cases e
  cases f
  cases h
  rfl

/-- Nothing but chip select, dead mark and position. -/
def SysOnly (u v : Session) : Prop := v = { u with sel := v.sel, dead := v.dead, pc := v.pc }

theorem hostOp_sysOnly {body : Op Value} (hx : ∀ b p, Runs b NoEdit p false body) (op : OpName) (s : State) :
    SysOnly s.ses (hostOp op body s).ses :=
  hostOp_session (R := SysOnly) (fun _ => rfl) (fun u v w h1 h2 => by unfold SysOnly at *; rw [h2, h1])
    (fun _ _ h => h.elim) (fun _ _ _ _ => rfl) hx op s

/-- Nothing but those and the fields of an exchange. -/
def ExchangeOnly (u v : Session) : Prop :=
  v = { u with curSlave := v.curSlave, pendWr0 := v.pendWr0, pendWr1 := v.pendWr1, pendVal0 := v.pendVal0,
               pendVal1 := v.pendVal1, errSummary := v.errSummary, sel := v.sel, dead := v.dead, pc := v.pc }

theorem hostOp_exchangeOnly {body : Op Value} (hx : ∀ b p, Runs b PortOnly p false body) (op : OpName) (s : State) :
    ExchangeOnly s.ses (hostOp op body s).ses :=
  hostOp_session (R := ExchangeOnly) (fun _ => rfl) (fun u v w h1 h2 => by unfold ExchangeOnly at *; rw [h2, h1])
    (fun u v h => by unfold PortOnly at h; unfold ExchangeOnly; rw [h]) (fun _ _ _ _ => rfl) hx op s

/-- Nothing but those and the fields of a scan. -/
def ScanFields (u v : Session) : Prop :=
  v = { u with presence := v.presence, scanStatus := v.scanStatus, slaves := v.slaves, sel := v.sel, dead := v.dead,
               pc := v.pc }

theorem hostOp_scanFields {body : Op Value} (hx : ∀ b p, Runs b ScanOnly p false body) (op : OpName) (s : State) :
    ScanFields s.ses (hostOp op body s).ses :=
  hostOp_session (R := ScanFields) (fun _ => rfl) (fun u v w h1 h2 => by unfold ScanFields at *; rw [h2, h1])
    (fun u v h => by unfold ScanOnly at h; unfold ScanFields; rw [h]) (fun _ _ _ _ => rfl) hx op s

/-- Nothing but those and the flash record. -/
def FlashFields (u v : Session) : Prop := v = { u with flash := v.flash, sel := v.sel, dead := v.dead, pc := v.pc }

theorem hostOp_flashFields {body : Op Value} (hx : ∀ b p, Runs b FlashOnly p false body) (op : OpName) (s : State) :
    FlashFields s.ses (hostOp op body s).ses :=
  hostOp_session (R := FlashFields) (fun _ => rfl) (fun u v w h1 h2 => by unfold FlashFields at *; rw [h2, h1])
    (fun u v h => by unfold FlashOnly at h; unfold FlashFields; rw [h]) (fun _ _ _ _ => rfl) hx op s

/-- Nothing but those and the flash state. -/
def FlashStateFields (u v : Session) : Prop :=
  v = { u with flash := { u.flash with state := v.flash.state }, sel := v.sel, dead := v.dead, pc := v.pc }

theorem hostOp_flashStateFields {body : Op Value} (hx : ∀ b p, Runs b FlashStateOnly p false body) (op : OpName)
    (s : State) : FlashStateFields s.ses (hostOp op body s).ses :=
  hostOp_session (R := FlashStateFields) (fun _ => rfl)
    (fun u v w h1 h2 => by unfold FlashStateFields at *; rw [h2, h1])
    (fun u v h => by unfold FlashStateOnly at h; unfold FlashStateFields; rw [h]) (fun _ _ _ _ => rfl) hx op s

/-- Nothing but those, and some fields of one entry of the slave table, said by `keep`. -/
structure EntryFields (keep : SlaveEntry → SlaveEntry → Prop) (i : SlaveId) (u v : Session) : Prop where
  rest : v = { u with slaves := v.slaves, sel := v.sel, dead := v.dead, pc := v.pc }
  others : ∀ j, j ≠ i → v.entry j = u.entry j
  self : keep (u.entry i) (v.entry i)

theorem hostOp_entryFields {keep : SlaveEntry → SlaveEntry → Prop} {i : SlaveId} {E : Session → Session → Prop}
    (refl : ∀ e, keep e e) (trans : ∀ d e f, keep d e → keep e f → keep d f)
    (hE : ∀ u v, E u v → EntryFields keep i u v) {body : Op Value} (hx : ∀ b p, Runs b E p false body) (op : OpName)
    (s : State) : EntryFields keep i s.ses (hostOp op body s).ses :=
  hostOp_session (R := EntryFields keep i) (fun _ => ⟨rfl, fun _ _ => rfl, refl _⟩)
    (fun u v w h1 h2 => ⟨by rw [h2.rest, h1.rest], fun j hj => (h2.others j hj).trans (h1.others j hj),
      trans _ _ _ h1.self h2.self⟩)
    hE (fun u _ _ _ => ⟨rfl, fun _ _ => rfl, refl _⟩) hx op s

/-- Nothing but those, the flash state, and `enabled` and `info` of one entry. -/
structure RebootFields (i : SlaveId) (u v : Session) : Prop where
  rest : v = { u with slaves := v.slaves, flash := { u.flash with state := v.flash.state }, sel := v.sel,
                      dead := v.dead, pc := v.pc }
  others : ∀ j, j ≠ i → v.entry j = u.entry j
  present : (v.entry i).present = (u.entry i).present

theorem RebootFields.refl (i : SlaveId) (u : Session) : RebootFields i u u := ⟨rfl, fun _ _ => rfl, rfl⟩

theorem RebootFields.trans {i : SlaveId} {u v w : Session} (h1 : RebootFields i u v) (h2 : RebootFields i v w) :
    RebootFields i u w :=
  ⟨by rw [h2.rest, h1.rest], fun j hj => (h2.others j hj).trans (h1.others j hj), h2.present.trans h1.present⟩

theorem RebootFields.sys (i : SlaveId) (u : Session) (a d : Bool) (q : SeqPos) :
    RebootFields i u { u with sel := a, dead := d, pc := q } := ⟨rfl, fun _ _ => rfl, rfl⟩

theorem Rebooting.fields {i : SlaveId} {u v : Session} (h : Rebooting i u v) : RebootFields i u v := by
  rcases h with h | h
  · refine ⟨by rw [h], fun j _ => by rw [h]; rfl, by rw [h]; rfl⟩
  · refine ⟨by rw [h]; rfl, fun j hj => ?_, ?_⟩
    · rw [h]; exact Session.entry_setEntry_ne u _ (Ne.symm hj)
    · exact (congrArg (fun x => (x.entry i).present) h).trans (congrArg SlaveEntry.present
        (Session.entry_setEntry_self u i { u.entry i with enabled := (v.entry i).enabled, info := (v.entry i).info }))

theorem Path.rebootFields {b : Bool} {i : SlaveId} {o : Option Err} (h : Path b (Rebooting i) s o t) :
    RebootFields i s.ses t.ses :=
  h.session (RebootFields.refl i) (fun _ _ _ => RebootFields.trans) (fun _ _ => Rebooting.fields) (RebootFields.sys i)

theorem Path.flashFields {b : Bool} {o : Option Err} (h : Path b FlashOnly s o t) : FlashFields s.ses t.ses :=
  h.session (R := FlashFields) (fun _ => rfl) (fun u v w h1 h2 => by unfold FlashFields at *; rw [h2, h1])
    (fun u v h => by unfold FlashOnly at h; unfold FlashFields; rw [h]) (fun _ _ _ _ => rfl)

/-- What an erase and the rest of a composite write. -/
structure CompositeFields (i : SlaveId) (u v : Session) : Prop where
  rest : v = { u with slaves := v.slaves, flash := v.flash, sel := v.sel, dead := v.dead, pc := v.pc }
  others : ∀ j, j ≠ i → v.entry j = u.entry j
  present : (v.entry i).present = (u.entry i).present

theorem FlashFields.composite {u v : Session} (h : FlashFields u v) (i : SlaveId) : CompositeFields i u v :=
  ⟨by unfold FlashFields at h; rw [h], fun j _ => by rw [h]; rfl, by rw [h]; rfl⟩

theorem FlashFields.composite_trans {i : SlaveId} {u v w : Session} (h1 : FlashFields u v) (h2 : RebootFields i v w) :
    CompositeFields i u w := by
  refine ⟨by unfold FlashFields at h1; rw [h2.rest, h1], fun j hj => ?_, ?_⟩
  · rw [h2.others j hj, h1]; rfl
  · rw [h2.present, h1]; rfl

theorem composite_fields {sl : Nat} {r : FlashRange} {image : List Byte} {last : Op Unit} (hl : LastStep last)
    (s : State) : match (opErase sl r >>= fun _ => flashRest image last) s with
      | .ok _ t => CompositeFields (slaveId sl) s.ses t.ses
      | .error _ t => CompositeFields (slaveId sl) s.ses t.ses := by
  cases h1 : opErase sl r s with
  | error e t =>
    rw [Op.bind_error h1]
    exact ((runs_opErase (b := false) sl r s rfl (by simp)).of_error h1).1.flashFields.composite _
  | ok v t =>
    rw [Op.bind_ok h1]
    have hf := ((runs_opErase (b := false) sl r s rfl (by simp)).of_ok h1).1.flashFields
    have hs : t.ses.flash.slave = slaveId sl := by rw [(opErase_ok h1).2]
    have hr := runsAt_flashRest (b := false) (s := t) (image := image) hl (by simp)
    rw [hs] at hr
    cases h2 : flashRest image last t with
    | ok v u => exact hf.composite_trans (hr.of_ok h2).1.rebootFields
    | error e u => exact hf.composite_trans (hr.of_error h2).1.rebootFields

/-- An operation whose body leaves only composite fields. -/
theorem hostOp_composite {i : SlaveId} {body : Op Value} (op : OpName) (s : State)
    (h : match body (s.enter op) with
      | .ok _ t => CompositeFields i (s.enter op).ses t.ses
      | .error _ t => CompositeFields i (s.enter op).ses t.ses) : CompositeFields i s.ses (hostOp op body s).ses := by
  unfold hostOp
  cases hb : body (s.enter op) with
  | ok v t =>
    simp only [hb] at h ⊢
    exact ⟨by simp only [State.ret]; rw [h.rest]; rfl, h.others, h.present⟩
  | error e t =>
    simp only [hb] at h ⊢
    exact ⟨by simp only [State.ret]; rw [h.rest]; rfl, h.others, h.present⟩

/-- The composite fields as an edit of one entry. -/
theorem CompositeFields.eq {i : SlaveId} {u v : Session} (h : CompositeFields i u v) :
    v = { u.setEntry i { u.entry i with enabled := (v.entry i).enabled, info := (v.entry i).info } with
          flash := v.flash, sel := v.sel, dead := v.dead, pc := v.pc } := by
  have hs := Session.slaves_setEntry (u := u) (v := v) (i := i)
    (e := { u.entry i with enabled := (v.entry i).enabled, info := (v.entry i).info })
    (SlaveEntry.eq_of_present h.present) h.others
  have := h.rest
  rw [hs] at this
  exact this

theorem RebootFields.eq {i : SlaveId} {u v : Session} (h : RebootFields i u v) :
    v = { u.setEntry i { u.entry i with enabled := (v.entry i).enabled, info := (v.entry i).info } with
          flash := { u.flash with state := v.flash.state }, sel := v.sel, dead := v.dead, pc := v.pc } := by
  have hs := Session.slaves_setEntry (u := u) (v := v) (i := i)
    (e := { u.entry i with enabled := (v.entry i).enabled, info := (v.entry i).info })
    (SlaveEntry.eq_of_present h.present) h.others
  have := h.rest
  rw [hs] at this
  exact this

end Sys2Proof.Machine
end

