-- ==== Sys2Proof/Laws/Sends.lean ====
section
/-! SUPPORT. Which frames every operation sends, whatever the answers: each from one of the three builders with the session's
power bit (spec/40_frame_codec.md R97), each storing to the cells of the operation only (spec/20_memory.md R62–R69). -/

namespace Sys2Proof.Machine

variable {α β : Type} {c : Cfg} {power : Bool} {Q : Frame → Prop} {s t u : State}

/-! ## Runs whose frames meet a condition -/

/-- From s to t the history grows by events whose frames meet Q; configuration and power flag stay. -/
structure Sent (Q : Frame → Prop) (s t : State) : Prop where
  events : ∃ es, t.hist = s.hist ++ es ∧ ∀ f ∈ sentFrames es, Q f
  cfg : t.cfg = s.cfg
  power : t.ses.power = s.ses.power

theorem Sent.quiet (hh : t.hist = s.hist) (hc : t.cfg = s.cfg) (hp : t.ses.power = s.ses.power) : Sent Q s t :=
  ⟨⟨[], by simp [hh], by simp [sentFrames]⟩, hc, hp⟩

theorem Sent.trans (h : Sent Q s t) (h' : Sent Q t u) : Sent Q s u := by
  obtain ⟨es, h1, h2⟩ := h.events
  obtain ⟨fs, g1, g2⟩ := h'.events
  refine ⟨⟨es ++ fs, by rw [g1, h1, List.append_assoc], fun f hf => ?_⟩, h'.cfg.trans h.cfg, h'.power.trans h.power⟩
  rw [sentFrames_append] at hf
  exact (List.mem_append.1 hf).elim (h2 f) (g2 f)

/-- The run of x from s sends only frames that meet Q. -/
def SendsAt (Q : Frame → Prop) (x : Op α) (s : State) : Prop :=
  match x s with
  | .ok _ t => Sent Q s t
  | .error _ t => Sent Q s t

/-- Every run of x under this configuration and power flag does. -/
def Sends (c : Cfg) (power : Bool) (Q : Frame → Prop) (x : Op α) : Prop :=
  ∀ s, s.cfg = c → s.ses.power = power → SendsAt Q x s

theorem SendsAt.ok {x : Op α} {a : α} (h : SendsAt Q x s) (hx : x s = .ok a t) : Sent Q s t := by
  simpa [SendsAt, hx] using h

theorem SendsAt.error {x : Op α} {e : Err} (h : SendsAt Q x s) (hx : x s = .error e t) : Sent Q s t := by
  simpa [SendsAt, hx] using h

theorem SendsAt.of_ok {x : Op α} {a : α} (hx : x s = .ok a t) (h : Sent Q s t) : SendsAt Q x s := by
  simpa [SendsAt, hx] using h

theorem SendsAt.of_error {x : Op α} {e : Err} (hx : x s = .error e t) (h : Sent Q s t) : SendsAt Q x s := by
  simpa [SendsAt, hx] using h

theorem SendsAt.mono {R : Frame → Prop} (hQ : ∀ f, Q f → R f) {x : Op α} (h : SendsAt Q x s) : SendsAt R x s := by
  cases hx : x s with
  | ok a t =>
    obtain ⟨⟨es, h1, h2⟩, h3, h4⟩ := h.ok hx
    exact .of_ok hx ⟨⟨es, h1, fun f hf => hQ f (h2 f hf)⟩, h3, h4⟩
  | error e t =>
    obtain ⟨⟨es, h1, h2⟩, h3, h4⟩ := h.error hx
    exact .of_error hx ⟨⟨es, h1, fun f hf => hQ f (h2 f hf)⟩, h3, h4⟩

theorem SendsAt.bind {x : Op α} {f : α → Op β} (hx : SendsAt Q x s)
    (hf : ∀ a t, x s = .ok a t → Sent Q s t → SendsAt Q (f a) t) : SendsAt Q (x >>= f) s := by
  cases h : x s with
  | error e t => exact .of_error (Op.bind_error h) (hx.error h)
  | ok a t =>
    have h1 := hx.ok h
    have h2 := hf a t h h1
    cases h' : f a t with
    | ok b v => exact .of_ok (by rw [Op.bind_ok h, h']) (h1.trans (h2.ok h'))
    | error e v => exact .of_error (by rw [Op.bind_ok h, h']) (h1.trans (h2.error h'))

theorem Sends.bind {x : Op α} {f : α → Op β} (hx : Sends c power Q x) (hf : ∀ a, Sends c power Q (f a)) :
    Sends c power Q (x >>= f) := fun s hc hp =>
  (hx s hc hp).bind fun a t _ h => hf a t (h.cfg.trans hc) (h.power.trans hp)

theorem Sends.get_bind {f : State → Op β} (h : ∀ s0 : State, s0.cfg = c → s0.ses.power = power → Sends c power Q (f s0)) :
    Sends c power Q ((get : Op State) >>= f) := fun s hc hp => h s hc hp s hc hp

theorem Sends.pure (a : α) : Sends c power Q (pure a : Op α) := fun _ _ _ => .of_ok rfl (.quiet rfl rfl rfl)

theorem Sends.throw (e : Err) : Sends c power Q (throw e : Op α) := fun _ _ _ => .of_error rfl (.quiet rfl rfl rfl)

theorem Sends.ite {p : Prop} [Decidable p] {x y : Op α} (hx : Sends c power Q x) (hy : Sends c power Q y) :
    Sends c power Q (if p then x else y) := by
  split
  · exact hx
  · exact hy

theorem Sends.guard (g : GuardArgs) : Sends c power Q (guard g) := fun s _ _ => by
  cases h : guardError s g with
  | none => exact .of_ok (guard_pass h) (.quiet rfl rfl rfl)
  | some e => exact .of_error (guard_refuse h) (.quiet rfl rfl rfl)

theorem Sends.xchg {tx : Frame} (h : Q tx) : Sends c power Q (xchg tx) := fun s _ _ => by
  cases ha : s.bus.nextAnswer with
  | ok rx => exact .of_ok (xchg_ok ha tx) ⟨⟨[.frame tx (fitFrame s.cfg rx)], rfl, by simpa [sentFrames] using h⟩, rfl, rfl⟩
  | fail l => exact .of_error (xchg_fail ha tx) ⟨⟨[.txFail tx], rfl, by simpa [sentFrames] using h⟩, rfl, rfl⟩

/-- A change of the state that sends no frame. -/
theorem Sends.update {g : State → State} (h : ∀ s, Sent Q s (g s)) : Sends c power Q (update g) := fun s _ _ =>
  .of_ok (a := ()) rfl (h s)

theorem Sends.edit (g : Session → Session) (hg : ∀ u, (g u).power = u.power) :
    Sends c power Q (Machine.update fun s => s.withSes (g s.ses)) := Sends.update fun s => .quiet rfl rfl (hg s.ses)

theorem Sends.note (k : NoteKind) (n : NoteOp) : Sends c power Q (note k n) :=
  Sends.update fun _ => ⟨⟨[.note k n], rfl, by simp [sentFrames]⟩, rfl, rfl⟩

theorem Sends.withFinally {x : Op α} {fin : State → State} (hx : Sends c power Q x) (hf : ∀ s, Sent Q s (fin s)) :
    Sends c power Q (withFinally x fin) := fun s hc hp => by
  have h := hx s hc hp
  cases hs : x s with
  | ok a t => exact .of_ok (withFinally_ok hs fin) ((h.ok hs).trans (hf t))
  | error e t => exact .of_error (withFinally_error hs fin) ((h.error hs).trans (hf t))

theorem Sends.sel : Sends c power Q (Machine.update State.sel) :=
  Sends.update fun _ => ⟨⟨[.select true], rfl, by simp [sentFrames]⟩, rfl, rfl⟩

theorem Sends.bracket {x : Op α} (hx : Sends c power Q x) : Sends c power Q (bracket x) :=
  Sends.bind Sends.sel fun _ => Sends.withFinally hx fun _ => ⟨⟨[.select false], rfl, by simp [sentFrames]⟩, rfl, rfl⟩

theorem Sends.onError {x : Op α} {f : Err → State → State} (hx : Sends c power Q x) (hf : ∀ e s, Sent Q s (f e s)) :
    Sends c power Q (onError x f) := fun s hc hp => by
  have h := hx s hc hp
  cases hs : x s with
  | ok a t => exact .of_ok (onError_ok hs f) (h.ok hs)
  | error e t => exact .of_error (onError_error hs f) ((h.error hs).trans (hf e t))

theorem sent_failStep (e : Err) (s : State) : Sent Q s (failStep e s) := .quiet rfl rfl rfl

theorem sent_failNoted (n : NoteOp) (e : Err) (s : State) : Sent Q s (failNoted n e s) := by
  cases e
  case flashTimeout => exact ⟨⟨[.note .timedOut n], rfl, by simp [sentFrames]⟩, rfl, rfl⟩
  case busTimeout => exact ⟨⟨[.note .timedOut n], rfl, by simp [sentFrames]⟩, rfl, rfl⟩
  all_goals exact .quiet rfl rfl rfl

/-! ## The condition: built by a builder, storing to given cells -/

/-- A frame of `regFrame` (R93) that stores to these cells at most. -/
def Fits (c : Cfg) (power : Bool) (cells : List Nat) (f : Frame) : Prop :=
  (∃ sl w ch a d, (ch = .sport ∨ ch = .busCtrl) ∧ f = registerFrame c ⟨power, sl, w, ch, a, d⟩) ∧
    ∀ a ∈ frameCells c f, a ∈ cells

/-- A frame that instruction i builds in state s (R97), storing to its own cells at most. -/
def Own (s : State) (i : Instr) (f : Frame) : Prop :=
  BuiltBy s i f ∧ ∀ a ∈ frameCells s.cfg f, a ∈ storedCells s i

theorem Fits.own {i : Instr} {f : Frame} (h : Fits s.cfg s.ses.power (storedCells s i) f) : Own s i f := ⟨.inl h.1, h.2⟩

theorem Fits.mono {cells cells' : List Nat} (h : ∀ a ∈ cells, a ∈ cells') {f : Frame} (hf : Fits c power cells f) :
    Fits c power cells' f := ⟨hf.1, fun a ha => h a (hf.2 a ha)⟩

section
variable (hc : c.LayoutOk)
include hc

theorem frameCells_registerFrame (p : Bool) (sl : SlaveId) (w : Bool) {ch : Channel} (hch : ch = .sport ∨ ch = .busCtrl)
    (a : Byte) (d : Word16) : frameCells c (registerFrame c ⟨p, sl, w, ch, a, d⟩) =
      if w then registerCells ch sl a else [] := by
  obtain ⟨h1, h2, h3, h4⟩ := decodeFrame_registerFrame p sl hc a d
  rcases hch with rfl | rfl <;> cases w <;> simp [frameCells, h1, h2, h3, h4]

theorem frameCells_portLayoutFrame (p : Bool) (sl : SlaveId) (pt : Port) (v : Option Word32) :
    frameCells c (portLayoutFrame c p sl pt v) = if v.isSome then portCells sl pt else [] := by
  have := decodeFrame_portLayoutFrame p sl hc pt v
  cases pt <;> cases v <;> simp [frameCells, this]

theorem fits_read (sl : SlaveId) {ch : Channel} (hch : ch = .sport ∨ ch = .busCtrl) (a : Byte) (d : Word16)
    (cells : List Nat) : Fits c power cells (registerFrame c ⟨power, sl, false, ch, a, d⟩) :=
  ⟨⟨sl, false, ch, a, d, hch, rfl⟩, by simp [frameCells_registerFrame hc _ _ _ hch]⟩

theorem fits_write (sl : SlaveId) {ch : Channel} (hch : ch = .sport ∨ ch = .busCtrl) (a : Byte) (d : Word16)
    {cells : List Nat} (h : ∀ x ∈ registerCells ch sl a, x ∈ cells) :
    Fits c power cells (registerFrame c ⟨power, sl, true, ch, a, d⟩) :=
  ⟨⟨sl, true, ch, a, d, hch, rfl⟩, by simpa [frameCells_registerFrame hc _ _ _ hch] using h⟩

/-! ## Register sequences and waits -/

variable {cells : List Nat}

theorem sends_regWr (sl : SlaveId) {ch : Channel} (hch : ch = .sport ∨ ch = .busCtrl) (a : Byte) (v : Word16)
    (h : ∀ x ∈ registerCells ch sl a, x ∈ cells) : Sends c power (Fits c power cells) (regWr sl ch a v) := by
  refine Sends.get_bind fun s hs hp => Sends.bracket (Sends.bind (Sends.xchg ?_) fun _ => Sends.pure _)
  subst hs hp
  exact fits_write hc sl hch a v h

omit hc in
theorem sends_pollValid (sl : SlaveId) (a : Byte) {f : Frame} (hf : Fits c power cells f) (n : Nat) :
    Sends c power (Fits c power cells) (pollValid c sl a f n) := by
  induction n with
  | zero => exact Sends.throw _
  | succ n ih => exact Sends.bind (Sends.xchg hf) fun rx => Sends.ite (Sends.pure _) ih

theorem sends_regRdS (sl : SlaveId) (a : Byte) : Sends c power (Fits c power cells) (regRdS sl a) := by
  refine Sends.get_bind fun s hs hp => ?_
  subst hs hp
  have hf : Fits s.cfg s.ses.power cells (s.regFrame sl false .sport a 0) := fits_read hc sl (.inl rfl) a 0 cells
  exact Sends.bracket (Sends.bind (Sends.xchg hf) fun _ => sends_pollValid _ _ hf _)

theorem sends_regRdB (sl : SlaveId) (a : Byte) : Sends c power (Fits c power cells) (regRdB sl a) := by
  refine Sends.get_bind fun s hs hp => Sends.bracket (Sends.bind (Sends.xchg ?_) fun _ => Sends.pure _)
  subst hs hp
  exact fits_read hc sl (.inr rfl) a 0 cells

theorem sends_readText (sl : SlaveId) (a : Byte) : Sends c power (Fits c power cells) (readText sl a) := by
  unfold readText
  repeat refine Sends.bind (sends_regRdS hc _ _) fun _ => ?_
  exact Sends.pure _

theorem sends_writeWords (sl : SlaveId) {ch : Channel} (hch : ch = .sport ∨ ch = .busCtrl) (a : Byte)
    (h : ∀ x ∈ registerCells ch sl a, x ∈ cells) (ws : List Word16) :
    Sends c power (Fits c power cells) (writeWords sl ch a ws) := by
  induction ws with
  | nil => exact Sends.pure _
  | cons w ws ih => exact Sends.bind (sends_regWr hc _ hch _ _ h) fun _ => ih

theorem sends_pollScan (n : Nat) : Sends c power (Fits c power cells) (pollScan c n) := by
  induction n with
  | zero => exact Sends.pure _
  | succ n ih => exact Sends.bind (sends_regRdB hc _ _) fun _ => Sends.ite (Sends.pure _) ih

theorem sends_pollStatus (st : FlashStep) (sl : SlaveId) (r : FlashRange) (a : Byte) (m : Word16) (bud n : Nat) :
    Sends c power (Fits c power cells) (pollStatus st sl r a m bud n) := by
  induction n with
  | zero => exact Sends.throw _
  | succ n ih => exact Sends.bind (sends_regRdS hc _ _) fun _ => Sends.ite (Sends.pure _) ih

theorem sends_awaitRoom (n : Nat) : Sends c power (Fits c power cells) (awaitRoom c n) := by
  induction n with
  | zero => exact Sends.throw _
  | succ n ih => exact Sends.bind (sends_regRdB hc _ _) fun _ => Sends.ite ih (Sends.pure _)

theorem sends_download (sl : SlaveId) (a : Byte) (h : ∀ x ∈ registerCells .sport sl a, x ∈ cells) (left : Nat)
    (ws : List Word16) : Sends c power (Fits c power cells) (download c sl a left ws) := by
  induction ws generalizing left with
  | nil => cases left <;> exact Sends.pure _
  | cons w ws ih =>
    cases left with
    | zero =>
      unfold download
      split
      · exact Sends.bind (sends_awaitRoom hc _) fun _ => Sends.bind (sends_regWr hc _ (.inl rfl) _ _ h) fun _ => ih _
      · exact Sends.bind (sends_regWr hc _ (.inl rfl) _ _ h) fun _ => ih _
    | succ left => exact Sends.bind (sends_regWr hc _ (.inl rfl) _ _ h) fun _ => ih _

theorem sends_readRecordBytes (sl : SlaveId) (a : Byte) (n i : Nat) (buf : List Byte) :
    Sends c power (Fits c power cells) (readRecordBytes sl a n i buf) := by
  induction n generalizing i buf with
  | zero => exact Sends.pure _
  | succ n ih => exact Sends.bind (sends_regRdS hc _ _) fun _ => Sends.ite (Sends.pure _) (ih _ _)

omit hc in
theorem sends_flushFrames (sl : SlaveId) (hQ : Q (portLayoutFrame c power sl .one none)) (n : Nat) :
    Sends c power Q (flushFrames sl n) := by
  induction n with
  | zero => exact Sends.pure _
  | succ n ih =>
    refine Sends.get_bind fun s hs hp => ?_
    subst hs hp
    exact Sends.bind (Sends.xchg hQ) fun _ => Sends.bind ih fun _ => Sends.pure _

end

end Sys2Proof.Machine
end

