-- ==== Sys2Proof/Laws/Stores.lean ====
section
/-! SUPPORT. Every operation sends only frames of the builders, which store to its own cells (spec/40_frame_codec.md R97,
spec/20_memory.md R62–R69); the bytes of the target outside those cells stay as they are. -/

namespace Sys2Proof.Machine

variable {c : Cfg} {power : Bool} {s t : State}

/-! ## The operations -/

theorem sends_opWriteRegister (hc : c.LayoutOk) (sl ch a : Nat) (v : Word16) :
    Sends c power (Fits c power (registerCells (if ch = sportIndex then .sport else .busCtrl) (slaveId sl) (addrByte a)))
      (opWriteRegister sl ch a v) := by
  refine Sends.bind (Sends.guard _) fun _ => ?_
  split
  · exact Sends.bind (sends_regWr hc _ (.inl rfl) _ _ fun _ h => h) fun _ => Sends.pure _
  · exact Sends.bind (sends_regWr hc _ (.inr rfl) _ _ fun _ h => h) fun _ => Sends.pure _

theorem sends_opReadRegister (hc : c.LayoutOk) (sl ch a : Nat) :
    Sends c power (Fits c power []) (opReadRegister sl ch a) := by
  refine Sends.bind (Sends.guard _) fun _ => ?_
  split
  · exact Sends.bind (sends_regRdS hc _ _) fun _ => Sends.pure _
  · exact Sends.bind (sends_regRdB hc _ _) fun _ => Sends.pure _

theorem sends_opGetSlaveInfo (hc : c.LayoutOk) (sl : Nat) : Sends c power (Fits c power []) (opGetSlaveInfo sl) := by
  refine Sends.bind (Sends.guard _) fun _ => Sends.get_bind fun s _ _ => ?_
  refine Sends.bind (sends_readText hc _ _) fun bt => Sends.bind (sends_readText hc _ _) fun bn => ?_
  refine Sends.bind (sends_regRdS hc _ _) fun fe => Sends.bind (sends_regRdS hc _ _) fun bf => ?_
  refine Sends.bind (sends_regRdS hc _ _) fun pc => Sends.bind ?_ fun _ => Sends.pure _
  exact Sends.update fun _ => .quiet rfl rfl rfl

theorem sends_opScan (hc : c.LayoutOk) (n : Nat) :
    Sends c power (Fits c power (registerCells .busCtrl c.bcSlave c.aScanCtrl)) (opScan n) := by
  refine Sends.bind (Sends.guard _) fun _ => Sends.bind (Sends.note _ _) fun _ => Sends.get_bind fun s hs _ => ?_
  rw [hs]
  refine Sends.bind (sends_writeWords hc _ (.inr rfl) _ (fun _ h => h) _) fun _ => Sends.bind (sends_pollScan hc _) fun r => ?_
  cases r with
  | some st => exact Sends.bind (Sends.edit (fun u => u.scanDone _ st) fun _ => rfl) fun _ =>
      Sends.bind (Sends.note _ _) fun _ => Sends.pure _
  | none => exact Sends.bind (Sends.edit (fun u => u.scanLost) fun _ => rfl) fun _ =>
      Sends.bind (Sends.note _ _) fun _ => Sends.throw _

theorem sends_opEnable (hc : c.LayoutOk) (sl : Nat) :
    Sends c power (Fits c power (registerCells .sport (slaveId sl) c.aEnableStatus)) (opEnable sl) := by
  refine Sends.bind (Sends.guard _) fun _ => Sends.get_bind fun s hs _ => ?_
  rw [hs]
  refine Sends.bind (sends_writeWords hc _ (.inl rfl) _ (fun _ h => h) _) fun _ => Sends.bind ?_ fun _ => Sends.pure _
  exact Sends.update fun _ => .quiet rfl rfl rfl

theorem sends_setFlashState {Q : Frame → Prop} (f : FlashState) :
    Sends c power Q (update fun s => s.setFlashState f) := Sends.update fun _ => .quiet rfl rfl rfl

theorem sends_opErase (hc : c.LayoutOk) (sl : Nat) (r : FlashRange) :
    Sends c power (Fits c power (registerCells .sport (slaveId sl) (rangeParams c r).ctrl)) (opErase sl r) := by
  refine Sends.bind (Sends.guard _) fun _ => ?_
  refine Sends.bind (Sends.edit (fun u => { u with flash := ⟨.erasing, slaveId sl, r⟩ }) fun _ => rfl) fun _ => ?_
  refine Sends.bind (Sends.note _ _) fun _ => Sends.get_bind fun s hs _ => ?_
  rw [hs]
  refine Sends.bind (Sends.onError ?_ (sent_failNoted _)) fun _ => ?_
  · exact Sends.bind (sends_writeWords hc _ (.inl rfl) _ (fun _ h => h) _) fun _ => sends_pollStatus hc _ _ _ _ _ _ _
  · exact Sends.bind (sends_setFlashState _) fun _ => Sends.bind (Sends.note _ _) fun _ => Sends.pure _

/-- What a guard lets through, from one state. -/
theorem SendsAt.guard_bind {α : Type} {Q : Frame → Prop} {g : GuardArgs} {f : Unit → Op α}
    (h : guardError s g = none → SendsAt Q (f ()) s) : SendsAt Q (guard g >>= f) s := by
  cases hg : guardError s g with
  | none => simpa only [SendsAt, guard_bind_pass hg f] using h hg
  | some e => exact .of_error (guard_bind_refuse hg f) (.quiet rfl rfl rfl)

theorem SendsAt.get_bind {α : Type} {Q : Frame → Prop} {f : State → Op α} (h : SendsAt Q (f s) s) :
    SendsAt Q ((get : Op State) >>= f) s := h

theorem sendsAt_opProgram (image : List Byte) (s : State) :
    SendsAt (Fits s.cfg s.ses.power (registerCells .sport s.ses.flash.slave (rangeParams s.cfg s.ses.flash.range).download))
      (opProgram image) s := by
  have hc := s.params.admissible.1
  refine SendsAt.guard_bind fun _ => ?_
  have := (Sends.onError (c := s.cfg) (power := s.ses.power) (sends_download hc s.ses.flash.slave
    (rangeParams s.cfg s.ses.flash.range).download (fun _ h => h) 0 (imageWords s.cfg.imagePad image)) sent_failStep).bind
    (f := fun _ => (pure .unit : Op Value)) (fun _ => Sends.pure _)
  exact this s rfl rfl

theorem sendsAt_opFinalize (s : State) :
    SendsAt (Fits s.cfg s.ses.power (registerCells .sport s.ses.flash.slave (rangeParams s.cfg s.ses.flash.range).ctrl))
      opFinalize s := by
  have hc := s.params.admissible.1
  refine SendsAt.guard_bind fun _ => ?_
  have : Sends s.cfg s.ses.power
      (Fits s.cfg s.ses.power (registerCells .sport s.ses.flash.slave (rangeParams s.cfg s.ses.flash.range).ctrl))
      (update (fun t => t.setFlashState .finalizing) >>= fun _ => note .started .finalize >>= fun _ =>
        onError (finalizeFrames s.cfg s.ses.flash.slave s.ses.flash.range) (failNoted .finalize) >>= fun _ =>
        update (fun t => t.setFlashState .rebooting) >>= fun _ => note .completed .finalize >>= fun _ =>
        (pure .unit : Op Value)) := by
    refine Sends.bind (sends_setFlashState _) fun _ => Sends.bind (Sends.note _ _) fun _ => ?_
    refine Sends.bind (Sends.onError ?_ (sent_failNoted _)) fun _ => ?_
    · exact Sends.bind (sends_regWr hc _ (.inl rfl) _ _ fun _ h => h) fun _ => sends_pollStatus hc _ _ _ _ _ _ _
    · exact Sends.bind (sends_setFlashState _) fun _ => Sends.bind (Sends.note _ _) fun _ => Sends.pure _
  exact this s rfl rfl

theorem sendsAt_opReboot (s : State) :
    SendsAt (Fits s.cfg s.ses.power (registerCells .sport s.ses.flash.slave (rangeParams s.cfg s.ses.flash.range).ctrl))
      opReboot s := by
  have hc := s.params.admissible.1
  refine SendsAt.guard_bind fun _ => ?_
  have : Sends s.cfg s.ses.power
      (Fits s.cfg s.ses.power (registerCells .sport s.ses.flash.slave (rangeParams s.cfg s.ses.flash.range).ctrl))
      (onError (writeWords s.ses.flash.slave .sport (rangeParams s.cfg s.ses.flash.range).ctrl
        (s.cfg.vUnlockReboot.toList ++ [s.cfg.vRebootReq])) failStep >>= fun _ =>
        update (fun t => t.rebooted s.ses.flash.slave) >>= fun _ => (pure .unit : Op Value)) := by
    refine Sends.bind (Sends.onError (sends_writeWords hc _ (.inl rfl) _ (fun _ h => h) _) sent_failStep) fun _ => ?_
    exact Sends.bind (Sends.update fun _ => .quiet rfl rfl rfl) fun _ => Sends.pure _
  exact this s rfl rfl

theorem sendsAt_last {last : Op Unit} (hl : last = (opReboot >>= fun _ => pure ()) ∨ ∃ m, last = finishMFD m) (s : State) :
    SendsAt (Fits s.cfg s.ses.power (registerCells .sport s.ses.flash.slave (rangeParams s.cfg s.ses.flash.range).ctrl))
      last s := by
  have hr : SendsAt (Fits s.cfg s.ses.power (registerCells .sport s.ses.flash.slave
      (rangeParams s.cfg s.ses.flash.range).ctrl)) (opReboot >>= fun _ => pure ()) s :=
    (sendsAt_opReboot s).bind fun _ t _ _ => Sends.pure (c := t.cfg) (power := t.ses.power) () t rfl rfl
  rcases hl with rfl | ⟨m, rfl⟩
  · exact hr
  · cases m
    · exact sends_setFlashState (c := s.cfg) (power := s.ses.power) _ s rfl rfl
    · exact hr

/-- The steps of a composite after its erase, in the session the erase opened. -/
theorem sendsAt_flashRest {image : List Byte} {last : Op Unit} {sl : SlaveId} {r : FlashRange}
    (hl : last = (opReboot >>= fun _ => pure ()) ∨ ∃ m, last = finishMFD m)
    (hf : s.ses.flash.slave = sl ∧ s.ses.flash.range = r) :
    SendsAt (Fits s.cfg s.ses.power (registerCells .sport sl (rangeParams s.cfg r).ctrl ++
      registerCells .sport sl (rangeParams s.cfg r).download)) (flashRest image last) s := by
  obtain ⟨rfl, rfl⟩ := hf
  refine ((sendsAt_opProgram image s).mono fun f h => h.mono fun a ha => List.mem_append_right _ ha).bind
    fun _ t ht hst => ?_
  have e1 := (opProgram_ok ht).2.2
  have c1 := hst.cfg
  have p1 := hst.power
  rw [← c1, ← p1, ← e1]
  refine ((sendsAt_opFinalize t).mono fun f h => h.mono fun a ha => List.mem_append_left _ ha).bind fun _ u hu htu => ?_
  have e2 := (opFinalize_ok hu).2.2
  have c2 := htu.cfg
  have p2 := htu.power
  have hlast := sendsAt_last hl u
  rw [e2, c2, p2] at hlast
  refine (hlast.mono fun f h => h.mono fun a ha => List.mem_append_left _ ha).bind fun _ v _ _ => ?_
  exact Sends.pure (c := v.cfg) (power := v.ses.power) _ v rfl rfl

theorem sendsAt_composite {sl : Nat} {r : FlashRange} {image : List Byte} {last : Op Unit}
    (hl : last = (opReboot >>= fun _ => pure ()) ∨ ∃ m, last = finishMFD m) (s : State) :
    SendsAt (Fits s.cfg s.ses.power (registerCells .sport (slaveId sl) (rangeParams s.cfg r).ctrl ++
      registerCells .sport (slaveId sl) (rangeParams s.cfg r).download))
      (opErase sl r >>= fun _ => flashRest image last) s := by
  refine ((sends_opErase s.params.admissible.1 sl r s rfl rfl).mono fun f h => h.mono fun a ha =>
    List.mem_append_left _ ha).bind fun _ t ht hst => ?_
  have e1 := (opErase_ok ht).2
  have := sendsAt_flashRest (s := t) (image := image) (sl := slaveId sl) (r := r) hl (by rw [e1]; exact ⟨rfl, rfl⟩)
  rwa [hst.cfg, hst.power] at this

theorem sendsAt_opFlash (sl : Nat) (r : FlashRange) (image : List Byte) (s : State) :
    SendsAt (Fits s.cfg s.ses.power (storedCells s (.flash sl r image))) (opFlash sl r image) s := by
  have := sendsAt_composite (sl := sl) (r := r) (image := image) (.inl rfl) s
  rw [SendsAt, opFlash_eq]
  exact this

theorem sendsAt_opWriteManufacturingData (sl : Nat) (r : Record) (s : State) :
    SendsAt (Fits s.cfg s.ses.power (storedCells s (.writeManufacturingData sl r))) (opWriteManufacturingData sl r) s :=
  SendsAt.guard_bind fun _ => sendsAt_composite (.inr ⟨_, rfl⟩) s

theorem sends_opReadManufacturingData (hc : c.LayoutOk) (sl : Nat) :
    Sends c power (Fits c power []) (opReadManufacturingData sl) := by
  refine Sends.bind (Sends.guard _) fun _ => Sends.get_bind fun s _ _ => ?_
  refine Sends.bind (sends_readRecordBytes hc _ _ _ _ _) fun _ => fun s _ _ => ?_
  unfold SendsAt opDecodeMFD
  split <;> rename_i h <;> split at h <;> cases h <;> exact .quiet rfl rfl rfl

/-- The pending write of a port after the requests of an exchange. -/
theorem request_pending (u : Session) (sl : SlaveId) (p0 p1 : Option PortBytes) :
    (((({ u with curSlave := sl } : Session).request .zero p0).request .one p1).pending .zero).isSome =
        (p0.isSome || u.pendWr0) ∧
      (((({ u with curSlave := sl } : Session).request .zero p0).request .one p1).pending .one).isSome =
        (p1.isSome || u.pendWr1) := by
  cases p0 <;> cases p1 <;> cases h0 : u.pendWr0 <;> cases h1 : u.pendWr1 <;>
    simp_all [Session.request, Session.pending]

theorem sendsAt_exchangeFrames {Q : Frame → Prop} (sl : SlaveId) (h0 : Q (s.portFrame sl .zero))
    (h1 : Q (s.portFrame sl .one)) (hf : Q (s.flushFrame sl)) : SendsAt Q (exchangeFrames sl) s := by
  refine SendsAt.get_bind (SendsAt.bind (Sends.xchg (c := s.cfg) (power := s.ses.power) h0 s rfl rfl) fun _ t ht hst => ?_)
  have hpend : t.ses.pending .one = s.ses.pending .one := by
    cases ha : s.bus.nextAnswer with
    | fail l => have h := xchg_fail ha (s.portFrame sl .zero); rw [h] at ht; cases ht
    | ok rx => have h := xchg_ok ha (s.portFrame sl .zero); rw [h] at ht; cases ht; rfl
  have h1' : Q (t.portFrame sl .one) := by
    rw [State.portFrame, hst.cfg, hst.power, hpend]
    exact h1
  refine SendsAt.get_bind (SendsAt.bind (Sends.xchg (c := t.cfg) (power := t.ses.power) h1' t rfl rfl) fun _ u _ htu => ?_)
  refine Sends.bind (sends_flushFrames sl ?_ _) (fun _ => Sends.pure _) u rfl rfl
  rw [htu.cfg, htu.power, hst.cfg, hst.power]
  exact hf

/-- The frames of an exchange: of `portFrame` with the writes it requests or has pending, or of `flushFrame`. -/
theorem own_port (sl : Nat) (p0 p1 : Option PortBytes) (s : State) (p : Port) :
    Own s (.exchange sl p0 p1) ((s.beginExchange (slaveId sl) p0 p1).portFrame (slaveId sl) p) := by
  refine ⟨.inr ⟨sl, p0, p1, rfl, .inl ⟨p, rfl⟩⟩, fun x hx => ?_⟩
  obtain ⟨q0, q1⟩ := request_pending s.ses (slaveId sl) p0 p1
  have hcells := frameCells_portLayoutFrame s.params.admissible.1 (s.beginExchange (slaveId sl) p0 p1).ses.power (slaveId sl) p
    ((s.beginExchange (slaveId sl) p0 p1).ses.pending p)
  replace hx : x ∈ _ := hcells ▸ (show x ∈ frameCells s.params.cfg _ from hx)
  split at hx
  · rename_i h
    cases p
    · rw [show ((s.beginExchange (slaveId sl) p0 p1).ses.pending .zero).isSome = _ from q0] at h
      exact List.mem_append_left _ (by rw [exchangeCells, if_pos (by simpa using h)]; exact hx)
    · rw [show ((s.beginExchange (slaveId sl) p0 p1).ses.pending .one).isSome = _ from q1] at h
      exact List.mem_append_right _ (by rw [exchangeCells, if_pos (by simpa using h)]; exact hx)
  · cases hx

theorem own_flush (sl : Nat) (p0 p1 : Option PortBytes) (s : State) :
    Own s (.exchange sl p0 p1) (s.flushFrame (slaveId sl)) := by
  refine ⟨.inr ⟨sl, p0, p1, rfl, .inr rfl⟩, fun x hx => ?_⟩
  rw [State.flushFrame, frameCells_portLayoutFrame s.params.admissible.1] at hx
  cases hx

theorem sendsAt_opExchange (sl : Nat) (p0 p1 : Option PortBytes) (s : State) :
    SendsAt (Own s (.exchange sl p0 p1)) (opExchange sl p0 p1) s := by
  refine SendsAt.guard_bind fun _ => ?_
  have hpow : (s.beginExchange (slaveId sl) p0 p1).ses.power = s.ses.power := by cases p0 <;> cases p1 <;> rfl
  have hbegin : Sent (Own s (.exchange sl p0 p1)) s (s.beginExchange (slaveId sl) p0 p1) := .quiet rfl rfl hpow
  refine SendsAt.bind (x := update fun s => s.beginExchange (slaveId sl) p0 p1) (.of_ok (a := ()) rfl hbegin)
    fun _ t ht hst => ?_
  cases ht
  refine SendsAt.bind (x := update State.sel) (Sends.sel (c := s.cfg) (power := s.ses.power) _ rfl hst.power)
    fun _ t ht hst' => ?_
  cases ht
  have hflush : Own s (.exchange sl p0 p1) ((s.beginExchange (slaveId sl) p0 p1).sel.flushFrame (slaveId sl)) := by
    have := own_flush sl p0 p1 s
    rw [State.flushFrame, ← hpow] at this
    exact this
  have hbody : SendsAt (Own s (.exchange sl p0 p1))
      (exchangeBody (slaveId sl)) (s.beginExchange (slaveId sl) p0 p1).sel := by
    refine SendsAt.bind (sendsAt_exchangeFrames _ (own_port sl p0 p1 s .zero) (own_port sl p0 p1 s .one) hflush)
      fun rs u _ hu => ?_
    have : Sends s.cfg s.ses.power (Own s (.exchange sl p0 p1))
        ((get : Op State) >>= fun s => update (fun t => t.withSes
          { t.ses with errSummary := some (respErr s.cfg (rs.getD (1 + s.cfg.lag) [])) }) >>= fun _ =>
          (pure (.ports (respPortBytes s.cfg (rs.getD s.cfg.lag [])) (respPortBytes s.cfg (rs.getD (1 + s.cfg.lag) []))
            (respErr s.cfg (rs.getD (1 + s.cfg.lag) []))) : Op Value)) :=
      Sends.get_bind fun s' _ _ => Sends.bind (Sends.edit (fun u => { u with errSummary := _ }) fun _ => rfl) fun _ =>
        Sends.pure _
    exact this u hu.cfg (hu.power.trans (hst'.power.trans hst.power))
  cases hb : exchangeBody (slaveId sl) (s.beginExchange (slaveId sl) p0 p1).sel with
  | ok a v => exact .of_ok (withFinally_ok hb _) ((hbody.ok hb).trans ⟨⟨[.select false], rfl, by simp [sentFrames]⟩, rfl, rfl⟩)
  | error e v =>
    exact .of_error (withFinally_error hb _) ((hbody.error hb).trans ⟨⟨[.select false], rfl, by simp [sentFrames]⟩, rfl, rfl⟩)

/-! ## Every instruction -/

/-- Whatever is answered, an operation sends frames of the builders that store to its own cells. -/
theorem sendsAt_body {i : Instr} {body : Op Value} (hb : bodyOf i = some body) (s : State) (hi : ∀ b, i ≠ .setPower b)
    (hr : i ≠ .reset) : SendsAt (Own s i) body s := by
  have hc := s.params.admissible.1
  have pure' : (∃ v, body s = .ok v s) ∨ (∃ e, body s = .error e s) →
      SendsAt (Own s i) body s := by
    rintro (⟨v, h⟩ | ⟨e, h⟩)
    · exact .of_ok h (.quiet rfl rfl rfl)
    · exact .of_error h (.quiet rfl rfl rfl)
  cases i <;> cases hb
  case setPower b => exact absurd rfl (hi b)
  case reset => exact absurd rfl hr
  case encode => exact pure' (pure_body (i := .encode ..) rfl (.inl rfl) s)
  case decode => exact pure' (pure_body (i := .decode ..) rfl (.inr (.inl rfl)) s)
  case encodeMFD => exact pure' (pure_body (i := .encodeMFD ..) rfl (.inr (.inr (.inl rfl))) s)
  case decodeMFD => exact pure' (pure_body (i := .decodeMFD ..) rfl (.inr (.inr (.inr rfl))) s)
  case writeRegister => exact (sends_opWriteRegister hc _ _ _ _ s rfl rfl).mono fun _ h => h.own
  case readRegister => exact (sends_opReadRegister hc _ _ _ s rfl rfl).mono fun _ h => h.own
  case getSlaveInfo => exact (sends_opGetSlaveInfo hc _ s rfl rfl).mono fun _ h => h.own
  case exchange => exact sendsAt_opExchange _ _ _ s
  case scan => exact (sends_opScan hc _ s rfl rfl).mono fun _ h => h.own
  case enable => exact (sends_opEnable hc _ s rfl rfl).mono fun _ h => h.own
  case erase => exact (sends_opErase hc _ _ s rfl rfl).mono fun _ h => h.own
  case program => exact (sendsAt_opProgram _ s).mono fun _ h => h.own
  case finalize => exact (sendsAt_opFinalize s).mono fun _ h => h.own
  case reboot => exact (sendsAt_opReboot s).mono fun _ h => h.own
  case flash => exact (sendsAt_opFlash _ _ _ s).mono fun _ h => h.own
  case writeManufacturingData => exact (sendsAt_opWriteManufacturingData _ _ s).mono fun _ h => h.own
  case readManufacturingData => exact (sends_opReadManufacturingData hc _ s rfl rfl).mono fun _ h => h.own
  case abortFlash =>
    refine .of_ok (opAbortFlash_run s) ?_
    split
    · exact .quiet rfl rfl rfl
    · exact .quiet rfl rfl rfl

@[simp] theorem storedCells_enter (s : State) (op : OpName) (i : Instr) : storedCells (s.enter op) i = storedCells s i := by
  cases i <;> rfl

theorem own_enter {s : State} {op : OpName} {i : Instr} {f : Frame} (h : Own (s.enter op) i f) : Own s i f := by
  refine ⟨?_, fun a ha => storedCells_enter s op i ▸ h.2 a ha⟩
  rcases h.1 with h | ⟨sl, p0, p1, rfl, ⟨p, rfl⟩ | rfl⟩
  · exact .inl h
  · refine .inr ⟨sl, p0, p1, rfl, .inl ⟨p, ?_⟩⟩
    cases p0 <;> cases p1 <;> rfl
  · exact .inr ⟨sl, p0, p1, rfl, .inr rfl⟩

/-- The new frames of a host operation (R97, 20_memory.md R62–R69). -/
theorem exec_sends {i : Instr} {op : OpName} (ho : opOf i = some op) (h : exec i s = .next t) :
    ∀ f ∈ sentFrames (newEvents s t), Own s i f := by
  obtain ⟨body, hb⟩ := bodyOf_of_opOf ho
  rw [exec_body hb ho] at h
  cases h
  have quietly : ∀ es, (hostOp op body s).hist = s.hist ++ es → sentFrames es = [] →
      ∀ f ∈ sentFrames (newEvents s (hostOp op body s)), Own s i f := by
    intro es h1 h2
    rw [newEvents_of_append h1, h2]
    simp
  by_cases hr : i = .reset
  · subst hr
    cases hb
    exact quietly [.ret op (.ok .unit)] rfl rfl
  by_cases hi : ∃ b, i = .setPower b
  · obtain ⟨b, rfl⟩ := hi
    cases hb
    exact quietly [.ret op (.ok .unit)] rfl rfl
  · have hsend := sendsAt_body hb (s.enter op) (fun b h => hi ⟨b, h⟩) hr
    unfold hostOp
    cases hx : body (s.enter op) with
    | ok v u =>
      obtain ⟨es, h1, h2⟩ := (hsend.ok hx).events
      have hn : newEvents s (u.ret op (.ok v)) = es ++ [.ret op (.ok v)] := newEvents_of_append (by simp [h1])
      show ∀ f ∈ sentFrames (newEvents s (u.ret op (.ok v))), _
      rw [hn, sentFrames_append, show sentFrames [_] = [] from rfl, List.append_nil]
      exact fun f hf => own_enter (h2 f hf)
    | error e u =>
      obtain ⟨es, h1, h2⟩ := (hsend.error hx).events
      have hn : newEvents s (u.ret op (.error e)) = es ++ [.ret op (.error e)] := newEvents_of_append (by simp [h1])
      show ∀ f ∈ sentFrames (newEvents s (u.ret op (.error e))), _
      rw [hn, sentFrames_append, show sentFrames [_] = [] from rfl, List.append_nil]
      exact fun f hf => own_enter (h2 f hf)

/-! ## The bytes of the target -/

theorem get_put16_of_notMem {m : Memory} {k a : Nat} {v : Word16} (h : a ∉ [k, k + 1]) : (m.put16 k v).get a = m.get a :=
  Memory.get_put16_of_ne _ _ _ (by simp at h; omega)

theorem get_put32_of_notMem {m : Memory} {k a : Nat} {v : Word32} (h : a ∉ [k, k + 1, k + 2, k + 3]) :
    (m.put32 k v).get a = m.get a :=
  Memory.get_put32_of_ne _ _ _ (by simp at h; omega)

/-- What lies outside the cells of a frame kind stays. -/
theorem get_effect {b : Bus} {i : Instr} (hi : opOf i = none) {a : Nat} (h : a ∉ storedCells s i) :
    (targetEffect c i b).mem.get a = b.mem.get a := by
  cases i <;> cases hi
  case sportWr => exact get_put16_of_notMem h
  case busctrlWr => exact get_put16_of_notMem h
  case port0Wr => exact get_put32_of_notMem h
  case port1Wr => exact get_put32_of_notMem h
  all_goals rfl

theorem get_accept {b : Bus} {tx : Frame} {a : Nat} (h : a ∉ frameCells c tx) :
    (b.accept c tx).mem.get a = b.mem.get a := by
  unfold frameCells at h
  unfold Bus.accept
  split
  · rename_i i hi
    rw [hi] at h
    cases i
    case sportWr => exact get_put16_of_notMem h
    case busctrlWr => exact get_put16_of_notMem h
    case port0Wr => exact get_put32_of_notMem h
    case port1Wr => exact get_put32_of_notMem h
    all_goals rfl
  · rfl

theorem get_replay {b : Bus} {ps : List (Frame × Frame)} {a : Nat} (h : ∀ p ∈ ps, a ∉ frameCells c p.1) :
    (b.replay c ps).mem.get a = b.mem.get a := by
  induction ps generalizing b with
  | nil => rfl
  | cons p ps ih =>
    rw [show b.replay c (p :: ps) = ((b.takeAnswer c).accept c p.1).replay c ps from rfl,
      ih fun q hq => h q (List.mem_cons_of_mem _ hq), get_accept (h p (by simp))]
    rfl

theorem framePairs_sent {es : List Event} {p : Frame × Frame} (h : p ∈ framePairs es) : p.1 ∈ sentFrames es := by
  induction es with
  | nil => cases h
  | cons e es ih =>
    cases e
    case frame tx rx =>
      rcases List.mem_cons.1 h with rfl | h
      · exact List.mem_cons_self
      · exact List.mem_cons_of_mem _ (ih h)
    case txFail tx => exact List.mem_cons_of_mem _ (ih h)
    all_goals exact ih h

/-- Whatever is answered, a byte of the target outside the cells of a frame kind stays as it is. -/
theorem serve_stores {i : Instr} (ho : opOf i = none) {a : Nat} (ha : a ∉ storedCells s i) :
    (s.serve (targetEffect s.cfg i)).bus.mem.get a = s.bus.mem.get a :=
  Bus.serve_keeps (P := fun b => b.mem.get a = s.bus.mem.get a) rfl (get_effect (s := s) ho ha)

/-- What the frames of a run do not store to stays as it is, whatever is answered. -/
theorem Ran.stores {b : Bool} {o : Option Err} {u : State} {es : List Event} {a : Nat} (h : Ran b s o u es)
    (ha : ∀ f ∈ sentFrames es, a ∉ frameCells s.cfg f) : u.bus.mem.get a = s.bus.mem.get a := by
  have hrep : (s.bus.replay s.cfg (framePairs es)).mem.get a = s.bus.mem.get a :=
    get_replay fun p hp => ha _ (framePairs_sent hp)
  rcases h.outcome with ⟨-, -, -, hb⟩ | ⟨tx, htx, -, -, hb⟩
  · exact (congrArg (fun b : Bus => b.mem.get a) hb).trans hrep
  · have hmem : tx ∈ sentFrames es := by rw [h.order, htx]; simp
    rcases hb with hb | hb
    · exact (congrArg (fun b : Bus => b.mem.get a) hb).trans hrep
    · exact ((congrArg (fun b : Bus => b.mem.get a) hb).trans (get_accept (ha _ hmem))).trans hrep

end Sys2Proof.Machine
end

