-- ==== Sys2Proof/Laws/Summary.lean ====
section
/-! SUPPORT. Whole-machine laws: the write matrix over all instructions (spec/10_state.md R40), one `Return` per operation
(R38), and the invariant every step keeps (spec/70_reset_and_hazards.md R196). -/

namespace Sys2Proof.Machine

variable {s t : State} {i : Instr}

/-! ## The write matrix -/

theorem InfoOnly.fields {j : SlaveId} {u v : Session} (h : InfoOnly j u v) :
    EntryFields (fun e f => f = { e with info := f.info }) j u v := by
  refine ⟨by rw [h]; rfl, fun k hk => ?_, ?_⟩
  · rw [h]; exact Session.entry_setEntry_ne u _ (Ne.symm hk)
  · have := congrArg (fun x => x.entry j) h
    rw [show (u.setEntry j { u.entry j with info := (v.entry j).info }).entry j = _ from
      Session.entry_setEntry_self u j _] at this
    exact this

theorem EnabledOnly.fields {j : SlaveId} {u v : Session} (h : EnabledOnly j u v) :
    EntryFields (fun e f => f = { e with enabled := f.enabled }) j u v := by
  refine ⟨by rw [h]; rfl, fun k hk => ?_, ?_⟩
  · rw [h]; exact Session.entry_setEntry_ne u _ (Ne.symm hk)
  · have := congrArg (fun x => x.entry j) h
    rw [show (u.setEntry j { u.entry j with enabled := (v.entry j).enabled }).entry j = _ from
      Session.entry_setEntry_self u j _] at this
    exact this

theorem EntryFields.eq {keep : SlaveEntry → SlaveEntry → Prop} {j : SlaveId} {u v : Session} (h : EntryFields keep j u v) :
    v = { u.setEntry j (v.entry j) with sel := v.sel, dead := v.dead, pc := v.pc } := by
  have hs := Session.slaves_setEntry (u := u) (v := v) (i := j) rfl h.others
  have := h.rest
  rw [hs] at this
  exact this

theorem opFlash_fields (sl : Nat) (r : FlashRange) (image : List Byte) (s : State) :
    CompositeFields (slaveId sl) s.ses (hostOp .flash (opFlash sl r image) s).ses := by
  refine hostOp_composite .flash s ?_
  rw [opFlash_eq]
  exact composite_fields lastStep_reboot _

theorem opWriteManufacturingData_fields (sl : Nat) (r : Record) (s : State) :
    CompositeFields (slaveId sl) s.ses (hostOp .writeManufacturingData (opWriteManufacturingData sl r) s).ses := by
  refine hostOp_composite .writeManufacturingData s ?_
  cases hg : guardError (s.enter .writeManufacturingData) { slave := sl, record := r, mode := .flashStart } with
  | none =>
    rw [opWriteManufacturingData_pass hg]
    exact composite_fields (lastStep_finishMFD _) _
  | some e =>
    rw [show opWriteManufacturingData sl r (s.enter .writeManufacturingData) = .error e (s.enter .writeManufacturingData)
      from guard_bind_refuse hg _]
    exact ⟨rfl, fun _ _ => rfl, rfl⟩

theorem opReboot_fields (s : State) :
    RebootFields s.ses.flash.slave s.ses (hostOp .reboot opReboot s).ses := by
  have h := runsAt_opReboot (b := false) (s := s.enter .reboot) (by simp)
  unfold hostOp
  cases hx : opReboot (s.enter .reboot) with
  | ok v u =>
    have := (h.of_ok hx).1.rebootFields
    exact ((RebootFields.sys _ _ s.ses.sel s.ses.dead _).trans this).trans (RebootFields.sys _ u.ses u.ses.sel u.ses.dead .idle)
  | error e u =>
    have := (h.of_error hx).1.rebootFields
    exact ((RebootFields.sys _ _ s.ses.sel s.ses.dead _).trans this).trans (RebootFields.sys _ u.ses u.ses.sel u.ses.dead .idle)

theorem pure_writes {op : OpName} {body : Op Value} (hb : bodyOf i = some body)
    (hi : opOf i = some .encode ∨ opOf i = some .decode ∨ opOf i = some .encodeMFD ∨ opOf i = some .decodeMFD)
    (s : State) : (hostOp op body s).ses = { s.ses with pc := .idle } := by
  rcases pure_body hb hi (s.enter op) with ⟨v, h⟩ | ⟨e, h⟩
  · rw [hostOp_ok h]; rfl
  · rw [hostOp_error h]; rfl

/-- A relation that holds of the end of an operation, whose position is idle. -/
theorem with_idle {R : Session → Prop} {op : OpName} {body : Op Value}
    (h : R (hostOp op body s).ses) : R { (hostOp op body s).ses with pc := .idle } := by
  rwa [show ({ (hostOp op body s).ses with pc := .idle } : Session) = (hostOp op body s).ses by
    rw [← hostOp_pc op body s]]

theorem hostOp_writesOnly {op : OpName} {body : Op Value} (hb : bodyOf i = some body) (ho : opOf i = some op) (s : State) :
    writesOnly i s.ses (hostOp op body s).ses := by
  have hp := hostOp_pc op body s
  cases i <;> cases hb <;> cases ho
  case setPower => rfl
  case reset => rfl
  case encode => exact pure_writes (i := .encode ..) rfl (.inl rfl) s
  case decode => exact pure_writes (i := .decode ..) rfl (.inr (.inl rfl)) s
  case encodeMFD => exact pure_writes (i := .encodeMFD ..) rfl (.inr (.inr (.inl rfl))) s
  case decodeMFD => exact pure_writes (i := .decodeMFD ..) rfl (.inr (.inr (.inr rfl))) s
  case writeRegister sl ch a v =>
    have := hostOp_sysOnly (fun b p => runs_opWriteRegister sl ch a v) .writeRegister s
    rw [SysOnly, hp] at this; exact this
  case readRegister sl ch a =>
    have := hostOp_sysOnly (fun b p => runs_opReadRegister sl ch a) .readRegister s
    rw [SysOnly, hp] at this; exact this
  case readManufacturingData sl =>
    have := hostOp_sysOnly (fun b p => runs_opReadManufacturingData sl) .readManufacturingData s
    rw [SysOnly, hp] at this; exact this
  case getSlaveInfo sl =>
    have := hostOp_entryFields (keep := fun e f => f = { e with info := f.info }) (fun _ => rfl)
      (fun d e f h1 h2 => by rw [h2, h1]) (fun u v h => h.fields) (fun b p => runs_opGetSlaveInfo sl) .getSlaveInfo s
    have he := this.eq
    rw [this.self, hp] at he; exact he
  case exchange sl p0 p1 =>
    have := hostOp_exchangeOnly (fun b p => runs_opExchange sl p0 p1) .exchange s
    rw [ExchangeOnly, hp] at this; exact this
  case scan n =>
    have := hostOp_scanFields (fun b p => runs_opScan n) .scan s
    rw [ScanFields, hp] at this; exact this
  case enable sl =>
    have := hostOp_entryFields (keep := fun e f => f = { e with enabled := f.enabled }) (fun _ => rfl)
      (fun d e f h1 h2 => by rw [h2, h1]) (fun u v h => h.fields) (fun b p => runs_opEnable sl) .enable s
    have he := this.eq
    rw [this.self, hp] at he; exact he
  case erase sl r =>
    have := hostOp_flashFields (fun b p => runs_opErase sl r) .erase s
    rw [FlashFields, hp] at this; exact this
  case program image =>
    have := hostOp_flashStateFields (fun b p => runs_opProgram (fun _ _ h => h) image) .program s
    rw [FlashStateFields, hp] at this; exact this
  case finalize =>
    have := hostOp_flashStateFields (fun b p => runs_opFinalize fun _ _ h => h) .finalize s
    rw [FlashStateFields, hp] at this; exact this
  case reboot =>
    have := (opReboot_fields s).eq
    rw [hp] at this; exact this
  case abortFlash =>
    show (hostOp .abortFlash opAbortFlash s).ses = _
    simp only [hostOp, opAbortFlash_run]
    split <;> rfl
  case flash sl r image =>
    have := (opFlash_fields sl r image s).eq
    rw [hp] at this; exact this
  case writeManufacturingData sl r =>
    have := (opWriteManufacturingData_fields sl r s).eq
    rw [hp] at this; exact this

/-! ## Refusals and the flash engine -/

/-- An operation whose `guard` fails ends at once (60_exceptions.md R164). -/
theorem body_refuse {body : Op Value} {g : GuardArgs} {e : Err} (hb : bodyOf i = some body) (hg : guardOf i = some g)
    (h : guardError s g = some e) : body s = .error e s := by
  cases i <;> cases hb <;> cases hg
  case flash sl r image =>
    show (opErase sl r >>= _) s = _
    exact Op.bind_error (guard_bind_refuse h _)
  all_goals exact guard_bind_refuse h _

theorem hostOp_refuse {op : OpName} {body : Op Value} {g : GuardArgs} {e : Err} (hb : bodyOf i = some body)
    (hg : guardOf i = some g) (h : guardError s g = some e) : hostOp op body s = s.returned op (.error e) s.ses := by
  rw [hostOp_error (body_refuse hb hg (s := s.enter op) (by simpa using h))]
  simp [State.ret, State.returned, State.after, framePairs, Bus.replay, State.enter, State.withSes]

/-- An operation of the flash engine whose `guard` passes ends in the state it aims at, or `Failed` (R135). -/
theorem flash_body {body : Op Value} {g : GuardArgs} {st : FlashState} (hb : bodyOf i = some body)
    (hg : guardOf i = some g) (hf : flashGoal i = some st) (h : guardError s g = none) :
    (∀ v t, body s = .ok v t → v = .unit ∧ t.ses.flash = flashRecord i s.ses.flash st) ∧
      ∀ e t, body s = .error e t → t.ses.flash = flashRecord i s.ses.flash .failed := by
  cases i <;> cases hf <;> cases hb <;> cases hg
  case erase sl r =>
    refine ⟨fun v t hx => opErase_ok hx, fun e t hx => ?_⟩
    rcases opErase_error hx with ⟨h', -⟩ | ⟨-, h'⟩
    · rw [h] at h'; cases h'
    · exact h'
  case program image =>
    refine ⟨fun v t hx => ?_, fun e t hx => ?_⟩
    · obtain ⟨h1, h2, h3⟩ := opProgram_ok hx
      refine ⟨h1, ?_⟩
      rw [h3]
      show s.ses.flash = { s.ses.flash with state := .programming }
      rw [← h2]
    · rcases opProgram_error hx with ⟨h', -⟩ | ⟨-, h'⟩
      · rw [h] at h'; cases h'
      · exact h'
  case finalize =>
    refine ⟨fun v t hx => ⟨(opFinalize_ok hx).1, (opFinalize_ok hx).2.2⟩, fun e t hx => ?_⟩
    rcases opFinalize_error hx with ⟨h', -⟩ | ⟨-, h'⟩
    · rw [h] at h'; cases h'
    · exact h'
  case reboot =>
    refine ⟨fun v t hx => ⟨(opReboot_ok hx).1, (opReboot_ok hx).2.2.1⟩, fun e t hx => ?_⟩
    rcases opReboot_error hx with ⟨h', -⟩ | ⟨-, h'⟩
    · rw [h] at h'; cases h'
    · exact h'
  case flash sl r image =>
    refine ⟨fun v t hx => ?_, fun e t hx => ?_⟩
    · rw [opFlash_eq] at hx; exact (composite_result lastStep_reboot h).1 v hx
    · rw [opFlash_eq] at hx; exact (composite_result lastStep_reboot h).2 e hx
  case writeManufacturingData sl r =>
    refine ⟨fun v t hx => ?_, fun e t hx => ?_⟩
    · rw [opWriteManufacturingData_pass h] at hx
      exact (composite_result (lastStep_finishMFD _) (guardError_flashStart h)).1 v hx
    · rw [opWriteManufacturingData_pass h] at hx
      exact (composite_result (lastStep_finishMFD _) (guardError_flashStart h)).2 e hx

/-- The same of the whole operation: its result and its flash record. -/
theorem hostOp_flash {op : OpName} {body : Op Value} {g : GuardArgs} {st : FlashState} (hb : bodyOf i = some body)
    (hg : guardOf i = some g) (hf : flashGoal i = some st) (h : guardError s g = none) :
    ((hostOp op body s).ses.flash = flashRecord i s.ses.flash st ∧
        returns (newEvents s (hostOp op body s)) = [(op, .ok .unit)]) ∨
      (hostOp op body s).ses.flash = flashRecord i s.ses.flash .failed ∧
        ∃ e, returns (newEvents s (hostOp op body s)) = [(op, .error e)] := by
  have hr : i ≠ .reset := by rintro rfl; cases hf
  have hfl := flash_body (s := s.enter op) hb hg hf (by simpa using h)
  have hev : ∀ {o r u}, Path false AnyEdit (s.enter op) o u →
      returns (newEvents s (u.ret op r)) = [(op, r)] := by
    intro o r u hp
    obtain ⟨es, he⟩ := hp.leaves
    rw [newEvents_of_append (es := es ++ [.ret op r]) (by simp [he.hist]), returns_append, he.rets]
    rfl
  have hrun := runs_body hb hr false s.params (s.enter op) rfl (by simp)
  cases hbx : body (s.enter op) with
  | ok v u =>
    obtain ⟨rfl, h2⟩ := hfl.1 v u hbx
    rw [hostOp_ok hbx]
    exact .inl ⟨h2, hev (hrun.of_ok hbx).1⟩
  | error e u =>
    rw [hostOp_error hbx]
    exact .inr ⟨hfl.2 e u hbx, e, hev (hrun.of_error hbx).1⟩

/-! ## The invariant -/

/-- What an operation that is not of the flash engine leaves of the flash record. -/
theorem flash_of_writesOnly {u v : Session} (h : writesOnly i u v) (hf : flashGoal i = none) (ho : opOf i ≠ none)
    (hr : i ≠ .reset) (ha : i ≠ .abortFlash) : v.flash = u.flash := by
  cases i
  case port0Rd => exact absurd rfl ho
  case port1Rd => exact absurd rfl ho
  case sportRd => exact absurd rfl ho
  case busctrlRd => exact absurd rfl ho
  case port0Wr => exact absurd rfl ho
  case port1Wr => exact absurd rfl ho
  case sportWr => exact absurd rfl ho
  case busctrlWr => exact absurd rfl ho
  case reset => exact absurd rfl hr
  case abortFlash => exact absurd rfl ha
  case erase => cases hf
  case program => cases hf
  case finalize => cases hf
  case reboot => cases hf
  case flash => cases hf
  case writeManufacturingData => cases hf
  all_goals
    unfold writesOnly at h
    simp only at h
    rw [h]
    first
      | done
      | rfl

/-- An exchange that passes `guard` leaves no write pending, whatever is answered (R116). -/
theorem exchange_pend {sl : Nat} {p0 p1 : Option PortBytes} (hg : guardError s { slave := sl } = none) :
    (hostOp .exchange (opExchange sl p0 p1) s).ses.pendWr0 = false ∧
      (hostOp .exchange (opExchange sl p0 p1) s).ses.pendWr1 = false := by
  have hp : opExchange sl p0 p1 (s.enter .exchange) = withFinally (exchangeBody (slaveId sl)) State.endExchange
      (((s.enter .exchange).beginExchange (slaveId sl) p0 p1).sel) := guard_bind_pass (by simpa using hg) _
  unfold hostOp
  rw [hp]
  unfold withFinally
  split <;> rename_i hx <;> split at hx <;> cases hx <;> exact ⟨rfl, rfl⟩

/-- No other operation writes the pending flags (R40). -/
theorem writesOnly_pend {u v : Session} (h : writesOnly i u v) (hi : ∀ sl p0 p1, i ≠ .exchange sl p0 p1)
    (hr : i ≠ .reset) : v.pendWr0 = u.pendWr0 ∧ v.pendWr1 = u.pendWr1 := by
  cases i
  case exchange => exact absurd rfl (hi _ _ _)
  case reset => exact absurd rfl hr
  all_goals
    unfold writesOnly at h
    simp only at h
    rw [h]
    exact ⟨rfl, rfl⟩

/-- Pending writes are cleared by an exchange, and no other instruction sets one. -/
theorem pend_of_exec (h : exec i s = .next t) (h0 : s.ses.pendWr0 = false) (h1 : s.ses.pendWr1 = false) :
    t.ses.pendWr0 = false ∧ t.ses.pendWr1 = false := by
  cases ho : opOf i with
  | none =>
    rw [exec_frame ho] at h
    cases h
    exact ⟨h0, h1⟩
  | some op =>
    obtain ⟨body, hb⟩ := bodyOf_of_opOf ho
    rw [exec_body hb ho] at h
    cases h
    by_cases hi : ∃ sl p0 p1, i = .exchange sl p0 p1
    · obtain ⟨sl, p0, p1, rfl⟩ := hi
      cases hb
      cases ho
      cases hg : guardError s { slave := sl } with
      | some e =>
        rw [hostOp_refuse (i := .exchange sl p0 p1) rfl rfl hg]
        exact ⟨h0, h1⟩
      | none => exact exchange_pend hg
    · by_cases hr : i = .reset
      · subst hr
        cases hb
        exact ⟨rfl, rfl⟩
      · obtain ⟨w0, w1⟩ := writesOnly_pend (hostOp_writesOnly hb ho s) (fun _ _ _ h => hi ⟨_, _, _, h⟩) hr
        exact ⟨w0.trans h0, w1.trans h1⟩

/-- The part of `Settled` about the flash engine. -/
structure Session.Steady (u : Session) : Prop where
  notErasing : u.flash.state ≠ .erasing
  notFinalizing : u.flash.state ≠ .finalizing
  deadNotBusy : u.dead = true → u.busy = false

theorem steady_of_flash {u : Session} (h : u.flash.state = .programming ∨ u.flash.state = .rebooting)
    (hd : u.dead = false) : u.Steady := by
  rcases h with h | h <;> exact ⟨by simp [h], by simp [h], by simp [hd]⟩

theorem steady_of_closed {u : Session} (h : u.flash.state = .failed ∨ u.flash.state = .done) : u.Steady := by
  rcases h with h | h <;> exact ⟨by simp [h], by simp [h], by simp [Session.busy, h, FlashState.sessionOpen]⟩

theorem steady_reset : Session.reset.Steady := ⟨by decide, by decide, by decide⟩

/-- The operations without a guard: the codecs, `setPower` and `abortFlash`. -/
theorem unguarded_steady' {op : OpName} {body : Op Value} (hb : bodyOf i = some body) (ho : opOf i = some op)
    (hg : guardOf i = none) (hr : i ≠ .reset) (hs : s.ses.Steady) : (hostOp op body s).ses.Steady := by
  cases i <;> cases hg <;> cases hb <;> cases ho
  case setPower => exact ⟨hs.notErasing, hs.notFinalizing, hs.deadNotBusy⟩
  case reset => exact absurd rfl hr
  case abortFlash =>
    show (hostOp .abortFlash opAbortFlash s).ses.Steady
    simp only [hostOp, opAbortFlash_run]
    split
    · exact steady_of_closed (.inl rfl)
    · exact ⟨hs.notErasing, hs.notFinalizing, hs.deadNotBusy⟩
  case encode =>
    rw [pure_writes (i := .encode ..) rfl (.inl rfl) s]
    exact ⟨hs.notErasing, hs.notFinalizing, hs.deadNotBusy⟩
  case decode =>
    rw [pure_writes (i := .decode ..) rfl (.inr (.inl rfl)) s]
    exact ⟨hs.notErasing, hs.notFinalizing, hs.deadNotBusy⟩
  case encodeMFD =>
    rw [pure_writes (i := .encodeMFD ..) rfl (.inr (.inr (.inl rfl))) s]
    exact ⟨hs.notErasing, hs.notFinalizing, hs.deadNotBusy⟩
  case decodeMFD =>
    rw [pure_writes (i := .decodeMFD ..) rfl (.inr (.inr (.inr rfl))) s]
    exact ⟨hs.notErasing, hs.notFinalizing, hs.deadNotBusy⟩

theorem unguarded_steady {op : OpName} (ho : opOf i = some op) (hg : guardOf i = none) (hr : i ≠ .reset)
    (h : exec i s = .next t) (hs : s.ses.Steady) : t.ses.Steady := by
  obtain ⟨body, hb⟩ := bodyOf_of_opOf ho
  rw [exec_body hb ho] at h
  cases h
  exact unguarded_steady' hb ho hg hr hs

/-- The state an operation of the flash engine aims at is one that outlives an operation. -/
theorem steady_of_goal {u : Session} {st : FlashState} (hf : flashGoal i = some st) (h : u.flash.state = st)
    (hd : u.dead = false) : u.Steady := by
  cases i <;> cases hf
  case erase => exact steady_of_flash (.inl h) hd
  case program => exact steady_of_flash (.inl h) hd
  case finalize => exact steady_of_flash (.inr h) hd
  case reboot => exact steady_of_closed (.inr h)
  case flash => exact steady_of_closed (.inr h)
  case writeManufacturingData => exact steady_of_closed (.inr h)

theorem flashRecord_state {st : FlashState} (hf : flashGoal i = some st) (f : FlashSession) (st' : FlashState) :
    (flashRecord i f st').state = st' := by
  cases i <;> cases hf <;> rfl

theorem exec_steady (h : exec i s = .next t) (hs : s.ses.Steady) : t.ses.Steady := by
  cases ho : opOf i with
  | none =>
    rw [exec_frame ho] at h
    cases h
    exact hs
  | some op =>
    by_cases hr : i = .reset
    · subst hr
      cases ho
      rw [exec_reset] at h
      cases h
      exact steady_reset
    obtain ⟨es, r, u, h1, h2, h3, -⟩ := exec_law ho hr s
    have htu : t = u.ret op r := by rw [h1] at h; cases h; rfl
    cases hg : guardOf i with
    | none => exact unguarded_steady ho hg hr h hs
    | some g =>
      cases hge : guardError s g with
      | some e =>
        obtain ⟨body, hb⟩ := bodyOf_of_opOf ho
        rw [exec_body hb ho, hostOp_refuse hb hg hge] at h
        cases h
        exact ⟨hs.notErasing, hs.notFinalizing, hs.deadNotBusy⟩
      | none =>
        have halive := (guardError_mode hge).1
        cases hfl : flashGoal i with
        | none =>
          have hbusy : s.ses.busy = false := by
            have hm := (guardError_mode hge).2
            have hmode : g.mode = .bus := by cases i <;> cases hfl <;> cases hg <;> rfl
            rw [hmode] at hm
            simpa [modeError] using hm
          obtain ⟨body, hb⟩ := bodyOf_of_opOf ho
          have hw := hostOp_writesOnly hb ho s
          rw [exec_body hb ho] at h
          cases h
          have hflash := flash_of_writesOnly hw hfl (by simp [ho]) hr (by rintro rfl; cases hg)
          refine ⟨hflash ▸ hs.notErasing, hflash ▸ hs.notFinalizing, fun _ => ?_⟩
          rw [Session.busy, hflash]
          exact hbusy
        | some st =>
          obtain ⟨body, hb⟩ := bodyOf_of_opOf ho
          have ht : t = hostOp op body s := by rw [exec_body hb ho] at h; cases h; rfl
          rcases ht ▸ hostOp_flash hb hg hfl hge with ⟨hf, hret⟩ | ⟨hf, -⟩
          · have hstate : t.ses.flash.state = st := by
              rw [hf, flashRecord_state hfl]
            have hdead : t.ses.dead = false := by
              have hr' : r = .ok .unit := by
                rw [htu, newEvents_of_append (es := es ++ [.ret op r]) (by simp [h2.hist]), returns_append, h2.rets] at hret
                simpa [returns] using hret
              subst hr'
              rw [htu]
              rcases h2.outcome with ⟨-, hd, -⟩ | ⟨_, -, -, hc, -⟩
              · exact hd.trans halive
              · cases hc
            exact steady_of_goal hfl hstate hdead
          · refine steady_of_closed (.inl ?_)
            rw [hf, flashRecord_state hfl]

theorem exec_sound (h : exec i s = .next t) (hs : s.bus.Sound s.cfg) : t.bus.Sound t.cfg := by
  cases ho : opOf i with
  | none =>
    rw [exec_frame ho] at h
    cases h
    exact Bus.serve_keeps (P := fun b => b.Sound s.cfg) hs.takeAnswer (hs.takeAnswer.effect i)
  | some op =>
    by_cases hr : i = .reset
    · subst hr
      cases ho
      rw [exec_reset] at h
      cases h
      exact hs
    · obtain ⟨es, r, u, h1, -, h3, -⟩ := exec_law ho hr s
      rw [h1] at h
      cases h
      exact h3.sound (s := s.enter op) hs

/-- No instruction puts a frame on the Transport. -/
theorem exec_line (h : exec i s = .next t) : t.bus.line = s.bus.line := by
  cases ho : opOf i with
  | none =>
    rw [exec_frame ho] at h
    cases h
    exact Bus.serve_keeps (P := fun b => b.line = s.bus.line) rfl (targetEffect_line _ _ _)
  | some op =>
    by_cases hr : i = .reset
    · subst hr
      cases ho
      rw [exec_reset] at h
      cases h
      rfl
    · obtain ⟨es, r, u, h1, h2, -⟩ := exec_law ho hr s
      rw [h1] at h
      cases h
      rcases h2.outcome with ⟨-, -, -, hb⟩ | ⟨tx, -, -, -, hb | hb⟩ <;>
        exact (congrArg Bus.line hb).trans (by simp)

theorem exec_sel (h : exec i s = .next t) (hs : s.ses.sel = false) : t.ses.sel = false := by
  cases ho : opOf i with
  | none =>
    rw [exec_frame ho] at h
    cases h
    exact hs
  | some op =>
    by_cases hr : i = .reset
    · subst hr
      cases ho
      rw [exec_reset] at h
      cases h
      rfl
    · obtain ⟨es, r, u, h1, -, -, h4⟩ := exec_law ho hr s
      rw [h1] at h
      cases h
      exact (h4 hs).1

theorem exec_pc (h : exec i s = .next t) (hs : s.ses.pc = .idle) : t.ses.pc = .idle := by
  cases ho : opOf i with
  | none =>
    rw [exec_frame ho] at h
    cases h
    exact hs
  | some op =>
    obtain ⟨body, hb⟩ := bodyOf_of_opOf ho
    rw [exec_body hb ho] at h
    cases h
    exact hostOp_pc op body s

end Sys2Proof.Machine
end

