-- ==== Sys2Proof/Laws/Timeouts.lean ====
section
/-! SUPPORT. Flash steps whose waits run out (spec/44_flash_engine.md R139, R142, spec/60_exceptions.md R162, R165), and the
read-back of a manufacturing-data record (spec/45_mfd.md R151). -/

namespace Sys2Proof.Machine

variable {α : Type} {s : State} {u : Session} {es : List Event} {c : Cfg} {power : Bool}

/-- The effect of an error on a step that raises it. -/
theorem raises_failNoted {x : Op α} {e : Err} {n : NoteOp} (h : Raises x s es u e)
    (he : (∃ st sl r b, e = .flashTimeout st sl r b) ∨ ∃ sl ch a k, e = .busTimeout sl ch a k) :
    Raises (onError x (failNoted n)) s (es ++ [.note .timedOut n]) { u with flash := { u.flash with state := .failed } } e := by
  obtain ⟨q, hq⟩ := h
  refine ⟨q, ?_⟩
  rw [onError_error hq]
  have : failNoted n e (s.after es { u with pc := q }) =
      ((s.after es { u with pc := q }).log (.note .timedOut n)).setFlashState .failed := by
    rcases he with ⟨_, _, _, _, rfl⟩ | ⟨_, _, _, _, rfl⟩ <;> rfl
  rw [this]
  simp [State.setFlashState, State.log, State.withSes, State.after, framePairs_append, framePairs]

theorem raises_failStep {x : Op α} {e : Err} (h : Raises x s es u e) :
    Raises (onError x failStep) s es { u with flash := { u.flash with state := .failed } } e := by
  obtain ⟨q, hq⟩ := h
  exact ⟨q, by rw [onError_error hq]; rfl⟩

theorem Fails.raises_at {x : Op α} {xs : List Txn} {e : Err} (h : Fails c power x xs e) (hc : s.cfg = c)
    (hp : s.ses.power = power) (hs : s.ses.sel = false) (hw : s.willAnswer (answersOf xs)) :
    Raises x s (eventsOf xs) s.ses e := h s hc hp hs hw

/-- An error that a failed wait ends in, and that is notified (44_flash_engine.md R136, R141). -/
def Waited (e : Err) : Prop := (∃ st sl r b, e = .flashTimeout st sl r b) ∨ ∃ sl ch a k, e = .busTimeout sl ch a k

theorem fails_eraseFrames {sl : SlaveId} {r : FlashRange} {xs : List Txn} (hx : EraseTimeoutTxns c power sl r xs) :
    Fails c power (eraseFrames c sl r) xs (.flashTimeout .erase sl r c.eraseBudget) := by
  obtain ⟨rs, rss, ws, h8, hr, hb, hs, rfl⟩ := hx
  have := fails_pollStatus (c := c) (power := power) .erase sl r (rangeParams c r).status c.eraseDoneMask c.eraseBudget hr hs
  rw [hb] at this
  exact (does_writeWords _ _ _ (by simp [h8])).bind_fails this

theorem fails_eraseFrames_unanswered {sl : SlaveId} {r : FlashRange} {xs : List Txn}
    (hx : EraseUnansweredTxns c power sl r xs) :
    Fails c power (eraseFrames c sl r) xs (.busTimeout sl .sport (rangeParams c r).status c.readBudget) := by
  obtain ⟨rs, rss, h8, h, rfl⟩ := hx
  exact (does_writeWords _ _ _ (by simp [h8])).bind_fails (fails_pollStatus_unanswered _ _ _ _ _ h)

theorem fails_finalizeFrames {sl : SlaveId} {r : FlashRange} {xs : List Txn} (hx : FinalizeTimeoutTxns c power sl r xs) :
    Fails c power (finalizeFrames c sl r) xs (.flashTimeout .finalize sl r c.finalizeBudget) := by
  obtain ⟨rx, rss, ws, hr, hb, hs, rfl⟩ := hx
  have := fails_pollStatus (c := c) (power := power) .finalize sl r (rangeParams c r).status c.downloadDoneMask
    c.finalizeBudget hr hs
  rw [hb] at this
  exact (does_regWr _ _ _ _ rx).bind_fails this

theorem fails_finalizeFrames_unanswered {sl : SlaveId} {r : FlashRange} {xs : List Txn}
    (hx : FinalizeUnansweredTxns c power sl r xs) :
    Fails c power (finalizeFrames c sl r) xs (.busTimeout sl .sport (rangeParams c r).status c.readBudget) := by
  obtain ⟨rx, rss, h, rfl⟩ := hx
  exact (does_regWr _ _ _ _ rx).bind_fails (fails_pollStatus_unanswered _ _ _ _ _ h)

/-- An erase whose wait fails. -/
theorem raises_opErase {sl : Nat} {r : FlashRange} {xs : List Txn} {e : Err}
    (hg : guardError s { slave := sl, mode := .flashStart } = none) (hs : s.ses.sel = false)
    (hx : Fails s.cfg s.ses.power (eraseFrames s.cfg (slaveId sl) r) xs e) (he : Waited e)
    (hw : s.willAnswer (answersOf xs)) :
    Raises (opErase sl r) s (timedOutEvents .erase xs) { s.ses with flash := ⟨.failed, slaveId sl, r⟩ } e := by
  refine Raises.guard hg ?_
  refine Raises.edit (fun u => { u with flash := ⟨.erasing, slaveId sl, r⟩ }) fun t hp ht hwt => ?_
  refine Raises.note _ _ fun t' hp' ht' hwt' => Raises.get ?_
  have hc : t'.cfg = s.cfg := congrArg Params.cfg (hp'.trans hp)
  have hses : t'.ses = { s.ses with flash := ⟨.erasing, slaveId sl, r⟩ } := ht'.trans ht
  rw [hc]
  have hf := hx.raises_at hc (by rw [hses]) (by rw [hses]; exact hs) (hwt' _ (hwt _ hw))
  refine ((raises_failNoted (n := .erase) hf he).bind _).upto fun q => ?_
  rw [hses]

/-- A finalize whose wait fails. -/
theorem raises_opFinalize {xs : List Txn} {e : Err} (hg : guardError s { mode := .flashStep .programming } = none)
    (hs : s.ses.sel = false)
    (hx : Fails s.cfg s.ses.power (finalizeFrames s.cfg s.ses.flash.slave s.ses.flash.range) xs e) (he : Waited e)
    (hw : s.willAnswer (answersOf xs)) :
    Raises opFinalize s (timedOutEvents .finalize xs) { s.ses with flash := { s.ses.flash with state := .failed } } e := by
  refine Raises.guard hg (Raises.get ?_)
  refine Raises.edit (fun u => { u with flash := { u.flash with state := .finalizing } }) fun t hp ht hwt => ?_
  refine Raises.note _ _ fun t' hp' ht' hwt' => ?_
  have hc : t'.cfg = s.cfg := congrArg Params.cfg (hp'.trans hp)
  have hses : t'.ses = { s.ses with flash := { s.ses.flash with state := .finalizing } } := ht'.trans ht
  have hf := hx.raises_at hc (by rw [hses]) (by rw [hses]; exact hs) (hwt' _ (hwt _ hw))
  refine ((raises_failNoted (n := .finalize) hf he).bind _).upto fun q => ?_
  rw [hses]

theorem raises_opProgram {image : List Byte} {rs : List Frame}
    (hg : guardError s { mode := .flashStep .programming } = none) (hs : s.ses.sel = false) (hi : image ≠ [])
    (hf : s.cfg.flowControl = true) (hl : rs.length = s.cfg.fifoBudget)
    (hr : ∀ r ∈ rs, maskSet (respWord s.cfg r) s.cfg.fifoHalfFullMask = true) (hw : s.willAnswer rs) :
    Raises (opProgram image) s
      (eventsOf (readTxns s.cfg s.ses.power s.cfg.bcSlave .busCtrl (rs.map fun _ => s.cfg.aFifoStatus)
        (rs.map fun r => [r]))) { s.ses with flash := { s.ses.flash with state := .failed } }
      (.busTimeout s.cfg.bcSlave .busCtrl s.cfg.aFifoStatus s.cfg.fifoBudget) := by
  have hB : 1 ≤ s.cfg.burstWords := s.params.admissible.2.2.2.2.2.2.2.2.2.2.2.2.2.2.2.2.1
  have hne : imageWords s.cfg.imagePad image ≠ [] := by
    match image, hi with
    | [_], _ => simp [imageWords]
    | _ :: _ :: _, _ => simp [imageWords]
  have ha : answersOf (readTxns s.cfg s.ses.power s.cfg.bcSlave .busCtrl (rs.map fun _ => s.cfg.aFifoStatus)
      (rs.map fun r => [r])) = rs := by
    rw [answersOf_readTxns (by simp), ← List.flatMap_def]
    simp
  have hfail := fails_download (c := s.cfg) (power := s.ses.power) hB s.ses.flash.slave
    (rangeParams s.cfg s.ses.flash.range).download hne hf hl hr
  exact Raises.guard hg (Raises.get ((raises_failStep (hfail.raises hs (by rw [ha]; exact hw))).bind _))

/-! ## Read-back -/

theorem lands_opReadManufacturingData {sl : Nat} {r : Record} {rss : List (List Frame)} {ws : List Word16} {last : Word16}
    (hg : guardError s { slave := sl } = none) (hs : s.ses.sel = false) (hn : ws.length + 1 ≤ s.cfg.mfdMaxWords)
    (hr : rss.map (sportRead s.cfg) = (ws ++ [last]).map some)
    (hc : ∀ k w, ws[k]? = some w → recordEnds (wordBytes (ws.take (k + 1))) w = false)
    (he : recordEnds (wordBytes (ws ++ [last])) last = true)
    (hd : decodeRecord (recordCut (wordBytes (ws ++ [last]))) = some r)
    (hw : s.willAnswer rss.flatten) :
    Lands (opReadManufacturingData sl) s
      (eventsOf (readTxns s.cfg s.ses.power (slaveId sl) .sport
        ((List.range rss.length).map (addrAt s.cfg.aMfdRead)) rss)) s.ses (.record r) := by
  refine Lands.guard hg (Lands.get ?_)
  have hdo := does_readRecordBytes (c := s.cfg) (power := s.ses.power) (slaveId sl) s.cfg.aMfdRead (i := 0) (buf := []) hn hr
    (by simpa using hc) (by simpa using he)
  rw [← List.range_eq_range', List.nil_append] at hdo
  rw [← List.append_nil (eventsOf _)]
  refine (hdo.lands hs (by rw [answersOf_readTxns (by simp)]; exact hw)).bind_quiet fun t l => ?_
  obtain ⟨q, hq⟩ := l.ses
  refine ⟨q, ?_⟩
  rw [← hq, State.after_nil]
  simp only [opDecodeMFD, hd]

end Sys2Proof.Machine
end

