-- ==== Sys2Proof/Tests/Slice0.lean ====
section
/-! SUPPORT. Tests: ill-formed terms the checks refuse, frames written out byte by byte from spec/30_encoding.md, single
operations against the vectors of spec/95_test_vectors.md, and for every statement with hypotheses a case that meets them.
Every expected value is the spec's, under the reference configuration (spec/00_scope.md R9). -/

namespace Sys2Proof.Tests

open Sys2Proof.Machine

/-! ## Helpers -/

/-- A machine under the reference configuration, with a session and the next responses. -/
def machine (u : Session) (rxs : List Frame) : State :=
  { State.reset with ses := u, bus := { State.reset.bus with answers := rxs.map .ok } }

/-- A machine whose next exchange fails. -/
def failing (u : Session) (landed : Bool) : State :=
  { State.reset with ses := u, bus := { State.reset.bus with answers := [.fail landed] } }

/-- The reset session with the power flag set, as most vectors have it. -/
def powered : Session := { Session.reset with power := true }

/-- The session in a flash state, for slave 3. -/
def inFlash (f : FlashState) (r : FlashRange) : Session := { powered with flash := ⟨f, 3, r⟩ }

/-- The new events of an instruction and the session it leaves. -/
def ran (i : Instr) (s : State) : List Event × Session :=
  match exec i s with
  | .next t => (newEvents s t, t.ses)
  | _ => ([], s.ses)

/-- The target's record after an instruction. -/
def target (i : Instr) (s : State) : Bus :=
  match exec i s with
  | .next t => t.bus
  | _ => s.bus

/-- The commands an instruction sends. -/
def sent (i : Instr) (s : State) : List Frame := sentFrames (ran i s).1

/-- What an instruction returns. -/
def result (i : Instr) (s : State) : List (OpName × Result) := returns (ran i s).1

/-- A response of zeros. -/
def zeros : Frame := [0, 0, 0, 0, 0, 0, 0, 0]

/-- A register response with data-valid and a data word (30_encoding.md R79). -/
def valid (h l : Byte) : Frame := [1, 0, h, l, 0, 0, 0, 0]

/-- A register frame or response that carries a word and no data-valid. -/
def plain (h l : Byte) : Frame := [0, 0, h, l, 0, 0, 0, 0]

/-! ## Ill-formed terms -/

theorem test_wellFormed_sportRd : ¬ (Instr.sportRd true 3 0x10 0x0001).WellFormed := by decide
theorem test_wellFormed_busctrlRd : ¬ (Instr.busctrlRd false 0 0x01 0x8000).WellFormed := by decide
theorem test_wellFormed_sportRd_zero : (Instr.sportRd true 3 0x10 0x0000).WellFormed := by decide

/-- The layout constraints of 00_scope.md R8, each broken once. -/
def brokenLayouts (c : Cfg) : List Cfg :=
    [ { c with frameLen := 7 },
      { c with codePort1 := 0 },
      { c with stIdx := 8 },
      { c with validMask := 0x03 },
      { c with hiIdx := 8 },
      { c with loIdx := 8 },
      { c with loIdx := 2 },
      { c with lag := 3 },
      { c with ptxIdx := 1 },
      { c with ptxIdx := 5 },
      { c with prxIdx := 5 },
      { c with errHiIdx := 8 },
      { c with errLoIdx := 8 },
      { c with errLoIdx := 6 } ]

theorem test_layout_refuses : (brokenLayouts Cfg.reference).all (fun c => !decide c.LayoutOk) = true := by decide

/-- The value constraints of 00_scope.md R8, each broken once. -/
def brokenValues (c : Cfg) : List Cfg :=
    [ { c with readBudget := 0 },
      { c with scanDoneMask := 0 },
      { c with presence := .table [] },
      { c with scanBudget := 0 },
      { c with aBoardType := 249 },
      { c with aBoardNumber := 249 },
      { c with eraseDoneMask := 0 },
      { c with downloadDoneMask := 0 },
      { c with vUnlockReboot := c.standard.unlockErase },
      { c with vUnlockReboot := c.auxiliary.unlockErase },
      { c with vUnlockReboot := c.manufacturing.unlockErase },
      { c with eraseBudget := 0 },
      { c with finalizeBudget := 0 },
      { c with fifoHalfFullMask := 0 },
      { c with fifoBudget := 0 },
      { c with burstWords := 0 },
      { c with mfdNumeric := [14] },
      { c with mfdMaxWords := 0 },
      { c with mfdMaxWords := 174 } ]

theorem test_values_refuse : (brokenValues Cfg.reference).all (fun c => !decide c.ValuesOk) = true := by decide

/-! ## Decoding: every constructor (control byte `P SSS W 0 CC`, 30_encoding.md R75–R77, R81; calls, R84) -/

/-- What a frame decodes to. -/
def frameMeans (f : Frame) : Option Instr := (decodeFrame Cfg.reference f).toOption

/-- What a call decodes to. -/
def callMeans (n : CallName) (args : List Arg) : Option Instr := (decodeCall Cfg.reference n args).toOption

theorem test_decode_port0Rd : frameMeans [0b10100000, 0, 0, 0, 0, 0, 0, 0] = some (.port0Rd true 2) := by decide
theorem test_decode_port1Rd : frameMeans [0b10100001, 0, 0, 0, 0, 0, 0, 0] = some (.port1Rd true 2) := by decide
theorem test_decode_sportRd : frameMeans [0b00110010, 0x41, 0, 0, 0, 0, 0, 0] = some (.sportRd false 3 0x41 0) := by decide
theorem test_decode_busctrlRd : frameMeans [0b10000011, 0x01, 0, 0, 0, 0, 0, 0] = some (.busctrlRd true 0 0x01 0) := by decide
theorem test_decode_port0Wr :
    frameMeans [0b10101000, 0, 0x12, 0x34, 0x56, 0x78, 0, 0] = some (.port0Wr true 2 0x12345678) := by decide
theorem test_decode_port1Wr : frameMeans [0b01011001, 0, 0, 0, 0, 1, 0, 0] = some (.port1Wr false 5 0x00000001) := by decide
theorem test_decode_sportWr :
    frameMeans [0b10111010, 0x10, 0x12, 0x34, 0, 0, 0, 0] = some (.sportWr true 3 0x10 0x1234) := by decide
theorem test_decode_busctrlWr :
    frameMeans [0b10001011, 0x00, 0x00, 0x02, 0, 0, 0, 0] = some (.busctrlWr true 0 0x00 0x0002) := by decide
/-- V-KIND-3: bit 2 is not read. -/
theorem test_decode_bit2 : frameMeans [0b11111111, 0x01, 0xAB, 0xCD] = some (.busctrlWr true 7 0x01 0xABCD) := by decide
theorem test_decode_setPower : callMeans (.op .setPower) [.bool true] = some (.setPower true) := by decide
theorem test_decode_encode :
    callMeans (.op .encode) [.bool true, .nat 8, .bool false, .nat 2, .nat 256, .word 0x1234] =
      some (.encode true 8 false 2 256 0x1234) := by decide
theorem test_decode_decode : callMeans (.op .decode) [.bytes [1, 2, 3]] = some (.decode [1, 2, 3]) := by decide
theorem test_decode_writeRegister :
    callMeans (.op .writeRegister) [.nat 3, .nat 2, .nat 16, .word 7] = some (.writeRegister 3 2 16 7) := by decide
theorem test_decode_readRegister :
    callMeans (.op .readRegister) [.nat 3, .nat 2, .nat 16] = some (.readRegister 3 2 16) := by decide
theorem test_decode_getSlaveInfo : callMeans (.op .getSlaveInfo) [.nat 3] = some (.getSlaveInfo 3) := by decide
theorem test_decode_exchange :
    callMeans (.op .exchange) [.nat 2, .port none, .port (some ⟨1, 2, 3, 4⟩)] =
      some (.exchange 2 none (some ⟨1, 2, 3, 4⟩)) := by decide
theorem test_decode_scan : callMeans (.op .scan) [.nat 5] = some (.scan 5) := by decide
theorem test_decode_enable : callMeans (.op .enable) [.nat 2] = some (.enable 2) := by decide
theorem test_decode_erase : callMeans (.op .erase) [.nat 3, .range .auxiliary] = some (.erase 3 .auxiliary) := by decide
theorem test_decode_program : callMeans (.op .program) [.bytes [1, 2]] = some (.program [1, 2]) := by decide
theorem test_decode_finalize : callMeans (.op .finalize) [] = some .finalize := by decide
theorem test_decode_reboot : callMeans (.op .reboot) [] = some .reboot := by decide
theorem test_decode_abortFlash : callMeans (.op .abortFlash) [] = some .abortFlash := by decide
theorem test_decode_flash :
    callMeans (.op .flash) [.nat 3, .range .standard, .bytes [0xAA]] = some (.flash 3 .standard [0xAA]) := by decide
theorem test_decode_encodeMFD : callMeans (.op .encodeMFD) [.record [[0x41]]] = some (.encodeMFD [[0x41]]) := by decide
theorem test_decode_decodeMFD : callMeans (.op .decodeMFD) [.bytes [0x0D]] = some (.decodeMFD [0x0D]) := by decide
theorem test_decode_writeManufacturingData :
    callMeans (.op .writeManufacturingData) [.nat 3, .record []] = some (.writeManufacturingData 3 []) := by decide
theorem test_decode_readManufacturingData :
    callMeans (.op .readManufacturingData) [.nat 3] = some (.readManufacturingData 3) := by decide
theorem test_decode_reset : callMeans (.op .reset) [] = some .reset := by decide
/-- A name outside the list, and an argument form outside it, have no meaning (30_encoding.md R84). -/
theorem test_decode_refuses : callMeans (.other "poke") [] = none ∧ callMeans (.op .enable) [.bool true] = none := by decide
/-- The word of the opcode table, as a frame, where step takes its next instruction; the step runs it. -/
theorem test_fetch : (State.reset.withFetchWord 64 0x0200008B).bus.line = some [0x8B, 0x00, 0x00, 0x02, 0, 0, 0, 0] ∧
    step (State.reset.withFetchWord 64 0x0200008B) = exec (.busctrlWr true 0 0x00 0x0002) State.reset := ⟨by decide, rfl⟩

/-! ## Frame kinds (20_memory.md R62–R69) -/

theorem test_port0Wr :
    (target (.port0Wr true 2 0x12345678) (machine powered [zeros])).mem.get32 (portCell 2 .zero) = 0x12345678 ∧
    (target (.port0Wr true 2 0x12345678) (machine powered [zeros])).pipe = [⟨2, .zero, 0x12345678⟩] := by decide
theorem test_port1Wr : (target (.port1Wr false 5 1) (machine powered [zeros])).mem.get32 (portCell 5 .one) = 1 ∧
    (target (.port1Wr false 5 1) (machine powered [zeros])).mem.get32 (portCell 5 .zero) = 0 := by decide
theorem test_port0Rd : (target (.port0Rd true 2) (machine powered [valid 1 2])).pipe = [⟨2, .zero, 0⟩] ∧
    (target (.port0Rd true 2) (machine powered [valid 1 2])).reply = some (.ok (valid 1 2)) := by decide
theorem test_port1Rd : (target (.port1Rd true 7) (machine powered [zeros])).pipe = [⟨7, .one, 0⟩] ∧
    (target (.port1Rd true 7) (machine powered [zeros])).mem = [] := by decide
theorem test_sportWr :
    (target (.sportWr true 3 0x10 0x1234) (machine powered [zeros])).mem.get16 (sportCell 3 0x10) = 0x1234 ∧
    (target (.sportWr true 3 0x10 0x1234) (machine powered [zeros])).fifo = none := by decide
theorem test_busctrlWr :
    (target (.busctrlWr false 5 0x07 0xFFFF) (machine powered [zeros])).mem.get16 (busCtrlCell 0x07) = 0xFFFF := by decide
theorem test_sportRd : (target (.sportRd true 3 0x41 0) (machine powered [zeros])).fifo = some (3, 0x41) ∧
    (target (.sportRd true 3 0x41 0) (machine powered [zeros])).mem = [] := by decide
theorem test_busctrlRd : (target (.busctrlRd true 0 0x01 0) (machine powered [valid 0x80 5])).reply = some (.ok (valid 0x80 5)) ∧
    (target (.busctrlRd true 0 0x01 0) (machine powered [valid 0x80 5])).fifo = none := by decide
/-- A frame kind by itself is nothing the controller sends: no event, and the session as it was (log 7). -/
theorem test_frame_unseen : ran (.port0Wr true 2 1) (machine (inFlash .programming .standard) [zeros]) =
    ([], inFlash .programming .standard) := by decide
/-- Its exchange fails: the frame has landed or not, and no session ends of it (log 3, log 7). -/
theorem test_frame_fails :
    ran (.sportWr true 3 0x10 7) (failing powered false) = ([], powered) ∧
    (target (.sportWr true 3 0x10 7) (failing powered false)).mem = [] ∧
    (target (.sportWr true 3 0x10 7) (failing powered true)).mem.get16 (sportCell 3 0x10) = 7 ∧
    (target (.sportWr true 3 0x10 7) (failing powered true)).reply = some (.fail true) := by decide

/-! ## Codec (V-COD) -/

/-- V-COD-1, V-COD-5. -/
theorem test_encode : result (.encode true 3 true 2 0x10 0x1234) (machine powered []) =
      [(.encode, .ok (.bytes [0xBA, 0x10, 0x12, 0x34]))] ∧
    result (.encode true 1 true 0 0x05 0x0102) (machine powered []) = [(.encode, .ok (.bytes [0x98, 0x05, 0x01, 0x02]))] := by decide
/-- V-COD-8, V-COD-9, V-COD-10. -/
theorem test_encode_order : result (.encode true 8 true 4 256 0) (machine powered []) = [(.encode, .error (.invalidSlave 8))] ∧
    result (.encode true 3 true 4 256 0) (machine powered []) = [(.encode, .error (.invalidChannel 4))] ∧
    result (.encode true 3 true 2 256 0) (machine powered []) = [(.encode, .error (.invalidAddress 256))] := by decide
/-- V-COD-12 (bit 2 set), V-COD-16 (a port frame). -/
theorem test_decode : result (.decode [0xBE, 0x10, 0x12, 0x34]) (machine powered []) =
      [(.decode, .ok (.frame ⟨true, 3, true, .sport, 0x10, 0x1234⟩))] ∧
    result (.decode [0xA8, 0x00, 0x12, 0x34, 0x56, 0x78, 0x00, 0x00]) (machine powered []) =
      [(.decode, .ok (.frame ⟨true, 2, true, .port0, 0x00, 0x1234⟩))] := by decide
/-- V-COD-14. -/
theorem test_decode_short : result (.decode [0xBA, 0x10, 0x12]) (machine powered []) = [(.decode, .error (.shortFrame 3))] := by decide

/-! ## Register bus (V-REG) -/

/-- V-REG-1. -/
theorem test_writeRegister : (ran (.writeRegister 3 2 0x10 0x1234) (machine powered [zeros])).1 =
    [.select true, .frame [0xBA, 0x10, 0x12, 0x34, 0, 0, 0, 0] zeros, .select false, .ret .writeRegister (.ok .unit)] := by decide
/-- V-REG-4: the valid setup response is ignored. -/
theorem test_readRegister : result (.readRegister 3 2 0x41) (machine powered [valid 0xDE 0xAD, zeros, valid 0xBE 0xEF]) =
    [(.readRegister, .ok (.word 0xBEEF))] := by decide
/-- V-REG-6: a BusCtrl read takes one frame, data-valid or not. -/
theorem test_readRegister_busCtrl : ran (.readRegister 0 3 0x01) (machine Session.reset [plain 0x80 0x05]) =
    ([.select true, .frame [0x03, 0x01, 0, 0, 0, 0, 0, 0] (plain 0x80 0x05), .select false,
      .ret .readRegister (.ok (.word 0x8005))], Session.reset) := by decide
/-- V-REG-17: responses of the 19 reads, each valid on poll 1. -/
def infoReplies : List Frame :=
  ([0x4253, 0x4154, 0x2020, 0x2020, 0x2020, 0x2020, 0x2020, 0x2020, 0x3030, 0x3030, 0x3030, 0x3030, 0x3030, 0x3030, 0x3030,
    0x3030, 0x0102, 0x0003, 0x00F3] : List Word16).flatMap fun w => [zeros, valid (hi w) (lo w)]
theorem test_getSlaveInfo :
    ((ran (.getSlaveInfo 3) (machine powered infoReplies)).2.entry 3).info.map
        (fun i => (i.boardType.chars.take 5, i.boardNumber.chars.drop 15, i.featureId, i.bugfixId, i.portCount)) =
      some ([0x42, 0x53, 0x41, 0x54, 0x20], [0x30], 0x0102, 0x0003, 3) := by decide +kernel
/-- V-REG-14. -/
theorem test_setPower : ran (.setPower false) (machine { powered with dead := true } []) =
    ([.ret .setPower (.ok .unit)], { Session.reset with dead := true }) := by decide

/-! ## Ports (V-PORT) -/

/-- V-PORT-1. -/
theorem test_exchange : ran (.exchange 2 (some ⟨0x12, 0x34, 0x56, 0x78⟩) none)
      (machine powered [zeros, [0, 0, 0xAA, 0xBB, 0xCC, 0xDD, 0, 0], [0, 0, 0x11, 0x22, 0x33, 0x44, 0, 5]]) =
    ([.select true, .frame [0xA8, 0, 0x12, 0x34, 0x56, 0x78, 0, 0] zeros,
      .frame [0xA1, 0, 0, 0, 0, 0, 0, 0] [0, 0, 0xAA, 0xBB, 0xCC, 0xDD, 0, 0],
      .frame [0xA1, 0, 0, 0, 0, 0, 0, 0] [0, 0, 0x11, 0x22, 0x33, 0x44, 0, 5], .select false,
      .ret .exchange (.ok (.ports ⟨0xAA, 0xBB, 0xCC, 0xDD⟩ ⟨0x11, 0x22, 0x33, 0x44⟩ 5))],
     { powered with curSlave := 2, pendVal0 := 0x12345678, errSummary := some 5 }) := by decide
/-- V-PORT-6. -/
theorem test_portError : portError 0x0005 0 .zero = true ∧ portError 0x0005 1 .zero = true ∧ portError 0x0005 0 .one = false ∧
    portError 0x8000 7 .one = true ∧ portError 0x8000 7 .zero = false ∧ portError 0x0002 0 .one = true := by decide

/-! ## Scanner (V-SCAN, V-EN) -/

/-- V-SCAN-1. -/
theorem test_scan : sent (.scan 100) (machine powered [zeros, zeros, zeros, zeros, zeros, plain 0x80 0x25]) =
      [[0x8B, 0, 0, 2, 0, 0, 0, 0], [0x8B, 0, 0xFF, 1, 0, 0, 0, 0], [0x8B, 0, 0, 2, 0, 0, 0, 0],
       [0x83, 1, 0, 0, 0, 0, 0, 0], [0x83, 1, 0, 0, 0, 0, 0, 0], [0x83, 1, 0, 0, 0, 0, 0, 0]] ∧
    result (.scan 100) (machine powered [zeros, zeros, zeros, zeros, zeros, plain 0x80 0x25]) =
      [(.scan, .ok (.scan 0x25 0x8025))] := by decide
/-- V-SCAN-2, with a scan result to lose. -/
theorem test_scan_timeout : ran (.scan 1) (machine { powered with presence := some 1 } [zeros, zeros, zeros, zeros]) =
    ([.note .started .scan, .select true, .frame [0x8B, 0, 0, 2, 0, 0, 0, 0] zeros, .select false,
      .select true, .frame [0x8B, 0, 0xFF, 1, 0, 0, 0, 0] zeros, .select false,
      .select true, .frame [0x8B, 0, 0, 2, 0, 0, 0, 0] zeros, .select false,
      .select true, .frame [0x83, 1, 0, 0, 0, 0, 0, 0] zeros, .select false,
      .note .timedOut .scan, .ret .scan (.error (.scanTimeout 1))], powered) := by decide
/-- V-EN-1. -/
theorem test_enable : sent (.enable 2) (machine powered [zeros, zeros, zeros, zeros]) =
      [[0xAA, 0x10, 0, 0, 0, 0, 0, 0], [0xAA, 0x10, 0, 1, 0, 0, 0, 0], [0xAA, 0x10, 0, 3, 0, 0, 0, 0],
       [0xAA, 0x10, 0, 7, 0, 0, 0, 0]] ∧
    ((ran (.enable 2) (machine powered [zeros, zeros, zeros, zeros])).2.entry 2).enabled = true := by decide

/-! ## Flash engine (V-FL) -/

/-- The eight writes of an unlock sequence and its request are acknowledged. -/
def acks8 : List Frame := [zeros, zeros, zeros, zeros, zeros, zeros, zeros, zeros]

/-- V-FL-1. -/
theorem test_erase : sent (.erase 3 .standard) (machine powered (acks8 ++ [zeros, valid 0 1])) =
      [[0xBA, 0x40, 0xA5, 0, 0, 0, 0, 0], [0xBA, 0x40, 0xA5, 1, 0, 0, 0, 0], [0xBA, 0x40, 0xA5, 2, 0, 0, 0, 0],
       [0xBA, 0x40, 0xA5, 3, 0, 0, 0, 0], [0xBA, 0x40, 0xA5, 4, 0, 0, 0, 0], [0xBA, 0x40, 0xA5, 5, 0, 0, 0, 0],
       [0xBA, 0x40, 0xA5, 6, 0, 0, 0, 0], [0xBA, 0x40, 0, 1, 0, 0, 0, 0], [0xB2, 0x41, 0, 0, 0, 0, 0, 0],
       [0xB2, 0x41, 0, 0, 0, 0, 0, 0]] ∧
    (ran (.erase 3 .standard) (machine powered (acks8 ++ [zeros, valid 0 1]))).2 = inFlash .programming .standard := by decide
/-- V-FL-5. -/
theorem test_erase_busy : ran (.erase 3 .standard) (machine (inFlash .programming .standard) []) =
    ([.ret .erase (.error (.sessionBusy .programming))], inFlash .programming .standard) := by decide
/-- V-FL-8: an odd image is padded. -/
theorem test_program : sent (.program [1, 2, 3]) (machine (inFlash .programming .standard) [zeros, zeros, zeros]) =
    [[0x83, 2, 0, 0, 0, 0, 0, 0], [0xBA, 0x42, 1, 2, 0, 0, 0, 0], [0xBA, 0x42, 3, 0, 0, 0, 0, 0]] := by decide
/-- V-FL-14. -/
theorem test_program_idle : result (.program [1, 2]) (machine powered []) = [(.program, .error (.outOfSequence .idle))] := by decide
/-- V-FL-15. -/
theorem test_finalize : sent .finalize (machine (inFlash .programming .standard) [zeros, zeros, valid 0 1, zeros, valid 0 2]) =
      [[0xBA, 0x40, 0, 2, 0, 0, 0, 0], [0xB2, 0x41, 0, 0, 0, 0, 0, 0], [0xB2, 0x41, 0, 0, 0, 0, 0, 0],
       [0xB2, 0x41, 0, 0, 0, 0, 0, 0], [0xB2, 0x41, 0, 0, 0, 0, 0, 0]] ∧
    (ran .finalize (machine (inFlash .programming .standard) [zeros, zeros, valid 0 1, zeros, valid 0 2])).2 =
      inFlash .rebooting .standard := by decide
/-- V-FL-18. -/
theorem test_reboot : (sent .reboot (machine (inFlash .rebooting .standard) acks8)).drop 6 =
      [[0xBA, 0x40, 0x5A, 6, 0, 0, 0, 0], [0xBA, 0x40, 0, 4, 0, 0, 0, 0]] ∧
    (ran .reboot (machine (inFlash .rebooting .standard) acks8)).2 = inFlash .done .standard := by decide
/-- V-FL-21, V-FL-22. -/
theorem test_abortFlash : ran .abortFlash (machine (inFlash .programming .standard) []) =
      ([.ret .abortFlash (.ok .unit)], inFlash .failed .standard) ∧
    ran .abortFlash (machine powered []) = ([.ret .abortFlash (.ok .unit)], powered) := by decide
/-- The answers of V-FL-23. -/
def flashReplies : List Frame := acks8 ++ [zeros, valid 0 1] ++ [zeros, zeros] ++ [zeros, zeros, valid 0 2] ++ acks8
/-- V-FL-23. -/
theorem test_flash : (sent (.flash 3 .standard [0xAA, 0xBB]) (machine powered flashReplies)).length = 23 ∧
    (ran (.flash 3 .standard [0xAA, 0xBB]) (machine powered flashReplies)).2 = inFlash .done .standard := by decide +kernel

/-! ## Manufacturing data (V-MFD) -/

/-- V-MFD-2, V-MFD-4. -/
theorem test_encodeMFD : result (.encodeMFD [[0x41, 0x42], [0x37]]) (machine powered []) =
      [(.encodeMFD, .ok (.bytes [0x41, 0x42, 0x0D, 0x07, 0x0D, 0x00]))] ∧
    result (.encodeMFD [[0x35]]) (machine powered []) = [(.encodeMFD, .ok (.bytes [0x35, 0x0D]))] := by decide
/-- V-MFD-7. -/
theorem test_encodeMFD_invalid : result (.encodeMFD [[0x41], [0x30, 0x37]]) (machine powered []) =
    [(.encodeMFD, .error (.invalidRecord (.record [[0x41], [0x30, 0x37]])))] := by decide
/-- V-MFD-9. -/
theorem test_decodeMFD : result (.decodeMFD [0x41, 0x42, 0x0D, 0x07, 0x0D, 0x00]) (machine powered []) =
    [(.decodeMFD, .ok (.record [[0x41, 0x42], [0x37]]))] := by decide
/-- V-MFD-12. -/
theorem test_decodeMFD_invalid : result (.decodeMFD [0x41, 0x0D, 0x00, 0x00]) (machine powered []) =
    [(.decodeMFD, .error (.invalidRecord (.stream [0x41, 0x0D, 0x00, 0x00])))] := by decide
/-- The answers of program P3, step 2. -/
def mfdReplies : List Frame :=
  acks8 ++ [zeros, valid 0 1] ++ [zeros, zeros, zeros, zeros] ++ [zeros, zeros, valid 0 2] ++ acks8
/-- Program P3, step 2. -/
theorem test_writeManufacturingData :
    ((sent (.writeManufacturingData 3 [[0x41, 0x42], [0x37]]) (machine powered mfdReplies)).drop 10).take 4 =
      [[0x83, 2, 0, 0, 0, 0, 0, 0], [0xBA, 0x52, 0x41, 0x42, 0, 0, 0, 0], [0xBA, 0x52, 0x0D, 0x07, 0, 0, 0, 0],
       [0xBA, 0x52, 0x0D, 0x00, 0, 0, 0, 0]] ∧
    (ran (.writeManufacturingData 3 [[0x41, 0x42], [0x37]]) (machine powered mfdReplies)).2 =
      inFlash .done .manufacturingData := by decide +kernel
/-- V-MFD-19. -/
theorem test_writeManufacturingData_invalid :
    result (.writeManufacturingData 3 [[0x41], [0x30, 0x37]]) (machine (inFlash .programming .standard) []) =
      [(.writeManufacturingData, .error (.invalidRecord (.record [[0x41], [0x30, 0x37]])))] := by decide
/-- V-MFD-15. -/
theorem test_readManufacturingData : result (.readManufacturingData 3) (machine powered
      [zeros, valid 0x41 0x42, zeros, valid 0x0D 0x07, zeros, valid 0x0D 0x00, zeros, valid 0xFF 0xFF]) =
    [(.readManufacturingData, .ok (.record [[0x41, 0x42], [0x37]]))] := by decide
/-- V-MFD-16. -/
theorem test_readManufacturingData_empty :
    result (.readManufacturingData 3) (machine powered [zeros, valid 0xFF 0xFF]) =
      [(.readManufacturingData, .ok (.record []))] := by decide
/-- V-RST-2. -/
theorem test_reset : ran .reset (machine (inFlash .programming .standard) []) =
    ([.ret .reset (.ok .unit)], Session.reset) := by decide

/-! ## Cases that meet the hypotheses of the statements -/

theorem answers_ready (u : Session) (rxs : List Frame) (h : ∀ rx ∈ rxs, rx.length = 8) : (machine u rxs).willAnswer rxs :=
  ⟨List.prefix_refl _, h⟩

theorem powered_settled : powered.Settled := by constructor <;> decide
theorem programming_settled (r : FlashRange) : (inFlash .programming r).Settled := by cases r <;> constructor <;> decide
theorem rebooting_settled : (inFlash .rebooting .standard).Settled := by constructor <;> decide

theorem powered_ready (rxs : List Frame) : (machine powered rxs).Ready := ⟨powered_settled, rfl, rfl⟩

theorem programming_ready (r : FlashRange) (rxs : List Frame) :
    (machine (inFlash .programming r) rxs).ReadyAt .programming := ⟨programming_settled r, rfl, rfl⟩

theorem rebooting_ready (rxs : List Frame) : (machine (inFlash .rebooting .standard) rxs).ReadyAt .rebooting :=
  ⟨rebooting_settled, rfl, rfl⟩

/-- A record of R147, and one that is none (V-MFD-2, V-MFD-7). -/
def goodRecord : Record := [[0x41, 0x42], [0x37]]
def badRecord : Record := [[0x41], [0x30, 0x37]]
/-- A record of fourteen empty or numeric fields. -/
def fullRecord : Record := [[], [0x39], [0x30], [], [], [], [], [], [], [], [], [], [], []]

theorem goodRecord_ok : RecordOk Cfg.reference goodRecord := (validRecord_iff _ _).1 (by decide)
theorem fullRecord_ok : RecordOk Cfg.reference fullRecord := (validRecord_iff _ _).1 (by decide)
theorem badRecord_not_ok : ¬ RecordOk Cfg.reference badRecord := fun h => absurd ((validRecord_iff _ _).2 h) (by decide)

theorem witness_DecodeReadsBackEncode : Cfg.reference.LayoutOk ∧
    decode Cfg.reference (encode Cfg.reference (.port1Wr true 7 0xFFFFFFFF)) = .ok (.port1Wr true 7 0xFFFFFFFF) :=
  ⟨by decide, rfl⟩

/-- A frame of N bytes and its row; a frame of three bytes and one of four. -/
theorem witness_FrameClassificationIsTotal : Cfg.reference.LayoutOk ∧
    ([0xFF, 0xFF, 0xFF, 0xFF, 0xFF, 0xFF, 0xFF, 0xFF] : Frame).length = Cfg.reference.frameLen ∧
    (0xFF &&& 0x0B : Byte) = rowMatch Cfg.reference true .busCtrl ∧ ([0xBA, 0x10, 0x12] : Frame).length < 4 ∧
    4 ≤ ([0xBA, 0x10, 0x12, 0x34] : Frame).length := by decide

/-- The largest arguments; a sequence that decodes with bit 2 clear and one with bit 2 set; two equal encodings. -/
theorem witness_CodecLaws : (7 ≤ 7 ∧ channelIndex .busCtrl = 3 ∧ 255 ≤ 255) ∧
    exec (.decode [0xBA, 0x10, 0x12, 0x34]) State.reset = .next (State.reset.returned .decode
      (.ok (.frame ⟨true, 3, true, .sport, 0x10, 0x1234⟩)) State.reset.ses) ∧ (0xBA : Byte).getLsbD 2 = false ∧
    exec (.decode [0xBE, 0x10, 0x12, 0x34, 0x56]) State.reset = .next (State.reset.returned .decode
      (.ok (.frame ⟨true, 3, true, .sport, 0x10, 0x1234⟩)) State.reset.ses) ∧
    exec (.encode true 7 true (channelIndex .sport) 255 0xFFFF) State.reset =
      exec (.encode true 7 true (channelIndex .sport) 255 0xFFFF) State.reset := ⟨by decide, rfl, by decide, rfl, rfl⟩

theorem witness_EncodeReturnsTheCommandFrame : 7 < 8 ∧ (7 ≤ 7 ∧ 3 < 4) ∧ (7 ≤ 7 ∧ 3 ≤ 3 ∧ 255 < 256) ∧
    (7 ≤ 7 ∧ [Channel.port0, .port1, .sport, .busCtrl][3]? = some .busCtrl ∧ 255 ≤ 255) := by decide

theorem witness_DecodeReadsTheFirstFourBytes : ([1, 2, 3] : List Byte).length < 4 ∧
    ([1, 2, 3, 4] : List Byte) = 1 :: 2 :: 3 :: 4 :: [] := by decide

/-- A call; a frame of `regFrame`, answered; a port frame of an exchange with a write, which fails. -/
theorem witness_SentFramesComeFromTheBuilders :
    decode Cfg.reference (.call ⟨.op .finalize, []⟩) = .ok .finalize ∧
    (∃ t, exec (.writeRegister 7 3 255 1) (machine powered [zeros]) = .next t ∧
      [0xFB, 0xFF, 0, 1, 0, 0, 0, 0] ∈ sentFrames (newEvents (machine powered [zeros]) t)) ∧
    ∃ t, exec (.exchange 7 (some ⟨0, 0, 0, 1⟩) none) (failing powered true) = .next t ∧
      [0xF8, 0, 0, 0, 0, 1, 0, 0] ∈ sentFrames (newEvents (failing powered true) t) :=
  ⟨rfl, ⟨_, rfl, by decide⟩, _, rfl, by decide⟩

/-- Nothing waiting; a call that decodes and one that does not; a frame that decodes and one that does not. -/
theorem witness_StepRunsTheDecodedRequest : State.reset.bus.line = none ∧ State.reset.requests = [] ∧
    (State.reset.withRequests [⟨.op .finalize, []⟩]).requests = ⟨.op .finalize, []⟩ :: [] ∧
    decode Cfg.reference (.call ⟨.op .finalize, []⟩) = .ok .finalize ∧
    decode Cfg.reference (.call ⟨.other "poke", []⟩) = .error (.unknownOperation "poke") ∧
    (State.reset.withLine (some [0xA0, 0, 0, 0])).bus.line = some [0xA0, 0, 0, 0] ∧
    decode Cfg.reference (.frame [0xA0, 0, 0, 0]) = .ok (.port0Rd true 2) ∧
    decode Cfg.reference (.frame [0xA0]) = .error (.shortFrame 1) := ⟨rfl, rfl, rfl, rfl, rfl, rfl, rfl, rfl⟩

/-- A call no instruction encodes to: `exchange` with one port argument. -/
theorem exchange_form (i : Instr) : encode Cfg.reference i ≠ .call ⟨.op .exchange, [.nat 2, .port none]⟩ := by
  cases i <;> simp [encode]

/-- Each kind of waiting call the statement names, the calls of another argument form first; a frame of three bytes. -/
theorem witness_CallsOutsideTheSetAreRefused :
    (State.reset.withLine (some [0xBA, 0x10, 0x12])).bus.line = some [0xBA, 0x10, 0x12] ∧
    ([0xBA, 0x10, 0x12] : Frame).length < 4 ∧
    (State.reset.withRequests [⟨.other "poke", []⟩]).bus.line = none ∧
    (State.reset.withRequests [⟨.other "poke", []⟩]).requests = ⟨.other "poke", []⟩ :: [] ∧
    ((∀ i, encode Cfg.reference i ≠ .call ⟨.op .exchange, [.nat 2, .port none]⟩) ∧
      ¬(OpName.exchange = .scan ∧ [Arg.nat 2, .port none] = []) ∧
      (State.reset.withRequests [⟨.op .exchange, [.nat 2, .port none]⟩]).requests =
        ⟨.op .exchange, [.nat 2, .port none]⟩ :: []) ∧
    ((∀ sl a v, [Arg.nat 3, .nat 1] ≠ [.nat sl, .nat a, .word v]) ∧
      (State.reset.withRequests [⟨.write, [.nat 3, .nat 1]⟩]).requests = ⟨.write, [.nat 3, .nat 1]⟩ :: []) ∧
    ((∀ sl a, [Arg.nat 3] ≠ [.nat sl, .nat a]) ∧
      (State.reset.withRequests [⟨.read, [.nat 3]⟩]).requests = ⟨.read, [.nat 3]⟩ :: []) ∧
    ((∀ sl p0 p1, [Arg.nat 2, .port none, .port none] ≠ [.nat sl, .ports p0 p1]) ∧
      (State.reset.withRequests [⟨.exchangePorts, [.nat 2, .port none, .port none]⟩]).requests =
        ⟨.exchangePorts, [.nat 2, .port none, .port none]⟩ :: []) ∧
    ((∀ sl, ([] : List Arg) ≠ [.nat sl]) ∧
      (State.reset.withRequests [⟨.enableSlave, []⟩]).requests = ⟨.enableSlave, []⟩ :: []) ∧
    (State.reset.withRequests [⟨.write, [.nat 3, .nat 1, .word 2]⟩]).requests = ⟨.write, [.nat 3, .nat 1, .word 2]⟩ :: [] ∧
    (State.reset.withRequests [⟨.read, [.nat 3, .nat 1]⟩]).requests = ⟨.read, [.nat 3, .nat 1]⟩ :: [] ∧
    (State.reset.withRequests [⟨.exchangePorts, [.nat 2, .ports none none]⟩]).requests =
      ⟨.exchangePorts, [.nat 2, .ports none none]⟩ :: [] ∧
    (State.reset.withRequests [⟨.enableSlave, [.nat 2]⟩]).requests = ⟨.enableSlave, [.nat 2]⟩ :: [] ∧
    (State.reset.withRequests [⟨.op .scan, []⟩]).requests = ⟨.op .scan, []⟩ :: [] :=
  ⟨rfl, by decide, rfl, rfl, ⟨exchange_form, by decide, rfl⟩, ⟨by simp, rfl⟩, ⟨by simp, rfl⟩, ⟨by simp, rfl⟩, ⟨by simp, rfl⟩,
    rfl, rfl, rfl, rfl, rfl⟩

/-- A step of a host operation, and one of a frame on the Transport. -/
theorem witness_StepKeepsTheInvariant :
    ((machine powered [zeros]).withRequests [⟨.op .setPower, [.bool false]⟩]).Inv ∧
    (∃ t, step ((machine powered [zeros]).withRequests [⟨.op .setPower, [.bool false]⟩]) = .next t) ∧
    ((machine powered [zeros]).withLine (some [0xA0, 0, 0, 0, 0, 0, 0, 0])).Inv ∧
    ∃ t, step ((machine powered [zeros]).withLine (some [0xA0, 0, 0, 0, 0, 0, 0, 0])) = .next t :=
  ⟨⟨powered_settled, ⟨by decide, by decide⟩⟩, ⟨_, rfl⟩, ⟨powered_settled, ⟨by decide, by decide⟩⟩, _, rfl⟩

theorem witness_EveryOperationEndsWithOneReturn : opOf .reset = some .reset := rfl

theorem witness_TransactionsAreBracketed : opOf (.readRegister 0 3 1) = some .readRegister ∧
    (failing powered true).ses.sel = false ∧ ∃ t, exec (.readRegister 0 3 1) (failing powered true) = .next t :=
  ⟨rfl, rfl, _, rfl⟩

/-- A run with a failed exchange and one without. -/
theorem witness_TransportFailureEndsTheOperation : opOf (.readRegister 0 3 1) = some .readRegister ∧
    Instr.readRegister 0 3 1 ≠ .reset ∧ (∃ t, exec (.readRegister 0 3 1) (failing powered true) = .next t) ∧
    ∃ t, exec (.readRegister 0 3 1) (machine powered [zeros]) = .next t := ⟨rfl, by decide, ⟨_, rfl⟩, _, rfl⟩

/-- A frame kind; an operation that raises; a scan that times out, with a result to lose. -/
theorem witness_WriteMatrixHolds :
    (∃ t, exec (.sportRd true 3 0x41 0) (failing (inFlash .programming .standard) true) = .next t) ∧
    (∃ t, exec (.enable 2) (failing powered true) = .next t ∧ returns (newEvents (failing powered true) t) =
      [(.enable, .error (.transportFailure (some [0xAA, 0x10, 0, 0, 0, 0, 0, 0])))]) ∧
    (∀ budget, Err.transportFailure (some [0xAA, 0x10, 0, 0, 0, 0, 0, 0]) ≠ .scanTimeout budget) ∧
    ∃ t, exec (.scan 0) (machine { powered with presence := some 1 } [zeros, zeros, zeros]) = .next t ∧
      returns (newEvents (machine { powered with presence := some 1 } [zeros, zeros, zeros]) t) =
        [(.scan, .error (.scanTimeout 0))] := ⟨⟨_, rfl⟩, ⟨_, rfl, by decide⟩, by simp, _, rfl, by decide⟩

theorem witness_TargetSeesFramesInOrder : opOf (.writeRegister 3 2 0x10 0x1234) = some .writeRegister ∧
    ∃ t, exec (.writeRegister 3 2 0x10 0x1234) (machine powered [zeros]) = .next t ∧
      txFails (newEvents (machine powered [zeros]) t) = [] := ⟨rfl, _, rfl, by decide⟩

theorem witness_BytesOutsideTheStoredCellsStay :
    (∃ t, exec (.writeRegister 3 2 0x10 0x1234) (machine powered [zeros]) = .next t) ∧
      sportCell 3 0x11 ∉ storedCells (machine powered [zeros]) (.writeRegister 3 2 0x10 0x1234) := ⟨⟨_, rfl⟩, by decide⟩

/-- Neighbours at the ends of each address space. -/
theorem witness_RegistersAreApart :
    (((6, 255) : SlaveId × Byte) ≠ (7, 0) ∧ 3583 ∈ registerCells .sport 6 255) ∧
    ((254 : Byte) ≠ 255 ∧ 4605 ∈ registerCells .busCtrl 0 254) ∧
    (((7, Port.zero) : SlaveId × Port) ≠ (7, .one) ∧ 4667 ∈ portCells 7 .zero) ∧
    4095 ∈ registerCells .sport 7 255 ∧ 4607 ∈ registerCells .busCtrl 7 255 ∧
    4671 ∈ registerCells .sport 7 255 ++ registerCells .busCtrl 7 255 ++ portCells 7 .one := by decide

theorem witness_RegisterWriteFramesStoreTheirRegister : (machine powered [zeros]).willAnswer [zeros] :=
  answers_ready _ _ (by decide)
theorem witness_RegisterReadFramesStoreNothing : (machine powered [zeros]).willAnswer [zeros] := answers_ready _ _ (by decide)
theorem witness_PortFramesWriteAndQueueTheirPort : (machine powered [zeros]).willAnswer [zeros] := answers_ready _ _ (by decide)

/-- A frame whose exchange completes, one that fails after it landed, and one that fails before. -/
theorem witness_FrameKindIsTheBusSideOfItsExchange :
    decodeFrame Cfg.reference [0xB2, 0x41, 0, 0, 0, 0, 0, 0] = .ok (.sportRd true 3 0x41 0) ∧
    (∃ u, xchg [0xB2, 0x41, 0, 0, 0, 0, 0, 0] (machine powered [zeros]) = .ok zeros u) ∧
    (∃ e u, xchg [0xB2, 0x41, 0, 0, 0, 0, 0, 0] (failing powered true) = .error e u) ∧
    (failing powered true).bus.nextAnswer = .fail true ∧ (failing powered false).bus.nextAnswer = .fail false :=
  ⟨rfl, ⟨_, rfl⟩, ⟨_, _, rfl⟩, rfl, rfl⟩

theorem witness_SetPowerWritesThePowerFlag : ∃ t u, exec (.setPower true) (machine Session.reset [zeros]) = .next t ∧
    opOf (.writeRegister 0 2 0 0) = some .writeRegister ∧ exec (.writeRegister 0 2 0 0) t = .next u ∧
    [0x8A, 0, 0, 0, 0, 0, 0, 0] ∈ sentFrames (newEvents t u) := ⟨_, _, rfl, rfl, rfl, by decide⟩

theorem witness_AbortFlashFailsAnOpenSession :
    (machine (inFlash .erasing .standard) []).ses.flash.state ∈ [FlashState.erasing, .programming, .finalizing, .rebooting] ∧
    (machine (inFlash .rebooting .standard) []).ses.flash.state ∈ [FlashState.erasing, .programming, .finalizing, .rebooting] ∧
    (machine powered []).ses.flash.state ∈ [FlashState.idle, .done, .failed] ∧
    (machine (inFlash .failed .standard) []).ses.flash.state ∈ [FlashState.idle, .done, .failed] := by decide

theorem witness_EncodeMfdReturnsTheStream : ¬ RecordOk State.reset.cfg badRecord ∧ RecordOk State.reset.cfg goodRecord ∧
    RecordOk State.reset.cfg fullRecord := ⟨badRecord_not_ok, goodRecord_ok, fullRecord_ok⟩

theorem witness_DecodeMfdReturnsTheRecord : StreamRead [0x41, 0x42, 0x0D, 0x07, 0x0D, 0x00] goodRecord ∧
    ∀ r, ¬ StreamRead [0x41, 0x0D, 0x00, 0x00] r :=
  ⟨(streamRead_iff _ _).2 (by decide), fun r h => absurd ((streamRead_iff _ _).1 h)
    (by rw [show decodeRecord [0x41, 0x0D, 0x00, 0x00] = none by decide]; simp)⟩

theorem witness_MfdRoundTrip : RecordOk State.reset.cfg fullRecord := fullRecord_ok

theorem witness_RefusedOperationLeavesOnlyItsReturn : opOf (.erase 3 .standard) = some .erase ∧
    guardOf (.erase 3 .standard) = some { slave := some 3, mode := .flashStart } ∧
    guardError (machine (inFlash .programming .standard) []) { slave := some 3, mode := .flashStart } =
      some (.sessionBusy .programming) := ⟨rfl, rfl, by decide⟩

theorem witness_InvalidSlaveIsReportedFirst : 7 < 8 := by decide

/-- Each channel that is refused, and each register channel with the first address too large. -/
theorem witness_RegisterOperationsCheckChannelThenAddress : 7 ≤ 7 ∧ (0 ≤ 1 ∨ 3 < 0) ∧ (1 ≤ 1 ∨ 3 < 1) ∧ (4 ≤ 1 ∨ 3 < 4) ∧
    ((2 = 2 ∨ 2 = 3) ∧ 255 < 256) ∧ ((3 = 2 ∨ 3 = 3) ∧ 255 < 256) := by decide

theorem witness_InvalidRecordIsReportedBeforeTheState : 7 ≤ 7 ∧
    ¬ RecordOk (machine { inFlash .programming .standard with dead := true } []).cfg badRecord := ⟨by decide, badRecord_not_ok⟩

theorem witness_DeadSessionRefusesBusOperations : opOf (.readRegister 7 3 255) = some .readRegister ∧
    guardOf (.readRegister 7 3 255) = some { slave := some 7, channel := some 3, regChannel := true, addr := some 255 } ∧
    GuardArgs.Valid Cfg.reference { slave := some 7, channel := some 3, regChannel := true, addr := some 255 } ∧
    (machine { powered with dead := true } []).ses.dead = true :=
  ⟨rfl, rfl, ⟨by simp, by simp, by simp, by simp⟩, rfl⟩

/-- A bus operation and the start of a session, in the first and the last open state. -/
theorem witness_OpenSessionRefusesOtherOperations :
    (opOf (.scan 1) = some .scan ∧ guardOf (.scan 1) = some {} ∧ GuardArgs.Valid Cfg.reference {} ∧
      Instr.scan 1 ≠ .finalize ∧ Instr.scan 1 ≠ .reboot ∧ (∀ image, Instr.scan 1 ≠ .program image) ∧
      (machine (inFlash .erasing .standard) []).ses.dead = false ∧
      (machine (inFlash .erasing .standard) []).ses.flash.state ∉ [FlashState.idle, .done, .failed]) ∧
    (guardOf (.erase 7 .standard) = some { slave := some 7, mode := .flashStart } ∧
      GuardArgs.Valid Cfg.reference { slave := some 7, mode := .flashStart } ∧
      (machine (inFlash .rebooting .standard) []).ses.flash.state ∉ [FlashState.idle, .done, .failed]) :=
  ⟨⟨rfl, rfl, ⟨by simp, by simp, by simp, by simp⟩, by decide, by decide, fun _ h => Instr.noConfusion h, rfl, by decide⟩,
    rfl, ⟨by simp, by simp, by simp, by simp⟩, by decide⟩

theorem witness_StepsOutOfOrderAreRefused : (machine (inFlash .rebooting .standard) []).ses.dead = false ∧
    (machine (inFlash .rebooting .standard) []).ses.flash.state ≠ .programming ∧
    (machine (inFlash .programming .standard) []).ses.dead = false ∧
    (machine (inFlash .programming .standard) []).ses.flash.state ≠ .rebooting := by decide

theorem witness_WriteRegisterSendsOneFrame : (machine powered [zeros]).Ready ∧ 7 ≤ 7 ∧
    ((Channel.busCtrl = .sport ∨ Channel.busCtrl = .busCtrl) ∧ (Channel.sport = .sport ∨ Channel.sport = .busCtrl)) ∧ 255 ≤ 255 ∧
    (machine powered [zeros]).willAnswer [zeros] :=
  ⟨powered_ready _, by decide, by decide, by decide, answers_ready _ _ (by decide)⟩

theorem witness_WriteRegisterStoresTheWord : (machine powered [zeros]).Ready ∧ 7 ≤ 7 ∧
    ((Channel.busCtrl = .sport ∨ Channel.busCtrl = .busCtrl) ∧ (Channel.sport = .sport ∨ Channel.sport = .busCtrl)) ∧ 255 ≤ 255 ∧
    (machine powered [zeros]).willAnswer [zeros] := witness_WriteRegisterSendsOneFrame

theorem witness_FailedWriteKillsTheSession : (failing powered true).Ready ∧ 7 ≤ 7 ∧
    (Channel.busCtrl = .sport ∨ Channel.busCtrl = .busCtrl) ∧ 255 ≤ 255 ∧ (failing powered true).bus.nextAnswer = .fail true :=
  ⟨⟨powered_settled, rfl, rfl⟩, by decide, by decide, by decide, rfl⟩

theorem witness_BusCtrlReadTakesOneFrame : (machine powered [plain 0x80 0x05]).Ready ∧ 7 ≤ 7 ∧ 255 ≤ 255 ∧
    (machine powered [plain 0x80 0x05]).willAnswer [plain 0x80 0x05] :=
  ⟨powered_ready _, by decide, by decide, answers_ready _ _ (by decide)⟩

theorem witness_SPortReadReturnsTheFirstValidWord :
    (machine powered [valid 0xDE 0xAD, zeros, valid 0xBE 0xEF]).Ready ∧ 7 ≤ 7 ∧ 255 ≤ 255 ∧
    (∀ p ∈ [zeros], respValid Cfg.reference p = false) ∧ respValid Cfg.reference (valid 0xBE 0xEF) = true ∧
    [zeros].length + 1 ≤ Cfg.reference.readBudget ∧
    (machine powered [valid 0xDE 0xAD, zeros, valid 0xBE 0xEF]).willAnswer (valid 0xDE 0xAD :: ([zeros] ++ [valid 0xBE 0xEF])) :=
  ⟨powered_ready _, by decide, by decide, by decide, by decide, by decide, answers_ready _ _ (by decide)⟩

theorem witness_SPortReadTimesOut : (machine powered (zeros :: List.replicate 256 zeros)).Ready ∧ 7 ≤ 7 ∧ 255 ≤ 255 ∧
    (∀ p ∈ List.replicate 256 zeros, respValid Cfg.reference p = false) ∧
    (List.replicate 256 zeros).length = Cfg.reference.readBudget ∧
    (machine powered (zeros :: List.replicate 256 zeros)).willAnswer (zeros :: List.replicate 256 zeros) := by
  refine ⟨powered_ready _, by decide, by decide, fun p hp => ?_, List.length_replicate, answers_ready _ _ fun p hp => ?_⟩
  · rw [(List.mem_replicate.1 hp).2]; decide
  · rcases List.mem_cons.1 hp with rfl | hp
    · rfl
    · rw [(List.mem_replicate.1 hp).2]; rfl

/-- V-REG-12: the mock answers the first poll with the word written. The setup response is a stale word with data-valid, and
the FIFO was asked for the same register before (93_implementation_defined.md I10). -/
def writeThenRead : State :=
  { machine powered [zeros, valid 0x12 0x34, valid 0xCA 0xFE] with
    bus := { (machine powered [zeros, valid 0x12 0x34, valid 0xCA 0xFE]).bus with fifo := some (3, 0x10) } }

/-- Both clauses: the run keeps the contract, with another register of the target's own. -/
theorem witness_WriteThenReadReturnsTheValue : writeThenRead.Ready ∧ 3 ≤ 7 ∧ 0x10 ≤ 255 ∧
    sportCell (slaveId 3) (addrByte 0x10) ∉ [sportCell 3 0x11] ∧
    (∀ p ∈ ([] : List Frame), respValid Cfg.reference p = false) ∧ respValid Cfg.reference (valid 0xCA 0xFE) = true ∧
    ([] : List Frame).length + 1 ≤ Cfg.reference.readBudget ∧
    writeThenRead.willAnswer (zeros :: valid 0x12 0x34 :: ([] ++ [valid 0xCA 0xFE])) ∧
    (∀ t u, exec (.writeRegister 3 2 0x10 0xCAFE) writeThenRead = .next t → exec (.readRegister 3 2 0x10) t = .next u →
      writeThenRead.bus.keepsContract Cfg.reference [sportCell 3 0x11] none (newEvents writeThenRead u) = true) ∧
    ∃ t u, exec (.writeRegister 3 2 0x10 0xCAFE) writeThenRead = .next t ∧ exec (.readRegister 3 2 0x10) t = .next u := by
  refine ⟨⟨powered_settled, rfl, rfl⟩, by decide, by decide, by decide, by decide, by decide, by decide,
    ⟨List.prefix_refl _, by decide⟩, ?_, _, _, rfl, rfl⟩
  intro t u ht hu
  cases ht
  cases hu
  decide +kernel

/-- The contract refuses a value the register has not held since the setup frame. -/
theorem test_contract_refuses :
    contractAllows Cfg.reference [] { State.reset.bus with fifo := some (3, 0x10) } (some [0xCAFE, 0x0001])
      [0xB2, 0x10, 0, 0, 0, 0, 0, 0] (valid 0x12 0x34) = false ∧
    contractAllows Cfg.reference [] { State.reset.bus with fifo := some (3, 0x10) } (some [0xCAFE, 0x0001])
      [0xB2, 0x10, 0, 0, 0, 0, 0, 0] (valid 0x00 0x01) = true := by decide

theorem witness_GetSlaveInfoReadsTheIdentity :
    let rss : List (List Frame) := List.replicate 19 [zeros, valid 0x12 0x34]
    (machine powered rss.flatten).Ready ∧ 7 ≤ 7 ∧ (List.replicate 19 (0x1234 : Word16)).length = 19 ∧
      rss.map (sportRead Cfg.reference) = (List.replicate 19 (0x1234 : Word16)).map some ∧
      (machine powered rss.flatten).willAnswer rss.flatten :=
  ⟨powered_ready _, by decide, rfl, by decide +kernel, answers_ready _ _ (by decide)⟩

theorem witness_ExchangeMapsItsResponses : (machine powered [zeros, zeros, zeros]).Ready ∧ 7 ≤ 7 ∧
    [zeros].length = Cfg.reference.lag ∧ (machine powered [zeros, zeros, zeros]).willAnswer (zeros :: zeros :: [zeros]) :=
  ⟨powered_ready _, by decide, rfl, answers_ready _ _ (by decide)⟩

/-- An exchange that passes `guard`, one that does not, and a next one. -/
theorem witness_PortWritesAreOneShot :
    (∃ t u, exec (.exchange 2 (some ⟨1, 2, 3, 4⟩) none) (machine powered [zeros, zeros, zeros, zeros, zeros, zeros]) = .next t ∧
      guardError (machine powered [zeros, zeros, zeros, zeros, zeros, zeros]) { slave := some 2 } = none ∧
      exec (.exchange 7 none none) t = .next u ∧ [0xF0, 0, 0, 0, 0, 0, 0, 0] ∈ sentFrames (newEvents t u)) ∧
    guardError (machine powered []) { slave := some 8 } ≠ none :=
  ⟨⟨_, _, rfl, by decide, rfl, by decide +kernel⟩, by decide⟩

/-- A requested port's cells lie apart from another slave's. -/
theorem witness_ExchangeStoresTheRequestedPorts : (machine powered [zeros, zeros, zeros]).Ready ∧ 7 ≤ 7 ∧
    [zeros].length = Cfg.reference.lag ∧ (machine powered [zeros, zeros, zeros]).willAnswer (zeros :: zeros :: [zeros]) ∧
    portCell 6 .one ∉ portCells (slaveId 7) .zero ∧ portCell 6 .one ∉ portCells (slaveId 7) .one :=
  ⟨powered_ready _, by decide, rfl, answers_ready _ _ (by decide), by decide, by decide⟩

/-- V-SCAN-1. -/
theorem witness_ScanReportsTheDoneWord :
    (machine powered [zeros, zeros, zeros, zeros, zeros, plain 0x80 0x25]).Ready ∧ [zeros, zeros, zeros].length = 3 ∧
    [zeros, zeros].length + 1 ≤ 3 ∧
    (∀ r ∈ [zeros, zeros], maskSet (respWord Cfg.reference r) Cfg.reference.scanDoneMask = false) ∧
    maskSet (respWord Cfg.reference (plain 0x80 0x25)) Cfg.reference.scanDoneMask = true ∧
    (machine powered [zeros, zeros, zeros, zeros, zeros, plain 0x80 0x25]).willAnswer
      ([zeros, zeros, zeros] ++ ([zeros, zeros] ++ [plain 0x80 0x25])) :=
  ⟨powered_ready _, rfl, by decide, by decide, by decide, answers_ready _ _ (by decide)⟩

/-- A budget of 1 and a budget of 0 (V-SCAN-3). -/
theorem witness_ScanTimesOut : ((machine powered [zeros, zeros, zeros, zeros]).Ready ∧ [zeros, zeros, zeros].length = 3 ∧
    (∀ r ∈ [zeros], maskSet (respWord Cfg.reference r) Cfg.reference.scanDoneMask = false) ∧
    (machine powered [zeros, zeros, zeros, zeros]).willAnswer ([zeros, zeros, zeros] ++ [zeros])) ∧
    (∀ r ∈ ([] : List Frame), maskSet (respWord Cfg.reference r) Cfg.reference.scanDoneMask = false) ∧
    (machine powered [zeros, zeros, zeros]).willAnswer ([zeros, zeros, zeros] ++ []) :=
  ⟨⟨powered_ready _, rfl, by decide, answers_ready _ _ (by decide)⟩, by decide, answers_ready _ _ (by decide)⟩

theorem witness_EnableWritesTheFourWords : (machine powered [zeros, zeros, zeros, zeros]).Ready ∧ 7 ≤ 7 ∧
    [zeros, zeros, zeros, zeros].length = 4 ∧
    (machine powered [zeros, zeros, zeros, zeros]).willAnswer [zeros, zeros, zeros, zeros] :=
  ⟨powered_ready _, by decide, rfl, answers_ready _ _ (by decide)⟩

/-! Frames of flash steps that succeed: the write frames with their answers, then one status read. -/

/-- The transactions of an erase of slave 3. -/
def eraseRun (r : FlashRange) : List Txn :=
  writeTxns Cfg.reference true (slaveId 3) .sport (rangeParams Cfg.reference r).ctrl
      ((rangeParams Cfg.reference r).unlockErase.toList ++ [Cfg.reference.vEraseReq]) acks8 ++
    readTxns Cfg.reference true (slaveId 3) .sport ([[zeros, valid 0 1]].map fun _ => (rangeParams Cfg.reference r).status)
      [[zeros, valid 0 1]]

/-- The transactions of a finalize of slave 3. -/
def finalizeRun (r : FlashRange) : List Txn :=
  writeTxns Cfg.reference true (slaveId 3) .sport (rangeParams Cfg.reference r).ctrl [Cfg.reference.vDownloadEnd] [zeros] ++
    readTxns Cfg.reference true (slaveId 3) .sport ([[zeros, valid 0 2]].map fun _ => (rangeParams Cfg.reference r).status)
      [[zeros, valid 0 2]]

/-- The transactions of a reboot of slave 3. -/
def rebootRun (r : FlashRange) : List Txn :=
  writeTxns Cfg.reference true (slaveId 3) .sport (rangeParams Cfg.reference r).ctrl
    (Cfg.reference.vUnlockReboot.toList ++ [Cfg.reference.vRebootReq]) acks8

/-- The transactions of a download in one burst, after one wait that finds room. -/
def programRun (r : FlashRange) (image : List Byte) : List Txn :=
  [([zeros], (imageWords 0 image).map fun _ => zeros)].zipIdx.flatMap fun x =>
    burstTxns Cfg.reference true (slaveId 3) (rangeParams Cfg.reference r).download
      (burstAt Cfg.reference (imageWords Cfg.reference.imagePad image) x.2) x.1.1 x.1.2

theorem erase_read : [[zeros, valid 0 1]].map (sportRead Cfg.reference) = [(1 : Word16)].map some := by decide
theorem finalize_read : [[zeros, valid 0 2]].map (sportRead Cfg.reference) = [(2 : Word16)].map some := by decide
theorem erase_shown : ShownLast Cfg.reference.eraseDoneMask Cfg.reference.eraseBudget [1] :=
  ⟨by decide, [], 1, rfl, by simp, by decide⟩
theorem finalize_shown : ShownLast Cfg.reference.downloadDoneMask Cfg.reference.finalizeBudget [2] :=
  ⟨by decide, [], 2, rfl, by simp, by decide⟩

theorem eraseRun_ok (r : FlashRange) : EraseTxns Cfg.reference true (slaveId 3) r (eraseRun r) :=
  ⟨acks8, [[zeros, valid 0 1]], [1], rfl, erase_read, erase_shown, rfl⟩

theorem finalizeRun_ok (r : FlashRange) : FinalizeTxns Cfg.reference true (slaveId 3) r (finalizeRun r) :=
  ⟨zeros, [[zeros, valid 0 2]], [2], finalize_read, finalize_shown, rfl⟩

theorem rebootRun_ok (r : FlashRange) : RebootTxns Cfg.reference true (slaveId 3) r (rebootRun r) := ⟨acks8, rfl, rfl⟩

theorem programRun_ok (r : FlashRange) : ProgramTxns Cfg.reference true (slaveId 3) r [0x41, 0x42] (programRun r [0x41, 0x42]) := by
  refine ⟨[([zeros], [zeros])], rfl, ?_, rfl⟩
  intro x hx
  simp only [List.zipIdx_cons, List.zipIdx_nil, List.mem_singleton] at hx
  subst hx
  exact ⟨rfl, by decide, [], zeros, rfl, by decide, by decide⟩

theorem mfdRun_ok : ProgramTxns Cfg.reference true (slaveId 3) .manufacturingData (encodeRecord Cfg.reference goodRecord)
    (programRun .manufacturingData (encodeRecord Cfg.reference goodRecord)) := by
  refine ⟨[([zeros], [zeros, zeros, zeros])], by decide, ?_, rfl⟩
  intro x hx
  simp only [List.zipIdx_cons, List.zipIdx_nil, List.mem_singleton] at hx
  subst hx
  exact ⟨by decide, by decide, [], zeros, rfl, by decide, by decide⟩

theorem witness_EraseOpensTheSession : (machine powered (answersOf (eraseRun .standard))).Ready ∧ 3 ≤ 7 ∧
    EraseTxns Cfg.reference true (slaveId 3) .standard (eraseRun .standard) ∧
    (machine powered (answersOf (eraseRun .standard))).willAnswer (answersOf (eraseRun .standard)) :=
  ⟨powered_ready _, by decide, eraseRun_ok _, answers_ready _ _ (by decide +kernel)⟩

theorem witness_ProgramDownloadsTheImage :
    (machine (inFlash .programming .standard) (answersOf (programRun .standard [0x41, 0x42]))).ReadyAt .programming ∧
    ProgramTxns Cfg.reference true (slaveId 3) .standard [0x41, 0x42] (programRun .standard [0x41, 0x42]) ∧
    (machine (inFlash .programming .standard) (answersOf (programRun .standard [0x41, 0x42]))).willAnswer
      (answersOf (programRun .standard [0x41, 0x42])) :=
  ⟨programming_ready _ _, programRun_ok _, answers_ready _ _ (by decide +kernel)⟩

theorem witness_FinalizeEndsTheDownload :
    (machine (inFlash .programming .standard) (answersOf (finalizeRun .standard))).ReadyAt .programming ∧
    FinalizeTxns Cfg.reference true (slaveId 3) .standard (finalizeRun .standard) ∧
    (machine (inFlash .programming .standard) (answersOf (finalizeRun .standard))).willAnswer
      (answersOf (finalizeRun .standard)) :=
  ⟨programming_ready _ _, finalizeRun_ok _, answers_ready _ _ (by decide +kernel)⟩

theorem witness_RebootClosesTheSession : (machine (inFlash .rebooting .standard) acks8).ReadyAt .rebooting ∧
    acks8.length = 8 ∧ (machine (inFlash .rebooting .standard) acks8).willAnswer acks8 :=
  ⟨rebooting_ready _, rfl, answers_ready _ _ (by decide)⟩

/-- A step that passes `guard` and is answered, and one whose exchange fails. -/
theorem witness_FlashStepsReachTheirStateOrFail : opOf .finalize = some .finalize ∧
    guardOf .finalize = some { mode := .flashStep .programming } ∧ flashGoal .finalize = some .rebooting ∧
    (guardError (failing (inFlash .programming .standard) true) { mode := .flashStep .programming } = none ∧
      ∃ t, exec .finalize (failing (inFlash .programming .standard) true) = .next t) ∧
    guardError (machine (inFlash .programming .standard) (answersOf (finalizeRun .standard)))
      { mode := .flashStep .programming } = none := ⟨rfl, rfl, rfl, ⟨by decide, _, rfl⟩, by decide⟩

/-- The transactions of an erase whose status never shows erase-done. -/
def eraseStall : List Txn :=
  writeTxns Cfg.reference true (slaveId 3) .sport (rangeParams Cfg.reference .standard).ctrl
      ((rangeParams Cfg.reference .standard).unlockErase.toList ++ [Cfg.reference.vEraseReq]) acks8 ++
    readTxns Cfg.reference true (slaveId 3) .sport
      ((List.replicate 500 [zeros, valid 0 0]).map fun _ => (rangeParams Cfg.reference .standard).status)
      (List.replicate 500 [zeros, valid 0 0])

/-- The transactions of a finalize whose status never shows download-done. -/
def finalizeStall : List Txn :=
  writeTxns Cfg.reference true (slaveId 3) .sport (rangeParams Cfg.reference .standard).ctrl [Cfg.reference.vDownloadEnd] [zeros] ++
    readTxns Cfg.reference true (slaveId 3) .sport
      ((List.replicate 500 [zeros, valid 0 0]).map fun _ => (rangeParams Cfg.reference .standard).status)
      (List.replicate 500 [zeros, valid 0 0])

theorem stalled_reads : (List.replicate 500 [zeros, valid 0 0]).map (sportRead Cfg.reference) =
    (List.replicate 500 (0 : Word16)).map some := by
  rw [List.map_replicate, List.map_replicate]
  rfl

/-- Status reads of which the second finds no data-valid in 256 polls. -/
def unansweredReads : List (List Frame) := [[zeros, valid 0 0], zeros :: List.replicate 256 zeros]

theorem unanswered (mask : Word16) {budget : Nat} (h : 1 < budget) :
    UnansweredLast Cfg.reference mask budget unansweredReads := by
  refine ⟨[[zeros, valid 0 0]], [0], zeros, List.replicate 256 zeros, rfl, by decide, h, ?_, fun p hp => ?_,
    List.length_replicate⟩
  · simp [maskSet]
  · rw [(List.mem_replicate.1 hp).2]; decide

/-- The transactions of an erase, and of a finalize, whose second status read is not answered. -/
def eraseSilent : List Txn :=
  writeTxns Cfg.reference true (slaveId 3) .sport (rangeParams Cfg.reference .standard).ctrl
      ((rangeParams Cfg.reference .standard).unlockErase.toList ++ [Cfg.reference.vEraseReq]) acks8 ++
    readTxns Cfg.reference true (slaveId 3) .sport
      (unansweredReads.map fun _ => (rangeParams Cfg.reference .standard).status) unansweredReads
def finalizeSilent : List Txn :=
  writeTxns Cfg.reference true (slaveId 3) .sport (rangeParams Cfg.reference .standard).ctrl [Cfg.reference.vDownloadEnd] [zeros] ++
    readTxns Cfg.reference true (slaveId 3) .sport
      (unansweredReads.map fun _ => (rangeParams Cfg.reference .standard).status) unansweredReads

theorem witness_EraseTimesOut : ((machine powered (answersOf eraseStall)).Ready ∧ 3 ≤ 7 ∧
      EraseTimeoutTxns Cfg.reference true (slaveId 3) .standard eraseStall ∧
      (machine powered (answersOf eraseStall)).willAnswer (answersOf eraseStall)) ∧
    (machine powered (answersOf eraseSilent)).Ready ∧
      EraseUnansweredTxns Cfg.reference true (slaveId 3) .standard eraseSilent ∧
      (machine powered (answersOf eraseSilent)).willAnswer (answersOf eraseSilent) := by
  refine ⟨⟨powered_ready _, by decide, ⟨acks8, _, _, rfl, stalled_reads, List.length_replicate, ?_, rfl⟩,
    answers_ready _ _ (by decide +kernel)⟩, powered_ready _, ⟨acks8, _, rfl, unanswered _ (by decide), rfl⟩,
    answers_ready _ _ (by decide +kernel)⟩
  intro w hw
  rw [(List.mem_replicate.1 hw).2]
  decide

theorem witness_FinalizeTimesOut :
    ((machine (inFlash .programming .standard) (answersOf finalizeStall)).ReadyAt .programming ∧
      FinalizeTimeoutTxns Cfg.reference true (slaveId 3) .standard finalizeStall ∧
      (machine (inFlash .programming .standard) (answersOf finalizeStall)).willAnswer (answersOf finalizeStall)) ∧
    (machine (inFlash .programming .standard) (answersOf finalizeSilent)).ReadyAt .programming ∧
      FinalizeUnansweredTxns Cfg.reference true (slaveId 3) .standard finalizeSilent ∧
      (machine (inFlash .programming .standard) (answersOf finalizeSilent)).willAnswer (answersOf finalizeSilent) := by
  refine ⟨⟨programming_ready _ _, ⟨zeros, _, _, stalled_reads, List.length_replicate, ?_, rfl⟩,
    answers_ready _ _ (by decide +kernel)⟩, programming_ready _ _, ⟨zeros, _, unanswered _ (by decide), rfl⟩,
    answers_ready _ _ (by decide +kernel)⟩
  intro w hw
  rw [(List.mem_replicate.1 hw).2]
  decide

/-- V-FL-12. -/
theorem witness_ProgramWithoutRoomTimesOut :
    (machine (inFlash .programming .standard) (List.replicate 1000 (plain 0 1))).ReadyAt .programming ∧
    ([1, 2] : List Byte) ≠ [] ∧ Cfg.reference.flowControl = true ∧
    (List.replicate 1000 (plain 0 1)).length = Cfg.reference.fifoBudget ∧
    (∀ r ∈ List.replicate 1000 (plain 0 1), maskSet (respWord Cfg.reference r) Cfg.reference.fifoHalfFullMask = true) ∧
    (machine (inFlash .programming .standard) (List.replicate 1000 (plain 0 1))).willAnswer (List.replicate 1000 (plain 0 1)) := by
  refine ⟨programming_ready _ _, by decide, rfl, List.length_replicate, fun r hr => ?_, answers_ready _ _ fun r hr => ?_⟩
  · rw [(List.mem_replicate.1 hr).2]; decide
  · rw [(List.mem_replicate.1 hr).2]; rfl

/-- The answers of a whole flash run. -/
def flashAnswers (r : FlashRange) (image : List Byte) : List Frame :=
  answersOf (eraseRun r ++ programRun r image ++ finalizeRun r ++ rebootRun r)

theorem witness_FlashRunsTheFourSteps : (machine powered (flashAnswers .standard [0x41, 0x42])).Ready ∧ 3 ≤ 7 ∧
    EraseTxns Cfg.reference true (slaveId 3) .standard (eraseRun .standard) ∧
    ProgramTxns Cfg.reference true (slaveId 3) .standard [0x41, 0x42] (programRun .standard [0x41, 0x42]) ∧
    FinalizeTxns Cfg.reference true (slaveId 3) .standard (finalizeRun .standard) ∧
    RebootTxns Cfg.reference true (slaveId 3) .standard (rebootRun .standard) ∧
    (machine powered (flashAnswers .standard [0x41, 0x42])).willAnswer (flashAnswers .standard [0x41, 0x42]) :=
  ⟨powered_ready _, by decide, eraseRun_ok _, programRun_ok _, finalizeRun_ok _, rebootRun_ok _,
    answers_ready _ _ (by decide +kernel)⟩

theorem witness_WriteManufacturingDataRunsItsSteps :
    (machine powered (flashAnswers .manufacturingData (encodeRecord Cfg.reference goodRecord))).Ready ∧ 3 ≤ 7 ∧
    RecordOk Cfg.reference goodRecord ∧
    EraseTxns Cfg.reference true (slaveId 3) .manufacturingData (eraseRun .manufacturingData) ∧
    ProgramTxns Cfg.reference true (slaveId 3) .manufacturingData (encodeRecord Cfg.reference goodRecord)
      (programRun .manufacturingData (encodeRecord Cfg.reference goodRecord)) ∧
    FinalizeTxns Cfg.reference true (slaveId 3) .manufacturingData (finalizeRun .manufacturingData) ∧
    (if Cfg.reference.mfdReboot then RebootTxns Cfg.reference true (slaveId 3) .manufacturingData (rebootRun .manufacturingData)
      else rebootRun .manufacturingData = []) ∧
    (machine powered (flashAnswers .manufacturingData (encodeRecord Cfg.reference goodRecord))).willAnswer
      (flashAnswers .manufacturingData (encodeRecord Cfg.reference goodRecord)) :=
  ⟨powered_ready _, by decide, goodRecord_ok, eraseRun_ok _, mfdRun_ok, finalizeRun_ok _, rebootRun_ok _,
    answers_ready _ _ (by decide +kernel)⟩

/-- The reads that bring words back, each valid on the first poll. -/
def readsOf (ws : List Word16) : List (List Frame) := ws.map fun w => [zeros, valid (hi w) (lo w)]

/-- A record that ends by one more word (V-MFD-15), and one of fourteen fields. -/
theorem witness_ReadManufacturingDataReadsTheRecordBack :
    (let rss := readsOf [0x4142, 0x0D07, 0x0D00, 0xFFFF]
     (machine powered rss.flatten).Ready ∧ 3 ≤ 7 ∧ RecordOk Cfg.reference goodRecord ∧
      (goodRecord.length < 14 ∧ ∃ w, [(0xFFFF : Word16)] = [w] ∧ (recordByte (hi w) = false ∨ recordByte (lo w) = false) ∧
        hi w ≠ 0x0D) ∧
      rss.map (sportRead Cfg.reference) =
        (imageWords Cfg.reference.imagePad (encodeRecord Cfg.reference goodRecord) ++ [0xFFFF]).map some ∧
      rss.length ≤ Cfg.reference.mfdMaxWords ∧ (machine powered rss.flatten).willAnswer rss.flatten) ∧
    (let rss := readsOf (imageWords 0 (encodeRecord Cfg.reference fullRecord))
     RecordOk Cfg.reference fullRecord ∧ fullRecord.length = 14 ∧
      rss.map (sportRead Cfg.reference) =
        (imageWords Cfg.reference.imagePad (encodeRecord Cfg.reference fullRecord) ++ []).map some ∧
      rss.length ≤ Cfg.reference.mfdMaxWords ∧ (machine powered rss.flatten).willAnswer rss.flatten) :=
  ⟨⟨powered_ready _, by decide, goodRecord_ok, ⟨by decide, 0xFFFF, rfl, by decide, by decide⟩, by decide +kernel,
      by decide +kernel, answers_ready _ _ (by decide +kernel)⟩,
    fullRecord_ok, rfl, by decide +kernel, by decide +kernel, answers_ready _ _ (by decide +kernel)⟩

end Sys2Proof.Tests
end

section
/-! The family of spec/10_state.md: the invariant between operations and the step that keeps it, how a host operation ends,
the write matrix, and the refusal of a dead session. -/

namespace Sys2Proof.Machine

variable {s t : State} {i : Instr}

/-! ## The invariant -/

theorem Session.Settled.steady {u : Session} (h : u.Settled) : u.Steady :=
  ⟨h.notErasing, h.notFinalizing, h.deadNotBusy⟩

theorem settled_reset : Session.reset.Settled :=
  ⟨rfl, rfl, rfl, rfl, by decide, by decide, by decide⟩

theorem Memory.wf_nil : Memory.wf [] := ⟨List.Pairwise.nil, by simp⟩

/-- After reset no cell of the target is written and no port answer is on its way. -/
theorem inv_resetWith (p : Params) : (State.resetWith p).Inv where
  ses := settled_reset
  bus := ⟨Memory.wf_nil, Nat.zero_le _⟩

/-- Every instruction keeps the invariant: its session part field by field, its target part as the record's canonical form. -/
theorem exec_inv (h : exec i s = .next t) (hs : s.Inv) : t.Inv := by
  have hpend := pend_of_exec h hs.ses.pendWr0 hs.ses.pendWr1
  have hsteady := exec_steady h hs.ses.steady
  exact ⟨⟨exec_sel h hs.ses.sel, hpend.1, hpend.2, exec_pc h hs.ses.pc, hsteady.notErasing, hsteady.notFinalizing,
    hsteady.deadNotBusy⟩, exec_sound h hs.bus⟩

/-- The invariant says nothing of the calls that wait. -/
theorem State.Inv.withRequests (h : s.Inv) (rs : List HostCall) : (s.withRequests rs).Inv := ⟨h.ses, h.bus⟩

/-- The invariant says nothing of a frame on the Transport. -/
theorem State.Inv.withLine (h : s.Inv) (f : Option Frame) : (s.withLine f).Inv :=
  ⟨h.ses, h.bus.mem, h.bus.pipe⟩

/-! ## What a step can do -/

theorem runForm_eq_next {w : Form} (h : runForm w s = .next t) : ∃ i, decode s.cfg w = .ok i ∧ exec i s = .next t := by
  unfold runForm at h
  cases hd : decode s.cfg w with
  | ok i => exact ⟨i, rfl, by simpa only [hd] using h⟩
  | error e => simp only [hd] at h; cases h

/-- A step that answers a next state: a frame on the Transport is served, or else the next call is run, or nothing waits and
nothing happens. -/
theorem step_eq_next (h : step s = .next t) :
    (∃ f i, s.bus.line = some f ∧ decode s.cfg (.frame f) = .ok i ∧ exec i (s.withLine none) = .next t) ∨
    (∃ r rest i, s.bus.line = none ∧ s.requests = r :: rest ∧ decode s.cfg (.call r) = .ok i ∧
      exec i (s.withRequests rest) = .next t) ∨
    (s.bus.line = none ∧ s.requests = [] ∧ t = s) := by
  unfold step at h
  cases hl : s.bus.line with
  | some f =>
    simp only [hl] at h
    obtain ⟨i, hd, hx⟩ := runForm_eq_next h
    exact .inl ⟨f, i, rfl, hd, hx⟩
  | none =>
    cases hr : s.requests with
    | cons r rest =>
      simp only [hl, hr] at h
      obtain ⟨i, hd, hx⟩ := runForm_eq_next h
      exact .inr (.inl ⟨r, rest, i, rfl, rfl, hd, hx⟩)
    | nil =>
      simp only [hl, hr] at h
      cases h
      exact .inr (.inr ⟨rfl, rfl, rfl⟩)

/-- Settles O10: the reset session is settled and the target untouched, under every configuration. -/
theorem resetMeetsTheInvariant : Obligations.ResetMeetsTheInvariant :=
  ⟨fun p => ⟨inv_resetWith p, rfl⟩, inv_resetWith Params.reference⟩

/-- Settles O11: whichever form a step runs, the instruction starts from a state that meets the invariant with no frame on the
Transport, and keeps both. -/
theorem stepKeepsTheInvariant : Obligations.StepKeepsTheInvariant := by
  intro s t hs h
  rcases step_eq_next h with ⟨f, i, -, -, hx⟩ | ⟨r, rest, i, hl, -, -, hx⟩ | ⟨hl, -, rfl⟩
  · exact ⟨exec_inv hx (hs.withLine none), exec_line hx⟩
  · exact ⟨exec_inv hx (hs.withRequests rest), (exec_line hx).trans hl⟩
  · exact ⟨hs, hl⟩

/-! ## How a host operation ends -/

/-- The body of a host operation, however it ends, appends events without a `Return` and leaves the configuration and what
waits. -/
structure Working (s u : State) (es : List Event) : Prop where
  hist : u.hist = s.hist ++ es
  rets : returns es = []
  params : u.params = s.params
  requests : u.requests = s.requests

theorem Path.working {b : Bool} {E : Session → Session → Prop} {o : Option Err} (h : Path b E s o t) :
    ∃ es, Working s t es := by
  obtain ⟨es, hr⟩ := h.leaves
  exact ⟨es, hr.hist, hr.rets, hr.params, hr.requests⟩

/-- A body that returns, `reset` included, which writes the session as a whole and is no path. -/
theorem body_ok_working {body : Op Value} (hb : bodyOf i = some body) {v : Value} (h : body s = .ok v t) :
    ∃ es, Working s t es := by
  by_cases hr : i = .reset
  · subst hr
    cases hb
    cases h
    exact ⟨[], by simp, rfl, rfl, rfl⟩
  · exact ((runs_body hb hr false s.params s rfl (by simp)).of_ok h).1.working

theorem body_error_working {body : Op Value} (hb : bodyOf i = some body) {e : Err} (h : body s = .error e t) :
    ∃ es, Working s t es := by
  have hr : i ≠ .reset := by rintro rfl; cases hb; cases h
  exact ((runs_body hb hr false s.params s rfl (by simp)).of_error h).1.working

/-- A host operation ends its body's work with one `Return`, of the value or of the error. -/
theorem hostOp_ends {body : Op Value} (hb : bodyOf i = some body) (op : OpName) (s : State) :
    ∃ es u, Working (s.enter op) u es ∧
      ((∃ v, body (s.enter op) = .ok v u ∧ hostOp op body s = u.ret op (.ok v)) ∨
        ∃ e, body (s.enter op) = .error e u ∧ hostOp op body s = u.ret op (.error e)) := by
  cases hx : body (s.enter op) with
  | ok v u =>
    obtain ⟨es, hw⟩ := body_ok_working hb hx
    exact ⟨es, u, hw, .inl ⟨v, rfl, hostOp_ok hx⟩⟩
  | error e u =>
    obtain ⟨es, hw⟩ := body_error_working hb hx
    exact ⟨es, u, hw, .inr ⟨e, rfl, hostOp_error hx⟩⟩

/-- The result of an operation is the one its `Return` carries. -/
theorem Working.returns_ret {es : List Event} {op : OpName} {r : Result} (h : Working (s.enter op) t es) :
    returns (newEvents s (t.ret op r)) = [(op, r)] := by
  have hist : (t.ret op r).hist = s.hist ++ (es ++ [.ret op r]) := by simp [h.hist]
  rw [newEvents_of_append hist, returns_append, h.rets]
  rfl

/-- Settles O12: the `Return` follows the events of the body, of which none is a `Return`. -/
theorem everyOperationEndsWithOneReturn : Obligations.EveryOperationEndsWithOneReturn := by
  intro i op s ho
  obtain ⟨body, hb⟩ := bodyOf_of_opOf ho
  obtain ⟨es, u, hw, hends⟩ := hostOp_ends hb op s
  obtain ⟨r, hr⟩ : ∃ r, hostOp op body s = u.ret op r := by
    rcases hends with ⟨v, -, h⟩ | ⟨e, -, h⟩
    · exact ⟨.ok v, h⟩
    · exact ⟨.error e, h⟩
  exact ⟨u.ret op r, es, r, by rw [exec_body hb ho, hr], by simp [hw.hist], hw.rets, hw.params, hw.requests, rfl⟩

/-! ## The write matrix (10_state.md R40) -/

/-- A frame kind writes no field. -/
theorem writesOnly_frame (ho : opOf i = none) (u : Session) : writesOnly i u u := by
  cases i <;> cases ho <;> rfl

theorem exec_writesOnly (h : exec i s = .next t) : writesOnly i s.ses t.ses := by
  cases ho : opOf i with
  | none =>
    rw [exec_frame ho] at h
    cases h
    exact writesOnly_frame ho s.ses
  | some op =>
    obtain ⟨body, hb⟩ := bodyOf_of_opOf ho
    rw [exec_body hb ho] at h
    cases h
    exact hostOp_writesOnly hb ho s

/-- An instruction whose `Return` carries an error leaves what that error leaves: its body raised it. -/
theorem exec_raised {op : OpName} {e : Err} (h : exec i s = .next t) (hret : returns (newEvents s t) = [(op, .error e)]) :
    Raised e s.ses t.ses := by
  cases ho : opOf i with
  | none =>
    rw [exec_frame ho] at h
    cases h
    simp [newEvents, returns] at hret
  | some op' =>
    obtain ⟨body, hb⟩ := bodyOf_of_opOf ho
    rw [exec_body hb ho] at h
    cases h
    obtain ⟨es, u, hw, ⟨v, -, hu⟩ | ⟨e', hx, hu⟩⟩ := hostOp_ends hb op' s
    · rw [hu, hw.returns_ret] at hret
      simp at hret
    · rw [hu, hw.returns_ret] at hret
      obtain ⟨-, rfl⟩ : op' = op ∧ e' = e := by simpa using hret
      have hbody := body_raised hb _ _ _ hx
      rw [hu]
      exact ⟨hbody.errSummary, hbody.table⟩

/-- Settles O15: the matrix, instruction by instruction, and what an error leaves. -/
theorem writeMatrixHolds : Obligations.WriteMatrixHolds := by
  intro i s t h
  refine ⟨exec_writesOnly h, fun op e hret => ?_⟩
  have hraised := exec_raised h hret
  exact ⟨hraised.errSummary, hraised.table⟩

/-! ## A dead session -/

/-- With valid arguments only the dead mark and the flash state are left for `guard` to look at, in this order (R164). -/
theorem guardError_of_valid {g : GuardArgs} (h : g.Valid s.cfg) :
    guardError s g = (if s.ses.dead then some (.transportFailure none) else none).or (modeError s.ses g.mode) := by
  have hslave : g.slave.bind slaveError = none := by
    simp only [Option.bind_eq_none_iff]
    intro n hn
    simpa [slaveError] using h.slave n hn
  have hchannel : g.channel.bind (channelError g.regChannel) = none := by
    simp only [Option.bind_eq_none_iff]
    intro n hn
    obtain ⟨hle, hreg⟩ := h.channel n hn
    rw [channelError, if_neg (by omega), if_neg fun hport => by have := hreg hport.1; omega]
  have haddr : g.addr.bind addrError = none := by
    simp only [Option.bind_eq_none_iff]
    intro n hn
    simpa [addrError] using h.addr n hn
  have hrecord : g.record.bind (recordError s.cfg) = none := by
    simp only [Option.bind_eq_none_iff]
    intro r hr
    rw [recordError, if_pos ((validRecord_iff _ _).2 (h.record r hr))]
  simp only [guardError, hslave, hchannel, haddr, hrecord, Option.none_or]

/-- An operation that its `guard` refuses leaves only its `Return` with the error. -/
theorem exec_refuse {op : OpName} {g : GuardArgs} {e : Err} (ho : opOf i = some op) (hg : guardOf i = some g)
    (h : guardError s g = some e) : exec i s = .next (s.returned op (.error e) s.ses) := by
  obtain ⟨body, hb⟩ := bodyOf_of_opOf ho
  rw [exec_body hb ho, hostOp_refuse hb hg h]

/-- Settles O33: a dead session is refused by `guard`, before the flash state is looked at. -/
theorem deadSessionRefusesBusOperations : Obligations.DeadSessionRefusesBusOperations := by
  intro i op g s ho hg hv hd
  refine exec_refuse ho hg ?_
  rw [guardError_of_valid hv, if_pos hd, Option.some_or]

end Sys2Proof.Machine
end

section
/-! The family of spec/20_memory.md: registers lie apart and read back, what each frame kind does at the target by itself, how
a host operation exchanges its frames, and which bytes of the target it stores to. -/

namespace Sys2Proof.Machine

variable {s t : State} {i : Instr} {op : OpName}

/-! ## The cells of a register (R42–R53) -/

theorem mem_registerCells_sport {sl : SlaveId} {a : Byte} {x : Nat} :
    x ∈ registerCells .sport sl a ↔ sportCell sl a ≤ x ∧ x ≤ sportCell sl a + 1 := by
  simp only [registerCells, List.mem_cons, List.not_mem_nil, or_false]
  omega

theorem mem_registerCells_busCtrl {sl : SlaveId} {a : Byte} {x : Nat} :
    x ∈ registerCells .busCtrl sl a ↔ busCtrlCell a ≤ x ∧ x ≤ busCtrlCell a + 1 := by
  simp only [registerCells, List.mem_cons, List.not_mem_nil, or_false]
  omega

theorem mem_portCells {sl : SlaveId} {p : Port} {x : Nat} :
    x ∈ portCells sl p ↔ portCell sl p ≤ x ∧ x ≤ portCell sl p + 3 := by
  simp only [portCells, List.mem_cons, List.not_mem_nil, or_false]
  omega

theorem sportCells_lt {sl : SlaveId} {a : Byte} {x : Nat} (h : x ∈ registerCells .sport sl a) : x < 4096 := by
  have hlt := sportCell_lt sl a
  rw [mem_registerCells_sport] at h
  omega

theorem busCtrlCells_bounds {sl : SlaveId} {a : Byte} {x : Nat} (h : x ∈ registerCells .busCtrl sl a) :
    4096 ≤ x ∧ x < 4608 := by
  have hb := busCtrlCell_bounds a
  rw [mem_registerCells_busCtrl] at h
  omega

theorem portCells_bounds {sl : SlaveId} {p : Port} {x : Nat} (h : x ∈ portCells sl p) : 4608 ≤ x ∧ x < memorySize := by
  have hb := portCell_bounds sl p
  rw [mem_portCells] at h
  omega

theorem sportCells_disjoint {sl sl' : SlaveId} {a a' : Byte} {x : Nat} (hne : (sl, a) ≠ (sl', a'))
    (h : x ∈ registerCells .sport sl a) : x ∉ registerCells .sport sl' a' := by
  have hapart := sportCell_apart (s := sl) (s' := sl') (a := a) (a' := a') (by simpa using hne)
  rw [mem_registerCells_sport] at h ⊢
  omega

theorem busCtrlCells_disjoint {sl sl' : SlaveId} {a a' : Byte} {x : Nat} (hne : a ≠ a')
    (h : x ∈ registerCells .busCtrl sl a) : x ∉ registerCells .busCtrl sl' a' := by
  have hapart := busCtrlCell_apart hne
  rw [mem_registerCells_busCtrl] at h ⊢
  omega

theorem portCells_disjoint {sl sl' : SlaveId} {p p' : Port} {x : Nat} (hne : (sl, p) ≠ (sl', p')) (h : x ∈ portCells sl p) :
    x ∉ portCells sl' p' := by
  have hapart := portCell_apart (s := sl) (s' := sl') (p := p) (p' := p') (by simpa using hne)
  rw [mem_portCells] at h ⊢
  omega

/-- Settles O18: within a space by the distance of the first cells, across spaces because SPort lies below 4096, BusCtrl from
there to 4608 and the ports above. -/
theorem registersAreApart : Obligations.RegistersAreApart := by
  refine ⟨Memory.get16_put16, Memory.get32_put32, fun _ _ _ _ _ => sportCells_disjoint,
    fun _ _ _ _ _ => busCtrlCells_disjoint, fun _ _ _ _ _ => portCells_disjoint,
    fun sl sl' sl'' a a' p x => ⟨fun h => ⟨fun h' => ?_, fun h' => ?_⟩, fun h h' => ?_⟩, fun sl a p x h => ?_⟩
  · have := sportCells_lt h
    have := busCtrlCells_bounds h'
    omega
  · have := sportCells_lt h
    have := portCells_bounds h'
    omega
  · have := busCtrlCells_bounds h
    have := portCells_bounds h'
    omega
  · have hsize : 4608 < memorySize := by decide
    rw [List.mem_append, List.mem_append] at h
    rcases h with (h | h) | h
    · have := sportCells_lt h
      omega
    · have := busCtrlCells_bounds h
      omega
    · exact (portCells_bounds h).2

/-! ## A frame kind by itself (R57, R62–R69) -/

@[simp] theorem Bus.enterPipe_mem (c : Cfg) (b : Bus) (sl : SlaveId) (p : Port) : (b.enterPipe c sl p).mem = b.mem := rfl
@[simp] theorem Bus.enterPipe_fifo (c : Cfg) (b : Bus) (sl : SlaveId) (p : Port) : (b.enterPipe c sl p).fifo = b.fifo := rfl
theorem Bus.enterPipe_pipe (c : Cfg) (b : Bus) (sl : SlaveId) (p : Port) :
    (b.enterPipe c sl p).pipe = (⟨sl, p, b.mem.get32 (portCell sl p)⟩ :: b.pipe).take c.lag := rfl

/-- The Transport's answer stays recorded whatever the frame does at the target. -/
@[simp] theorem targetEffect_reply (c : Cfg) (i : Instr) (b : Bus) : (targetEffect c i b).reply = b.reply := by
  cases i <;> rfl

/-- Whatever is answered, the answer is recorded as the Transport delivers it. -/
theorem serve_targetEffect_reply (c : Cfg) (i : Instr) (b : Bus) :
    (b.serve c (targetEffect c i)).reply = some (fitAnswer c b.nextAnswer) :=
  Bus.serve_keeps (P := fun b' => b'.reply = some (fitAnswer c b.nextAnswer)) rfl (targetEffect_reply c i _)

theorem fitAnswer_willAnswer {rx : Frame} (h : s.willAnswer [rx]) : fitAnswer s.cfg s.bus.nextAnswer = .ok rx := by
  rw [h.next.1, fitAnswer, fitFrame_of_length h.next.2]

/-- Frame kind i in state s, answered with rx: the machine t differs in its bus alone, which took the answer and the frame's
effect. -/
structure FrameAnswered (s : State) (i : Instr) (rx : Frame) (t : State) : Prop where
  next : exec i s = .next t
  onlyBus : t = { s with bus := t.bus }
  reply : t.bus.reply = some (.ok rx)
  bus : t.bus = targetEffect s.cfg i (s.bus.takeAnswer s.cfg)
  bytes : ∀ x, x ∉ storedCells s i → t.bus.mem.get x = s.bus.mem.get x

theorem frameAnswered_of_willAnswer {rx : Frame} (ho : opOf i = none) (h : s.willAnswer [rx]) :
    ∃ t, FrameAnswered s i rx t :=
  ⟨s.serve (targetEffect s.cfg i),
    { next := exec_frame ho
      onlyBus := rfl
      reply := by rw [State.serve_bus, serve_targetEffect_reply, fitAnswer_willAnswer h]
      bus := Bus.serve_ok h.next.1 _
      bytes := fun _ hx => serve_stores ho hx }⟩

/-- Settles O19: the effect is one 16-bit write at the register's first cell, and touches neither FIFO nor pipeline. -/
theorem registerWriteFramesStoreTheirRegister : Obligations.RegisterWriteFramesStoreTheirRegister := by
  intro s p sl a d rx hw
  constructor
  · obtain ⟨t, ht⟩ := frameAnswered_of_willAnswer (i := .sportWr p sl a d) rfl hw
    have hbus : t.bus = targetSportWr sl a d (s.bus.takeAnswer s.cfg) := ht.bus
    exact ⟨t, ht.next, ht.onlyBus, ht.reply, by simp [hbus, targetSportWr], by simp [hbus, targetSportWr],
      by simp [hbus, targetSportWr], ht.bytes⟩
  · obtain ⟨t, ht⟩ := frameAnswered_of_willAnswer (i := .busctrlWr p sl a d) rfl hw
    have hbus : t.bus = targetBusctrlWr a d (s.bus.takeAnswer s.cfg) := ht.bus
    exact ⟨t, ht.next, ht.onlyBus, ht.reply, by simp [hbus, targetBusctrlWr], by simp [hbus, targetBusctrlWr],
      by simp [hbus, targetBusctrlWr], ht.bytes⟩

/-- Settles O20: neither read stores to a cell; the SPort read's effect is its request in the FIFO, the BusCtrl read has
none. -/
theorem registerReadFramesStoreNothing : Obligations.RegisterReadFramesStoreNothing := by
  intro s p sl a d rx hw
  constructor
  · obtain ⟨t, ht⟩ := frameAnswered_of_willAnswer (i := .sportRd p sl a d) rfl hw
    have hbus : t.bus = targetSportRd sl a (s.bus.takeAnswer s.cfg) := ht.bus
    exact ⟨t, ht.next, ht.onlyBus, ht.reply, by rw [hbus, targetSportRd], by simp [hbus, targetSportRd],
      fun x => ht.bytes x List.not_mem_nil⟩
  · obtain ⟨t, ht⟩ := frameAnswered_of_willAnswer (i := .busctrlRd p sl a d) rfl hw
    have hbus : t.bus = s.bus.takeAnswer s.cfg := ht.bus
    exact ⟨t, ht.next, ht.onlyBus, ht.reply, by simp [hbus], by simp [hbus], fun x => ht.bytes x List.not_mem_nil⟩

/-- A port write frame of either port (R66, R68), answered: the value is in the port and in the pipeline. -/
theorem portWrite_answered {rx : Frame} {sl : SlaveId} {pt : Port} {v : Word32} (ho : opOf i = none)
    (hw : s.willAnswer [rx]) (hcells : storedCells s i = portCells sl pt)
    (heffect : ∀ b, targetEffect s.cfg i b = { b with mem := b.mem.put32 (portCell sl pt) v }.enterPipe s.cfg sl pt) :
    ∃ t, exec i s = .next t ∧ t = { s with bus := t.bus } ∧ t.bus.reply = some (.ok rx) ∧
      t.bus.mem.get32 (portCell sl pt) = v ∧ t.bus.pipe = (⟨sl, pt, v⟩ :: s.bus.pipe).take s.cfg.lag ∧
      t.bus.fifo = s.bus.fifo ∧ ∀ x, x ∉ portCells sl pt → t.bus.mem.get x = s.bus.mem.get x := by
  obtain ⟨t, ht⟩ := frameAnswered_of_willAnswer ho hw
  have hbus := ht.bus.trans (heffect _)
  exact ⟨t, ht.next, ht.onlyBus, ht.reply, by simp [hbus], by simp [hbus, Bus.enterPipe_pipe], by simp [hbus],
    hcells ▸ ht.bytes⟩

/-- A port read frame of either port (R67, R69), answered: the port's value is in the pipeline, and no byte changed. -/
theorem portRead_answered {rx : Frame} {sl : SlaveId} {pt : Port} (ho : opOf i = none) (hw : s.willAnswer [rx])
    (hcells : storedCells s i = []) (heffect : ∀ b, targetEffect s.cfg i b = b.enterPipe s.cfg sl pt) :
    ∃ t, exec i s = .next t ∧ t = { s with bus := t.bus } ∧ t.bus.reply = some (.ok rx) ∧
      t.bus.pipe = (⟨sl, pt, s.bus.mem.get32 (portCell sl pt)⟩ :: s.bus.pipe).take s.cfg.lag ∧
      t.bus.fifo = s.bus.fifo ∧ ∀ x, t.bus.mem.get x = s.bus.mem.get x := by
  obtain ⟨t, ht⟩ := frameAnswered_of_willAnswer ho hw
  have hbus := ht.bus.trans (heffect _)
  exact ⟨t, ht.next, ht.onlyBus, ht.reply, by simp [hbus, Bus.enterPipe_pipe], by simp [hbus],
    fun x => ht.bytes x (by rw [hcells]; exact List.not_mem_nil)⟩

/-- Settles O21: a write is a 32-bit write at the port's first cell; every port frame queues what the port then holds. -/
theorem portFramesWriteAndQueueTheirPort : Obligations.PortFramesWriteAndQueueTheirPort := by
  intro s p sl v rx hw
  exact ⟨portWrite_answered (i := .port0Wr p sl v) rfl hw rfl fun _ => rfl,
    portWrite_answered (i := .port1Wr p sl v) rfl hw rfl fun _ => rfl,
    portRead_answered (i := .port0Rd p sl) rfl hw rfl fun _ => rfl,
    portRead_answered (i := .port1Rd p sl) rfl hw rfl fun _ => rfl⟩

/-! ## One exchange (R57) -/

/-- An exchange that returns: the Transport answered, the bus took the answer and the frame. -/
theorem xchg_eq_ok {f rx : Frame} {u : State} (h : xchg f s = .ok rx u) :
    fitAnswer s.cfg s.bus.nextAnswer = .ok rx ∧ u.bus = s.bus.serve s.cfg fun b => b.accept s.cfg f := by
  have hbus := xchg_serve f s
  rw [h] at hbus
  refine ⟨?_, hbus⟩
  cases hn : s.bus.nextAnswer with
  | ok r => rw [xchg_ok hn] at h; cases h; rfl
  | fail l => rw [xchg_fail hn] at h; cases h

/-- An exchange that raises leaves what the bus environment did of it. -/
theorem xchg_eq_error {f : Frame} {e : Err} {u : State} (h : xchg f s = .error e u) :
    u.bus = s.bus.serve s.cfg fun b => b.accept s.cfg f := by
  have hbus := xchg_serve f s
  rwa [h] at hbus

/-- Settles O22: the target accepts a frame as the kind it decodes to, so the frame kind and the exchange are served alike. -/
theorem frameKindIsTheBusSideOfItsExchange : Obligations.FrameKindIsTheBusSideOfItsExchange := by
  intro s f i hd
  have heffect : (fun b : Bus => b.accept s.cfg f) = targetEffect s.cfg i := funext fun _ => accept_of_decode hd
  have hreply := serve_targetEffect_reply s.cfg i s.bus
  refine ⟨s.serve (targetEffect s.cfg i), exec_frame (opOf_decodeFrame hd), rfl, fun rx u hx => ?_, fun e u hx => ?_,
    fun landed hn => ?_, fun hn => ?_⟩
  · obtain ⟨hans, hbus⟩ := xchg_eq_ok hx
    exact ⟨by rw [hbus, heffect, State.serve_bus], by rw [State.serve_bus, hreply, hans]⟩
  · rw [xchg_eq_error hx, heffect, State.serve_bus]
  · rw [State.serve_bus, hreply, hn, fitAnswer]
  · simp [Bus.serve_fail hn]

/-! ## The events of a host operation (R57–R59) -/

@[simp] theorem framePairs_ret (es : List Event) (r : Result) : framePairs (es ++ [.ret op r]) = framePairs es := by
  simp [framePairs_append, framePairs]

@[simp] theorem sentFrames_ret (es : List Event) (r : Result) : sentFrames (es ++ [.ret op r]) = sentFrames es := by
  simp [sentFrames_append, sentFrames]

@[simp] theorem txFails_ret (es : List Event) (r : Result) : txFails (es ++ [.ret op r]) = txFails es := by
  simp [txFails_append, txFails]

theorem returns_ret (es : List Event) (r : Result) : returns (es ++ [.ret op r]) = returns es ++ [(op, r)] := by
  simp [returns_append, returns]

@[simp] theorem bracketed_ret (on : Bool) (es : List Event) (r : Result) :
    bracketed on (es ++ [.ret op r]) = bracketed on es := by
  induction es generalizing on with
  | nil => rfl
  | cons e es ih => cases e <;> simp [bracketed, ih]

theorem errOf_eq_some {r : Result} {e : Err} : errOf r = some e ↔ r = .error e := by
  cases r <;> simp [errOf]

/-- A host operation but `reset`, seen from its end: its run with the events es, then the `Return` of r. -/
structure Ended (op : OpName) (s t : State) (es : List Event) (r : Result) (u : State) : Prop where
  eq : t = u.ret op r
  events : newEvents s t = es ++ [.ret op r]
  ran : Ran false (s.enter op) (errOf r) u es
  brackets : s.ses.sel = false → u.ses.sel = false ∧ bracketed false es = true

theorem exec_ended (ho : opOf i = some op) (hr : i ≠ .reset) (h : exec i s = .next t) : ∃ es r u, Ended op s t es r u := by
  obtain ⟨es, r, u, hx, hran, -, hbr⟩ := exec_law ho hr s
  rw [hx] at h
  cases h
  exact ⟨es, r, u, rfl, newEvents_of_append (by simp [hran.hist]), hran, hbr⟩

/-- `reset` sends nothing and leaves the target alone. -/
theorem exec_reset_next (h : exec .reset s = .next t) :
    newEvents s t = [.ret .reset (.ok .unit)] ∧ t.bus = s.bus ∧ t.ses = Session.reset := by
  rw [exec_reset] at h
  cases h
  exact ⟨newEvents_of_append rfl, rfl, rfl⟩

/-- Settles O13: every run of an operation brackets its transactions; the `Return` changes nothing of chip select. -/
theorem transactionsAreBracketed : Obligations.TransactionsAreBracketed := by
  intro i op s t ho hs h
  by_cases hr : i = .reset
  · subst hr
    obtain ⟨hev, -, hses⟩ := exec_reset_next h
    rw [hev, hses]
    exact ⟨rfl, rfl⟩
  · obtain ⟨es, r, u, he⟩ := exec_ended ho hr h
    obtain ⟨hsel, hbr⟩ := he.brackets hs
    exact ⟨by rw [he.events, bracketed_ret, hbr], by rw [he.eq]; exact hsel⟩

/-- Settles O14: a run has no failed exchange and ends with no such failure, or has one, the last frame it sent, and ends with
its failure and the session dead. -/
theorem transportFailureEndsTheOperation : Obligations.TransportFailureEndsTheOperation := by
  intro i op s t ho hr h
  obtain ⟨es, r, u, he⟩ := exec_ended ho hr h
  have hrets : returns (newEvents s t) = [(op, r)] := by rw [he.events, returns_ret, he.ran.rets, List.nil_append]
  rw [hrets, he.events, sentFrames_ret, framePairs_ret, txFails_ret, he.eq]
  refine ⟨he.ran.order, ?_⟩
  rcases he.ran.outcome with ⟨hnone, hdead, herr, -⟩ | ⟨tx, hone, hdead, herr, -⟩
  · refine .inl ⟨hnone, hdead, fun tx hret => herr tx (errOf_eq_some.2 ?_)⟩
    simpa using hret
  · exact .inr ⟨tx, hone, hdead, by rw [errOf_eq_some.1 herr]⟩

/-- Settles O16: a run without a failed exchange leaves the bus its exchanges leave, and entering and returning leave it
alone. -/
theorem targetSeesFramesInOrder : Obligations.TargetSeesFramesInOrder := by
  intro i op s t ho h hfail
  by_cases hr : i = .reset
  · subst hr
    obtain ⟨hev, hbus, -⟩ := exec_reset_next h
    rw [hev, hbus]
    rfl
  · obtain ⟨es, r, u, he⟩ := exec_ended ho hr h
    rw [he.events, txFails_ret] at hfail
    rw [he.events, framePairs_ret, he.eq]
    rcases he.ran.outcome with ⟨-, -, -, hbus⟩ | ⟨tx, hone, -⟩
    · exact hbus
    · rw [hfail] at hone
      cases hone

/-- Settles O17: a frame kind stores to its own cells, and so does every frame an operation sends, also one whose exchange
fails. -/
theorem bytesOutsideTheStoredCellsStay : Obligations.BytesOutsideTheStoredCellsStay := by
  intro i s t a h ha
  cases ho : opOf i with
  | none =>
    rw [exec_frame ho] at h
    cases h
    exact serve_stores ho ha
  | some op =>
    by_cases hr : i = .reset
    · subst hr
      rw [(exec_reset_next h).2.1]
    · have hown := exec_sends ho h
      obtain ⟨es, r, u, he⟩ := exec_ended ho hr h
      rw [he.events, sentFrames_ret] at hown
      have hmem := he.ran.stores (a := a) fun f hf hc => ha ((hown f hf).2 a hc)
      rw [he.eq]
      exact hmem

/-! ## Register writes at the target (R62, R64) -/

/-- A ready session lets every bus operation with valid arguments through (60_exceptions.md R164). -/
theorem State.Ready.guard_passes {g : GuardArgs} (h : s.Ready) (hv : g.Valid s.cfg) (hm : g.mode = .bus) :
    guardError s g = none := by
  rw [guardError_of_valid hv, h.alive, hm]
  simp [modeError, h.free]

/-- The argument check of a register write or read with valid operands. -/
theorem State.Ready.guard_passes_register {sl a : Nat} {ch : Channel} (h : s.Ready) (hsl : sl ≤ 7)
    (hch : ch = .sport ∨ ch = .busCtrl) (ha : a ≤ 255) :
    guardError s { slave := sl, channel := channelIndex ch, regChannel := true, addr := a } = none := by
  refine h.guard_passes ⟨by simpa using hsl, ?_, by simpa using ha, by simp⟩ rfl
  rcases hch with rfl | rfl <;> simp [channelIndex, sportIndex, busCtrlIndex]

/-- The register channel `writeRegister` picks for the index of a register channel is that channel. -/
theorem registerChannel_channelIndex {ch : Channel} (hch : ch = .sport ∨ ch = .busCtrl) :
    (if channelIndex ch = sportIndex then Channel.sport else .busCtrl) = ch := by
  rcases hch with rfl | rfl <;> rfl

/-- A register write that is answered: the machine after its one frame. -/
theorem exec_writeRegister_answered {sl a : Nat} {ch : Channel} {v : Word16} {rx : Frame} (h : s.Ready) (hsl : sl ≤ 7)
    (hch : ch = .sport ∨ ch = .busCtrl) (ha : a ≤ 255) (hw : s.willAnswer [rx]) :
    exec (.writeRegister sl (channelIndex ch) a v) s =
      .next (s.after (eventsOf [(registerFrame s.cfg ⟨s.ses.power, slaveId sl, true, ch, addrByte a, v⟩, [rx])] ++
        [.ret .writeRegister (.ok .unit)]) { s.ses with pc := .idle }) := by
  have hl := lands_opWriteRegister (s := s.enter .writeRegister) (w := v) (h.guard_passes_register hsl hch ha) h.settled.sel
    (willAnswer_enter hw)
  rw [registerChannel_channelIndex hch] at hl
  exact congrArg Host.Outcome.next hl.hostOp

/-- A register write frame, accepted, leaves its value in the register. -/
theorem get16_accept_registerFrame {c : Cfg} (hc : c.LayoutOk) (b : Bus) (p : Bool) (sl : SlaveId) {ch : Channel}
    (hch : ch = .sport ∨ ch = .busCtrl) (a : Byte) (v : Word16) :
    (b.accept c (registerFrame c ⟨p, sl, true, ch, a, v⟩)).mem.get16
      (if ch = .sport then sportCell sl a else busCtrlCell a) = v := by
  obtain ⟨-, -, hsport, hbusCtrl⟩ := decodeFrame_registerFrame p sl hc a v
  rcases hch with rfl | rfl
  · rw [accept_of_decode hsport, if_pos rfl]
    exact Memory.get16_put16 _ _ _
  · rw [accept_of_decode hbusCtrl, if_neg (by decide)]
    exact Memory.get16_put16 _ _ _

/-- Settles O37: the write's one frame is accepted as a write of its register; the other bytes are none the operation stores
to. -/
theorem writeRegisterStoresTheWord : Obligations.WriteRegisterStoresTheWord := by
  intro s sl ch a v rx hready hsl hch ha hw
  have hx := exec_writeRegister_answered (v := v) hready hsl hch ha hw
  refine ⟨_, hx, ?_, fun x hxc => bytesOutsideTheStoredCellsStay _ _ _ x hx ?_⟩
  · rw [State.after_bus, framePairs_ret, framePairs_eventsOf]
    exact get16_accept_registerFrame s.params.admissible.1 _ _ _ hch _ _
  · rw [storedCells, registerChannel_channelIndex hch]
    exact hxc

/-! ## Register writes whose exchange fails (R57) -/

/-- A register write whose exchange fails raises it, chip select released. -/
theorem regWr_failed {l : Bool} (h : s.bus.nextAnswer = .fail l) (sl : SlaveId) (ch : Channel) (a : Byte) (v : Word16) :
    regWr sl ch a v s = .error (.transportFailure (some (s.regFrame sl true ch a v)))
      (s.sel.exchangeFailed (s.regFrame sl true ch a v) l).desel := by
  have hx := xchg_fail (s := s.sel) h (s.regFrame sl true ch a v)
  rw [regWr, Op.get_bind, bracket_run, withFinally_error (Op.bind_error hx)]

theorem opWriteRegister_failed {sl a : Nat} {ch : Channel} {v : Word16} {l : Bool} (hch : ch = .sport ∨ ch = .busCtrl)
    (hg : guardError s { slave := sl, channel := channelIndex ch, regChannel := true, addr := a } = none)
    (h : s.bus.nextAnswer = .fail l) :
    opWriteRegister sl (channelIndex ch) a v s =
      .error (.transportFailure (some (s.regFrame (slaveId sl) true ch (addrByte a) v)))
        (s.sel.exchangeFailed (s.regFrame (slaveId sl) true ch (addrByte a) v) l).desel := by
  rw [opWriteRegister, guard_bind_pass hg]
  rcases hch with rfl | rfl
  · exact Op.bind_error (regWr_failed h _ _ _ _)
  · exact Op.bind_error (regWr_failed h _ _ _ _)

/-- Settles O38: the write's one exchange fails, chip select is released, and the failure is the result. Chip select and
position end as a settled session has them. -/
theorem failedWriteKillsTheSession : Obligations.FailedWriteKillsTheSession := by
  intro s sl ch a v landed hready hsl hch ha hn
  have hfail := opWriteRegister_failed (s := s.enter .writeRegister) (v := v) hch (hready.guard_passes_register hsl hch ha) hn
  have hx : exec (.writeRegister sl (channelIndex ch) a v) s = .next _ := congrArg Host.Outcome.next (hostOp_error hfail)
  refine ⟨_, hx, ?_, ?_, by simp, by simp⟩
  · simp only [State.ret_hist, State.desel_hist, State.exchangeFailed_hist, State.sel_hist, State.enter_hist,
      List.append_assoc]
    rfl
  · simp only [State.ret_ses, State.desel_ses, State.exchangeFailed_ses, State.sel_ses, State.enter_ses]
    rw [← hready.settled.sel, ← hready.settled.pc]

/-! ## Exchanges at the target (R66–R69) -/

theorem framePairs_map_frame (f : Frame) (rs : List Frame) : framePairs (rs.map (.frame f)) = rs.map (f, ·) := by
  induction rs with
  | nil => rfl
  | cons r rs ih => simp [framePairs, ih]

/-- A port none of whose bytes changes keeps its value. -/
theorem get32_congr {m m' : Memory} {sl : SlaveId} {p : Port} (h : ∀ x ∈ portCells sl p, m'.get x = m.get x) :
    m'.get32 (portCell sl p) = m.get32 (portCell sl p) := by
  simp only [portCells, List.forall_mem_cons] at h
  obtain ⟨h0, h1, h2, h3, -⟩ := h
  rw [Memory.get32, Memory.get32, h0, h1, h2, h3]

/-- A port write frame, accepted, leaves its value in the port. -/
theorem get32_accept_portLayoutFrame {c : Cfg} (hc : c.LayoutOk) (b : Bus) (pw : Bool) (sl : SlaveId) (p : Port)
    (v : Word32) : (b.accept c (portLayoutFrame c pw sl p (some v))).mem.get32 (portCell sl p) = v := by
  have hd := decodeFrame_portLayoutFrame pw sl hc p (some v)
  cases p <;> exact (congrArg (fun b : Bus => b.mem.get32 _) (accept_of_decode hd)).trans (Memory.get32_put32 _ _ _)

/-- A port frame stores to no cell of the other port, and a read to none at all. -/
theorem notMem_frameCells_portLayoutFrame {c : Cfg} (hc : c.LayoutOk) {pw : Bool} {sl : SlaveId} {p p' : Port}
    {v : Option Word32} (h : p ≠ p' ∨ v = none) {x : Nat} (hx : x ∈ portCells sl p) :
    x ∉ frameCells c (portLayoutFrame c pw sl p' v) := by
  rw [frameCells_portLayoutFrame hc]
  rcases h with hne | rfl
  · split
    · exact portCells_disjoint (by simpa using hne) hx
    · exact List.not_mem_nil
  · exact List.not_mem_nil

/-- A port holds what was last written to it: frames before the write do not matter, those after it store elsewhere. -/
theorem get32_replay_portWrite {c : Cfg} (hc : c.LayoutOk) (b : Bus) (pw : Bool) {sl : SlaveId} {p : Port} (v : Word32)
    (rx : Frame) (before : List (Frame × Frame)) {later : List (Frame × Frame)}
    (h : ∀ q ∈ later, ∀ x ∈ portCells sl p, x ∉ frameCells c q.1) :
    (b.replay c (before ++ (portLayoutFrame c pw sl p (some v), rx) :: later)).mem.get32 (portCell sl p) = v := by
  rw [Bus.replay_append, Bus.replay, get32_congr fun x hx => get_replay fun q hq => h q hq x hx,
    get32_accept_portLayoutFrame hc]

/-- The exchanges of an answered `exchange` (42_bulk_port.md R114): the frames for the two ports, then the flush frames. -/
def exchangePairs (c : Cfg) (pw : Bool) (sl : SlaveId) (v0 v1 : Option Word32) (r1 r2 : Frame) (rs : List Frame) :
    List (Frame × Frame) :=
  (portLayoutFrame c pw sl .zero v0, r1) :: (portLayoutFrame c pw sl .one v1, r2) ::
    rs.map (portLayoutFrame c pw sl .one none, ·)

/-- An `exchange` that is answered: the target has seen its frames. -/
theorem exec_exchange_answered {sl : Nat} {p0 p1 : Option PortBytes} {r1 r2 : Frame} {rs : List Frame} (h : s.Ready)
    (hsl : sl ≤ 7) (hn : rs.length = s.cfg.lag) (hw : s.willAnswer (r1 :: r2 :: rs)) :
    ∃ t, exec (.exchange sl p0 p1) s = .next t ∧ t.bus = s.bus.replay s.cfg
      (exchangePairs s.cfg s.ses.power (slaveId sl) (p0.map unbe32) (p1.map unbe32) r1 r2 rs) := by
  have hg : guardError s { slave := sl } = none :=
    h.guard_passes ⟨by simpa using hsl, by simp, by simp, by simp⟩ rfl
  have hl := lands_opExchange (s := s.enter .exchange) (p0 := p0) (p1 := p1) hg hn h.settled.pendWr0 h.settled.pendWr1
    (willAnswer_enter hw)
  refine ⟨_, congrArg Host.Outcome.next hl.hostOp, ?_⟩
  rw [State.after_bus, framePairs_ret]
  simp only [framePairs, framePairs_append, framePairs_map_frame, List.append_nil, exchangePairs]
  rfl

/-- With no write pending before, an exchange can store to a port only if it requests a write of it. -/
theorem notMem_exchangeCells {sl : SlaveId} {p : Port} {w : Option PortBytes} {x : Nat}
    (h : w.isSome = true → x ∉ portCells sl p) : x ∉ exchangeCells sl p w false := by
  unfold exchangeCells
  split
  · rename_i hreq
    exact h (by simpa using hreq)
  · exact List.not_mem_nil

/-- Settles O46: the frame of a requested port writes it and the frames after that store elsewhere; the other bytes are none
the exchange stores to. -/
theorem exchangeStoresTheRequestedPorts : Obligations.ExchangeStoresTheRequestedPorts := by
  intro s sl p0 p1 r1 r2 rs hready hsl hn hw
  have hc := s.params.admissible.1
  obtain ⟨t, hx, hbus⟩ := exec_exchange_answered (p0 := p0) (p1 := p1) hready hsl hn hw
  have flushes_apart : ∀ p, ∀ q ∈ rs.map (portLayoutFrame s.cfg s.ses.power (slaveId sl) .one none, ·),
      ∀ x ∈ portCells (slaveId sl) p, x ∉ frameCells s.cfg q.1 := by
    intro p q hq x hxp
    obtain ⟨r, -, rfl⟩ := List.mem_map.1 hq
    exact notMem_frameCells_portLayoutFrame hc (.inr rfl) hxp
  refine ⟨t, hx, ?_, ?_, fun x h0 h1 => bytesOutsideTheStoredCellsStay _ _ _ x hx fun hmem => ?_⟩
  · rintro b rfl
    rw [hbus]
    refine get32_replay_portWrite hc _ _ _ r1 [] (List.forall_mem_cons.2 ⟨fun x hxp => ?_, flushes_apart .zero⟩)
    exact notMem_frameCells_portLayoutFrame hc (.inl (by decide)) hxp
  · rintro b rfl
    rw [hbus]
    exact get32_replay_portWrite hc _ _ _ r2 [(_, r1)] (flushes_apart .one)
  · rw [storedCells, hready.settled.pendWr0, hready.settled.pendWr1, List.mem_append] at hmem
    exact hmem.elim (notMem_exchangeCells h0) (notMem_exchangeCells h1)

end Sys2Proof.Machine
end

section
/-! The family of spec/30_encoding.md: the decoder reads back what the encoder writes, frames are classified by the rows of
R81, and a call is an instruction in its own form or in a form of R88, or is refused. -/

namespace Sys2Proof.Machine

variable {c : Cfg} {s : State}

/-! ## Round trip (R76, R77, R81, R84) -/

/-- Settles O1: a frame kind by the layout its frame has; the call of a host operation holds its operands as they are. -/
theorem decodeReadsBackEncode : Obligations.DecodeReadsBackEncode := by
  intro c i h
  cases i with
  | port0Rd p sl => exact Laws.RoundTrip.port0Rd p sl c h
  | port1Rd p sl => exact Laws.RoundTrip.port1Rd p sl c h
  | sportRd p sl a d => exact Laws.RoundTrip.sportRd p sl a d c h
  | busctrlRd p sl a d => exact Laws.RoundTrip.busctrlRd p sl a d c h
  | port0Wr p sl v => exact Laws.RoundTrip.port0Wr p sl v c h
  | port1Wr p sl v => exact Laws.RoundTrip.port1Wr p sl v c h
  | sportWr p sl a d => exact Laws.RoundTrip.sportWr p sl a d c h
  | busctrlWr p sl a d => exact Laws.RoundTrip.busctrlWr p sl a d c h
  | _ => rfl

/-- A table word whose frame is the one an instruction is written as decodes to that instruction. -/
theorem decodeTableWord_of_encode {nbits w : Nat} {i : Instr}
    (h : encode Cfg.reference i = .frame (tableFrame Cfg.reference nbits w)) : decodeTableWord nbits w = some i := by
  have hd : decodeFrame Cfg.reference (tableFrame Cfg.reference nbits w) = .ok i :=
    (congrArg (decode Cfg.reference) h).symm.trans (decodeReadsBackEncode _ i Cfg.reference_admissible.1)
  rw [decodeTableWord, hd]
  rfl

/-- Settles O2: each word is the frame the encoder writes for its instruction. -/
theorem tableWordsDecode : Obligations.TableWordsDecode :=
  ⟨decodeTableWord_of_encode rfl, decodeTableWord_of_encode rfl, decodeTableWord_of_encode rfl,
    decodeTableWord_of_encode rfl, decodeTableWord_of_encode rfl, decodeTableWord_of_encode rfl,
    decodeTableWord_of_encode rfl, decodeTableWord_of_encode rfl⟩

/-! ## The rows of R81 -/

/-- The mask 0x0B keeps the write bit and the channel code of a control byte. -/
theorem control_masked : ∀ b : Byte,
    b &&& 0x0B = ((BitVec.ofBool (ctrlWrite b)).setWidth 8 <<< 3) ||| (b.extractLsb' 0 2).setWidth 8 := by decide

/-- Every control byte matches the row of its write bit and its channel. -/
theorem control_masked_eq_rowMatch (h : c.LayoutOk) (b : Byte) :
    b &&& 0x0B = rowMatch c (ctrlWrite b) (ctrlChannel c b) := by
  rw [rowMatch, ctrlChannel, chCode_channelOfCode h]
  exact control_masked b

/-- No two rows have the same match: the write bit and the channel code lie in bits of their own. -/
theorem rowMatch_injective (h : c.LayoutOk) {w w' : Bool} {ch ch' : Channel}
    (heq : rowMatch c w ch = rowMatch c w' ch') : w = w' ∧ ch = ch' := by
  have key : ∀ (w w' : Bool) (x y : BitVec 2), ((BitVec.ofBool w).setWidth 8 <<< 3) ||| x.setWidth 8 =
      ((BitVec.ofBool w').setWidth 8 <<< 3) ||| y.setWidth 8 → w = w' ∧ x = y := by decide
  obtain ⟨hw, hcode⟩ := key _ _ _ _ heq
  refine ⟨hw, ?_⟩
  rw [← channelOfCode_chCode h ch, hcode, channelOfCode_chCode h]

/-- Four bytes that a frame has are read from it, whatever a missing byte would read as. -/
theorem portBytesAt_default {f : Frame} {k : Nat} (h : k + 4 ≤ f.length) (d d' : Byte) :
    portBytesAt d f k = portBytesAt d' f k := by
  have hget : ∀ j < f.length, f.getD j d = f.getD j d' := fun j hj => by
    rw [List.getD_eq_getElem _ _ hj, List.getD_eq_getElem _ _ hj]
  simp only [portBytesAt, hget k (by omega), hget (k + 1) (by omega), hget (k + 2) (by omega), hget (k + 3) (by omega)]

/-! ## Frames by length (R89) -/

theorem decodeFrame_short {f : Frame} (h : f.length < 4) : decodeFrame c f = .error (.shortFrame f.length) := by
  match f, h with
  | [], _ => rfl
  | [_], _ => rfl
  | [_, _], _ => rfl
  | [_, _, _], _ => rfl

/-- A frame of four bytes or more, taken apart. -/
theorem exists_cons_of_four_le {f : Frame} (h : 4 ≤ f.length) : ∃ ctrl a hb lb rest, f = ctrl :: a :: hb :: lb :: rest :=
  match f, h with
  | ctrl :: a :: hb :: lb :: rest, _ => ⟨ctrl, a, hb, lb, rest, rfl⟩

/-- A frame of N bytes is the instruction of its control byte's row: its first four bytes are the fields of a register frame,
and it has all four port bytes. -/
theorem decodeFrame_eq_rowInstr (h : c.LayoutOk) {f : Frame} (hlen : f.length = c.frameLen) :
    decodeFrame c f = .ok (rowInstr c f (ctrlWrite (f.getD 0 0)) (ctrlChannel c (f.getD 0 0))) := by
  obtain ⟨hN, -, -, -, -, -, -, -, -, hptx, -⟩ := h
  have hport := portBytesAt_default (f := f) (k := c.ptxIdx) (by omega) c.pad 0
  obtain ⟨ctrl, a, hb, lb, rest, rfl⟩ := exists_cons_of_four_le (f := f) (by omega)
  simp only [decodeFrame, decodeCommand, hport, List.getD_cons_zero]
  cases ctrlWrite ctrl <;> cases ctrlChannel c ctrl <;> rfl

/-- Settles O3: a control byte matches the row of its own write bit and channel and no other; its frame is read as that
row's instruction. -/
theorem frameClassificationIsTotal : Obligations.FrameClassificationIsTotal := by
  intro c f h
  have hrow := control_masked_eq_rowMatch h (f.getD 0 0)
  refine ⟨fun hlen => ⟨⟨_, _, hrow⟩, fun w ch hmatch => ?_⟩, decodeFrame_short, fun hlen => ?_⟩
  · obtain ⟨rfl, rfl⟩ := rowMatch_injective h (hrow.symm.trans hmatch)
    exact decodeFrame_eq_rowInstr h hlen
  · obtain ⟨ctrl, a, hb, lb, rest, rfl⟩ := exists_cons_of_four_le hlen
    exact ⟨_, rfl⟩

/-! ## Host calls (R84, R88) -/

/-- The calls that are not written as the encoder writes them: the source names of R88, and `scan` without its budget. -/
inductive SourceForm (c : Cfg) : CallName → List Arg → Instr → Prop
  | write (sl a : Nat) (v : Word16) :
    SourceForm c .write [.nat sl, .nat a, .word v] (.writeRegister sl sportIndex a v)
  | read (sl a : Nat) : SourceForm c .read [.nat sl, .nat a] (.readRegister sl sportIndex a)
  | exchangePorts (sl : Nat) (p0 p1 : Option PortBytes) :
    SourceForm c .exchangePorts [.nat sl, .ports p0 p1] (.exchange sl p0 p1)
  | enableSlave (sl : Nat) : SourceForm c .enableSlave [.nat sl] (.enable sl)
  | scan : SourceForm c (.op .scan) [] (.scan c.scanBudget)

/-- Why a call of this name that stands for no instruction has no meaning. -/
def callError : CallName → DecodeError
  | .other name => .unknownOperation name
  | n => .argumentForm n

theorem callError_of_not_other {n : CallName} (h : ∀ name, n ≠ .other name) : callError n = .argumentForm n := by
  cases n with
  | other name => exact absurd rfl (h name)
  | _ => rfl

theorem SourceForm.decodeCall_eq {n : CallName} {args : List Arg} {i : Instr} (h : SourceForm c n args i) :
    decodeCall c n args = .ok i := by
  cases h <;> rfl

/-- All that a call can be: the form of an instruction, a form of R88, or refused by its name. -/
theorem decodeCall_cases (c : Cfg) (n : CallName) (args : List Arg) :
    (∃ i, decodeCall c n args = .ok i ∧ encode c i = .call ⟨n, args⟩) ∨ (∃ i, SourceForm c n args i) ∨
      decodeCall c n args = .error (callError n) := by
  unfold decodeCall
  split
  -- First the rows of `decodeCall` that the encoder has no form for: `scan` without a budget, the source names, refusals.
  case h_9 => exact .inr (.inl ⟨_, .scan⟩)
  case h_22 => exact .inr (.inl ⟨_, .write ..⟩)
  case h_23 => exact .inr (.inl ⟨_, .read ..⟩)
  case h_24 => exact .inr (.inl ⟨_, .exchangePorts ..⟩)
  case h_25 => exact .inr (.inl ⟨_, .enableSlave ..⟩)
  case h_26 => exact .inr (.inr rfl)
  case h_27 => exact .inr (.inr (congrArg _ (callError_of_not_other ‹_›).symm))
  all_goals exact .inl ⟨_, rfl, rfl⟩

/-- A call in no form of its name is refused by it. -/
theorem decodeCall_refused {n : CallName} {args : List Arg} (hop : ∀ i, encode c i ≠ .call ⟨n, args⟩)
    (hsrc : ∀ i, ¬ SourceForm c n args i) : decodeCall c n args = .error (callError n) := by
  rcases decodeCall_cases c n args with ⟨i, -, henc⟩ | ⟨i, h⟩ | herr
  · exact absurd henc (hop i)
  · exact absurd h (hsrc i)
  · exact herr

/-- The encoder writes only names of R84. -/
theorem encode_ne_call {n : CallName} {args : List Arg} (hn : ∀ op, n ≠ .op op) (i : Instr) :
    encode c i ≠ .call ⟨n, args⟩ := by
  intro h
  cases i <;> cases h <;> exact hn _ rfl

/-! ## What a step does with a form -/

theorem runForm_of_ok {w : Form} {i : Instr} (h : decode s.cfg w = .ok i) : runForm w s = exec i s := by
  rw [runForm, h]

theorem runForm_of_error {w : Form} {e : DecodeError} (h : decode s.cfg w = .error e) :
    runForm w s = .refused (refusalOf e) := by
  rw [runForm, h]

theorem step_of_line {f : Frame} (hl : s.bus.line = some f) : step s = runForm (.frame f) (s.withLine none) := by
  rw [step, hl]

theorem step_of_call {r : HostCall} {rest : List HostCall} (hl : s.bus.line = none) (hr : s.requests = r :: rest) :
    step s = runForm (.call r) (s.withRequests rest) := by
  rw [step, hl, hr]

/-- A waiting call in no form of its name ends the run, refused. -/
theorem step_refuses_call {n : CallName} {args : List Arg} {rest : List HostCall} (hl : s.bus.line = none)
    (hop : ∀ i, encode s.cfg i ≠ .call ⟨n, args⟩) (hsrc : ∀ i, ¬ SourceForm s.cfg n args i)
    (hr : s.requests = ⟨n, args⟩ :: rest) : step s = .refused (refusalOf (callError n)) := by
  rw [step_of_call hl hr]
  exact runForm_of_error (decodeCall_refused hop hsrc)

/-- A waiting call in a form of R88 runs the operation it expands to. -/
theorem step_runs_sourceForm {n : CallName} {args : List Arg} {i : Instr} {rest : List HostCall} (hl : s.bus.line = none)
    (h : SourceForm s.cfg n args i) (hr : s.requests = ⟨n, args⟩ :: rest) :
    step s = exec i { s with requests := rest } := by
  rw [step_of_call hl hr]
  exact runForm_of_ok h.decodeCall_eq

/-- Settles O9: a name's forms are those of the encoder and of R88, so a call that has none of them is refused, and one in a
form of R88 runs its expansion. -/
theorem callsOutsideTheSetAreRefused : Obligations.CallsOutsideTheSetAreRefused := by
  refine fun s => ⟨fun f hf hl => ?_, fun hl rest => ⟨?_, ?_, ?_, ?_, ?_, ?_, ?_, ?_, ?_, ?_, ?_⟩⟩
  · rw [step_of_line hl]
    exact runForm_of_error (w := .frame f) (decodeFrame_short hf)
  · exact fun name args => step_refuses_call hl (encode_ne_call (by simp)) (by rintro i ⟨⟩)
  · exact fun op args henc hscan => step_refuses_call hl henc (by rintro i ⟨⟩; exact hscan ⟨rfl, rfl⟩)
  · exact fun args hform => step_refuses_call hl (encode_ne_call (by simp))
      (by rintro i ⟨⟩; exact hform _ _ _ rfl)
  · exact fun args hform => step_refuses_call hl (encode_ne_call (by simp))
      (by rintro i ⟨⟩; exact hform _ _ rfl)
  · exact fun args hform => step_refuses_call hl (encode_ne_call (by simp))
      (by rintro i ⟨⟩; exact hform _ _ _ rfl)
  · exact fun args hform => step_refuses_call hl (encode_ne_call (by simp))
      (by rintro i ⟨⟩; exact hform _ rfl)
  · exact fun sl a v => step_runs_sourceForm hl (.write sl a v)
  · exact fun sl a => step_runs_sourceForm hl (.read sl a)
  · exact fun sl p0 p1 => step_runs_sourceForm hl (.exchangePorts sl p0 p1)
  · exact fun sl => step_runs_sourceForm hl (.enableSlave sl)
  · exact step_runs_sourceForm hl .scan

end Sys2Proof.Machine
end

section
/-! The family of spec/40_frame_codec.md: `encode` and `decode` as host operations, their laws, and the frames the controller
sends. -/

namespace Sys2Proof.Machine

variable {c : Cfg} {s : State} {i : Instr}

/-! ## Operations that return at once (R90) -/

theorem hostOp_returns {body : Op Value} {op : OpName} {v : Value} (h : body (s.enter op) = .ok v (s.enter op)) :
    hostOp op body s = s.returned op (.ok v) s.ses := (hostOp_ok h).trans rfl

theorem hostOp_raises {body : Op Value} {op : OpName} {e : Err} (h : body (s.enter op) = .error e (s.enter op)) :
    hostOp op body s = s.returned op (.error e) s.ses := (hostOp_error h).trans rfl

theorem completes_of_returned {op : OpName} {r : Result} (h : exec i s = .next (s.returned op r s.ses)) :
    s.completes i [.ret op r] { s.ses with pc := .idle } := ⟨_, h, rfl, rfl, rfl, rfl⟩

/-- The history after an operation tells its result. -/
theorem returned_injective {op op' : OpName} {r r' : Result} {u u' : Session}
    (h : s.returned op r u = s.returned op' r' u') : r = r' := by
  have hist : s.hist ++ [.ret op r] = s.hist ++ [.ret op' r'] := congrArg State.hist h
  simp only [List.append_cancel_left_eq, List.cons.injEq, Event.ret.injEq] at hist
  exact hist.1.2

/-! ## Operands (R90, R91) -/

@[simp] theorem channelOfIndex_channelIndex (ch : Channel) : channelOfIndex (channelIndex ch) = some ch := by
  cases ch <;> rfl

theorem channelIndex_le (ch : Channel) : channelIndex ch ≤ 3 := by cases ch <;> decide

/-- The listing order of R90, read backwards. -/
theorem channelIndex_of_listed {ch : Channel} {n : Nat} (h : [Channel.port0, .port1, .sport, .busCtrl][n]? = some ch) :
    channelIndex ch = n := by
  match n with
  | 0 | 1 | 2 | 3 => cases h; rfl
  | n + 4 => cases h

@[simp] theorem slaveId_toNat (sl : SlaveId) : slaveId sl.toNat = sl := by simp [slaveId]

@[simp] theorem addrByte_toNat (a : Byte) : addrByte a.toNat = a := by simp [addrByte]

theorem toNat_slaveId {sl : Nat} (h : sl ≤ 7) : (slaveId sl).toNat = sl := Nat.mod_eq_of_lt (by omega)

theorem toNat_addrByte {a : Nat} (h : a ≤ 255) : (addrByte a).toNat = a := Nat.mod_eq_of_lt (by omega)

section
variable {sl ch a : Nat}

theorem encodeError_slave (h : 7 < sl) : encodeError sl ch a = some (.invalidSlave sl) := by
  simp [encodeError, slaveError, h]

theorem encodeError_channel (hsl : sl ≤ 7) (h : 3 < ch) : encodeError sl ch a = some (.invalidChannel ch) := by
  simp [encodeError, slaveError, channelError, Nat.not_lt.2 hsl, h]

theorem encodeError_addr (hsl : sl ≤ 7) (hch : ch ≤ 3) (h : 255 < a) : encodeError sl ch a = some (.invalidAddress a) := by
  simp [encodeError, slaveError, channelError, addrError, Nat.not_lt.2 hsl, Nat.not_lt.2 hch, h]

theorem encodeError_none (hsl : sl ≤ 7) (hch : ch ≤ 3) (h : a ≤ 255) : encodeError sl ch a = none := by
  simp [encodeError, slaveError, channelError, addrError, Nat.not_lt.2 hsl, Nat.not_lt.2 hch, Nat.not_lt.2 h]

end

/-! ## `encode` and `decode` (R91, R92) -/

theorem exec_encode_refused {power w : Bool} {sl ch a : Nat} {d : Word16} {e : Err} (h : encodeError sl ch a = some e) :
    exec (.encode power sl w ch a d) s = .next (s.returned .encode (.error e) s.ses) :=
  congrArg Host.Outcome.next (hostOp_raises (by simp [opEncode, h]))

theorem exec_encode (power w : Bool) {sl a : Nat} (ch : Channel) (d : Word16) (hsl : sl ≤ 7) (ha : a ≤ 255) :
    exec (.encode power sl w (channelIndex ch) a d) s = .next (s.returned .encode
      (.ok (.bytes (commandBytes s.cfg ⟨power, slaveId sl, w, ch, addrByte a, d⟩))) s.ses) :=
  congrArg Host.Outcome.next (hostOp_returns (by
    simp only [opEncode, encodeError_none hsl (channelIndex_le ch) ha, channelOfIndex_channelIndex]
    rfl))

/-- Fields of a command frame are arguments that `encode` takes. -/
theorem exec_encode_fields (f : FrameFields) :
    exec (.encode f.power f.slave.toNat f.writeFlag (channelIndex f.channel) f.addr.toNat f.data) s =
      .next (s.returned .encode (.ok (.bytes (commandBytes s.cfg f))) s.ses) := by
  rw [exec_encode _ _ _ _ (Nat.le_of_lt_succ f.slave.isLt) (Nat.le_of_lt_succ f.addr.isLt), slaveId_toNat, addrByte_toNat]

theorem exec_decode_ok {raw : List Byte} {f : FrameFields} (h : decodeCommand s.cfg raw = .ok f) :
    exec (.decode raw) s = .next (s.returned .decode (.ok (.frame f)) s.ses) :=
  congrArg Host.Outcome.next (hostOp_returns (by
    rw [opDecode, show (s.enter .decode).cfg = s.cfg from rfl, h]))

theorem exec_decode_error {raw : List Byte} {n : Nat} (h : decodeCommand s.cfg raw = .error n) :
    exec (.decode raw) s = .next (s.returned .decode (.error (.shortFrame n)) s.ses) :=
  congrArg Host.Outcome.next (hostOp_raises (by
    rw [opDecode, show (s.enter .decode).cfg = s.cfg from rfl, h]))

/-- `decode` returns a command frame only where the codec reads one. -/
theorem decodeCommand_of_exec {raw : List Byte} {f : FrameFields}
    (h : exec (.decode raw) s = .next (s.returned .decode (.ok (.frame f)) s.ses)) : decodeCommand s.cfg raw = .ok f := by
  cases hd : decodeCommand s.cfg raw with
  | ok g =>
    rw [exec_decode_ok hd] at h
    cases returned_injective (Host.Outcome.next.inj h)
    rfl
  | error n =>
    rw [exec_decode_error hd] at h
    cases returned_injective (Host.Outcome.next.inj h)

theorem decodeCommand_short {raw : List Byte} (h : raw.length < 4) : decodeCommand c raw = .error raw.length := by
  match raw, h with
  | [], _ => rfl
  | [_], _ => rfl
  | [_, _], _ => rfl
  | [_, _, _], _ => rfl

/-- The codec reads the first four bytes of what it reads at all. -/
theorem decodeCommand_eq_ok {raw : List Byte} {f : FrameFields} (h : decodeCommand c raw = .ok f) :
    ∃ ctrl a hb lb rest, raw = ctrl :: a :: hb :: lb :: rest ∧
      f = ⟨ctrlPower ctrl, ctrlSlave ctrl, ctrlWrite ctrl, ctrlChannel c ctrl, a, word hb lb⟩ := by
  have hlen : 4 ≤ raw.length := by
    by_contra hshort
    rw [decodeCommand_short (Nat.lt_of_not_le hshort)] at h
    cases h
  obtain ⟨ctrl, a, hb, lb, rest, rfl⟩ := exists_cons_of_four_le hlen
  cases h
  exact ⟨ctrl, a, hb, lb, rest, rfl, rfl⟩

/-! ## The laws of the codec (R96) -/

/-- Writing what was read gives the four bytes again, bit 2 of the first clear. -/
theorem commandBytes_of_decodeCommand (h : c.LayoutOk) {raw : List Byte} {f : FrameFields}
    (hd : decodeCommand c raw = .ok f) : commandBytes c f = (raw.getD 0 0 &&& 0xFB) :: (raw.drop 1).take 3 := by
  obtain ⟨ctrl, a, hb, lb, rest, rfl, rfl⟩ := decodeCommand_eq_ok hd
  simp [commandBytes, controlByte_of_fields h]

/-- A control byte whose bit 2 is clear is its fields. -/
theorem control_masked_of_bit2 : ∀ b : Byte, b.getLsbD 2 = false → b &&& 0xFB = b := by decide

theorem commandBytes_injective (h : c.LayoutOk) {f g : FrameFields} (heq : commandBytes c f = commandBytes c g) : f = g := by
  have hf := decodeCommand_commandBytes h f []
  rw [heq, decodeCommand_commandBytes h g []] at hf
  cases hf
  rfl

/-- Settles O4: both operations run the codec of command frames, which reads back what it writes and writes back what it
reads but for bit 2; arguments in range are the fields they become. -/
theorem codecLaws : Obligations.CodecLaws := by
  intro s
  have hc := s.params.admissible.1
  refine ⟨fun power sl w channel ch a d hsl hch ha => ?_, fun raw f hx => ?_,
    fun power power' sl sl' w w' ch ch' a a' d d' hsl hsl' ha ha' heq => ?_⟩
  · subst hch
    exact ⟨_, exec_encode power w ch d hsl ha, exec_decode_ok (by simpa using decodeCommand_commandBytes hc _ [])⟩
  · have hd := decodeCommand_of_exec hx
    refine ⟨by rw [exec_encode_fields, commandBytes_of_decodeCommand hc hd], fun hbit => ?_⟩
    obtain ⟨ctrl, a, hb, lb, rest, rfl, -⟩ := decodeCommand_eq_ok hd
    simpa using control_masked_of_bit2 ctrl hbit
  · rw [exec_encode _ _ _ _ hsl ha, exec_encode _ _ _ _ hsl' ha'] at heq
    have hbytes := returned_injective (Host.Outcome.next.inj heq)
    simp only [Result.ok.injEq, Value.bytes.injEq] at hbytes
    have hf := commandBytes_injective hc hbytes
    simp only [FrameFields.mk.injEq] at hf
    obtain ⟨hp, hs, hw, hch, haddr, hd⟩ := hf
    refine ⟨hp, ?_, hw, hch, ?_, hd⟩
    · rw [← toNat_slaveId hsl, hs, toNat_slaveId hsl']
    · rw [← toNat_addrByte ha, haddr, toNat_addrByte ha']

/-! ## The bytes of a command frame (R75, R91) -/

/-- The fields of a control byte lie in bits of their own. -/
theorem control_shifted : ∀ (p w : Bool) (sl : SlaveId) (code : BitVec 2),
    (BitVec.ofBool p ++ sl ++ BitVec.ofBool w ++ 0#1 ++ code : Byte) =
      BitVec.ofNat 8 (p.toNat <<< 7 ||| sl.toNat <<< 4 ||| w.toNat <<< 3 ||| code.toNat) := by decide

theorem controlByte_eq_ofNat (power w : Bool) {sl : Nat} (ch : Channel) (hsl : sl ≤ 7) :
    controlByte c power (slaveId sl) w ch =
      BitVec.ofNat 8 (power.toNat <<< 7 ||| sl <<< 4 ||| w.toNat <<< 3 ||| (c.chCode ch).toNat) := by
  have h := control_shifted power w (slaveId sl) (c.chCode ch)
  rwa [toNat_slaveId hsl] at h

/-- Settles O5: the first check that fails ends the operation, and arguments that pass are the fields of a command frame. -/
theorem encodeReturnsTheCommandFrame : Obligations.EncodeReturnsTheCommandFrame := by
  intro s power sl w channel a d
  refine ⟨fun h => ?_, fun hsl h => ?_, fun hsl hch h => ?_, fun ch hsl hch ha => ?_⟩
  · exact completes_of_returned (exec_encode_refused (encodeError_slave h))
  · exact completes_of_returned (exec_encode_refused (encodeError_channel hsl h))
  · exact completes_of_returned (exec_encode_refused (encodeError_addr hsl hch h))
  · obtain rfl := channelIndex_of_listed hch
    rw [← controlByte_eq_ofNat power w ch hsl]
    exact completes_of_returned (exec_encode power w ch d hsl ha)

/-- Settles O6: a sequence of four bytes or more is read by its first four, and the channel read has the code of bits 1:0. -/
theorem decodeReadsTheFirstFourBytes : Obligations.DecodeReadsTheFirstFourBytes := by
  refine fun s raw => ⟨fun h => completes_of_returned (exec_decode_error (decodeCommand_short h)), ?_⟩
  rintro ctrl a hb lb rest rfl
  exact ⟨ctrlChannel s.cfg ctrl, chCode_channelOfCode s.params.admissible.1 _, completes_of_returned (exec_decode_ok rfl)⟩

/-! ## The frames the controller sends (R93–R95, R97) -/

/-- What a host's call means is a host operation and no frame kind. -/
theorem opOf_of_decode_call {h : HostCall} (hd : decode c (.call h) = .ok i) : ∃ op, opOf i = some op := by
  obtain ⟨n, args⟩ := h
  replace hd : decodeCall c n args = .ok i := hd
  rcases decodeCall_cases c n args with ⟨j, hj, henc⟩ | ⟨j, hsrc⟩ | herr
  · rw [hj] at hd
    cases hd
    cases i with
    | port0Rd | port1Rd | sportRd | busctrlRd | port0Wr | port1Wr | sportWr | busctrlWr => cases henc
    | _ => exact ⟨_, rfl⟩
  · rw [hsrc.decodeCall_eq] at hd
    cases hd
    cases hsrc <;> exact ⟨_, rfl⟩
  · rw [herr] at hd
    cases hd

theorem registerFrame_power (c : Cfg) (f : FrameFields) : ((registerFrame c f).getD 0 0).getLsbD 7 = f.power :=
  ctrlPower_controlByte c f.power f.slave f.writeFlag f.channel

theorem portLayoutFrame_power (h : c.LayoutOk) (power : Bool) (sl : SlaveId) (p : Port) (v : Option Word32) :
    ((portLayoutFrame c power sl p v).getD 0 0).getLsbD 7 = power := by
  obtain ⟨b2, b3, g, hg⟩ := portLayoutFrame_head power sl h p v
  rw [hg]
  exact ctrlPower_controlByte c power sl v.isSome p.channel

@[simp] theorem Session.request_power (u : Session) (p : Port) (w : Option PortBytes) : (u.request p w).power = u.power := by
  cases p <;> cases w <;> rfl

/-- Each builder gives N bytes, bit 2 clear, with the session's power flag in bit 7; requesting port writes leaves the flag. -/
theorem BuiltBy.bits {f : Frame} (h : BuiltBy s i f) : WellBuilt s.cfg f ∧ (f.getD 0 0).getLsbD 7 = s.ses.power := by
  rcases h with ⟨sl, w, ch, a, d, -, rfl⟩ | ⟨sl, p0, p1, -, ⟨p, rfl⟩ | rfl⟩
  · exact ⟨wellBuilt_registerFrame s.params _, registerFrame_power _ _⟩
  · refine ⟨wellBuilt_portLayoutFrame s.params _ _ _ _, (portLayoutFrame_power s.params.admissible.1 _ _ _ _).trans ?_⟩
    simp
  · exact ⟨wellBuilt_portLayoutFrame s.params _ _ _ _, portLayoutFrame_power s.params.admissible.1 _ _ _ _⟩

/-- Settles O7: a frame kind by itself adds no event, and an operation sends frames of its builders only. -/
theorem sentFramesComeFromTheBuilders : Obligations.SentFramesComeFromTheBuilders := by
  refine fun s => ⟨fun h i => opOf_of_decode_call, fun i t hx f hf => ?_⟩
  have hbuilt : BuiltBy s i f := by
    cases ho : opOf i with
    | none =>
      rw [exec_frame ho] at hx
      cases hx
      rw [newEvents_of_append (es := []) (by simp)] at hf
      cases hf
    | some op => exact (exec_sends ho hx f hf).1
  exact ⟨hbuilt, hbuilt.bits⟩

end Sys2Proof.Machine
end

section
/-! The family of spec/41_register_bus.md: register writes and reads with every exchange answered, the identity of a slave, the
power flag, and the round trip against an environment that keeps the FIFO contract. -/

namespace Sys2Proof.Machine

variable {α β : Type} {s t u : State} {i : Instr} {op : OpName} {es fs : List Event}

/-! ## From a run to its completion -/

theorem completes_of_after {v : Session} (h : exec i s = .next (s.after es v)) : s.completes i es v :=
  ⟨_, h, rfl, rfl, rfl, rfl⟩

/-- A host operation whose body lands completes with the value. -/
theorem Lands.completes {body : Op Value} {v : Session} {a : Value} (h : Lands body (s.enter op) es v a)
    (hb : bodyOf i = some body) (ho : opOf i = some op) :
    s.completes i (es ++ [.ret op (.ok a)]) { v with pc := .idle } :=
  completes_of_after (by rw [exec_body hb ho, h.hostOp])

/-- A host operation whose body raises completes with the error. -/
theorem Raises.completes {body : Op Value} {v : Session} {e : Err} (h : Raises body (s.enter op) es v e)
    (hb : bodyOf i = some body) (ho : opOf i = some op) :
    s.completes i (es ++ [.ret op (.error e)]) { v with pc := .idle } :=
  completes_of_after (by rw [exec_body hb ho, h.hostOp])

/-- The sequencer of a settled session is idle already. -/
theorem Session.Settled.idle_eq {v : Session} (h : v.Settled) : { v with pc := .idle } = v := by
  rw [← h.pc]

theorem Session.Settled.completes (h : s.ses.Settled) (hdone : s.completes i es { s.ses with pc := .idle }) :
    s.completes i es s.ses := by
  rwa [h.idle_eq] at hdone

/-- Readiness is the session's alone. -/
theorem State.Ready.of_ses (h : s.Ready) (hses : t.ses = s.ses) : t.Ready :=
  ⟨hses ▸ h.settled, hses ▸ h.alive, hses ▸ h.free⟩

theorem returns_eventsOf (xs : List Txn) : returns (eventsOf xs) = [] := by
  have frames : ∀ (f : Frame) (rs : List Frame), returns (rs.map (.frame f)) = [] := by
    intro f rs
    induction rs with
    | nil => rfl
    | cons r rs ih => exact ih
  induction xs with
  | nil => rfl
  | cons x xs ih =>
    rw [show eventsOf (x :: xs) = .select true :: (x.2.map (.frame x.1) ++ [.select false]) ++ eventsOf xs from rfl,
      returns_append, ih]
    simp [returns, returns_append, frames]

/-! ## The power flag (R108) -/

theorem setPower_completes (s : State) (b : Bool) :
    s.completes (.setPower b) [.ret .setPower (.ok .unit)] { s.ses with power := b, pc := .idle } :=
  ⟨_, rfl, rfl, rfl, rfl, rfl⟩

/-- Settles O23: every frame is built with the session's power flag in bit 7, and the flag is the one just written. -/
theorem setPowerWritesThePowerFlag : Obligations.SetPowerWritesThePowerFlag := by
  refine fun s b => ⟨setPower_completes s b, fun t j op u ht _ hu f hf => ?_⟩
  obtain ⟨t', ht', -, hses, -⟩ := setPower_completes s b
  obtain rfl : t' = t := Host.Outcome.next.inj (ht'.symm.trans ht)
  obtain ⟨-, -, hbit⟩ := (sentFramesComeFromTheBuilders t').2 j u hu f hf
  rw [hbit, hses]

/-! ## Register writes and BusCtrl reads (R99, R102) -/

/-- Settles O36: the run of an answered write, whose session is settled before and after. -/
theorem writeRegisterSendsOneFrame : Obligations.WriteRegisterSendsOneFrame := by
  intro s sl ch a v rx hready hsl hch ha hw
  exact hready.settled.completes (completes_of_after (exec_writeRegister_answered hready hsl hch ha hw))

/-- Settles O39: the one frame of the read lands with its word, and the session is settled before and after. -/
theorem busCtrlReadTakesOneFrame : Obligations.BusCtrlReadTakesOneFrame := by
  intro s sl a rx hready hsl ha hw
  have hl := lands_opReadRegister_busCtrl (s := s.enter .readRegister)
    (hready.guard_passes_register (ch := .busCtrl) hsl (.inr rfl) ha) hready.settled.sel (willAnswer_enter hw)
  exact hready.settled.completes (hl.completes rfl rfl)

/-! ## SPort reads (R101, R103) -/

/-- An SPort read whose responses end in data within the budget. -/
theorem readRegister_sport_completes {sl a : Nat} {rxs : List Frame} {w : Word16} (h : s.Ready) (hsl : sl ≤ 7) (ha : a ≤ 255)
    (hr : sportRead s.cfg rxs = some w) (hw : s.willAnswer rxs) :
    s.completes (.readRegister sl 2 a)
      (eventsOf [(registerFrame s.cfg ⟨s.ses.power, slaveId sl, false, .sport, addrByte a, 0⟩, rxs)] ++
        [.ret .readRegister (.ok (.word w))]) s.ses := by
  have hl := lands_opReadRegister_sport (s := s.enter .readRegister)
    (h.guard_passes_register (ch := .sport) hsl (.inl rfl) ha) h.settled.sel hr (willAnswer_enter hw)
  exact h.settled.completes (hl.completes rfl rfl)

/-- The events of one transaction and a `Return`, written out. -/
theorem eventsOf_singleton_ret (f : Frame) (rs : List Frame) (r : Result) :
    eventsOf [(f, rs)] ++ [.ret op r] = .select true :: (rs.map (.frame f) ++ [.select false, .ret op r]) := by
  simp [eventsOf, Txn.events]

/-- Settles O40: setup, polls without data-valid and one with it are the responses of an SPort read of that last word. -/
theorem sPortReadReturnsTheFirstValidWord : Obligations.SPortReadReturnsTheFirstValidWord := by
  intro s sl a setup last polls hready hsl ha hpolls hlast hbudget hw
  have hread := sportRead_of (setup := setup) hbudget hpolls hlast
  rw [← eventsOf_singleton_ret]
  exact readRegister_sport_completes hready hsl ha hread hw

/-- Settles O41: the poll loop runs to the end of its budget and raises, chip select released. -/
theorem sPortReadTimesOut : Obligations.SPortReadTimesOut := by
  intro s sl a setup polls hready hsl ha hpolls hbudget hw
  have hr := raises_opReadRegister (s := s.enter .readRegister)
    (hready.guard_passes_register (ch := .sport) hsl (.inl rfl) ha) hready.settled.sel hbudget hpolls (willAnswer_enter hw)
  rw [← eventsOf_singleton_ret]
  exact hready.settled.completes (hr.completes rfl rfl)

/-! ## The identity of a slave (R106, R107) -/

theorem infoAddrs_length (c : Cfg) : (infoAddrs c).length = 19 := by simp [infoAddrs]

/-- Settles O43: the nineteen reads land with the identity; the three words after the strings are told by their place. -/
theorem getSlaveInfoReadsTheIdentity : Obligations.GetSlaveInfoReadsTheIdentity := by
  intro s sl rss ws hready hsl hlen hr hw
  have hrss : rss.length = 19 := by simpa [hlen] using congrArg List.length hr
  have hg : guardError s { slave := sl } = none :=
    hready.guard_passes ⟨by simpa using hsl, by simp, by simp, by simp⟩ rfl
  have hans : answersOf (readTxns s.cfg s.ses.power (slaveId sl) .sport (infoAddrs s.cfg) rss) = rss.flatten :=
    answersOf_readTxns (by rw [infoAddrs_length, hrss])
  obtain ⟨x, htype, hnumber, hids, hcount, hl⟩ := lands_opGetSlaveInfo (s := s.enter .getSlaveInfo) hg hready.settled.sel hlen
    hr (willAnswer_enter (by rw [← hans] at hw; exact hw))
  have hget : ∀ k, ws[16 + k]? = [x.featureId, x.bugfixId, ws.getD 18 0][k]? := fun k => by rw [← hids, List.getElem?_drop]
  refine ⟨x, htype, hnumber, hget 0, hget 1, ?_, ?_⟩
  · rw [hcount, hget 2]
    rfl
  · rw [← hready.settled.idle_eq]
    exact hl.completes (i := .getSlaveInfo sl) rfl rfl

/-! ## The round trip (R104) -/

/-- A result as the host is given it. -/
def resultOf : Except Err Value → Result
  | .ok v => .ok v
  | .error e => .error e

/-- A run, and its value passed on. -/
theorem RunsTo.map {x : Op α} {o : Except Err α} (h : RunsTo x s es o t) (f : α → β) :
    RunsTo (x >>= fun a => pure (f a)) s es (o.map f) t where
  run := by
    cases o with
    | ok a => exact Op.bind_ok h.run
    | error e => exact Op.bind_error h.run
  hist := h.hist
  rets := h.rets

/-- A host operation whose body runs to an outcome returns it. -/
theorem RunsTo.newEvents_hostOp {body : Op Value} {o : Except Err Value} (h : RunsTo body (s.enter op) es o t) :
    newEvents s (hostOp op body s) = es ++ [.ret op (resultOf o)] := by
  have hret : hostOp op body s = t.ret op (resultOf o) := by
    cases o with
    | ok v => exact hostOp_ok h.run
    | error e => exact hostOp_error h.run
  exact newEvents_of_append (by rw [hret, State.ret_hist, h.hist, State.enter_hist, List.append_assoc])

/-- How `readRegister` of an SPort register that holds v may return: v, `BusTimeout` or `TransportFailure`. -/
def ReadReturns (c : Cfg) (sl a : Nat) (v : Word16) (r : Result) : Prop :=
  r = .ok (.word v) ∨ r = .error (.busTimeout (slaveId sl) .sport (addrByte a) c.readBudget) ∨
    ∃ tx, r = .error (.transportFailure tx)

theorem ReadEnds.returns {c : Cfg} {sl a : Nat} {v : Word16} {o : Except Err Word16}
    (h : ReadEnds c (slaveId sl) (addrByte a) v o) : ReadReturns c sl a v (resultOf (o.map Value.word)) := by
  rcases h with rfl | rfl | ⟨tx, rfl⟩
  · exact .inl rfl
  · exact .inr (.inl rfl)
  · exact .inr (.inr ⟨tx, rfl⟩)

/-- `readRegister` of an SPort register that holds v, against an environment that keeps the contract. -/
theorem exec_readRegister_contract {sl a : Nat} {v : Word16} {own : List Nat} (h : s.Ready) (hsl : sl ≤ 7) (ha : a ≤ 255)
    (hown : sportCell (slaveId sl) (addrByte a) ∉ own) (hm : s.bus.mem.get16 (sportCell (slaveId sl) (addrByte a)) = v)
    (hx : exec (.readRegister sl 2 a) s = .next t) (hk : s.bus.keepsContract s.cfg own none (newEvents s t) = true) :
    ∃ r, returns (newEvents s t) = [(.readRegister, r)] ∧ ReadReturns s.cfg sl a v r := by
  obtain ⟨es, o, u, hrun, hends⟩ := regRdS_contract hown (s.enter .readRegister) hm
  have hg : guardError (s.enter .readRegister) { slave := sl, channel := (2 : Nat), regChannel := true, addr := a } = none :=
    h.guard_passes_register (ch := .sport) hsl (.inl rfl) ha
  have hbody : RunsTo (opReadRegister sl 2 a) (s.enter .readRegister) es (o.map Value.word) u :=
    { hrun.map Value.word with run := (guard_bind_pass hg _).trans (hrun.map Value.word).run }
  cases hx
  rw [hbody.newEvents_hostOp] at hk ⊢
  exact ⟨_, by rw [returns_ret, hrun.rets, List.nil_append], (hends none _ hk).returns⟩

/-- A register write whose exchange the Transport answers, whatever with. -/
theorem lands_regWr_ok {rx : Frame} (hs : s.ses.sel = false) (hn : s.bus.nextAnswer = .ok rx) (sl : SlaveId) (ch : Channel)
    (a : Byte) (v : Word16) :
    Lands (regWr sl ch a v) s (eventsOf [(s.regFrame sl true ch a v, [fitFrame s.cfg rx])]) s.ses () := by
  refine Lands.get (Lands.bracket (es := [.frame (s.regFrame sl true ch a v) (fitFrame s.cfg rx)]) hs
    ⟨s.ses.pc.nextFrame, ?_⟩)
  exact Op.bind_ok (xchg_ok (s := s.after [.select true] { s.ses with sel := true }) hn _)

/-- An SPort write of a ready session, its exchange answered: the machine after its one frame. -/
theorem exec_writeRegister_ok {sl a : Nat} {v : Word16} {rx : Frame} (h : s.Ready) (hsl : sl ≤ 7) (ha : a ≤ 255)
    (hn : s.bus.nextAnswer = .ok rx) :
    exec (.writeRegister sl 2 a v) s =
      .next (s.after (eventsOf [(s.regFrame (slaveId sl) true .sport (addrByte a) v, [fitFrame s.cfg rx])] ++
        [.ret .writeRegister (.ok .unit)]) s.ses) := by
  have hg : guardError (s.enter .writeRegister) { slave := sl, channel := (2 : Nat), regChannel := true, addr := a } = none :=
    h.guard_passes_register (ch := .sport) hsl (.inl rfl) ha
  have hwrite := lands_regWr_ok (s := s.enter .writeRegister) h.settled.sel hn (slaveId sl) .sport (addrByte a) v
  have hbody : Lands (opWriteRegister sl 2 a v) _ _ _ _ := Lands.guard hg (hwrite.map fun _ => Value.unit)
  rw [exec_body (body := opWriteRegister sl 2 a v) (op := .writeRegister) rfl rfl, hbody.hostOp]
  exact congrArg (fun u => Host.Outcome.next (s.after _ u)) h.settled.idle_eq

/-- The events of an operation follow those of the run before it. -/
theorem newEvents_of_after {v : Session} (ho : opOf i = some op) (h : exec i (s.after es v) = .next t) :
    newEvents s t = es ++ newEvents (s.after es v) t := by
  obtain ⟨t', fs, r, ht', hhist, -⟩ := everyOperationEndsWithOneReturn i op (s.after es v) ho
  obtain rfl : t' = t := Host.Outcome.next.inj (ht'.symm.trans h)
  rw [newEvents_of_append hhist, newEvents_of_append (es := es ++ (fs ++ [.ret op r])) (by rw [hhist]; simp)]

/-- An environment that keeps the contract keeps it after an operation of one answered frame. -/
theorem keepsContract_after_frame {own : List Nat} {f rx : Frame} {r : Result} (v : Session)
    (h : s.bus.keepsContract s.cfg own none (eventsOf [(f, [rx])] ++ [.ret op r] ++ fs) = true) :
    (s.after (eventsOf [(f, [rx])] ++ [.ret op r]) v).bus.keepsContract s.cfg own none fs = true :=
  (Bool.and_eq_true_iff.1 h).2

/-- A read in a dead session raises `TransportFailure` without a frame (60_exceptions.md R164, R166). -/
theorem exec_readRegister_dead {sl a : Nat} (hdead : s.ses.dead = true) (hsl : sl ≤ 7) (ha : a ≤ 255)
    (hx : exec (.readRegister sl 2 a) s = .next t) :
    returns (newEvents s t) = [(.readRegister, .error (.transportFailure none))] := by
  have hrefused := deadSessionRefusesBusOperations (.readRegister sl 2 a) .readRegister
    { slave := sl, channel := (2 : Nat), regChannel := true, addr := a } s rfl rfl
    ⟨by simpa using hsl, by simp, by simpa using ha, by simp⟩ hdead
  rw [hrefused] at hx
  cases hx
  rw [newEvents_of_append (es := [.ret .readRegister (.error (.transportFailure none))]) rfl]
  rfl

/-- A read right after a write, whatever the Transport answers: a failed write leaves the session dead, an answered one
leaves the value in the register. -/
theorem writeThenRead_returns {sl a : Nat} {v : Word16} {own : List Nat} (h : s.Ready) (hsl : sl ≤ 7) (ha : a ≤ 255)
    (hown : sportCell (slaveId sl) (addrByte a) ∉ own) (ht : exec (.writeRegister sl 2 a v) s = .next t)
    (hu : exec (.readRegister sl 2 a) t = .next u) (hk : s.bus.keepsContract s.cfg own none (newEvents s u) = true) :
    ∃ r, returns (newEvents t u) = [(.readRegister, r)] ∧ ReadReturns s.cfg sl a v r := by
  cases hn : s.bus.nextAnswer with
  | fail landed =>
    obtain ⟨t', ht', -, hses, -⟩ := failedWriteKillsTheSession s sl .sport a v landed h hsl (.inl rfl) ha hn
    obtain rfl : t' = t := Host.Outcome.next.inj (ht'.symm.trans ht)
    exact ⟨_, exec_readRegister_dead (by rw [hses]) hsl ha hu, .inr (.inr ⟨none, rfl⟩)⟩
  | ok rx =>
    rw [exec_writeRegister_ok h hsl ha hn] at ht
    cases ht
    rw [newEvents_of_after rfl hu] at hk
    refine exec_readRegister_contract (h.of_ses rfl) hsl ha hown ?_ hu (keepsContract_after_frame s.ses hk)
    rw [State.after_bus, framePairs_ret, framePairs_eventsOf]
    exact get16_accept_registerFrame s.params.admissible.1 _ _ _ (.inl rfl) _ _

/-- An answered write leaves the session ready and the further answers to come. -/
theorem exec_writeRegister_then {sl a : Nat} {ack : Frame} {rxs : List Frame} (v : Word16) (h : s.Ready) (hsl : sl ≤ 7)
    (ha : a ≤ 255) (hw : s.willAnswer (ack :: rxs)) :
    ∃ t, exec (.writeRegister sl 2 a v) s = .next t ∧ t.cfg = s.cfg ∧ t.Ready ∧ t.willAnswer rxs :=
  ⟨_, exec_writeRegister_ok h hsl ha hw.next.1, rfl, h.of_ses rfl,
    State.willAnswer.after (xs := [ack]) hw (by rw [framePairs_ret, framePairs_eventsOf]; rfl)⟩

/-- Settles O42: whatever is answered, the contract leaves the three results; where the answers are those of a read that ends
in data, the result is a word, and so the value. -/
theorem writeThenReadReturnsTheValue : Obligations.WriteThenReadReturnsTheValue := by
  intro s sl a v own hready hsl ha hown
  refine ⟨fun t u ht hu hk => writeThenRead_returns hready hsl ha hown ht hu hk,
    fun ack setup last polls hpolls hlast hbudget hw hcontract => ?_⟩
  obtain ⟨t, ht, hcfg, hready', hw'⟩ := exec_writeRegister_then v hready hsl ha hw
  have hread : sportRead t.cfg (setup :: (polls ++ [last])) = some (respWord s.cfg last) := by
    rw [hcfg]
    exact sportRead_of hbudget hpolls hlast
  obtain ⟨u, hu, hhist, -⟩ := readRegister_sport_completes hready' hsl ha hread hw'
  have hword : returns (newEvents t u) = [(.readRegister, .ok (.word (respWord s.cfg last)))] := by
    rw [newEvents_of_append hhist, returns_ret, returns_eventsOf, List.nil_append]
  obtain ⟨r, hr, hends⟩ := writeThenRead_returns hready hsl ha hown ht hu (hcontract t u ht hu)
  obtain rfl : r = .ok (.word (respWord s.cfg last)) := by simpa using hr.symm.trans hword
  refine ⟨t, u, ht, hu, hword.trans ?_⟩
  rcases hends with heq | herr | ⟨tx, herr⟩
  · rw [heq]
  · cases herr
  · cases herr

end Sys2Proof.Machine
end

section
/-! The family of spec/42_bulk_port.md: the frames of an answered exchange, what is read from its responses, and port writes
that are made once. -/

namespace Sys2Proof.Machine

variable {s t u : State} {i : Instr}

/-! ## The exchange when every frame is answered (R113–R117) -/

/-- A request raises the flag of its port and replaces the value; no request leaves both (R113). -/
theorem Session.request_zero (u : Session) (w : Option PortBytes) : u.request .zero w =
    { u with pendWr0 := w.isSome || u.pendWr0, pendVal0 := (w.map unbe32).getD u.pendVal0 } := by
  cases w <;> rfl

theorem Session.request_one (u : Session) (w : Option PortBytes) : u.request .one w =
    { u with pendWr1 := w.isSome || u.pendWr1, pendVal1 := (w.map unbe32).getD u.pendVal1 } := by
  cases w <;> rfl

/-- From a settled session the flags, chip select and the position end as they were, so that an exchange leaves the slave, the
values requested and the error summary. -/
theorem Session.Settled.exchangedSession_idle {u : Session} (h : u.Settled) (q : SeqPos) (sl : SlaveId)
    (p0 p1 : Option PortBytes) (err : Word16) :
    { exchangedSession { u with pc := q } sl p0 p1 err with pc := .idle } =
      { u with
        curSlave := sl
        pendVal0 := (p0.map unbe32).getD u.pendVal0
        pendVal1 := (p1.map unbe32).getD u.pendVal1
        errSummary := some err } := by
  simp [exchangedSession, Session.request_zero, Session.request_one, h.sel, h.pendWr0, h.pendWr1, h.pc]

/-- Settles O44: the body of the exchange lands after its 2 + `LAG` answers; what it leaves is read from the settled session
it began in. -/
theorem exchangeMapsItsResponses : Obligations.ExchangeMapsItsResponses := by
  intro s sl p0 p1 r1 r2 rs hready hsl hn hw
  have hg : guardError s { slave := sl } = none :=
    hready.guard_passes ⟨by simpa using hsl, by simp, by simp, by simp⟩ rfl
  have hl := lands_opExchange (s := s.enter .exchange) (p0 := p0) (p1 := p1) hg hn hready.settled.pendWr0
    hready.settled.pendWr1 (willAnswer_enter hw)
  have hdone := hl.completes (i := .exchange sl p0 p1) rfl rfl
  rw [List.cons_append, List.append_assoc] at hdone
  rw [← hready.settled.exchangedSession_idle (s.enter .exchange).ses.pc]
  exact hdone

/-! ## Port writes are made once (R116, R120) -/

/-- Bit 3 of a frame's control byte is its write bit (30_encoding.md R75). -/
theorem registerFrame_writeBit (c : Cfg) (f : FrameFields) :
    ((registerFrame c f).getD 0 0).getLsbD 3 = f.writeFlag :=
  ctrlWrite_controlByte c f.power f.slave f.writeFlag f.channel

theorem portLayoutFrame_writeBit {c : Cfg} (h : c.LayoutOk) (power : Bool) (sl : SlaveId) (p : Port) (v : Option Word32) :
    ((portLayoutFrame c power sl p v).getD 0 0).getLsbD 3 = v.isSome := by
  obtain ⟨b2, b3, g, hg⟩ := portLayoutFrame_head power sl h p v
  rw [hg]
  exact ctrlWrite_controlByte c power sl v.isSome p.channel

theorem registerCells_ne_nil {ch : Channel} (hch : ch = .sport ∨ ch = .busCtrl) (sl : SlaveId) (a : Byte) :
    registerCells ch sl a ≠ [] := by
  rcases hch with rfl | rfl <;> exact List.cons_ne_nil _ _

/-- A port frame that stores to no cell carries no write. -/
theorem portLayoutFrame_writeBit_of_stores_nothing {c : Cfg} (hc : c.LayoutOk) {power : Bool} {sl : SlaveId} {p : Port}
    {v : Option Word32} (h : frameCells c (portLayoutFrame c power sl p v) = []) :
    ((portLayoutFrame c power sl p v).getD 0 0).getLsbD 3 = false := by
  rw [frameCells_portLayoutFrame hc] at h
  rw [portLayoutFrame_writeBit hc]
  cases v with
  | none => rfl
  | some x => cases h

/-- A frame of the builders that stores to no cell has the write bit clear. -/
theorem BuiltBy.writeBit_of_stores_nothing {f : Frame} (h : BuiltBy s i f) (hcells : frameCells s.cfg f = []) :
    (f.getD 0 0).getLsbD 3 = false := by
  have hc := s.params.admissible.1
  rcases h with ⟨sl, w, ch, a, d, hch, rfl⟩ | ⟨sl, p0, p1, -, ⟨p, rfl⟩ | rfl⟩
  · rw [State.regFrame, frameCells_registerFrame hc _ _ _ hch] at hcells
    rw [State.regFrame, registerFrame_writeBit]
    cases w with
    | false => rfl
    | true => exact absurd hcells (registerCells_ne_nil hch sl a)
  · exact portLayoutFrame_writeBit_of_stores_nothing hc hcells
  · exact portLayoutFrame_writeBit_of_stores_nothing hc hcells

/-- An instruction that can store to no cell sends no frame with the write bit set. -/
theorem sentFrames_writeBit {op : OpName} (ho : opOf i = some op) (hx : exec i s = .next t) (hcells : storedCells s i = []) :
    ∀ f ∈ sentFrames (newEvents s t), (f.getD 0 0).getLsbD 3 = false := by
  intro f hf
  obtain ⟨hbuilt, hown⟩ := exec_sends ho hx f hf
  rw [hcells] at hown
  exact hbuilt.writeBit_of_stores_nothing (List.eq_nil_iff_forall_not_mem.2 fun a ha => List.not_mem_nil (hown a ha))

/-- With nothing pending and nothing requested an exchange can store to no cell. -/
theorem storedCells_exchange_none (h0 : s.ses.pendWr0 = false) (h1 : s.ses.pendWr1 = false) (sl : Nat) :
    storedCells s (.exchange sl none none) = [] := by
  simp [storedCells, exchangeCells, h0, h1]

/-- Settles O45: a refused exchange leaves the session but for its position; one past `guard` clears both flags at its end, so
that the next one has nothing to write. -/
theorem portWritesAreOneShot : Obligations.PortWritesAreOneShot := by
  intro s t u sl sl' p0 p1 hx
  obtain rfl : hostOp .exchange (opExchange sl p0 p1) s = t := Host.Outcome.next.inj hx
  refine ⟨fun hg => ?_, fun hg => ?_⟩
  · obtain ⟨e, he⟩ := Option.ne_none_iff_exists'.1 hg
    rw [hostOp_refuse (i := .exchange sl p0 p1) rfl rfl he]
    exact ⟨rfl, rfl⟩
  · obtain ⟨h0, h1⟩ := exchange_pend (p0 := p0) (p1 := p1) hg
    exact ⟨h0, h1, fun hu => sentFrames_writeBit rfl hu (storedCells_exchange_none h0 h1 sl')⟩

end Sys2Proof.Machine
end

section
/-! The family of spec/43_bus_scanner.md: the scan that shows scan-done, the scan whose budget runs out, and the enable
sequence, every exchange answered. -/

namespace Sys2Proof.Machine

variable {s : State}

/-! ## The session a scan leaves (R126, R127) -/

theorem slaveId_cases : ∀ k : SlaveId, k = 0 ∨ k = 1 ∨ k = 2 ∨ k = 3 ∨ k = 4 ∨ k = 5 ∨ k = 6 ∨ k = 7 := by decide

/-- The eight entries of the table are those of the eight slave ids, each with its own bit of the bitmap. -/
theorem Session.entry_scanDone (u : Session) (pres : Byte) (st : Word16) (k : SlaveId) :
    (u.scanDone pres st).entry k = (u.entry k).scanned (pres.getLsbD k.toNat) := by
  rcases slaveId_cases k with rfl | rfl | rfl | rfl | rfl | rfl | rfl | rfl <;> rfl

/-- A completed scan edits the scan result and the slave table alone. -/
theorem Session.scanDone_frame (u : Session) (pres : Byte) (st : Word16) :
    { u.scanDone pres st with presence := u.presence, scanStatus := u.scanStatus, slaves := u.slaves } = u := rfl

/-! ## Scan (R124–R129) -/

/-- `scan` has no argument to check: a ready session lets it through. -/
theorem State.Ready.guard_passes_scan (h : s.Ready) : guardError s {} = none :=
  h.guard_passes ⟨by simp, by simp, by simp, by simp⟩ rfl

/-- Settles O47: the body of the scan lands after its three writes and the polls, and the slave table it leaves is read entry
by entry; the session began settled, so that the position ends where it was. -/
theorem scanReportsTheDoneWord : Obligations.ScanReportsTheDoneWord := by
  intro s budget acks polls last hready hacks hbudget hpolls hlast hw
  have hl := lands_opScan (s := s.enter .scan) hready.guard_passes_scan hready.settled.sel hacks hbudget hpolls hlast
    (willAnswer_enter hw)
  have hdone := hl.completes (i := .scan budget) rfl rfl
  rw [List.cons_append, List.append_assoc] at hdone
  refine ⟨s.ses.scanDone (presenceOf s.cfg (respWord s.cfg last)) (respWord s.cfg last), rfl, rfl,
    s.ses.entry_scanDone _ _, s.ses.scanDone_frame _ _, ?_⟩
  rw [← hready.settled.idle_eq]
  exact hdone

/-- Settles O48: the polls run to the end of the budget, the scan result is dropped, and the body raises. -/
theorem scanTimesOut : Obligations.ScanTimesOut := by
  intro s acks polls hready hacks hpolls hw
  have hr := raises_opScan (s := s.enter .scan) hready.guard_passes_scan hready.settled.sel hacks hpolls (willAnswer_enter hw)
  have hdone := hr.completes (i := .scan polls.length) rfl rfl
  rw [List.cons_append, List.append_assoc] at hdone
  rw [← hready.settled.idle_eq]
  exact hdone

/-! ## Enable (R130, R131) -/

theorem toList_vector_four {α : Type} (v : Vector α 4) : v.toList = [v[0], v[1], v[2], v[3]] := by
  obtain ⟨⟨l⟩, hl⟩ := v
  obtain ⟨a, b, c, d, rfl⟩ := List.length_eq_four.1 hl
  rfl

/-- Settles O49: the body of `enable` lands after the four writes with the flag of the slave's entry set. -/
theorem enableWritesTheFourWords : Obligations.EnableWritesTheFourWords := by
  intro s sl acks hready hsl hacks hw
  have hg : guardError s { slave := sl } = none :=
    hready.guard_passes ⟨by simpa using hsl, by simp, by simp, by simp⟩ rfl
  have hl := lands_opEnable (s := s.enter .enable) hg hready.settled.sel hacks (willAnswer_enter hw)
  have hdone := hl.completes (i := .enable sl) rfl rfl
  rw [toList_vector_four] at hdone
  rw [← hready.settled.idle_eq]
  exact hdone

end Sys2Proof.Machine
end

section
/-! The family of spec/44_flash_engine.md: the four steps and the composite with every exchange answered, the waits that fail,
where an operation of the engine ends whatever is answered, and the abort. -/

namespace Sys2Proof.Machine

variable {s : State} {i : Instr} {es : List Event}

/-! ## Sessions in which a step may run -/

/-- A ready session lets an erase of a valid slave through, and so `flash` (60_exceptions.md R164). -/
theorem State.Ready.guard_passes_flashStart {sl : Nat} (h : s.Ready) (hsl : sl ≤ 7) :
    guardError s { slave := sl, mode := .flashStart } = none := by
  rw [guardError_of_valid ⟨by simpa using hsl, by simp, by simp, by simp⟩, h.alive]
  simp [modeError, h.free]

/-- The open session lets the step through that its state calls for (60_exceptions.md R164). -/
theorem State.ReadyAt.guard_passes {st : FlashState} (h : s.ReadyAt st) : guardError s { mode := .flashStep st } = none :=
  guardError_flashStep h.alive h.state

/-- An operation leaves the position idle, where that of a settled session is already. -/
theorem Session.Settled.completes_of_pc {v : Session} (h : s.ses.Settled) (hpc : v.pc = s.ses.pc)
    (hdone : s.completes i es { v with pc := .idle }) : s.completes i es v := by
  rwa [← h.pc, ← hpc] at hdone

/-! ## The steps when every exchange is answered (R136–R143) -/

/-- Settles O50: the body of `erase` lands after the eight writes and the reads of a wait that ends. -/
theorem eraseOpensTheSession : Obligations.EraseOpensTheSession := by
  intro s sl r xs hready hsl hx hw
  have hl := lands_opErase (s := s.enter .erase) (hready.guard_passes_flashStart hsl) hready.settled.sel hx
    (willAnswer_enter hw)
  exact hready.settled.completes_of_pc rfl (hl.completes (i := .erase sl r) rfl rfl)

/-- Settles O51: the body of `program` lands after its bursts, and changes nothing of the session. -/
theorem programDownloadsTheImage : Obligations.ProgramDownloadsTheImage := by
  intro s image xs hready hx hw
  have hl := lands_opProgram (s := s.enter .program) hready.guard_passes hready.settled.sel hx (willAnswer_enter hw)
  exact hready.settled.completes (hl.completes rfl rfl)

/-- Settles O52: the body of `finalize` lands after the download-end word and the reads of a wait that ends. -/
theorem finalizeEndsTheDownload : Obligations.FinalizeEndsTheDownload := by
  intro s xs hready hx hw
  have hl := lands_opFinalize (s := s.enter .finalize) hready.guard_passes hready.settled.sel hx (willAnswer_enter hw)
  exact hready.settled.completes_of_pc rfl (hl.completes (i := .finalize) rfl rfl)

/-- Settles O53: the body of `reboot` lands after its eight writes, which take one answer each. -/
theorem rebootClosesTheSession : Obligations.RebootClosesTheSession := by
  intro s acks hready hacks hw
  have hans : answersOf (writeTxns s.cfg s.ses.power s.ses.flash.slave .sport (rangeParams s.cfg s.ses.flash.range).ctrl
      (s.cfg.vUnlockReboot.toList ++ [s.cfg.vRebootReq]) acks) = acks := answersOf_writeTxns (by simp [hacks])
  have hl := lands_opReboot (s := s.enter .reboot) hready.guard_passes hready.settled.sel ⟨acks, hacks, rfl⟩
    (willAnswer_enter (by rw [← hans] at hw; exact hw))
  exact hready.settled.completes_of_pc rfl (hl.completes (i := .reboot) rfl rfl)

/-! ## Waits that fail (R139, R142, 60_exceptions.md R162, R165) -/

/-- An erase whose frames end in the error of a failed wait. -/
theorem State.Ready.erase_completes_failed {sl : Nat} {r : FlashRange} {xs : List Txn} {e : Err} (h : s.Ready) (hsl : sl ≤ 7)
    (hx : Fails s.cfg s.ses.power (eraseFrames s.cfg (slaveId sl) r) xs e) (he : Waited e)
    (hw : s.willAnswer (answersOf xs)) :
    s.completes (.erase sl r) (timedOutEvents .erase xs ++ [.ret .erase (.error e)])
      { s.ses with flash := ⟨.failed, slaveId sl, r⟩ } := by
  have hr := raises_opErase (s := s.enter .erase) (h.guard_passes_flashStart hsl) h.settled.sel hx he (willAnswer_enter hw)
  exact h.settled.completes_of_pc rfl (hr.completes (i := .erase sl r) rfl rfl)

/-- Settles O55: both ways the wait can fail end the frames of the erase in an error that is notified. -/
theorem eraseTimesOut : Obligations.EraseTimesOut := by
  intro s sl r xs hready hsl hw
  constructor
  · intro hx
    exact hready.erase_completes_failed hsl (fails_eraseFrames hx) (.inl ⟨_, _, _, _, rfl⟩) hw
  · intro hx
    exact hready.erase_completes_failed hsl (fails_eraseFrames_unanswered hx) (.inr ⟨_, _, _, _, rfl⟩) hw

/-- A finalize whose frames end in the error of a failed wait. -/
theorem State.ReadyAt.finalize_completes_failed {xs : List Txn} {e : Err} (h : s.ReadyAt .programming)
    (hx : Fails s.cfg s.ses.power (finalizeFrames s.cfg s.ses.flash.slave s.ses.flash.range) xs e) (he : Waited e)
    (hw : s.willAnswer (answersOf xs)) :
    s.completes .finalize (timedOutEvents .finalize xs ++ [.ret .finalize (.error e)])
      { s.ses with flash := { s.ses.flash with state := .failed } } := by
  have hr := raises_opFinalize (s := s.enter .finalize) h.guard_passes h.settled.sel hx he (willAnswer_enter hw)
  exact h.settled.completes_of_pc rfl (hr.completes (i := .finalize) rfl rfl)

/-- Settles O56: both ways the wait can fail end the frames of the finalize in an error that is notified. -/
theorem finalizeTimesOut : Obligations.FinalizeTimesOut := by
  intro s xs hready hw
  constructor
  · intro hx
    exact hready.finalize_completes_failed (fails_finalizeFrames hx) (.inl ⟨_, _, _, _, rfl⟩) hw
  · intro hx
    exact hready.finalize_completes_failed (fails_finalizeFrames_unanswered hx) (.inr ⟨_, _, _, _, rfl⟩) hw

/-- Settles O57: an image that is not empty has a first burst, and the wait before it raises. -/
theorem programWithoutRoomTimesOut : Obligations.ProgramWithoutRoomTimesOut := by
  intro s image rs hready himage hflow hbudget hfull hw
  have hr := raises_opProgram (s := s.enter .program) hready.guard_passes hready.settled.sel himage hflow hbudget hfull
    (willAnswer_enter hw)
  exact hready.settled.completes_of_pc rfl (hr.completes (i := .program image) rfl rfl)

/-! ## Where an operation of the engine ends (R135, R146) -/

/-- Settles O54: the body of the operation ends in the state of its row or in `Failed`, and its `Return` says which. -/
theorem flashStepsReachTheirStateOrFail : Obligations.FlashStepsReachTheirStateOrFail := by
  intro i op g st s t hop hguard hgoal hpass hx
  obtain ⟨body, hbody⟩ := bodyOf_of_opOf hop
  rw [exec_body hbody hop] at hx
  cases hx
  exact hostOp_flash hbody hguard hgoal hpass

/-- Settles O58: the four steps land one after another, each with its own answers; the reboot leaves `Done`. -/
theorem flashRunsTheFourSteps : Obligations.FlashRunsTheFourSteps := by
  intro s sl r image x1 x2 x3 x4 hready hsl h1 h2 h3 h4 hw
  rw [List.append_assoc, List.append_assoc] at hw
  have hl := lands_opFlash (s := s.enter .flash) (hready.guard_passes_flashStart hsl) hready.settled.sel h1 h2 h3 h4
    (willAnswer_enter hw)
  rw [← List.append_assoc, ← List.append_assoc] at hl
  exact hready.settled.completes_of_pc rfl (hl.completes (i := .flash sl r image) rfl rfl)

/-! ## The abort (R145) -/

/-- `abortFlash` in every state: what it writes hangs on the busy flag alone. -/
theorem exec_abortFlash (s : State) : exec .abortFlash s =
    .next ((if s.ses.busy then (s.enter .abortFlash).setFlashState .failed else s.enter .abortFlash).ret .abortFlash
      (.ok .unit)) := by
  rw [exec_body (body := opAbortFlash) rfl rfl, hostOp_ok (opAbortFlash_run _)]
  rfl

theorem exec_abortFlash_busy (h : s.ses.busy = true) :
    exec .abortFlash s = .next (((s.enter .abortFlash).setFlashState .failed).ret .abortFlash (.ok .unit)) := by
  rw [exec_abortFlash, if_pos h]

theorem exec_abortFlash_free (h : s.ses.busy = false) :
    exec .abortFlash s = .next ((s.enter .abortFlash).ret .abortFlash (.ok .unit)) := by
  rw [exec_abortFlash, if_neg (by simp [h])]

/-- The flash states of an open session, and the others (10_state.md R32). -/
theorem FlashState.sessionOpen_iff (st : FlashState) :
    st.sessionOpen = true ↔ st ∈ [FlashState.erasing, .programming, .finalizing, .rebooting] := by
  cases st <;> decide

theorem FlashState.not_sessionOpen_iff (st : FlashState) :
    st.sessionOpen = false ↔ st ∈ [FlashState.idle, .done, .failed] := by
  cases st <;> decide

/-- Settles O25: the first states are those of an open session, the others those in which the busy flag is clear. -/
theorem abortFlashFailsAnOpenSession : Obligations.AbortFlashFailsAnOpenSession := by
  intro s
  constructor
  · intro hopen
    have hbusy : s.ses.busy = true := (FlashState.sessionOpen_iff _).2 hopen
    exact ⟨_, exec_abortFlash_busy hbusy, rfl, rfl, rfl, rfl⟩
  · intro hclosed
    have hfree : s.ses.busy = false := (FlashState.not_sessionOpen_iff _).2 hclosed
    exact ⟨_, exec_abortFlash_free hfree, rfl, rfl, rfl, rfl⟩

end Sys2Proof.Machine
end

section
/-! The family of spec/45_mfd.md: the record codec as host operations, the write of a record over the flash engine, and the
read-back. -/

namespace Sys2Proof.Machine

variable {s : State} {c : Cfg}

/-! ## The stream of a record (R148) -/

/-- A field becomes its literal byte where its index is numeric and it has one digit. -/
theorem encodeField_eq_ite (numeric : List Nat) (k : Nat) (f : List Byte) :
    encodeField numeric k f = if k ∈ numeric ∧ f.length = 1 then [f.getD 0 0 - 0x30] else f := by
  match f with
  | [] => simp [encodeField]
  | [d] => simp [encodeField]
  | _ :: _ :: _ => simp [encodeField]

theorem recordStream_eq_encodeFields (c : Cfg) (r : Record) : recordStream c r = encodeFields c.mfdNumeric 0 r := by
  simp only [encodeFields_eq_join, joinFields, encodedFields, List.flatMap_map, encodeField_eq_ite]
  rfl

theorem encodeRecord_eq_recordStream (c : Cfg) (r : Record) :
    encodeRecord c r = if (recordStream c r).length % 2 = 1 then recordStream c r ++ [0x00] else recordStream c r := by
  rw [recordStream_eq_encodeFields, encodeRecord, padEven]

/-! ## The codec as host operations (R148, R149) -/

theorem exec_encodeMFD_valid {r : Record} (h : RecordOk s.cfg r) :
    exec (.encodeMFD r) s = .next (s.returned .encodeMFD (.ok (.bytes (encodeRecord s.cfg r))) s.ses) :=
  congrArg Host.Outcome.next (hostOp_returns (if_pos ((validRecord_iff _ _).2 h)))

theorem exec_encodeMFD_invalid {r : Record} (h : ¬ RecordOk s.cfg r) :
    exec (.encodeMFD r) s = .next (s.returned .encodeMFD (.error (.invalidRecord (.record r))) s.ses) :=
  congrArg Host.Outcome.next (hostOp_raises (if_neg (mt (validRecord_iff _ _).1 h)))

theorem exec_decodeMFD_some {bs : List Byte} {r : Record} (h : decodeRecord bs = some r) :
    exec (.decodeMFD bs) s = .next (s.returned .decodeMFD (.ok (.record r)) s.ses) :=
  congrArg Host.Outcome.next (hostOp_returns (by simp only [opDecodeMFD, h]))

theorem exec_decodeMFD_none {bs : List Byte} (h : decodeRecord bs = none) :
    exec (.decodeMFD bs) s = .next (s.returned .decodeMFD (.error (.invalidRecord (.stream bs))) s.ses) :=
  congrArg Host.Outcome.next (hostOp_raises (by simp only [opDecodeMFD, h]))

/-- Settles O26: the records the operation accepts are the valid ones, and what it returns is the record's stream, padded. -/
theorem encodeMfdReturnsTheStream : Obligations.EncodeMfdReturnsTheStream := by
  intro s r
  constructor
  · intro hbad
    exact completes_of_returned (exec_encodeMFD_invalid hbad)
  · intro hok
    rw [← encodeRecord_eq_recordStream]
    exact completes_of_returned (exec_encodeMFD_valid hok)

/-- Settles O27: the decoder answers a record exactly where the stream is read back as one. -/
theorem decodeMfdReturnsTheRecord : Obligations.DecodeMfdReturnsTheRecord := by
  intro s bs
  constructor
  · intro r hread
    exact completes_of_returned (exec_decodeMFD_some ((streamRead_iff bs r).1 hread))
  · intro hnone
    have hd : decodeRecord bs = none :=
      Option.eq_none_iff_forall_ne_some.2 fun r hr => hnone r ((streamRead_iff bs r).2 hr)
    exact completes_of_returned (exec_decodeMFD_none hd)

/-- Settles O28: the padded stream is even, and the decoder drops the pad and reads each encoded field back. -/
theorem mfdRoundTrip : Obligations.MfdRoundTrip := by
  intro s r hok
  exact ⟨encodeRecord s.cfg r, encodeRecord_even _ _, exec_encodeMFD_valid hok,
    exec_decodeMFD_some (decodeRecord_encodeRecord ((validRecord_iff _ _).2 hok))⟩

/-! ## The write of a record (R150) -/

/-- A ready session lets the write of a valid record to a valid slave through (60_exceptions.md R164). -/
theorem State.Ready.guard_passes_record {sl : Nat} {r : Record} (h : s.Ready) (hsl : sl ≤ 7) (hr : RecordOk s.cfg r) :
    guardError s { slave := sl, record := r, mode := .flashStart } = none := by
  rw [guardError_of_valid ⟨by simpa using hsl, by simp, by simp, by simpa using hr⟩, h.alive]
  simp [modeError, h.free]

/-- Settles O59: the steps land one after another for the record's stream; the last is the reboot, or the state `Done`. -/
theorem writeManufacturingDataRunsItsSteps : Obligations.WriteManufacturingDataRunsItsSteps := by
  intro s sl r x1 x2 x3 x4 hready hsl hok h1 h2 h3 h4 hw
  rw [List.append_assoc, List.append_assoc] at hw
  have hl := lands_opWriteManufacturingData (s := s.enter .writeManufacturingData) (hready.guard_passes_record hsl hok)
    hready.settled.sel h1 h2 h3 h4 (willAnswer_enter hw)
  rw [← List.append_assoc, ← List.append_assoc] at hl
  have hcfg : (s.enter .writeManufacturingData).cfg = s.cfg := rfl
  rw [hcfg] at hl
  by_cases hm : s.cfg.mfdReboot = true
  · rw [if_pos hm] at hl ⊢
    exact hready.settled.completes_of_pc rfl (hl.completes (i := .writeManufacturingData sl r) rfl rfl)
  · rw [if_neg hm] at hl ⊢
    exact hready.settled.completes_of_pc rfl (hl.completes (i := .writeManufacturingData sl r) rfl rfl)

/-! ## The read-back (R151, R152) -/

/-- The words of a valid record's stream and what ends it: the reads go on until the last of them, and what is kept of their
bytes decodes to the record. -/
theorem reads_to_last {r : Record} (h : RecordOk c r) (pad : Byte) {tail : List Word16}
    (htail : r.length = 14 ∧ tail = [] ∨
      r.length < 14 ∧ ∃ w, tail = [w] ∧ (recordByte (hi w) = false ∨ recordByte (lo w) = false) ∧ hi w ≠ 0x0D) :
    ∃ ws last, imageWords pad (encodeRecord c r) ++ tail = ws ++ [last] ∧
      (∀ k w, ws[k]? = some w → recordEnds (wordBytes (ws.take (k + 1))) w = false) ∧
      recordEnds (wordBytes (ws ++ [last])) last = true ∧
      decodeRecord (recordCut (wordBytes (ws ++ [last]))) = some r := by
  have hv := (validRecord_iff c r).2 h
  rcases htail with ⟨hfull, rfl⟩ | ⟨hshort, w, rfl, hout, hcr⟩
  · rw [List.append_nil]
    exact reads_full hv hfull pad
  · exact ⟨_, w, rfl, reads_short hv hshort pad hout hcr⟩

/-- Settles O60: the reads end at the last word given, and the record is decoded from their bytes. -/
theorem readManufacturingDataReadsTheRecordBack : Obligations.ReadManufacturingDataReadsTheRecordBack := by
  intro s sl r rss tail hready hsl hok htail hr hn hw
  obtain ⟨ws, last, heq, hgo, hend, hdec⟩ := reads_to_last hok s.cfg.imagePad htail
  rw [heq] at hr
  have hlen : rss.length = ws.length + 1 := by simpa using congrArg List.length hr
  have hg : guardError s { slave := sl } = none :=
    hready.guard_passes ⟨by simpa using hsl, by simp, by simp, by simp⟩ rfl
  have hl := lands_opReadManufacturingData (s := s.enter .readManufacturingData) hg hready.settled.sel (hlen ▸ hn) hr hgo
    hend hdec (willAnswer_enter hw)
  exact hready.settled.completes (hl.completes (i := .readManufacturingData sl) rfl rfl)

end Sys2Proof.Machine
end

section
/-! The family of spec/60_exceptions.md: the step on the next call, the checks of `guard` in their order, and the operations
they refuse. -/

namespace Sys2Proof.Machine

variable {s : State} {g : GuardArgs} {sl : Nat}

/-! ## The step (R182) -/

theorem step_of_idle (hl : s.bus.line = none) (hr : s.requests = []) : step s = .next s := by
  rw [step, hl, hr]

/-- Settles O8: with nothing waiting nothing happens; a call, or a frame on the Transport, is taken and run as the form it
is. -/
theorem stepRunsTheDecodedRequest : Obligations.StepRunsTheDecodedRequest := by
  refine fun s => ⟨step_of_idle, fun r rest hl hr => ?_, fun f hl => ?_⟩
  · rw [step_of_call hl hr]
    exact ⟨fun i hd => runForm_of_ok (w := .call r) hd, fun e hd => runForm_of_error (w := .call r) hd⟩
  · rw [step_of_line hl]
    exact ⟨fun i hd => runForm_of_ok (w := .frame f) hd, fun e hd => runForm_of_error (w := .frame f) hd⟩

/-! ## The argument checks of `guard` (R155–R158, R164) -/

/-- Settles O29: an operation runs its `guard` first, and returns the error of its first failing check. -/
theorem refusedOperationLeavesOnlyItsReturn : Obligations.RefusedOperationLeavesOnlyItsReturn :=
  fun _ _ _ _ _ ho hg he => exec_refuse ho hg he

theorem slaveError_of_lt (h : 7 < sl) : slaveError sl = some (.invalidSlave sl) := if_pos h

theorem slaveError_of_le (h : sl ≤ 7) : slaveError sl = none := if_neg (by omega)

/-- A register operation takes neither a Port channel nor an index above 3 (41_register_bus.md R109). -/
theorem channelError_register_refused {ch : Nat} (h : ch ≤ 1 ∨ 3 < ch) :
    channelError true ch = some (.invalidChannel ch) := by
  rw [channelError]
  split
  · rfl
  · exact if_pos ⟨rfl, by omega⟩

theorem channelError_register_passes {ch : Nat} (h : ch = 2 ∨ ch = 3) : channelError true ch = none := by
  rcases h with rfl | rfl <;> rfl

/-- The slave is checked first. -/
theorem guardError_invalidSlave (hg : g.slave = some sl) (h : 7 < sl) : guardError s g = some (.invalidSlave sl) := by
  rw [guardError, hg, Option.bind_some, slaveError_of_lt h, Option.some_or]

/-- Past the slave, a register operation checks its channel. -/
theorem guardError_invalidChannel {ch : Nat} {addr : Option Nat} (hsl : sl ≤ 7) (h : ch ≤ 1 ∨ 3 < ch) :
    guardError s { slave := sl, channel := ch, regChannel := true, addr } = some (.invalidChannel ch) := by
  simp only [guardError, Option.bind_some, slaveError_of_le hsl, channelError_register_refused h, Option.none_or,
    Option.some_or]

/-- Past slave and channel, a register operation checks its address. -/
theorem guardError_invalidAddress {ch a : Nat} (hsl : sl ≤ 7) (hch : ch = 2 ∨ ch = 3) (h : 255 < a) :
    guardError s { slave := sl, channel := ch, regChannel := true, addr := a } = some (.invalidAddress a) := by
  have haddr : addrError a = some (.invalidAddress a) := if_pos h
  simp only [guardError, Option.bind_some, slaveError_of_le hsl, channelError_register_passes hch, haddr,
    Option.none_or, Option.some_or]

/-- Past the slave, a record is checked before the dead mark and the flash state. -/
theorem guardError_invalidRecord {r : Record} {mode : GuardMode} (hsl : sl ≤ 7) (h : ¬ RecordOk s.cfg r) :
    guardError s { slave := sl, record := r, mode } = some (.invalidRecord (.record r)) := by
  have hrec : recordError s.cfg r = some (.invalidRecord (.record r)) := if_neg (mt (validRecord_iff _ _).1 h)
  simp only [guardError, Option.bind_some, Option.bind_none, slaveError_of_le hsl, hrec, Option.none_or, Option.some_or]

/-- Settles O30: `encode` makes the slave check itself (40_frame_codec.md R91), every other operation with a slave by its
`guard`. -/
theorem invalidSlaveIsReportedFirst : Obligations.InvalidSlaveIsReportedFirst := by
  intro s sl h
  have hguard {i : Instr} {op : OpName} {g : GuardArgs} (ho : opOf i = some op) (hg : guardOf i = some g)
      (hsl : g.slave = some sl) : exec i s = .next (s.returned op (.error (.invalidSlave sl)) s.ses) :=
    exec_refuse ho hg (guardError_invalidSlave hsl h)
  exact ⟨fun _ _ _ _ _ => exec_encode_refused (encodeError_slave h), fun _ _ => hguard rfl rfl rfl,
    fun _ _ _ => hguard rfl rfl rfl, hguard rfl rfl rfl, fun _ _ => hguard rfl rfl rfl, hguard rfl rfl rfl,
    fun _ => hguard rfl rfl rfl, fun _ _ => hguard rfl rfl rfl, fun _ => hguard rfl rfl rfl, hguard rfl rfl rfl⟩

/-- Settles O31: both register operations run the same `guard`. -/
theorem registerOperationsCheckChannelThenAddress : Obligations.RegisterOperationsCheckChannelThenAddress := by
  refine fun s sl ch a v hsl => ⟨fun hch => ?_, fun hch ha => ?_⟩
  · have he := guardError_invalidChannel (s := s) (addr := a) hsl hch
    exact ⟨exec_refuse rfl rfl he, exec_refuse rfl rfl he⟩
  · have he := guardError_invalidAddress (s := s) hsl hch ha
    exact ⟨exec_refuse rfl rfl he, exec_refuse rfl rfl he⟩

/-- Settles O32: the record check of its `guard` does not look at the session. -/
theorem invalidRecordIsReportedBeforeTheState : Obligations.InvalidRecordIsReportedBeforeTheState :=
  fun _ _ _ hsl hr => exec_refuse rfl rfl (guardError_invalidRecord hsl hr)

/-! ## The flash-state check of `guard` (R160, R161) -/

/-- With valid arguments and the session alive, the flash state alone decides. -/
theorem guardError_of_alive (hv : g.Valid s.cfg) (hd : s.ses.dead = false) :
    guardError s g = modeError s.ses g.mode := by
  rw [guardError_of_valid hv, hd]
  rfl

/-- In every state but the three without an open session the busy flag is set (10_state.md R32). -/
theorem busy_of_not_closed (h : s.ses.flash.state ∉ [FlashState.idle, .done, .failed]) : s.ses.busy = true := by
  rw [← FlashState.not_sessionOpen_iff, Bool.not_eq_false] at h
  exact h

theorem modeError_of_busy {u : Session} {m : GuardMode} (hm : ∀ st, m ≠ .flashStep st) (h : u.busy = true) :
    modeError u m = some (.sessionBusy u.flash.state) := by
  cases m with
  | bus | flashStart => exact if_pos h
  | flashStep st => exact absurd rfl (hm st)

/-- The steps that continue a flash session are the only operations that ask for a state of it. -/
theorem guardOf_mode_ne_flashStep {i : Instr} (hg : guardOf i = some g) (hfin : i ≠ .finalize) (hreb : i ≠ .reboot)
    (hprog : ∀ image, i ≠ .program image) (st : FlashState) : g.mode ≠ .flashStep st := by
  cases i <;> cases hg
  case program image => exact absurd rfl (hprog image)
  case finalize => exact absurd rfl hfin
  case reboot => exact absurd rfl hreb
  all_goals exact GuardMode.noConfusion

/-- Settles O34: every operation but the steps of a session asks `guard` that none is open. -/
theorem openSessionRefusesOtherOperations : Obligations.OpenSessionRefusesOtherOperations := by
  intro i op g s ho hg hv hfin hreb hprog hd hopen
  refine exec_refuse ho hg ?_
  rw [guardError_of_alive hv hd]
  exact modeError_of_busy (guardOf_mode_ne_flashStep hg hfin hreb hprog) (busy_of_not_closed hopen)

theorem guardError_outOfSequence {st : FlashState} (hd : s.ses.dead = false) (h : s.ses.flash.state ≠ st) :
    guardError s { mode := .flashStep st } = some (.outOfSequence s.ses.flash.state) := by
  rw [guardError_of_alive ⟨by simp, by simp, by simp, by simp⟩ hd]
  exact if_neg h

/-- Settles O35: each step of a session asks `guard` for the state it continues from. -/
theorem stepsOutOfOrderAreRefused : Obligations.StepsOutOfOrderAreRefused :=
  fun _ hd => ⟨fun h _ => exec_refuse rfl rfl (guardError_outOfSequence hd h),
    fun h => exec_refuse rfl rfl (guardError_outOfSequence hd h),
    fun h => exec_refuse rfl rfl (guardError_outOfSequence hd h)⟩

end Sys2Proof.Machine
end

section
/-! The family of spec/70_reset_and_hazards.md: what `reset` gives the session, and that the first state starts from it. -/

namespace Sys2Proof.Machine

theorem reset_completes (s : State) : s.completes .reset [.ret .reset (.ok .unit)] Session.reset :=
  ⟨_, exec_reset s, rfl, rfl, rfl, rfl⟩

theorem resetWith_hist (p : Params) : (State.resetWith p).hist = [] := rfl

theorem resetWith_ses (p : Params) : (State.resetWith p).ses = Session.reset := rfl

/-- The table of R41, in the order of the session's fields; no slave is present, enabled or identified. -/
theorem Session.reset_eq : Session.reset =
    ⟨false, 0, false, false, 0, 0, none, Vector.replicate 8 ⟨false, false, none⟩, none, none, ⟨.idle, 0, .standard⟩, false,
      false, .idle⟩ := rfl

/-- Settles O24: `reset` and the first state both give the session of R41, and only the events of `reset` reach `H`. -/
theorem resetGivesTheResetSession : Obligations.ResetGivesTheResetSession := by
  unfold Obligations.ResetGivesTheResetSession
  rw [← Session.reset_eq]
  exact ⟨reset_completes, fun p => ⟨resetWith_hist p, resetWith_ses p⟩⟩

end Sys2Proof.Machine
end
